-- ==== Sys2Proof/Word.lean ====
section
/-! DEFINITION. The word types of the machine (spec 00_scope.md rules R10 and R17). -/

namespace Sys2Proof

/-- A memory byte (20_memory.md R80). -/
abbrev Byte := BitVec 8

/-- A halfword: one fetch parcel, or a compressed instruction (R17, R83). -/
abbrev Half := BitVec 16

/-- A word of 32 bits: an uncompressed instruction (R17, R120). -/
abbrev Word32 := BitVec 32

/-- The cell that stores one register of XLEN (or FLEN) bits; with XLEN = 32 the value is in its low half (log entry 2). -/
abbrev Word := BitVec 64

/-- A five-bit register number (R123). -/
abbrev Reg := BitVec 5

/-- A three-bit register number of a compressed instruction, naming register 8 + n (48_compressed.md R451). -/
abbrev CReg := BitVec 3

/-- The register a three-bit compressed field names (48_compressed.md R451). -/
def CReg.full (r : CReg) : Reg := 0b01#2 ++ r

end Sys2Proof
end

