-- ==== Sys2Proof/Config.lean ====
section
/-! DEFINITION. The parameters of the machine (spec 00_scope.md rule R8) and the free values the spec leaves open.
The parameters are plain data; `State` holds them, so every statement about every state is about every machine. -/

namespace Sys2Proof

/-- XLEN: the width of an `x` register and of `pc` (R8). -/
inductive Xlen where
  | rv32
  | rv64
deriving DecidableEq, Repr

/-- The three privilege modes (10_state.md R61). -/
inductive Priv where
  | user
  | supervisor
  | machine
deriving DecidableEq, Repr

/-- MISALIGNED_DATA (20_memory.md R85). -/
inductive MisalignedData where
  | trap
  | emulate
deriving DecidableEq, Repr

/-- TRAP_MODEL (60_exceptions.md R610, R613). -/
inductive TrapModel where
  | machine
  | environment
deriving DecidableEq, Repr

/-- How DIV forms the result of a division corner (44_muldiv.md R301): from the operands, or as hardware that leaves it
abstract does (log entry 31). -/
inductive DivResult where
  | allOnes
  | zero
  | dividend
  | unspecified
deriving DecidableEq, Repr

/-- The four results of R301. -/
inductive DivCorner where
  | quotientByZero
  | remainderByZero
  | quotientOverflow
  | remainderOverflow
deriving DecidableEq, Repr

/-- DIV: the record of the four results of R301. -/
structure DivRecord where
  quotientByZero : DivResult
  remainderByZero : DivResult
  quotientOverflow : DivResult
  remainderOverflow : DivResult
deriving DecidableEq, Repr

/-- The default of DIV (R301). -/
def DivRecord.standard : DivRecord :=
  { quotientByZero := .allOnes, remainderByZero := .dividend, quotientOverflow := .dividend, remainderOverflow := .zero }

/-- `FP.nan` (46_float_single.md R352 (f)): every NaN result is the canonical NaN, or some quiet NaN that depends on the
operands, as on hardware that propagates payloads. -/
inductive NanRule where
  | canonical
  | propagating
deriving DecidableEq, Repr

/-- When a result is tiny (R353): after rounding to the precision, or before. -/
inductive Tininess where
  | afterRounding
  | beforeRounding
deriving DecidableEq, Repr

/-- `FP.minmax` (R355): `fmin` and `fmax` order -0 below +0; a signaling NaN operand gives a NaN. -/
structure MinMaxRule where
  zerosOrdered : Bool
  signalingGivesNan : Bool
deriving DecidableEq, Repr

/-- The operations whose results and flags FP gives: arithmetic, conversions, comparisons, minimum and maximum. -/
inductive FloatOp where
  | add
  | sub
  | mul
  | div
  | sqrt
  /-- A fused operation: whether the product, and whether the addend, is negated. -/
  | fused (negProd negAdd : Bool)
  | convert
  | ofInteger
  | toInteger
  | eq
  | lt
  | le
  | min
  | max
deriving DecidableEq, Repr

/-- FP: the floating-point numerics record, with the members the rules let a model change (R352 (f), R353, R355), and the
operations that are kept abstract, as uninterpreted functions of the stated types (92_eei_decisions.md D14; log
entry 31). -/
structure FpRecord where
  nan : NanRule
  tininess : Tininess
  minmax : MinMaxRule
  uninterpreted : List FloatOp := []
deriving DecidableEq, Repr

/-- The default of FP (D14). -/
def FpRecord.standard : FpRecord :=
  { nan := .canonical, tininess := .afterRounding, minmax := { zerosOrdered := true, signalingGivesNan := false } }

/-- One region of the platform's address map: which bytes exist, what may be done there and in which access sizes,
and whether the addresses are I/O (20_memory.md R87, R90, R91; log entry 7). -/
structure Region where
  base : Nat
  size : Nat
  readable : Bool
  writable : Bool
  executable : Bool
  io : Bool
  sizes : List Nat
deriving DecidableEq, Repr

/-- The parameters of R8 that this model leaves to the platform (log entry 1); a parameter to which R8 gives a default has
it here. -/
structure Config where
  xlen : Xlen
  extM : Bool
  extA : Bool
  extF : Bool
  extD : Bool
  extC : Bool
  privS : Bool
  privU : Bool
  misaligned : MisalignedData := .trap
  trapModel : TrapModel := .machine
  fsTracking : Bool := false
  /-- DIV. -/
  div : DivRecord := .standard
  /-- FP. -/
  fp : FpRecord := .standard
  /-- The platform's part of `csr_legalize`: the bits of each listed CSR number that no write changes, beside those
  92_eei_decisions.md D20 fixes (log entry 32). -/
  csrReadOnly : List (BitVec 12 × Word) := []
  /-- The CSR numbers whose written values the platform legalises by a rule of its own, which is open
  (93_implementation_defined.md item 28; log entry 32). -/
  csrOwnRule : List (BitVec 12) := []
  /-- TIME_FREQ. No step reads it: the model has no clock, and `time` is a draw (10_state.md R45; log entry 35). -/
  timeFreq : Nat
  resetVector : Word
  /-- The initial value of `mtvec`, if the platform fixes one (20_memory.md R91; 10_state.md R51). -/
  mtvecReset : Option Word := none
  resGranule : Nat
  memMap : List Region
  mvendorid : Word
  marchid : Word
  mimpid : Word
  mhartid : Word
deriving DecidableEq, Repr

/-- A value has XLEN bits. -/
def Config.xlenFits (c : Config) (v : Word) : Bool := c.xlen == .rv64 || v.toNat < 2 ^ 32

/-- The constraints R8 and R702 put on the parameters: EXT_D requires EXT_F, PRIV_S requires PRIV_U, the reservation
granule is a power of two of at least 8 bytes, the reset vector is an XLEN-bit multiple of 4; and an initial `mtvec` is an
XLEN-bit value with a valid MODE (10_state.md R51). -/
def Config.wf (c : Config) : Bool :=
  (!c.extD || c.extF) && (!c.privS || c.privU) &&
  (8 ≤ c.resGranule && c.resGranule == 2 ^ Nat.log2 c.resGranule) &&
  c.resetVector.toNat % 4 == 0 && c.xlenFits c.resetVector &&
  c.mtvecReset.all (fun v => v.toNat % 4 < 2 && c.xlenFits v)

/-! Free values. Each is a constant without a body, applied to the number of free values used so far
(`State.draws`): nothing can be proved of its value (log entry 9). -/

/-- How far `cycle` has advanced when it is read (10_state.md R44; log entry 10). -/
opaque Config.freeCycles : Nat → Nat

/-- How far `time` has advanced when it is read (10_state.md R45; log entry 10). -/
opaque Config.freeTime : Nat → Nat

/-- Whether a store-conditional that may succeed does (20_memory.md R98; log entry 13). -/
opaque Config.freeScSucceeds : Nat → Bool

/-- The error code of a failing store-conditional, before zero is ruled out (SC_FAIL_CODE of R8; log entry 13). -/
opaque Config.freeScCode : Nat → Word

/-- Whether a reservation survives the hart's own store to its bytes (20_memory.md R99; log entry 13). -/
opaque Config.freeKeepsReservation : Nat → Bool

/-- Which of the old and new contents a fetch sees of bytes stored since the last `fence.i` (20_memory.md R101;
log entry 12). -/
opaque Config.freeFetchView : Nat → Nat

/-- What a read of I/O addresses gives (20_memory.md R90; log entry 8). -/
opaque Config.freeIoValue : Nat → Word

/-- The order in which the bytes of an emulated misaligned access are accessed, as the code of a permutation
(20_memory.md R85; log entry 15). -/
opaque Config.freeByteOrder : Nat → Nat

/-! Open values that depend on operands alone, where a parameter leaves them so. -/

/-- A division corner that DIV leaves open, for a width and a dividend (44_muldiv.md R301; log entry 31). -/
opaque Config.freeDivision : DivCorner → Nat → Nat → Nat

/-- The sign and payload of a NaN result that FP.nan leaves open, for the fraction width of the format and the operands
(46_float_single.md R352 (f); log entry 31). -/
opaque Config.freeNan : Nat → List Nat → Nat

/-- The result and the flags of a floating-point operation that FP keeps abstract, for the exponent and fraction widths of
the format, the rounding mode and the operands (92_eei_decisions.md D14; log entry 31). -/
opaque Config.freeFloat : FloatOp → Nat → Nat → Nat → List Nat → Nat × BitVec 5

/-- The value a platform's own `csr_legalize(csr, old, new)` gives (00_scope.md R8; log entry 32). -/
opaque Config.freeLegalize : BitVec 12 → Word → Word → Word

/-- Whether `fmin` (false) or `fmax` (true) of two zeros that FP.minmax does not order is its first operand
(R355; log entry 31). -/
opaque Config.freeZero : Bool → Nat → Nat → Bool

end Sys2Proof
end

