-- ==== Sys2Proof/Machine/State.lean ====
section
/-! DEFINITION. The state of the machine as plain data, and the state after reset
(spec 10_state.md; 70_reset_and_hazards.md R701). INVENTORY.md lists every field with the rule that names it. -/

namespace Sys2Proof.Machine

open Sys2Proof

/-- The exceptions (60_exceptions.md R601). -/
inductive Exc where
  | instructionAddressMisaligned
  | instructionAccessFault
  | illegalInstruction
  | breakpoint
  | loadAddressMisaligned
  | loadAccessFault
  | storeAmoAddressMisaligned
  | storeAmoAccessFault
  | environmentCallFromU
  | environmentCallFromS
  | environmentCallFromM
deriving DecidableEq, Repr

/-- The one way a step stops. -/
inductive Fault where
  /-- Raised by every exception when TRAP_MODEL = environment: the outcome `Trapped(E, info, pc)` of 60_exceptions.md
  R613. What the execution environment does next is outside the machine. Safe: the spec itself ends the model here. -/
  | trapped (e : Exc) (info pc : Word)
deriving DecidableEq, Repr

/-- Why an instruction has no meaning. -/
inductive Refusal where
  /-- Raised by an arm of `exec` whose instruction has no meaning yet. Safe: the machine stops where hardware goes on. -/
  | notModelled (mnemonic : String)
deriving DecidableEq, Repr

/-- The fields of `mstatus` that hold a value (10_state.md R47); `sstatus` is a view of them (R48). -/
structure MStatus where
  sie : Bool
  mie : Bool
  spie : Bool
  mpie : Bool
  /-- SPP: true is supervisor, false user. -/
  spp : Bool
  mpp : Priv
  /-- FS: 00 Off, 01 Initial, 10 Clean, 11 Dirty. -/
  fs : BitVec 2
deriving DecidableEq, Repr

/-- A load reservation (10_state.md R62): the address and size (4 or 8) of the `lr` that registered it. -/
structure Reservation where
  addr : Word
  size : Nat
deriving DecidableEq, Repr

/-- The platform's interrupt lines (10_state.md R55, R65). -/
structure Lines where
  meip : Bool
  mtip : Bool
  msip : Bool
  seip : Bool
deriving DecidableEq, Repr

/-- An access to I/O addresses, as the hart makes it (20_memory.md R90; log entry 8). -/
inductive IoEvent where
  | read (addr : Word) (size : Nat)
  | write (addr : Word) (size : Nat) (value : Word)
deriving DecidableEq, Repr

/-- The state of the machine: one hart and its memory. -/
structure State where
  /-- The parameters; no step changes them (10_state.md R65; log entry 1). -/
  cfg : Config
  /-- General registers (R30); `readX` and `writeX` of Ops.lean make x[0] zero (R31). -/
  x : Vector Word 32
  /-- The program counter (R34). -/
  pc : Word
  /-- Floating-point registers (R37). -/
  f : Vector Word 32
  /-- The accrued exception flags NV DZ OF UF NX (R41). -/
  fflags : BitVec 5
  /-- The dynamic rounding mode (R42). -/
  frm : BitVec 3
  /-- The privilege mode (R61). -/
  priv : Priv
  mstatus : MStatus
  /-- R49. -/
  mepc : Word
  /-- R51. -/
  mtvec : Word
  /-- R52. -/
  mcause : Word
  /-- R53. -/
  mtval : Word
  /-- R54. -/
  mscratch : Word
  /-- R50. -/
  sepc : Word
  /-- R57. -/
  stvec : Word
  /-- R57. -/
  scause : Word
  /-- R57. -/
  stval : Word
  /-- R54. -/
  sscratch : Word
  /-- R56. -/
  medeleg : Word
  /-- R56. -/
  mideleg : Word
  /-- The interrupt enables, bit i for interrupt i (R55). -/
  mie : BitVec 12
  /-- The writable bits SSIP, STIP, SEIP of `mip` (R55). -/
  mipSoft : BitVec 12
  /-- CY, TM, IR (R60). -/
  mcounteren : BitVec 3
  /-- CY, TM, IR (R60). -/
  scounteren : BitVec 3
  /-- The cycle counter (R44, R60). -/
  mcycle : Word
  /-- The time (R45). -/
  time : Word
  /-- The retired-instruction counter (R46, R60). -/
  minstret : Word
  /-- The load reservation (R62). -/
  reservation : Option Reservation
  /-- Memory in canonical form: addresses strictly rising, no entry equal to what an unlisted byte reads as (R63;
  `Memory.wf` of Ops.lean). -/
  mem : List Host.Cell
  /-- What each store since the last `fence.i` overwrote, newest store first (20_memory.md R101; log entry 12). -/
  storeLog : List (List Host.Cell)
  /-- The interrupt lines as the hart sees them now (R55). -/
  lines : Lines
  /-- The lines of the steps to come, one entry a step; when it is empty the lines stay (60_exceptions.md R630;
  log entry 11). -/
  inputs : List Lines
  /-- The accesses made to I/O addresses, newest first (log entry 8). The order is the one in which the hart makes them,
  whatever fences stand between them, where a device may observe another (DESIGN CHOICE, log entry 37). -/
  ioLog : List IoEvent
  /-- How many free values have been used: the index of the opaque constants of Config.lean (log entry 9). -/
  draws : Nat
deriving DecidableEq, Repr

/-- One region of main memory over the whole address space (DESIGN CHOICE, log entry 7). -/
def wholeMemory : Region :=
  { base := 0, size := 2 ^ 64, readable := true, writable := true, executable := true, io := false, sizes := [1, 2, 4, 8] }

/-- The configuration of the reset state: every OPEN parameter of 00_scope.md R8 gets a value, every parameter with a
default has the default (DESIGN CHOICE, log entries 1, 5, 7, 23, 35). -/
def resetConfig : Config :=
  { xlen := .rv64, extM := true, extA := true, extF := true, extD := true, extC := true, privS := true, privU := true,
    timeFreq := 1, resetVector := 0x1000, resGranule := 8,
    memMap := [wholeMemory], mvendorid := 0, marchid := 0, mimpid := 0, mhartid := 0 }

/-- The XLEN-bit value of a parameter. -/
def Config.cut (c : Config) (v : Word) : Word :=
  match c.xlen with
  | .rv32 => (v.setWidth 32).setWidth 64
  | .rv64 => v

/-- The state after reset under a configuration (70_reset_and_hazards.md R701): pc = RESET_VECTOR, priv = M,
mstatus.MIE = 0, mcause = 0, no reservation, no pending fetch state. Every value R701 leaves unspecified is zero
(DESIGN CHOICE, log entries 3, 4, 6), `mtvec` only where the platform fixes no value (20_memory.md R91); MPP is U where
user mode exists and M where it is the only mode (R47). -/
def State.resetWith (c : Config) : State :=
  { cfg := c
    x := Vector.replicate 32 0
    pc := Config.cut c c.resetVector
    f := Vector.replicate 32 0
    fflags := 0
    frm := 0
    priv := .machine
    mstatus := { sie := false, mie := false, spie := false, mpie := false, spp := false,
                 mpp := if c.privU then .user else .machine, fs := 0 }
    mepc := 0
    mtvec := Config.cut c (c.mtvecReset.getD 0)
    mcause := 0
    mtval := 0
    mscratch := 0
    sepc := 0
    stvec := 0
    scause := 0
    stval := 0
    sscratch := 0
    medeleg := 0
    mideleg := 0
    mie := 0
    mipSoft := 0
    mcounteren := 0
    scounteren := 0
    mcycle := 0
    time := 0
    minstret := 0
    reservation := none
    mem := []
    storeLog := []
    lines := { meip := false, mtip := false, msip := false, seip := false }
    inputs := []
    ioLog := []
    draws := 0 }

/-- The machine right after reset. -/
def State.reset : State := State.resetWith resetConfig

end Sys2Proof.Machine
end

