-- ==== Sys2Proof/Machine/Ops.lean ====
section
/-! DEFINITION. The named operations on the state: XLEN arithmetic, registers, memory, taking a trap, returning from
one, and how an instruction ends (spec 00_scope.md R12 to R15, 20_memory.md, 60_exceptions.md). -/

namespace Sys2Proof

/-! ## XLEN (00_scope.md R8 to R11) -/

/-- XLEN as a number. -/
def Xlen.bits : Xlen → Nat
  | .rv32 => 32
  | .rv64 => 64

/-- A value modulo 2^XLEN. -/
def Xlen.wrap (xl : Xlen) (v : Word) : Word :=
  match xl with
  | .rv32 => (v.setWidth 32).setWidth 64
  | .rv64 => v

/-- The signed reading of an XLEN-bit value (R10). -/
def Xlen.toInt (xl : Xlen) (v : Word) : Int :=
  match xl with
  | .rv32 => (v.setWidth 32).toInt
  | .rv64 => v.toInt

end Sys2Proof

namespace Sys2Proof.Machine

open Sys2Proof

/-- What one step, and the meaning of one instruction, answers. -/
abbrev Result := Host.Outcome State Fault Refusal

/-! ## Registers -/

/-- x[r]: zero for r = 0 (10_state.md R31), else the XLEN-bit register (R30). -/
def State.readX (s : State) (r : Reg) : Word :=
  if r = 0 then 0 else s.cfg.xlen.wrap (s.x[r.toNat]'r.isLt)

/-- x[r] <- v: discarded for r = 0 (10_state.md R31). -/
def State.writeX (s : State) (r : Reg) (v : Word) : State :=
  if r = 0 then s else { s with x := s.x.set r.toNat (s.cfg.xlen.wrap v) r.isLt }

/-- A value cut to FLEN bits: 64 with EXT_D, else 32 (10_state.md R37). -/
def Config.flenWrap (c : Config) (v : Word) : Word :=
  if c.extD then v else (v.setWidth 32).setWidth 64

/-- f[r], all FLEN bits (10_state.md R37). -/
def State.readF (s : State) (r : Reg) : Word := Config.flenWrap s.cfg (s.f[r.toNat]'r.isLt)

/-- f[r] <- v, all FLEN bits (10_state.md R37). -/
def State.writeF (s : State) (r : Reg) (v : Word) : State :=
  { s with f := s.f.set r.toNat (Config.flenWrap s.cfg v) r.isLt }

/-- `boxS` of 10_state.md R38: a single in an f register, with ones above it when FLEN = 64. -/
def Config.boxS (c : Config) (v : Word32) : Word :=
  if c.extD then 0xFFFFFFFF#32 ++ v else v.setWidth 64

/-- `unboxS` of 10_state.md R38: the single an f register holds, the canonical NaN when it is not boxed. -/
def Config.unboxS (c : Config) (v : Word) : Word32 :=
  if c.extD && v.extractLsb' 32 32 != 0xFFFFFFFF#32 then 0x7FC00000#32 else v.extractLsb' 0 32

/-- The single in f[r]. -/
def State.readS (s : State) (r : Reg) : Word32 := Config.unboxS s.cfg (s.readF r)

/-- f[r] <- boxS(v). -/
def State.writeS (s : State) (r : Reg) (v : Word32) : State := s.writeF r (Config.boxS s.cfg v)

/-! ## Memory as bytes (20_memory.md R80, R81) -/

/-- What a byte that nothing has written reads as (DESIGN CHOICE, log entry 6). -/
def unwritten : Byte := 0

/-- The byte at an address. -/
def Memory.read : List Host.Cell → Nat → Byte
  | [], _ => unwritten
  | (b, v) :: t, a => if a = b then v else Memory.read t a

/-- Put a cell in front of memory, unless it says what an unlisted byte says. -/
def Memory.cons (a : Nat) (v : Byte) (t : List Host.Cell) : List Host.Cell :=
  if v = unwritten then t else (a, v) :: t

/-- The byte at an address becomes v; the canonical form is kept. -/
def Memory.write : List Host.Cell → Nat → Byte → List Host.Cell
  | [], a, v => Memory.cons a v []
  | (b, w) :: t, a, v =>
    if a < b then Memory.cons a v ((b, w) :: t)
    else if a = b then Memory.cons a v t
    else (b, w) :: Memory.write t a v

/-- The canonical form: addresses strictly rising and no entry equal to what an unlisted byte reads as. -/
def Memory.wf : List Host.Cell → Bool
  | [] => true
  | (a, v) :: t => v != unwritten && t.all (fun c => a < c.1) && Memory.wf t

/-- Write several cells, the first first. -/
def Memory.writeCells (m : List Host.Cell) (cells : List Host.Cell) : List Host.Cell :=
  cells.foldl (fun m c => Memory.write m c.1 c.2) m

/-- The addresses of the n bytes at a, each modulo 2^XLEN (R80). -/
def byteAddrs (xl : Xlen) (a : Word) (n : Nat) : List Nat :=
  (List.range n).map (fun k => (a.toNat + k) % 2 ^ xl.bits)

/-- Byte k of a value (R81). -/
def byteOf (v : Word) (k : Nat) : Byte := v.extractLsb' (8 * k) 8

/-- The low n bytes of a value with the addresses they are stored at, little-endian (R81). -/
def cellsOf (xl : Xlen) (a : Word) (n : Nat) (v : Word) : List Host.Cell :=
  (List.range n).map (fun k => ((a.toNat + k) % 2 ^ xl.bits, byteOf v k))

/-- The value of bytes at addresses, the first the least significant (R81). -/
def Memory.readBytes (m : List Host.Cell) : List Nat → Nat
  | [] => 0
  | a :: as => (Memory.read m a).toNat + 256 * Memory.readBytes m as

/-! ## The platform's map (20_memory.md R87, R90, R91; log entry 7) -/

/-- The kinds of access of `mem_valid` (R87). -/
inductive AccessKind where
  | fetch
  | load
  | store
deriving DecidableEq, Repr

/-- The address lies in the region. -/
def regionCovers (r : Region) (a : Nat) : Bool := r.base ≤ a && a < r.base + r.size

/-- The region permits the kind of access in accesses of n bytes. -/
def regionPermits (r : Region) (k : AccessKind) (n : Nat) : Bool :=
  (match k with
    | .fetch => r.executable
    | .load => r.readable
    | .store => r.writable) && r.sizes.contains n

/-- The byte at an address exists and permits this kind of access, in accesses of n bytes. -/
def byteValid (c : Config) (k : AccessKind) (n : Nat) (a : Nat) : Bool :=
  c.memMap.any (fun r => regionCovers r a && regionPermits r k n)

/-- `mem_valid(a, n, kind)` of R87. -/
def memValid (c : Config) (k : AccessKind) (a : Word) (n : Nat) : Bool :=
  (byteAddrs c.xlen a n).all (byteValid c k n)

/-- The address is I/O (R90, R91). -/
def isIo (c : Config) (a : Nat) : Bool := c.memMap.any (fun r => regionCovers r a && r.io)

/-- Some of the addresses are I/O. -/
def touchesIo (c : Config) (as : List Nat) : Bool := as.any (isIo c)

/-- Natural alignment (R84). -/
def isAligned (a : Word) (n : Nat) : Bool := a.toNat % n == 0

/-! ## Memory accesses -/

/-- What a data access answers: a value and the state after it, or the exception it raises with the address it reports.
The state of an exception differs from the one before only for an emulated access (R85). -/
inductive Access (α : Type) where
  | done (v : α) (s : State)
  | trap (e : Exc) (addr : Word) (s : State)

/-- The bytes a read of I/O addresses gives: byte k is byte k of the free value d where the address is I/O, and the byte
of memory elsewhere (R90; log entry 8). -/
def ioBytes (c : Config) (m : List Host.Cell) (d : Word) : List Nat → Nat
  | [] => 0
  | a :: as =>
    (if isIo c a then (byteOf d 0).toNat else (Memory.read m a).toNat) + 256 * ioBytes c m (d >>> 8) as

/-- `MemRead(a, n)` without its checks (00_scope.md R13; 20_memory.md R81, R90). A read of I/O addresses is recorded at
once, in program order (DESIGN CHOICE, log entry 37), and as one access of n bytes, also the 8 bytes of an aligned `fld` on
RV32, of which R89 guarantees only each 4-byte half to be atomic (DESIGN CHOICE, log entry 39). -/
def State.readMem (s : State) (a : Word) (n : Nat) : Word × State :=
  let as := byteAddrs s.cfg.xlen a n
  if touchesIo s.cfg as then
    (BitVec.ofNat 64 (ioBytes s.cfg s.mem (Config.freeIoValue s.draws) as),
     { s with ioLog := .read a n :: s.ioLog, draws := s.draws + 1 })
  else (BitVec.ofNat 64 (Memory.readBytes s.mem as), s)

/-- The reservation set holds one of the addresses: the aligned blocks of RES_GRANULE bytes around the reserved bytes
(R97). -/
def reservationTouched (c : Config) (r : Reservation) (as : List Nat) : Bool :=
  as.any (fun a => (byteAddrs c.xlen r.addr r.size).any (fun b => a / c.resGranule == b / c.resGranule))

/-- The hart's own store to the reservation set may clear the reservation (R99; log entry 13). -/
def State.ownStore (s : State) (as : List Nat) : State :=
  match s.reservation with
  | none => s
  | some r =>
    if reservationTouched s.cfg r as then
      { s with reservation := if Config.freeKeepsReservation s.draws then some r else none, draws := s.draws + 1 }
    else s

/-- Store cells to main memory, remembering what they overwrite (R81, R101). -/
def State.putCells (s : State) (cells : List Host.Cell) : State :=
  { s with
    mem := Memory.writeCells s.mem cells
    storeLog := cells.map (fun c => (c.1, Memory.read s.mem c.1)) :: s.storeLog }

/-- The low n bytes of a value, as a store of n bytes takes them (42_loads_stores.md R272). -/
def lowBytes (n : Nat) (v : Word) : Word := (v.setWidth (8 * n)).setWidth 64

/-- A store of n bytes to I/O addresses reaches its device (R90; log entry 8). It is recorded at once, in program order,
also where no fence orders it and the device may observe another order (70_reset_and_hazards.md R723; DESIGN CHOICE, log
entry 37), and as one access of n bytes, also the 8 bytes of an aligned `fsd` on RV32, of which R89 guarantees only each
4-byte half to be atomic (DESIGN CHOICE, log entry 39). -/
def State.noteWrite (s : State) (a : Word) (n : Nat) (v : Word) : State :=
  if touchesIo s.cfg (byteAddrs s.cfg.xlen a n) then { s with ioLog := .write a n (lowBytes n v) :: s.ioLog } else s

/-- `MemWrite(a, n, v)` without its checks (00_scope.md R13; 20_memory.md R81): bytes at I/O addresses go to the device
and not to memory (R90; log entry 8); a store to reserved bytes, I/O or not, may clear the reservation (R99). -/
def State.writeMem (s : State) (a : Word) (n : Nat) (v : Word) : State :=
  ((s.noteWrite a n v).putCells ((cellsOf s.cfg.xlen a n v).filter (fun c => !isIo s.cfg c.1))).ownStore
    (byteAddrs s.cfg.xlen a n)

/-! ## Misaligned accesses made in bytes (R85; log entry 15) -/

/-- The elements of a list in the order a number codes: any order, for some number. -/
def inOrder {α : Type} : Nat → Nat → List α → List α
  | 0, _, _ => []
  | n + 1, code, l =>
    match l[code % l.length]? with
    | some x => x :: inOrder n (code / l.length) (l.eraseIdx (code % l.length))
    | none => []

/-- Byte j of an access at a is at this address. -/
def byteAddr (xl : Xlen) (a : Word) (j : Nat) : Word := BitVec.ofNat 64 ((a.toNat + j) % 2 ^ xl.bits)

/-- The bytes of an emulated access of n bytes that are accessed, in the order it takes, which is free: they end before
the first that is not valid. -/
def State.bytesMade (s : State) (k : AccessKind) (a : Word) (n : Nat) : List Nat :=
  (inOrder n (Config.freeByteOrder s.draws) (List.range n)).takeWhile
    (fun j => byteValid s.cfg k 1 (byteAddr s.cfg.xlen a j).toNat)

/-- One byte of an emulated load: the number read so far takes it in. -/
def loadByte (a : Word) (r : Nat × State) (j : Nat) : Nat × State :=
  let b := r.2.readMem (byteAddr r.2.cfg.xlen a j) 1
  (r.1 + b.1.toNat * 256 ^ j, b.2)

/-- One byte of an emulated store. -/
def State.storeByte (a v : Word) (s : State) (j : Nat) : State :=
  s.writeMem (byteAddr s.cfg.xlen a j) 1 (v >>> (8 * j))

/-- The bytes of an emulated load. Where no byte is I/O the order cannot be seen and no free value is used. -/
def State.loadBytes (s : State) (a : Word) (n : Nat) : Word × State :=
  if touchesIo s.cfg (byteAddrs s.cfg.xlen a n) then
    let r := (s.bytesMade .load a n).foldl (loadByte a) (0, { s with draws := s.draws + 1 })
    (BitVec.ofNat 64 r.1, r.2)
  else s.readMem a n

/-- The bytes of an emulated store. -/
def State.storeBytes (s : State) (a : Word) (n : Nat) (v : Word) : State :=
  (s.bytesMade .store a n).foldl (State.storeByte a v) { s with draws := s.draws + 1 }

/-- The size of the accesses a data access is made of: itself when aligned, bytes when it is emulated (R85). -/
def pieceSize (a : Word) (n : Nat) : Nat := if isAligned a n then n else 1

/-- Every byte of an access exists and permits it, in the accesses it is made of (R85, R87). -/
def State.bytesValid (s : State) (k : AccessKind) (a : Word) (n : Nat) : Bool :=
  (byteAddrs s.cfg.xlen a n).all (byteValid s.cfg k (pieceSize a n))

/-- A load of n bytes (20_memory.md R84, R85, R87): alignment first, then `mem_valid`; an emulated load that faults has
accessed some of its bytes. -/
def State.load (s : State) (a : Word) (n : Nat) : Access Word :=
  if !isAligned a n && s.cfg.misaligned == .trap then .trap .loadAddressMisaligned a s
  else if isAligned a n then
    if s.bytesValid .load a n then .done (s.readMem a n).1 (s.readMem a n).2 else .trap .loadAccessFault a s
  else
    if s.bytesValid .load a n then .done (s.loadBytes a n).1 (s.loadBytes a n).2
    else .trap .loadAccessFault a (s.loadBytes a n).2

/-- A store of the low n bytes of v (20_memory.md R84, R85, R87); an emulated store that faults has made some of its byte
stores. -/
def State.store (s : State) (a : Word) (n : Nat) (v : Word) : Access Unit :=
  if !isAligned a n && s.cfg.misaligned == .trap then .trap .storeAmoAddressMisaligned a s
  else if isAligned a n then
    if s.bytesValid .store a n then .done () (s.writeMem a n v) else .trap .storeAmoAccessFault a s
  else
    if s.bytesValid .store a n then .done () (s.storeBytes a n v)
    else .trap .storeAmoAccessFault a (s.storeBytes a n v)

/-! ## Taking a trap (60_exceptions.md R601, R602, R610, R611) -/

/-- The cause code of an exception (R601). -/
def Exc.code : Exc → Nat
  | .instructionAddressMisaligned => 0
  | .instructionAccessFault => 1
  | .illegalInstruction => 2
  | .breakpoint => 3
  | .loadAddressMisaligned => 4
  | .loadAccessFault => 5
  | .storeAmoAddressMisaligned => 6
  | .storeAmoAccessFault => 7
  | .environmentCallFromU => 8
  | .environmentCallFromS => 9
  | .environmentCallFromM => 11

/-- The cause of a trap: an exception, or interrupt number i (R610). -/
inductive Cause where
  | exc (e : Exc)
  | irq (i : Nat)
deriving DecidableEq, Repr

/-- The number of a cause: its bit in `medeleg` or `mideleg`. -/
def Cause.number : Cause → Nat
  | .exc e => e.code
  | .irq i => i

/-- What trap entry writes to `mcause` or `scause`: the code, or 2^(XLEN-1) + i (R610 (2), R631). -/
def Cause.value (xl : Xlen) : Cause → Word
  | .exc e => BitVec.ofNat 64 e.code
  | .irq i => BitVec.ofNat 64 (2 ^ (xl.bits - 1) + i)

/-- The low bits an exception program counter does not have read zero: bit 0, and bit 1 without EXT_C
(10_state.md R49, R50). -/
def maskEpc (c : Config) (v : Word) : Word :=
  c.xlen.wrap (if c.extC then v &&& ~~~(1#64) else v &&& ~~~(3#64))

/-- Where a trap goes for a trap-vector register (10_state.md R51; R610 (9)): the base, plus 4*i for interrupt i in
vectored mode. -/
def trapTarget (tvec : Word) : Cause → Word
  | .exc _ => tvec &&& ~~~(3#64)
  | .irq i => if tvec.extractLsb' 0 2 = 1#2 then (tvec &&& ~~~(3#64)) + BitVec.ofNat 64 (4 * i) else tvec &&& ~~~(3#64)

/-- The delegation bit of a cause is set: bit `number` of `medeleg` or `mideleg` (R611). -/
def State.delegates (s : State) (c : Cause) : Bool :=
  match c with
  | .exc _ => s.medeleg.getLsbD c.number
  | .irq _ => s.mideleg.getLsbD c.number

/-- A trap now goes to supervisor mode (R611). -/
def State.trapsToS (s : State) (c : Cause) : Bool :=
  s.cfg.privS && s.priv != .machine && s.delegates c

/-- Trap entry to machine mode (R610). The address saved is that of the instruction at `pc`. -/
def State.enterM (s : State) (c : Cause) (info : Word) : State :=
  { s with
    mepc := maskEpc s.cfg s.pc
    mcause := Cause.value s.cfg.xlen c
    mtval := s.cfg.xlen.wrap info
    mstatus := { s.mstatus with mpie := s.mstatus.mie, mie := false, mpp := s.priv }
    priv := .machine
    reservation := none
    pc := s.cfg.xlen.wrap (trapTarget s.mtvec c) }

/-- Trap entry to supervisor mode (R611). -/
def State.enterS (s : State) (c : Cause) (info : Word) : State :=
  { s with
    sepc := maskEpc s.cfg s.pc
    scause := Cause.value s.cfg.xlen c
    stval := s.cfg.xlen.wrap info
    mstatus := { s.mstatus with spie := s.mstatus.sie, sie := false, spp := s.priv == .supervisor }
    priv := .supervisor
    reservation := none
    pc := s.cfg.xlen.wrap (trapTarget s.stvec c) }

/-- TAKING A TRAP: entry to supervisor mode when it is delegated, else to machine mode (R610, R611). -/
def State.takeTrap (s : State) (c : Cause) (info : Word) : State :=
  if s.trapsToS c then s.enterS c info else s.enterM c info

/-- `raise E(info)` (R600): the trap entry, or with TRAP_MODEL = environment the hand-over of R613. -/
def raise (e : Exc) (info : Word) (s : State) : Result :=
  match s.cfg.trapModel with
  | .machine => .next (s.takeTrap (.exc e) info)
  | .environment => .fault (.trapped e info s.pc)

/-! ## Interrupts (60_exceptions.md R630 to R634) -/

/-- The interrupts of `mip` and `mie` that exist: the supervisor ones only with PRIV_S (10_state.md R55, R631). -/
def interruptBits (c : Config) : BitVec 12 := if c.privS then 0xAAA#12 else 0x888#12

/-- The bits the platform's lines drive (10_state.md R55). -/
def Lines.bits (l : Lines) : BitVec 12 :=
  (if l.meip then 0x800#12 else 0) ||| (if l.mtip then 0x080#12 else 0) ||| (if l.msip then 0x008#12 else 0) |||
    (if l.seip then 0x200#12 else 0)

/-- `mip`: the lines, and the written bits SSIP, STIP, SEIP (10_state.md R55). -/
def State.mip (s : State) : BitVec 12 :=
  (Lines.bits s.lines ||| (s.mipSoft &&& 0x222#12)) &&& interruptBits s.cfg

/-- The delegation bits of the interrupts; none without PRIV_S (R611, 10_state.md R56). -/
def State.delegatedInterrupts (s : State) : BitVec 12 := if s.cfg.privS then s.mideleg.setWidth 12 else 0

/-- The highest-priority interrupt of a set (R633). -/
def highestInterrupt (p : BitVec 12) : Option Nat := [11, 3, 7, 9, 1, 5].find? (fun i => p.getLsbD i)

/-- The interrupt taken before the next instruction, if any (R630). -/
def State.interrupt (s : State) : Option Nat :=
  match s.cfg.trapModel with
  | .environment => none
  | .machine =>
    let p := s.mip &&& s.mie &&& interruptBits s.cfg
    let toM := if s.priv != .machine || s.mstatus.mie then highestInterrupt (p &&& ~~~s.delegatedInterrupts) else none
    let toS := if s.priv == .user || (s.priv == .supervisor && s.mstatus.sie) then
        highestInterrupt (p &&& s.delegatedInterrupts) else none
    match toM with
    | some i => some i
    | none => toS

/-- The lines of this step: the next input, or the lines as they are (R630; log entry 11). -/
def State.sample (s : State) : State :=
  match s.inputs with
  | [] => s
  | l :: rest => { s with lines := l, inputs := rest }

/-! ## Reset (70_reset_and_hazards.md R700, R701) -/

/-- RESETTING THE MACHINE: the registers get the values of `State.resetWith` for its configuration, and memory is not
cleared (R701). What belongs to the platform or to the model, the interrupt lines with their inputs, the record of I/O
accesses and the count of free values, stays as it is (DESIGN CHOICE, log entry 38). No instruction causes a reset
(R700), so no step calls this. -/
def State.afterReset (s : State) : State :=
  { State.resetWith s.cfg with mem := s.mem, lines := s.lines, inputs := s.inputs, ioLog := s.ioLog, draws := s.draws }

/-! ## Returning from a trap (60_exceptions.md R612; 43_system_csr_fence.md R293, R294) -/

/-- A mode the machine has (10_state.md R61). -/
def Config.hasMode (c : Config) : Priv → Bool
  | .machine => true
  | .supervisor => c.privS
  | .user => c.privU

/-- The effect of `mret` where it is legal (R293); the pc and the mode are those saved. -/
def State.returnM (s : State) : State :=
  { s with
    pc := maskEpc s.cfg s.mepc
    priv := s.mstatus.mpp
    mstatus := { s.mstatus with
      mie := s.mstatus.mpie, mpie := true, mpp := if s.cfg.privU then .user else s.mstatus.mpp }
    reservation := none }

/-- The effect of `sret` where it is legal (R294). -/
def State.returnS (s : State) : State :=
  { s with
    pc := maskEpc s.cfg s.sepc
    priv := if s.mstatus.spp then .supervisor else .user
    mstatus := { s.mstatus with sie := s.mstatus.spie, spie := true, spp := false }
    reservation := none }

/-! ## How an instruction ends (00_scope.md R15 steps 4 and 5) -/

/-- The instruction retires: the count of retired instructions advances (60_exceptions.md R650). -/
def State.retire (s : State) : State := { s with minstret := s.minstret + 1 }

/-- The pc advances by the length of the instruction, modulo 2^XLEN (10_state.md R35). -/
def State.advance (s : State) (len : Nat) : State := { s with pc := s.cfg.xlen.wrap (s.pc + BitVec.ofNat 64 len) }

/-- An instruction of `len` bytes that assigns no pc ends. -/
def finish (len : Nat) (s : State) : Result := .next ((s.advance len).retire)

/-- An instruction that sets the pc ends. -/
def finishAt (target : Word) (s : State) : Result := .next (State.retire { s with pc := s.cfg.xlen.wrap target })

/-- An instruction that uses the value of an access ends as `k` says, or raises the access's exception. -/
def Access.andThen {α : Type} (r : Access α) (k : α → State → Result) : Result :=
  match r with
  | .done v s => k v s
  | .trap e a s => raise e a s

end Sys2Proof.Machine
end

