-- ==== Sys2Proof/Machine/Operands.lean ====
section
/-! DEFINITION. Operand forms: immediates and offsets widened to a register cell, effective addresses, jump targets
(spec 30_encoding.md R125 to R129, R141; 20_memory.md R80, R86). A sign-extended value is a 64-bit one; with XLEN = 32
only its low half is used, which is the 32-bit sign extension. -/

namespace Sys2Proof.Machine

open Sys2Proof

/-- sext_12 of an I-type or S-type immediate (R125, R126). -/
def immediate (imm : BitVec 12) : Word := imm.signExtend 64

/-- sext_13 of a branch offset whose bit 0 is zero (R127). -/
def branchOffset (off : BitVec 12) : Word := (off ++ 0#1).signExtend 64

/-- sext_21 of a `jal` offset whose bit 0 is zero (R129). -/
def jumpOffset (off : BitVec 20) : Word := (off ++ 0#1).signExtend 64

/-- sext(immediate[31:12] << 12) of `lui` and `auipc` (R128). -/
def upperImmediate (imm : BitVec 20) : Word := (imm ++ 0#12).signExtend 64

/-- sext_6 of a compressed immediate (48_compressed.md R454). -/
def cImmediate (imm : BitVec 6) : Word := imm.signExtend 64

/-- The immediate of `c.lui`: imm[17:12], sign-extended from bit 17 (48_compressed.md R479). -/
def cUpperImmediate (imm : BitVec 6) : Word := (imm ++ 0#12).signExtend 64

/-- The immediate of `c.addi16sp`: imm[9:4], sign-extended (48_compressed.md R455). -/
def cStackImmediate (imm : BitVec 6) : Word := (imm ++ 0#4).signExtend 64

/-- The immediate of `c.addi4spn`: uimm[9:2], zero-extended (48_compressed.md R456). -/
def cStackOffset (uimm : BitVec 8) : Word := (uimm ++ 0#2).setWidth 64

/-- sext_9 of a compressed branch offset (48_compressed.md R461). -/
def cBranchOffset (off : BitVec 8) : Word := (off ++ 0#1).signExtend 64

/-- sext_12 of a compressed jump offset (48_compressed.md R472). -/
def cJumpOffset (off : BitVec 11) : Word := (off ++ 0#1).signExtend 64

/-- uimm[6:2] of a compressed word access, zero-extended. -/
def cWordOffset (uimm : BitVec 5) : Word := (uimm ++ 0#2).setWidth 64

/-- uimm[7:3] of a compressed doubleword access, zero-extended. -/
def cDoubleOffset (uimm : BitVec 5) : Word := (uimm ++ 0#3).setWidth 64

/-- uimm[7:2] of a stack-relative word access, zero-extended. -/
def cWordStackOffset (uimm : BitVec 6) : Word := (uimm ++ 0#2).setWidth 64

/-- uimm[8:3] of a stack-relative doubleword access, zero-extended. -/
def cDoubleStackOffset (uimm : BitVec 6) : Word := (uimm ++ 0#3).setWidth 64

/-- The effective address x[rs1] + offset, modulo 2^XLEN (20_memory.md R80). -/
def State.address (s : State) (rs1 : Reg) (off : Word) : Word := s.cfg.xlen.wrap (s.readX rs1 + off)

/-- pc + offset, modulo 2^XLEN (10_state.md R35). -/
def State.pcPlus (s : State) (off : Word) : Word := s.cfg.xlen.wrap (s.pc + off)

/-- The target is a multiple of IALIGN/8: 2 with EXT_C, else 4 (20_memory.md R86). -/
def targetAligned (c : Config) (target : Word) : Bool := target.toNat % (if c.extC then 2 else 4) == 0

/-- The low n bytes of a value, sign-extended: what a signed load writes (20_memory.md R82). -/
def signedBytes (n : Nat) (v : Word) : Word := (v.setWidth (8 * n)).signExtend 64

end Sys2Proof.Machine
end

