-- ==== Sys2Proof/Machine/Arith.lean ====
section
/-! DEFINITION. Integer arithmetic for every width, and the shared shapes of integer instructions
(spec 00_scope.md R11; 40_integer_computational.md; 44_muldiv.md; 45_atomics.md). Each operation is written once for a
width w and used at XLEN, or at 32 bits with the result sign-extended for the `*w` and `.w` forms. -/

namespace Sys2Proof

/-- A two-operand operation at every width. -/
abbrev BinOp := (w : Nat) → BitVec w → BitVec w → BitVec w

/-- The operation on XLEN-bit values, in register cells. -/
def Xlen.apply (xl : Xlen) (f : BinOp) (a b : Word) : Word :=
  match xl with
  | .rv32 => (f 32 (a.setWidth 32) (b.setWidth 32)).setWidth 64
  | .rv64 => f 64 a b

/-- The operation on the low 32 bits, its result sign-extended: the `*w` forms. -/
def applyW (f : BinOp) (a b : Word) : Word := (f 32 (a.setWidth 32) (b.setWidth 32)).signExtend 64

end Sys2Proof

namespace Sys2Proof.Machine

open Sys2Proof

/-! ## The operations (R11) -/

def opAdd : BinOp := fun _ a b => a + b
def opSub : BinOp := fun _ a b => a - b
def opAnd : BinOp := fun _ a b => a &&& b
def opOr : BinOp := fun _ a b => a ||| b
def opXor : BinOp := fun _ a b => a ^^^ b
/-- Shifts use the low log2(w) bits of the second operand: 5 of them for w = 32, 6 for w = 64 (R211, R214, R219 to R226). -/
def opSll : BinOp := fun w a b => a <<< (b.toNat % w)
def opSrl : BinOp := fun w a b => a >>> (b.toNat % w)
def opSra : BinOp := fun w a b => a.sshiftRight (b.toNat % w)
/-- 1 when a < b as signed numbers, else 0 (R215). -/
def opSlt : BinOp := fun w a b => if a.toInt < b.toInt then 1#w else 0#w
/-- 1 when a < b as unsigned numbers, else 0 (R218). -/
def opSltu : BinOp := fun w a b => if a.toNat < b.toNat then 1#w else 0#w

/-- The low half of the product (44_muldiv.md R302, R306). -/
def opMul : BinOp := fun _ a b => a * b
/-- The high half of the signed product (R303). -/
def opMulh : BinOp := fun w a b => BitVec.ofInt w (a.toInt * b.toInt / 2 ^ w)
/-- The high half of the signed by unsigned product (R304). -/
def opMulhsu : BinOp := fun w a b => BitVec.ofInt w (a.toInt * (b.toNat : Int) / 2 ^ w)
/-- The high half of the unsigned product (R305). -/
def opMulhu : BinOp := fun w a b => BitVec.ofNat w (a.toNat * b.toNat / 2 ^ w)
/-- A corner result of DIV: from the dividend, or open (44_muldiv.md R301; log entry 31). -/
def DivResult.value (r : DivResult) (c : DivCorner) {w : Nat} (dividend : BitVec w) : BitVec w :=
  match r with
  | .allOnes => BitVec.allOnes w
  | .zero => 0#w
  | .dividend => dividend
  | .unspecified => BitVec.ofNat w (Config.freeDivision c w dividend.toNat)

/-- Signed overflow: the most negative number divided by -1 (R301). -/
def divOverflows {w : Nat} (a b : BitVec w) : Bool := a == BitVec.intMin w && b == BitVec.allOnes w

/-- Signed quotient rounding towards zero; DIV gives the corners (R301, R307, R309). -/
def opDiv (d : DivRecord) : BinOp := fun w a b =>
  if b = 0#w then DivResult.value d.quotientByZero .quotientByZero a
  else if divOverflows a b then DivResult.value d.quotientOverflow .quotientOverflow a
  else BitVec.ofInt w (a.toInt.tdiv b.toInt)
/-- Unsigned quotient (R301, R308, R310). -/
def opDivu (d : DivRecord) : BinOp := fun w a b =>
  if b = 0#w then DivResult.value d.quotientByZero .quotientByZero a else BitVec.ofNat w (a.toNat / b.toNat)
/-- Signed remainder with the sign of the dividend (R301, R311, R313). -/
def opRem (d : DivRecord) : BinOp := fun w a b =>
  if b = 0#w then DivResult.value d.remainderByZero .remainderByZero a
  else if divOverflows a b then DivResult.value d.remainderOverflow .remainderOverflow a
  else BitVec.ofInt w (a.toInt.tmod b.toInt)
/-- Unsigned remainder (R301, R312, R314). -/
def opRemu (d : DivRecord) : BinOp := fun w a b =>
  if b = 0#w then DivResult.value d.remainderByZero .remainderByZero a else BitVec.ofNat w (a.toNat % b.toNat)

/-- `amoswap` stores the register (45_atomics.md R335, R336). -/
def opSwap : BinOp := fun _ _ b => b
def opMax : BinOp := fun _ a b => if a.toInt < b.toInt then b else a
def opMaxu : BinOp := fun _ a b => if a.toNat < b.toNat then b else a
def opMin : BinOp := fun _ a b => if b.toInt < a.toInt then b else a
def opMinu : BinOp := fun _ a b => if b.toNat < a.toNat then b else a

/-! ## Shared shapes; `len` is the length of the instruction in bytes -/

/-- x[rd] <- v, and on to the next instruction. -/
def setX (len : Nat) (rd : Reg) (v : Word) (s : State) : Result := finish len (s.writeX rd v)

/-- x[rd] <- f(x[rs1], x[rs2]) at XLEN. -/
def regReg (len : Nat) (f : BinOp) (rd rs1 rs2 : Reg) (s : State) : Result :=
  setX len rd (s.cfg.xlen.apply f (s.readX rs1) (s.readX rs2)) s

/-- x[rd] <- f(x[rs1], imm) at XLEN. -/
def regImm (len : Nat) (f : BinOp) (rd rs1 : Reg) (imm : Word) (s : State) : Result :=
  setX len rd (s.cfg.xlen.apply f (s.readX rs1) imm) s

/-- x[rd] <- sext_32 of f on the low words of two registers. -/
def regRegW (len : Nat) (f : BinOp) (rd rs1 rs2 : Reg) (s : State) : Result :=
  setX len rd (applyW f (s.readX rs1) (s.readX rs2)) s

/-- x[rd] <- sext_32 of f on the low words of a register and an immediate. -/
def regImmW (len : Nat) (f : BinOp) (rd rs1 : Reg) (imm : Word) (s : State) : Result :=
  setX len rd (applyW f (s.readX rs1) imm) s

end Sys2Proof.Machine
end

