-- ==== Sys2Proof/Machine/Atomic.lean ====
section
/-! DEFINITION. Atomics (spec 45_atomics.md; 20_memory.md R88, R97 to R100). -/

namespace Sys2Proof.Machine

open Sys2Proof

/-- An atomic memory operation on n bytes: `f` of the bytes and x[rs2] is stored, the bytes read are written to x[rd]
through `ext` (20_memory.md R88, R100). It needs load and store permission and reports store exceptions (R87). -/
def amo (n : Nat) (f : Word → Word → Word) (ext : Word → Word) (rd rs1 rs2 : Reg) (s : State) : Result :=
  let addr := s.readX rs1
  if !isAligned addr n then raise .storeAmoAddressMisaligned addr s
  else if memValid s.cfg .load addr n && memValid s.cfg .store addr n then
    let r := s.readMem addr n
    finish 4 ((r.2.writeMem addr n (f r.1 (s.readX rs2))).writeX rd (ext r.1))
  else raise .storeAmoAccessFault addr s

/-- The `.w` forms: on 32-bit values, the old word sign-extended into x[rd] (R100). -/
def amoW (f : BinOp) (rd rs1 rs2 : Reg) (s : State) : Result :=
  amo 4 (fun t b => (f 32 (t.setWidth 32) (b.setWidth 32)).setWidth 64) (signedBytes 4) rd rs1 rs2 s

/-- The `.d` forms. -/
def amoD (f : BinOp) (rd rs1 rs2 : Reg) (s : State) : Result := amo 8 (f 64) id rd rs1 rs2 s

/-- `lr`: the bytes are read and the reservation becomes theirs (20_memory.md R88, R97). -/
def loadReserved (rd rs1 : Reg) (n : Nat) (s : State) : Result :=
  let addr := s.readX rs1
  if !isAligned addr n then raise .loadAddressMisaligned addr s
  else if memValid s.cfg .load addr n then
    let r := s.readMem addr n
    finish 4 (State.writeX { r.2 with reservation := some { addr := addr, size := n } } rd (signedBytes n r.1))
  else raise .loadAccessFault addr s

/-- The bytes of the reservation include the n bytes at an address: an `sc` there may succeed (20_memory.md R98;
45_atomics.md R341, R342; log entry 14). -/
def State.mayStoreConditionally (s : State) (addr : Word) (n : Nat) : Bool :=
  match s.reservation with
  | none => false
  | some r => (byteAddrs s.cfg.xlen addr n).all (fun a => (byteAddrs s.cfg.xlen r.addr r.size).contains a)

/-- The nonzero code of a failing `sc`: a free value of XLEN bits, 1 where that would be zero (R98; SC_FAIL_CODE of
00_scope.md R8; log entry 13). -/
def State.scFailCode (s : State) : Word :=
  if s.cfg.xlen.wrap (Config.freeScCode s.draws) = 0 then 1 else s.cfg.xlen.wrap (Config.freeScCode s.draws)

/-- `sc`: where it may succeed it does or does not (a free value); succeeding it stores and writes 0 to x[rd], failing it
stores nothing and writes a nonzero code; either way the reservation is gone (20_memory.md R88, R98). The checks of the
address do not depend on the reservation. -/
def storeConditional (rd rs1 rs2 : Reg) (n : Nat) (s : State) : Result :=
  let addr := s.readX rs1
  let used : State := { s with draws := s.draws + 1 }
  if !isAligned addr n then raise .storeAmoAddressMisaligned addr s
  else if !memValid s.cfg .store addr n then raise .storeAmoAccessFault addr s
  else if s.mayStoreConditionally addr n && Config.freeScSucceeds s.draws then
    finish 4 (State.writeX { used.writeMem addr n (s.readX rs2) with reservation := none } rd 0)
  else finish 4 (State.writeX { used with reservation := none } rd s.scFailCode)

/-- `amoadd.d rd, rs2, (rs1)` (R321). -/
def execAmoaddD (rd rs1 rs2 : Reg) (_aq _rl : Bool) (s : State) : Result := amoD opAdd rd rs1 rs2 s

/-- `amoadd.w rd, rs2, (rs1)` (R322). -/
def execAmoaddW (rd rs1 rs2 : Reg) (_aq _rl : Bool) (s : State) : Result := amoW opAdd rd rs1 rs2 s

/-- `amoand.d rd, rs2, (rs1)` (R323). -/
def execAmoandD (rd rs1 rs2 : Reg) (_aq _rl : Bool) (s : State) : Result := amoD opAnd rd rs1 rs2 s

/-- `amoand.w rd, rs2, (rs1)` (R324). -/
def execAmoandW (rd rs1 rs2 : Reg) (_aq _rl : Bool) (s : State) : Result := amoW opAnd rd rs1 rs2 s

/-- `amomax.d rd, rs2, (rs1)` (R325). -/
def execAmomaxD (rd rs1 rs2 : Reg) (_aq _rl : Bool) (s : State) : Result := amoD opMax rd rs1 rs2 s

/-- `amomax.w rd, rs2, (rs1)` (R326). -/
def execAmomaxW (rd rs1 rs2 : Reg) (_aq _rl : Bool) (s : State) : Result := amoW opMax rd rs1 rs2 s

/-- `amomaxu.d rd, rs2, (rs1)` (R327). -/
def execAmomaxuD (rd rs1 rs2 : Reg) (_aq _rl : Bool) (s : State) : Result := amoD opMaxu rd rs1 rs2 s

/-- `amomaxu.w rd, rs2, (rs1)` (R328). -/
def execAmomaxuW (rd rs1 rs2 : Reg) (_aq _rl : Bool) (s : State) : Result := amoW opMaxu rd rs1 rs2 s

/-- `amomin.d rd, rs2, (rs1)` (R329). -/
def execAmominD (rd rs1 rs2 : Reg) (_aq _rl : Bool) (s : State) : Result := amoD opMin rd rs1 rs2 s

/-- `amomin.w rd, rs2, (rs1)` (R330). -/
def execAmominW (rd rs1 rs2 : Reg) (_aq _rl : Bool) (s : State) : Result := amoW opMin rd rs1 rs2 s

/-- `amominu.d rd, rs2, (rs1)` (R331). -/
def execAmominuD (rd rs1 rs2 : Reg) (_aq _rl : Bool) (s : State) : Result := amoD opMinu rd rs1 rs2 s

/-- `amominu.w rd, rs2, (rs1)` (R332). -/
def execAmominuW (rd rs1 rs2 : Reg) (_aq _rl : Bool) (s : State) : Result := amoW opMinu rd rs1 rs2 s

/-- `amoor.d rd, rs2, (rs1)` (R333). -/
def execAmoorD (rd rs1 rs2 : Reg) (_aq _rl : Bool) (s : State) : Result := amoD opOr rd rs1 rs2 s

/-- `amoor.w rd, rs2, (rs1)` (R334). -/
def execAmoorW (rd rs1 rs2 : Reg) (_aq _rl : Bool) (s : State) : Result := amoW opOr rd rs1 rs2 s

/-- `amoswap.d rd, rs2, (rs1)` (R335). -/
def execAmoswapD (rd rs1 rs2 : Reg) (_aq _rl : Bool) (s : State) : Result := amoD opSwap rd rs1 rs2 s

/-- `amoswap.w rd, rs2, (rs1)` (R336). -/
def execAmoswapW (rd rs1 rs2 : Reg) (_aq _rl : Bool) (s : State) : Result := amoW opSwap rd rs1 rs2 s

/-- `amoxor.d rd, rs2, (rs1)` (R337). -/
def execAmoxorD (rd rs1 rs2 : Reg) (_aq _rl : Bool) (s : State) : Result := amoD opXor rd rs1 rs2 s

/-- `amoxor.w rd, rs2, (rs1)` (R338). -/
def execAmoxorW (rd rs1 rs2 : Reg) (_aq _rl : Bool) (s : State) : Result := amoW opXor rd rs1 rs2 s

/-- `lr.d rd, (rs1)` (R339). -/
def execLrD (rd rs1 : Reg) (_aq _rl : Bool) (s : State) : Result := loadReserved rd rs1 8 s

/-- `lr.w rd, (rs1)` (R340). -/
def execLrW (rd rs1 : Reg) (_aq _rl : Bool) (s : State) : Result := loadReserved rd rs1 4 s

/-- `sc.d rd, rs2, (rs1)` (R341). -/
def execScD (rd rs1 rs2 : Reg) (_aq _rl : Bool) (s : State) : Result := storeConditional rd rs1 rs2 8 s

/-- `sc.w rd, rs2, (rs1)` (R342). -/
def execScW (rd rs1 rs2 : Reg) (_aq _rl : Bool) (s : State) : Result := storeConditional rd rs1 rs2 4 s

end Sys2Proof.Machine
end

