-- ==== Sys2Proof/Machine/Control.lean ====
section
/-! DEFINITION. Branches and jumps (spec 41_control_transfer.md; 20_memory.md R86). -/

namespace Sys2Proof.Machine

open Sys2Proof

/-- A conditional branch of `len` bytes: to pc + offset when the condition holds; a target that is not a multiple of
IALIGN/8 raises on the branch (R240; 20_memory.md R86). -/
def branch (len : Nat) (cond : Bool) (off : Word) (s : State) : Result :=
  if cond then
    if targetAligned s.cfg (s.pcPlus off) then finishAt (s.pcPlus off) s
    else raise .instructionAddressMisaligned (s.pcPlus off) s
  else finish len s

/-- A jump of `len` bytes to a target, writing the address of the next instruction to x[rd]; when the target is
misaligned it raises and x[rd] is not written (R247, R248; 20_memory.md R86). -/
def jumpLink (len : Nat) (rd : Reg) (target : Word) (s : State) : Result :=
  if targetAligned s.cfg target then finishAt target (s.writeX rd (s.pcPlus (BitVec.ofNat 64 len)))
  else raise .instructionAddressMisaligned target s

/-- (x[rs1] + offset) & ~1 (R248). -/
def State.registerTarget (s : State) (rs1 : Reg) (off : Word) : Word := s.address rs1 off &&& ~~~(1#64)

/-- `beq rs1, rs2, offset` (R241). -/
def execBeq (rs1 rs2 : Reg) (off : BitVec 12) (s : State) : Result :=
  branch 4 (s.readX rs1 == s.readX rs2) (branchOffset off) s

/-- `bge rs1, rs2, offset` (R242). -/
def execBge (rs1 rs2 : Reg) (off : BitVec 12) (s : State) : Result :=
  branch 4 (decide (s.cfg.xlen.toInt (s.readX rs2) ≤ s.cfg.xlen.toInt (s.readX rs1))) (branchOffset off) s

/-- `bgeu rs1, rs2, offset` (R243). -/
def execBgeu (rs1 rs2 : Reg) (off : BitVec 12) (s : State) : Result :=
  branch 4 (decide ((s.readX rs2).toNat ≤ (s.readX rs1).toNat)) (branchOffset off) s

/-- `blt rs1, rs2, offset` (R244). -/
def execBlt (rs1 rs2 : Reg) (off : BitVec 12) (s : State) : Result :=
  branch 4 (decide (s.cfg.xlen.toInt (s.readX rs1) < s.cfg.xlen.toInt (s.readX rs2))) (branchOffset off) s

/-- `bltu rs1, rs2, offset` (R245). -/
def execBltu (rs1 rs2 : Reg) (off : BitVec 12) (s : State) : Result :=
  branch 4 (decide ((s.readX rs1).toNat < (s.readX rs2).toNat)) (branchOffset off) s

/-- `bne rs1, rs2, offset` (R246). -/
def execBne (rs1 rs2 : Reg) (off : BitVec 12) (s : State) : Result :=
  branch 4 (s.readX rs1 != s.readX rs2) (branchOffset off) s

/-- `jal rd, offset` (R247). -/
def execJal (rd : Reg) (off : BitVec 20) (s : State) : Result := jumpLink 4 rd (s.pcPlus (jumpOffset off)) s

/-- `jalr rd, offset(rs1)` (R248). -/
def execJalr (rd rs1 : Reg) (off : BitVec 12) (s : State) : Result :=
  jumpLink 4 rd (s.registerTarget rs1 (immediate off)) s

end Sys2Proof.Machine
end

