-- ==== Sys2Proof/Syntax.lean ====
section
/-! DEFINITION. The instructions: one constructor for each row of spec/opcode_table.json.

Operands hold the bits the encoding holds. Branch and jump offsets, and the immediates of compressed instructions,
leave out the low bits that are always zero: `off : BitVec 12` of a branch is offset[12:1] (30_encoding.md R127),
`off : BitVec 20` of `jal` is offset[20:1] (R129), `uimm : BitVec 5` of `c.lw` is uimm[6:2]; `imm : BitVec 20` of `lui`
and `auipc` is immediate[31:12] (R128). `Operands.lean` widens them.

The five pseudoinstructions that expand to more than one instruction name their symbol by `delta`, the distance from
the first instruction to the symbol modulo 2^32 (49_pseudoinstructions.md R501; log entry 21). -/

namespace Sys2Proof

/-- The instructions of spec/opcode_table.json. -/
inductive Instr where
  -- Integer computational instructions (40_integer_computational.md).
  /-- `add rd, rs1, rs2`: Add (R201). -/
  | add (rd rs1 rs2 : Reg)
  /-- `addi rd, rs1, immediate`: Add Immediate (R202). -/
  | addi (rd rs1 : Reg) (imm : BitVec 12)
  /-- `addiw rd, rs1, immediate`: Add Word Immediate (R203). -/
  | addiw (rd rs1 : Reg) (imm : BitVec 12)
  /-- `addw rd, rs1, rs2`: Add Word (R204). -/
  | addw (rd rs1 rs2 : Reg)
  /-- `and rd, rs1, rs2`: AND (R205). -/
  | and (rd rs1 rs2 : Reg)
  /-- `andi rd, rs1, immediate`: AND Immediate (R206). -/
  | andi (rd rs1 : Reg) (imm : BitVec 12)
  /-- `auipc rd, immediate`: Add Upper Immediate to PC (R207). -/
  | auipc (rd : Reg) (imm : BitVec 20)
  /-- `lui rd, immediate`: Load Upper Immediate (R208). -/
  | lui (rd : Reg) (imm : BitVec 20)
  /-- `or rd, rs1, rs2`: OR (R209). -/
  | or (rd rs1 rs2 : Reg)
  /-- `ori rd, rs1, immediate`: OR Immediate (R210). -/
  | ori (rd rs1 : Reg) (imm : BitVec 12)
  /-- `sll rd, rs1, rs2`: Shift Left Logical (R211). -/
  | sll (rd rs1 rs2 : Reg)
  /-- `slli rd, rs1, shamt`: Shift Left Logical Immediate (R212). -/
  | slli (rd rs1 : Reg) (shamt : BitVec 6)
  /-- `slliw rd, rs1, shamt`: Shift Left Logical Word Immediate (R213). -/
  | slliw (rd rs1 : Reg) (shamt : BitVec 6)
  /-- `sllw rd, rs1, rs2`: Shift Left Logical Word (R214). -/
  | sllw (rd rs1 rs2 : Reg)
  /-- `slt rd, rs1, rs2`: Set if Less Than (R215). -/
  | slt (rd rs1 rs2 : Reg)
  /-- `slti rd, rs1, immediate`: Set if Less Than Immediate (R216). -/
  | slti (rd rs1 : Reg) (imm : BitVec 12)
  /-- `sltiu rd, rs1, immediate`: Set if Less Than Immediate, Unsigned (R217). -/
  | sltiu (rd rs1 : Reg) (imm : BitVec 12)
  /-- `sltu rd, rs1, rs2`: Set if Less Than, Unsigned (R218). -/
  | sltu (rd rs1 rs2 : Reg)
  /-- `sra rd, rs1, rs2`: Shift Right Arithmetic (R219). -/
  | sra (rd rs1 rs2 : Reg)
  /-- `srai rd, rs1, shamt`: Shift Right Arithmetic Immediate (R220). -/
  | srai (rd rs1 : Reg) (shamt : BitVec 6)
  /-- `sraiw rd, rs1, shamt`: Shift Right Arithmetic Word Immediate (R221). -/
  | sraiw (rd rs1 : Reg) (shamt : BitVec 6)
  /-- `sraw rd, rs1, rs2`: Shift Right Arithmetic Word (R222). -/
  | sraw (rd rs1 rs2 : Reg)
  /-- `srl rd, rs1, rs2`: Shift Right Logical (R223). -/
  | srl (rd rs1 rs2 : Reg)
  /-- `srli rd, rs1, shamt`: Shift Right Logical Immediate (R224). -/
  | srli (rd rs1 : Reg) (shamt : BitVec 6)
  /-- `srliw rd, rs1, shamt`: Shift Right Logical Word Immediate (R225). -/
  | srliw (rd rs1 : Reg) (shamt : BitVec 6)
  /-- `srlw rd, rs1, rs2`: Shift Right Logical Word (R226). -/
  | srlw (rd rs1 rs2 : Reg)
  /-- `sub rd, rs1, rs2`: Subtract (R227). -/
  | sub (rd rs1 rs2 : Reg)
  /-- `subw rd, rs1, rs2`: Subtract Word (R228). -/
  | subw (rd rs1 rs2 : Reg)
  /-- `xor rd, rs1, rs2`: Exclusive-OR (R229). -/
  | xor (rd rs1 rs2 : Reg)
  /-- `xori rd, rs1, immediate`: Exclusive-OR Immediate (R230). -/
  | xori (rd rs1 : Reg) (imm : BitVec 12)
  -- Control transfer instructions (41_control_transfer.md).
  /-- `beq rs1, rs2, offset`: Branch if Equal (R241). -/
  | beq (rs1 rs2 : Reg) (off : BitVec 12)
  /-- `bge rs1, rs2, offset`: Branch if Greater Than or Equal (R242). -/
  | bge (rs1 rs2 : Reg) (off : BitVec 12)
  /-- `bgeu rs1, rs2, offset`: Branch if Greater Than or Equal, Unsigned (R243). -/
  | bgeu (rs1 rs2 : Reg) (off : BitVec 12)
  /-- `blt rs1, rs2, offset`: Branch if Less Than (R244). -/
  | blt (rs1 rs2 : Reg) (off : BitVec 12)
  /-- `bltu rs1, rs2, offset`: Branch if Less Than, Unsigned (R245). -/
  | bltu (rs1 rs2 : Reg) (off : BitVec 12)
  /-- `bne rs1, rs2, offset`: Branch if Not Equal (R246). -/
  | bne (rs1 rs2 : Reg) (off : BitVec 12)
  /-- `jal rd, offset`: Jump and Link (R247). -/
  | jal (rd : Reg) (off : BitVec 20)
  /-- `jalr rd, offset(rs1)`: Jump and Link Register (R248). -/
  | jalr (rd rs1 : Reg) (off : BitVec 12)
  -- Loads and stores (42_loads_stores.md).
  /-- `lb rd, offset(rs1)`: Load Byte (R261). -/
  | lb (rd rs1 : Reg) (off : BitVec 12)
  /-- `lbu rd, offset(rs1)`: Load Byte, Unsigned (R262). -/
  | lbu (rd rs1 : Reg) (off : BitVec 12)
  /-- `ld rd, offset(rs1)`: Load Doubleword (R263). -/
  | ld (rd rs1 : Reg) (off : BitVec 12)
  /-- `lh rd, offset(rs1)`: Load Halfword (R264). -/
  | lh (rd rs1 : Reg) (off : BitVec 12)
  /-- `lhu rd, offset(rs1)`: Load Halfword, Unsigned (R265). -/
  | lhu (rd rs1 : Reg) (off : BitVec 12)
  /-- `lw rd, offset(rs1)`: Load Word (R266). -/
  | lw (rd rs1 : Reg) (off : BitVec 12)
  /-- `lwu rd, offset(rs1)`: Load Word, Unsigned (R267). -/
  | lwu (rd rs1 : Reg) (off : BitVec 12)
  /-- `sb rs2, offset(rs1)`: Store Byte (R268). -/
  | sb (rs2 rs1 : Reg) (off : BitVec 12)
  /-- `sd rs2, offset(rs1)`: Store Doubleword (R269). -/
  | sd (rs2 rs1 : Reg) (off : BitVec 12)
  /-- `sh rs2, offset(rs1)`: Store Halfword (R270). -/
  | sh (rs2 rs1 : Reg) (off : BitVec 12)
  /-- `sw rs2, offset(rs1)`: Store Word (R271). -/
  | sw (rs2 rs1 : Reg) (off : BitVec 12)
  -- CSR access, fences, environment calls, trap returns, `wfi`, `sfence.vma` (43_system_csr_fence.md).
  /-- `csrrw rd, csr, rs1`: Control and Status Register Read and Write (R283). -/
  | csrrw (rd : Reg) (csr : BitVec 12) (rs1 : Reg)
  /-- `csrrs rd, csr, rs1`: Control and Status Register Read and Set (R284). -/
  | csrrs (rd : Reg) (csr : BitVec 12) (rs1 : Reg)
  /-- `csrrc rd, csr, rs1`: Control and Status Register Read and Clear (R285). -/
  | csrrc (rd : Reg) (csr : BitVec 12) (rs1 : Reg)
  /-- `csrrwi rd, csr, zimm[4:0]`: Control and Status Register Read and Write Immediate (R286). -/
  | csrrwi (rd : Reg) (csr : BitVec 12) (zimm : BitVec 5)
  /-- `csrrsi rd, csr, zimm[4:0]`: Control and Status Register Read and Set Immediate (R287). -/
  | csrrsi (rd : Reg) (csr : BitVec 12) (zimm : BitVec 5)
  /-- `csrrci rd, csr, zimm[4:0]`: Control and Status Register Read and Clear Immediate (R288). -/
  | csrrci (rd : Reg) (csr : BitVec 12) (zimm : BitVec 5)
  /-- `fence pred, succ`: Fence Memory and I/O (R289). -/
  | fence (pred succ : BitVec 4)
  /-- `fence.i`: Fence Instruction Stream (R290). -/
  | fenceI
  /-- `ecall`: Environment Call (R291). -/
  | ecall
  /-- `ebreak`: Environment Breakpoint (R292). -/
  | ebreak
  /-- `mret`: Machine-mode Exception Return (R293). -/
  | mret
  /-- `sret`: Supervisor-mode Exception Return (R294). -/
  | sret
  /-- `wfi`: Wait for Interrupt (R295). -/
  | wfi
  /-- `sfence.vma rs1, rs2`: Fence Virtual Memory (R296). -/
  | sfenceVma (rs1 rs2 : Reg)
  -- Multiply and divide (44_muldiv.md).
  /-- `mul rd, rs1, rs2`: Multiply (R302). -/
  | mul (rd rs1 rs2 : Reg)
  /-- `mulh rd, rs1, rs2`: Multiply High (R303). -/
  | mulh (rd rs1 rs2 : Reg)
  /-- `mulhsu rd, rs1, rs2`: Multiply High Signed-Unsigned (R304). -/
  | mulhsu (rd rs1 rs2 : Reg)
  /-- `mulhu rd, rs1, rs2`: Multiply High Unsigned (R305). -/
  | mulhu (rd rs1 rs2 : Reg)
  /-- `mulw rd, rs1, rs2`: Multiply Word (R306). -/
  | mulw (rd rs1 rs2 : Reg)
  /-- `div rd, rs1, rs2`: Divide (R307). -/
  | div (rd rs1 rs2 : Reg)
  /-- `divu rd, rs1, rs2`: Divide, Unsigned (R308). -/
  | divu (rd rs1 rs2 : Reg)
  /-- `divw rd, rs1, rs2`: Divide Word (R309). -/
  | divw (rd rs1 rs2 : Reg)
  /-- `divuw rd, rs1, rs2`: Divide Word, Unsigned (R310). -/
  | divuw (rd rs1 rs2 : Reg)
  /-- `rem rd, rs1, rs2`: Remainder (R311). -/
  | rem (rd rs1 rs2 : Reg)
  /-- `remu rd, rs1, rs2`: Remainder, Unsigned (R312). -/
  | remu (rd rs1 rs2 : Reg)
  /-- `remw rd, rs1, rs2`: Remainder Word (R313). -/
  | remw (rd rs1 rs2 : Reg)
  /-- `remuw rd, rs1, rs2`: Remainder Word, Unsigned (R314). -/
  | remuw (rd rs1 rs2 : Reg)
  -- Atomics (45_atomics.md).
  /-- `amoadd.d rd, rs2, (rs1)`: Atomic Memory Operation: Add Doubleword (R321). -/
  | amoaddD (rd rs1 rs2 : Reg) (aq rl : Bool)
  /-- `amoadd.w rd, rs2, (rs1)`: Atomic Memory Operation: Add Word (R322). -/
  | amoaddW (rd rs1 rs2 : Reg) (aq rl : Bool)
  /-- `amoand.d rd, rs2, (rs1)`: Atomic Memory Operation: AND Doubleword (R323). -/
  | amoandD (rd rs1 rs2 : Reg) (aq rl : Bool)
  /-- `amoand.w rd, rs2, (rs1)`: Atomic Memory Operation: AND Word (R324). -/
  | amoandW (rd rs1 rs2 : Reg) (aq rl : Bool)
  /-- `amomax.d rd, rs2, (rs1)`: Atomic Memory Operation: Maximum Doubleword (R325). -/
  | amomaxD (rd rs1 rs2 : Reg) (aq rl : Bool)
  /-- `amomax.w rd, rs2, (rs1)`: Atomic Memory Operation: Maximum Word (R326). -/
  | amomaxW (rd rs1 rs2 : Reg) (aq rl : Bool)
  /-- `amomaxu.d rd, rs2, (rs1)`: Atomic Memory Operation: Maximum Doubleword, Unsigned (R327). -/
  | amomaxuD (rd rs1 rs2 : Reg) (aq rl : Bool)
  /-- `amomaxu.w rd, rs2, (rs1)`: Atomic Memory Operation: Maximum Word, Unsigned (R328). -/
  | amomaxuW (rd rs1 rs2 : Reg) (aq rl : Bool)
  /-- `amomin.d rd, rs2, (rs1)`: Atomic Memory Operation: Minimum Doubleword (R329). -/
  | amominD (rd rs1 rs2 : Reg) (aq rl : Bool)
  /-- `amomin.w rd, rs2, (rs1)`: Atomic Memory Operation: Minimum Word (R330). -/
  | amominW (rd rs1 rs2 : Reg) (aq rl : Bool)
  /-- `amominu.d rd, rs2, (rs1)`: Atomic Memory Operation: Minimum Doubleword, Unsigned (R331). -/
  | amominuD (rd rs1 rs2 : Reg) (aq rl : Bool)
  /-- `amominu.w rd, rs2, (rs1)`: Atomic Memory Operation: Minimum Word, Unsigned (R332). -/
  | amominuW (rd rs1 rs2 : Reg) (aq rl : Bool)
  /-- `amoor.d rd, rs2, (rs1)`: Atomic Memory Operation: OR Doubleword (R333). -/
  | amoorD (rd rs1 rs2 : Reg) (aq rl : Bool)
  /-- `amoor.w rd, rs2, (rs1)`: Atomic Memory Operation: OR Word (R334). -/
  | amoorW (rd rs1 rs2 : Reg) (aq rl : Bool)
  /-- `amoswap.d rd, rs2, (rs1)`: Atomic Memory Operation: Swap Doubleword (R335). -/
  | amoswapD (rd rs1 rs2 : Reg) (aq rl : Bool)
  /-- `amoswap.w rd, rs2, (rs1)`: Atomic Memory Operation: Swap Word (R336). -/
  | amoswapW (rd rs1 rs2 : Reg) (aq rl : Bool)
  /-- `amoxor.d rd, rs2, (rs1)`: Atomic Memory Operation: XOR Doubleword (R337). -/
  | amoxorD (rd rs1 rs2 : Reg) (aq rl : Bool)
  /-- `amoxor.w rd, rs2, (rs1)`: Atomic Memory Operation: XOR Word (R338). -/
  | amoxorW (rd rs1 rs2 : Reg) (aq rl : Bool)
  /-- `lr.d rd, (rs1)`: Load-Reserved Doubleword (R339). -/
  | lrD (rd rs1 : Reg) (aq rl : Bool)
  /-- `lr.w rd, (rs1)`: Load-Reserved Word (R340). -/
  | lrW (rd rs1 : Reg) (aq rl : Bool)
  /-- `sc.d rd, rs2, (rs1)`: Store-Conditional Doubleword (R341). -/
  | scD (rd rs1 rs2 : Reg) (aq rl : Bool)
  /-- `sc.w rd, rs2, (rs1)`: Store-Conditional Word (R342). -/
  | scW (rd rs1 rs2 : Reg) (aq rl : Bool)
  -- Single-precision floating point (46_float_single.md).
  /-- `fadd.s rd, rs1, rs2`: Floating-point Add, Single-Precision (R356). -/
  | faddS (rd rs1 rs2 : Reg) (rm : BitVec 3)
  /-- `fclass.s rd, rs1`: Floating-point Classify, Single-Precision (R357). -/
  | fclassS (rd rs1 : Reg)
  /-- `fcvt.l.s rd, rs1`: Floating-point Convert to Long from Single (R358). -/
  | fcvtLS (rd rs1 : Reg) (rm : BitVec 3)
  /-- `fcvt.lu.s rd, rs1`: Floating-point Convert to Unsigned Long from Single (R359). -/
  | fcvtLuS (rd rs1 : Reg) (rm : BitVec 3)
  /-- `fcvt.s.l rd, rs1`: Floating-point Convert to Single from Long (R360). -/
  | fcvtSL (rd rs1 : Reg) (rm : BitVec 3)
  /-- `fcvt.s.lu rd, rs1`: Floating-point Convert to Single from Unsigned Long (R361). -/
  | fcvtSLu (rd rs1 : Reg) (rm : BitVec 3)
  /-- `fcvt.s.w rd, rs1`: Floating-point Convert to Single from Word (R362). -/
  | fcvtSW (rd rs1 : Reg) (rm : BitVec 3)
  /-- `fcvt.s.wu rd, rs1`: Floating-point Convert to Single from Unsigned Word (R363). -/
  | fcvtSWu (rd rs1 : Reg) (rm : BitVec 3)
  /-- `fcvt.w.s rd, rs1`: Floating-point Convert to Word from Single (R364). -/
  | fcvtWS (rd rs1 : Reg) (rm : BitVec 3)
  /-- `fcvt.wu.s rd, rs1`: Floating-point Convert to Unsigned Word from Single (R365). -/
  | fcvtWuS (rd rs1 : Reg) (rm : BitVec 3)
  /-- `fdiv.s rd, rs1, rs2`: Floating-point Divide, Single-Precision (R366). -/
  | fdivS (rd rs1 rs2 : Reg) (rm : BitVec 3)
  /-- `feq.s rd, rs1, rs2`: Floating-point Equals, Single-Precision (R367). -/
  | feqS (rd rs1 rs2 : Reg)
  /-- `fle.s rd, rs1, rs2`: Floating-point Less Than or Equal, Single-Precision (R368). -/
  | fleS (rd rs1 rs2 : Reg)
  /-- `flt.s rd, rs1, rs2`: Floating-point Less Than, Single-Precision (R369). -/
  | fltS (rd rs1 rs2 : Reg)
  /-- `flw rd, offset(rs1)`: Floating-point Load Word (R370). -/
  | flw (rd rs1 : Reg) (off : BitVec 12)
  /-- `fmadd.s rd, rs1, rs2, rs3`: Floating-point Fused Multiply-Add, Single-Precision (R371). -/
  | fmaddS (rd rs1 rs2 rs3 : Reg) (rm : BitVec 3)
  /-- `fmax.s rd, rs1, rs2`: Floating-point Maximum, Single-Precision (R372). -/
  | fmaxS (rd rs1 rs2 : Reg)
  /-- `fmin.s rd, rs1, rs2`: Floating-point Minimum, Single-Precision (R373). -/
  | fminS (rd rs1 rs2 : Reg)
  /-- `fmsub.s rd, rs1, rs2, rs3`: Floating-point Fused Multiply-Subtract, Single-Precision (R374). -/
  | fmsubS (rd rs1 rs2 rs3 : Reg) (rm : BitVec 3)
  /-- `fmul.s rd, rs1, rs2`: Floating-point Multiply, Single-Precision (R375). -/
  | fmulS (rd rs1 rs2 : Reg) (rm : BitVec 3)
  /-- `fmv.w.x rd, rs1`: Floating-point Move Word from Integer (R376). -/
  | fmvWX (rd rs1 : Reg)
  /-- `fmv.x.w rd, rs1`: Floating-point Move Word to Integer (R377). -/
  | fmvXW (rd rs1 : Reg)
  /-- `fnmadd.s rd, rs1, rs2, rs3`: Floating-point Fused Negative Multiply-Add, Single-Precision (R378). -/
  | fnmaddS (rd rs1 rs2 rs3 : Reg) (rm : BitVec 3)
  /-- `fnmsub.s rd, rs1, rs2, rs3`: Floating-point Fused Negative Multiply-Subtract, Single-Precision (R379). -/
  | fnmsubS (rd rs1 rs2 rs3 : Reg) (rm : BitVec 3)
  /-- `fsgnj.s rd, rs1, rs2`: Floating-point Sign Inject, Single-Precision (R380). -/
  | fsgnjS (rd rs1 rs2 : Reg)
  /-- `fsgnjn.s rd, rs1, rs2`: Floating-point Sign Inject-Negate, Single-Precision (R381). -/
  | fsgnjnS (rd rs1 rs2 : Reg)
  /-- `fsgnjx.s rd, rs1, rs2`: Floating-point Sign Inject-XOR, Single-Precision (R382). -/
  | fsgnjxS (rd rs1 rs2 : Reg)
  /-- `fsqrt.s rd, rs1`: Floating-point Square Root, Single-Precision (R383). -/
  | fsqrtS (rd rs1 : Reg) (rm : BitVec 3)
  /-- `fsub.s rd, rs1, rs2`: Floating-point Subtract, Single-Precision (R384). -/
  | fsubS (rd rs1 rs2 : Reg) (rm : BitVec 3)
  /-- `fsw rs2, offset(rs1)`: Floating-point Store Word (R385). -/
  | fsw (rs2 rs1 : Reg) (off : BitVec 12)
  -- Double-precision floating point (47_float_double.md).
  /-- `fadd.d rd, rs1, rs2`: Floating-point Add, Double-Precision (R401). -/
  | faddD (rd rs1 rs2 : Reg) (rm : BitVec 3)
  /-- `fclass.d rd, rs1`: Floating-point Classify, Double-Precision (R402). -/
  | fclassD (rd rs1 : Reg)
  /-- `fcvt.d.l rd, rs1`: Floating-point Convert to Double from Long (R403). -/
  | fcvtDL (rd rs1 : Reg) (rm : BitVec 3)
  /-- `fcvt.d.lu rd, rs1`: Floating-point Convert to Double from Unsigned Long (R404). -/
  | fcvtDLu (rd rs1 : Reg) (rm : BitVec 3)
  /-- `fcvt.d.s rd, rs1`: Floating-point Convert to Double from Single (R405). -/
  | fcvtDS (rd rs1 : Reg) (rm : BitVec 3)
  /-- `fcvt.d.w rd, rs1`: Floating-point Convert to Double from Word (R406). -/
  | fcvtDW (rd rs1 : Reg) (rm : BitVec 3)
  /-- `fcvt.d.wu rd, rs1`: Floating-point Convert to Double from Unsigned Word (R407). -/
  | fcvtDWu (rd rs1 : Reg) (rm : BitVec 3)
  /-- `fcvt.l.d rd, rs1`: Floating-point Convert to Long from Double (R408). -/
  | fcvtLD (rd rs1 : Reg) (rm : BitVec 3)
  /-- `fcvt.lu.d rd, rs1`: Floating-point Convert to Unsigned Long from Double (R409). -/
  | fcvtLuD (rd rs1 : Reg) (rm : BitVec 3)
  /-- `fcvt.s.d rd, rs1`: Floating-point Convert to Single from Double (R410). -/
  | fcvtSD (rd rs1 : Reg) (rm : BitVec 3)
  /-- `fcvt.w.d rd, rs1`: Floating-point Convert to Word from Double (R411). -/
  | fcvtWD (rd rs1 : Reg) (rm : BitVec 3)
  /-- `fcvt.wu.d rd, rs1`: Floating-point Convert to Unsigned Word from Double (R412). -/
  | fcvtWuD (rd rs1 : Reg) (rm : BitVec 3)
  /-- `fdiv.d rd, rs1, rs2`: Floating-point Divide, Double-Precision (R413). -/
  | fdivD (rd rs1 rs2 : Reg) (rm : BitVec 3)
  /-- `feq.d rd, rs1, rs2`: Floating-point Equals, Double-Precision (R414). -/
  | feqD (rd rs1 rs2 : Reg)
  /-- `fld rd, offset(rs1)`: Floating-point Load Doubleword (R415). -/
  | fld (rd rs1 : Reg) (off : BitVec 12)
  /-- `fle.d rd, rs1, rs2`: Floating-point Less Than or Equal, Double-Precision (R416). -/
  | fleD (rd rs1 rs2 : Reg)
  /-- `flt.d rd, rs1, rs2`: Floating-point Less Than, Double-Precision (R417). -/
  | fltD (rd rs1 rs2 : Reg)
  /-- `fmadd.d rd, rs1, rs2, rs3`: Floating-point Fused Multiply-Add, Double-Precision (R418). -/
  | fmaddD (rd rs1 rs2 rs3 : Reg) (rm : BitVec 3)
  /-- `fmax.d rd, rs1, rs2`: Floating-point Maximum, Double-Precision (R419). -/
  | fmaxD (rd rs1 rs2 : Reg)
  /-- `fmin.d rd, rs1, rs2`: Floating-point Minimum, Double-Precision (R420). -/
  | fminD (rd rs1 rs2 : Reg)
  /-- `fmsub.d rd, rs1, rs2, rs3`: Floating-point Fused Multiply-Subtract, Double-Precision (R421). -/
  | fmsubD (rd rs1 rs2 rs3 : Reg) (rm : BitVec 3)
  /-- `fmul.d rd, rs1, rs2`: Floating-point Multiply, Double-Precision (R422). -/
  | fmulD (rd rs1 rs2 : Reg) (rm : BitVec 3)
  /-- `fmv.d.x rd, rs1`: Floating-point Move Doubleword from Integer (R423). -/
  | fmvDX (rd rs1 : Reg)
  /-- `fmv.x.d rd, rs1`: Floating-point Move Doubleword to Integer (R424). -/
  | fmvXD (rd rs1 : Reg)
  /-- `fnmadd.d rd, rs1, rs2, rs3`: Floating-point Fused Negative Multiply-Add, Double-Precision (R425). -/
  | fnmaddD (rd rs1 rs2 rs3 : Reg) (rm : BitVec 3)
  /-- `fnmsub.d rd, rs1, rs2, rs3`: Floating-point Fused Negative Multiply-Subtract, Double-Precision (R426). -/
  | fnmsubD (rd rs1 rs2 rs3 : Reg) (rm : BitVec 3)
  /-- `fsd rs2, offset(rs1)`: Floating-point Store Doubleword (R427). -/
  | fsd (rs2 rs1 : Reg) (off : BitVec 12)
  /-- `fsgnj.d rd, rs1, rs2`: Floating-point Sign Inject, Double-Precision (R428). -/
  | fsgnjD (rd rs1 rs2 : Reg)
  /-- `fsgnjn.d rd, rs1, rs2`: Floating-point Sign Inject-Negate, Double-Precision (R429). -/
  | fsgnjnD (rd rs1 rs2 : Reg)
  /-- `fsgnjx.d rd, rs1, rs2`: Floating-point Sign Inject-XOR, Double-Precision (R430). -/
  | fsgnjxD (rd rs1 rs2 : Reg)
  /-- `fsqrt.d rd, rs1`: Floating-point Square Root, Double-Precision (R431). -/
  | fsqrtD (rd rs1 : Reg) (rm : BitVec 3)
  /-- `fsub.d rd, rs1, rs2`: Floating-point Subtract, Double-Precision (R432). -/
  | fsubD (rd rs1 rs2 : Reg) (rm : BitVec 3)
  -- Compressed instructions (48_compressed.md).
  /-- `c.add rd, rs2`: Add (R453). -/
  | cAdd (rd rs2 : Reg)
  /-- `c.addi rd, imm`: Add Immediate (R454). -/
  | cAddi (rd : Reg) (imm : BitVec 6)
  /-- `c.addi16sp imm`: Add Immediate, Scaled by 16, to Stack Pointer (R455). -/
  | cAddi16sp (imm : BitVec 6)
  /-- `c.addi4spn rd′, uimm`: Add Immediate, Scaled by 4, to Stack Pointer, Nondestructive (R456). -/
  | cAddi4spn (rd : CReg) (uimm : BitVec 8)
  /-- `c.addiw rd, imm`: Add Word Immediate (R457). -/
  | cAddiw (rd : Reg) (imm : BitVec 6)
  /-- `c.and rd′, rs2′`: AND (R458). -/
  | cAnd (rd rs2 : CReg)
  /-- `c.addw rd′, rs2′`: Add Word (R459). -/
  | cAddw (rd rs2 : CReg)
  /-- `c.andi rd′, imm`: AND Immediate (R460). -/
  | cAndi (rd : CReg) (imm : BitVec 6)
  /-- `c.beqz rs1′, offset`: Branch if Equal to Zero (R461). -/
  | cBeqz (rs1 : CReg) (off : BitVec 8)
  /-- `c.bnez rs1′, offset`: Branch if Not Equal to Zero (R462). -/
  | cBnez (rs1 : CReg) (off : BitVec 8)
  /-- `c.ebreak`: Environment Breakpoint (R463). -/
  | cEbreak
  /-- `c.fld rd′, uimm(rs1′)`: Floating-point Load Doubleword (R464). -/
  | cFld (rd rs1 : CReg) (uimm : BitVec 5)
  /-- `c.fldsp rd, uimm(x2)`: Floating-point Load Doubleword, Stack-Pointer Relative (R465). -/
  | cFldsp (rd : Reg) (uimm : BitVec 6)
  /-- `c.flw rd′, uimm(rs1′)`: Floating-point Load Word (R466). -/
  | cFlw (rd rs1 : CReg) (uimm : BitVec 5)
  /-- `c.flwsp rd, uimm(x2)`: Floating-point Load Word, Stack-Pointer Relative (R467). -/
  | cFlwsp (rd : Reg) (uimm : BitVec 6)
  /-- `c.fsd rs2′, uimm(rs1′)`: Floating-point Store Doubleword (R468). -/
  | cFsd (rs2 rs1 : CReg) (uimm : BitVec 5)
  /-- `c.fsdsp rs2, uimm(x2)`: Floating-point Store Doubleword, Stack-Pointer Relative (R469). -/
  | cFsdsp (rs2 : Reg) (uimm : BitVec 6)
  /-- `c.fsw rs2′, uimm(rs1′)`: Floating-point Store Word (R470). -/
  | cFsw (rs2 rs1 : CReg) (uimm : BitVec 5)
  /-- `c.fswsp rs2, uimm(x2)`: Floating-point Store Word, Stack-Pointer Relative (R471). -/
  | cFswsp (rs2 : Reg) (uimm : BitVec 6)
  /-- `c.j offset`: Jump (R472). -/
  | cJ (off : BitVec 11)
  /-- `c.jal offset`: Jump and Link (R473). -/
  | cJal (off : BitVec 11)
  /-- `c.jalr rs1`: Jump and Link Register (R474). -/
  | cJalr (rs1 : Reg)
  /-- `c.jr rs1`: Jump Register (R475). -/
  | cJr (rs1 : Reg)
  /-- `c.ld rd′, uimm(rs1′)`: Load Doubleword (R476). -/
  | cLd (rd rs1 : CReg) (uimm : BitVec 5)
  /-- `c.ldsp rd, uimm(x2)`: Load Doubleword, Stack-Pointer Relative (R477). -/
  | cLdsp (rd : Reg) (uimm : BitVec 6)
  /-- `c.li rd, imm`: Load Immediate (R478). -/
  | cLi (rd : Reg) (imm : BitVec 6)
  /-- `c.lui rd, imm`: Load Upper Immediate (R479). -/
  | cLui (rd : Reg) (imm : BitVec 6)
  /-- `c.lw rd′, uimm(rs1′)`: Load Word (R480). -/
  | cLw (rd rs1 : CReg) (uimm : BitVec 5)
  /-- `c.lwsp rd, uimm(x2)`: Load Word, Stack-Pointer Relative (R481). -/
  | cLwsp (rd : Reg) (uimm : BitVec 6)
  /-- `c.mv rd, rs2`: Move (R482). -/
  | cMv (rd rs2 : Reg)
  /-- `c.or rd′, rs2′`: OR (R483). -/
  | cOr (rd rs2 : CReg)
  /-- `c.sd rs2′, uimm(rs1′)`: Store Doubleword (R484). -/
  | cSd (rs2 rs1 : CReg) (uimm : BitVec 5)
  /-- `c.sdsp rs2, uimm(x2)`: Store Doubleword, Stack-Pointer Relative (R485). -/
  | cSdsp (rs2 : Reg) (uimm : BitVec 6)
  /-- `c.slli rd, uimm`: Shift Left Logical Immediate (R486). -/
  | cSlli (rd : Reg) (shamt : BitVec 6)
  /-- `c.srai rd′, uimm`: Shift Right Arithmetic Immediate (R487). -/
  | cSrai (rd : CReg) (shamt : BitVec 6)
  /-- `c.srli rd′, uimm`: Shift Right Logical Immediate (R488). -/
  | cSrli (rd : CReg) (shamt : BitVec 6)
  /-- `c.sub rd′, rs2′`: Subtract (R489). -/
  | cSub (rd rs2 : CReg)
  /-- `c.subw rd′, rs2′`: Subtract Word (R490). -/
  | cSubw (rd rs2 : CReg)
  /-- `c.sw rs2′, uimm(rs1′)`: Store Word (R491). -/
  | cSw (rs2 rs1 : CReg) (uimm : BitVec 5)
  /-- `c.swsp rs2, uimm(x2)`: Store Word, Stack-Pointer Relative (R492). -/
  | cSwsp (rs2 : Reg) (uimm : BitVec 6)
  /-- `c.xor rd′, rs2′`: Exclusive-OR (R493). -/
  | cXor (rd rs2 : CReg)
  -- Pseudoinstructions (assembler names; the decoder never gives one, log entry 21) (49_pseudoinstructions.md).
  /-- `beqz rs1, offset`: Branch if Equal to Zero (R503). -/
  | beqz (rs1 : Reg) (off : BitVec 12)
  /-- `bgez rs1, offset`: Branch if Greater Than or Equal to Zero (R504). -/
  | bgez (rs1 : Reg) (off : BitVec 12)
  /-- `bgt rs1, rs2, offset`: Branch if Greater Than (R505). -/
  | bgt (rs1 rs2 : Reg) (off : BitVec 12)
  /-- `bgtu rs1, rs2, offset`: Branch if Greater Than, Unsigned (R506). -/
  | bgtu (rs1 rs2 : Reg) (off : BitVec 12)
  /-- `bgtz rs2, offset`: Branch if Greater Than Zero (R507). -/
  | bgtz (rs2 : Reg) (off : BitVec 12)
  /-- `ble rs1, rs2, offset`: Branch if Less Than or Equal (R508). -/
  | ble (rs1 rs2 : Reg) (off : BitVec 12)
  /-- `bleu rs1, rs2, offset`: Branch if Less Than or Equal, Unsigned (R509). -/
  | bleu (rs1 rs2 : Reg) (off : BitVec 12)
  /-- `blez rs2, offset`: Branch if Less Than or Equal to Zero (R510). -/
  | blez (rs2 : Reg) (off : BitVec 12)
  /-- `bltz rs1, offset`: Branch if Less Than Zero (R511). -/
  | bltz (rs1 : Reg) (off : BitVec 12)
  /-- `bnez rs1, offset`: Branch if Not Equal to Zero (R512). -/
  | bnez (rs1 : Reg) (off : BitVec 12)
  /-- `call rd, symbol`: Call (R513). -/
  | call (rd : Reg) (delta : BitVec 32)
  /-- `csrr rd, csr`: Control and Status Register Read (R514). -/
  | csrr (rd : Reg) (csr : BitVec 12)
  /-- `csrc csr, rs1`: Control and Status Register Clear (R515). -/
  | csrc (csr : BitVec 12) (rs1 : Reg)
  /-- `csrci csr, zimm[4:0]`: Control and Status Register Clear Immediate (R516). -/
  | csrci (csr : BitVec 12) (zimm : BitVec 5)
  /-- `csrs csr, rs1`: Control and Status Register Set (R517). -/
  | csrs (csr : BitVec 12) (rs1 : Reg)
  /-- `csrsi csr, zimm[4:0]`: Control and Status Register Set Immediate (R518). -/
  | csrsi (csr : BitVec 12) (zimm : BitVec 5)
  /-- `csrw csr, rs1`: Control and Status Register Write (R519). -/
  | csrw (csr : BitVec 12) (rs1 : Reg)
  /-- `csrwi csr, zimm[4:0]`: Control and Status Register Write Immediate (R520). -/
  | csrwi (csr : BitVec 12) (zimm : BitVec 5)
  /-- `fabs.d rd, rs1`: Floating-point Absolute Value (R521). -/
  | fabsD (rd rs1 : Reg)
  /-- `fabs.s rd, rs1`: Floating-point Absolute Value (R522). -/
  | fabsS (rd rs1 : Reg)
  /-- `fmv.d rd, rs1`: Floating-point Move (R523). -/
  | fmvD (rd rs1 : Reg)
  /-- `fmv.s rd, rs1`: Floating-point Move (R524). -/
  | fmvS (rd rs1 : Reg)
  /-- `fneg.d rd, rs1`: Floating-point Negate (R525). -/
  | fnegD (rd rs1 : Reg)
  /-- `fneg.s rd, rs1`: Floating-point Negate (R526). -/
  | fnegS (rd rs1 : Reg)
  /-- `frcsr rd`: Floating-point Read Control and Status Register (R527). -/
  | frcsr (rd : Reg)
  /-- `frflags rd`: Floating-point Read Exception Flags (R528). -/
  | frflags (rd : Reg)
  /-- `frrm rd`: Floating-point Read Rounding Mode (R529). -/
  | frrm (rd : Reg)
  /-- `fscsr rd, rs1`: Floating-point Swap Control and Status Register (R530). -/
  | fscsr (rd rs1 : Reg)
  /-- `fsflags rd, rs1`: Floating-point Swap Exception Flags (R531). -/
  | fsflags (rd rs1 : Reg)
  /-- `fsrm rd, rs1`: Floating-point Swap Rounding Mode (R532). -/
  | fsrm (rd rs1 : Reg)
  /-- `j offset`: Jump (R533). -/
  | j (off : BitVec 20)
  /-- `jr rs1`: Jump Register (R534). -/
  | jr (rs1 : Reg)
  /-- `la rd, symbol`: Load Address (R535). -/
  | la (rd : Reg) (pic : Bool) (delta : BitVec 32)
  /-- `li rd, immediate`: Load Immediate (R536). -/
  | li (rd : Reg) (imm : Word)
  /-- `lla rd, symbol`: Load Local Address (R537). -/
  | lla (rd : Reg) (delta : BitVec 32)
  /-- `mv rd, rs1`: Move (R538). -/
  | mv (rd rs1 : Reg)
  /-- `neg rd, rs2`: Negate (R539). -/
  | neg (rd rs2 : Reg)
  /-- `negw rd, rs2`: Negate Word (R540). -/
  | negw (rd rs2 : Reg)
  /-- `nop`: No operation (R541). -/
  | nop
  /-- `not rd, rs1`: NOT (R542). -/
  | not (rd rs1 : Reg)
  /-- `rdcycle rd`: Read Cycle Counter (R543). -/
  | rdcycle (rd : Reg)
  /-- `rdcycleh rd`: Read Cycle Counter High (R544). -/
  | rdcycleh (rd : Reg)
  /-- `rdinstret rd`: Read Instructions-Retired Counter (R545). -/
  | rdinstret (rd : Reg)
  /-- `rdinstreth rd`: Read Instructions-Retired Counter High (R546). -/
  | rdinstreth (rd : Reg)
  /-- `rdtime rd`: Read Time (R547). -/
  | rdtime (rd : Reg)
  /-- `rdtimeh rd`: Read Time High (R548). -/
  | rdtimeh (rd : Reg)
  /-- `ret`: Return (R549). -/
  | ret
  /-- `seqz rd, rs1`: Set if Equal to Zero (R550). -/
  | seqz (rd rs1 : Reg)
  /-- `sext.w rd, rs1`: Sign-extend Word (R551). -/
  | sextW (rd rs1 : Reg)
  /-- `sgtz rd, rs2`: Set if Greater Than to Zero (R552). -/
  | sgtz (rd rs2 : Reg)
  /-- `sltz rd, rs1`: Set if Less Than to Zero (R553). -/
  | sltz (rd rs1 : Reg)
  /-- `snez rd, rs2`: Set if Not Equal to Zero (R554). -/
  | snez (rd rs2 : Reg)
  /-- `tail symbol`: Tail call (R555). -/
  | tail (delta : BitVec 32)
deriving DecidableEq, Repr

end Sys2Proof
end

