-- ==== Sys2Proof/WellFormed.lean ====
section
/-! DEFINITION. Which terms of `Instr` are instructions: the constraints of 30_encoding.md R151 and R152 that do not
depend on XLEN or on the extensions. Those that do are `Instr.available` of Decode.lean. -/

namespace Sys2Proof

/-- The row of the table is a pseudoinstruction (49_pseudoinstructions.md R500). -/
def Instr.isPseudo : Instr → Bool
  | .beqz .. | .bgez .. | .bgt .. | .bgtu .. | .bgtz .. | .ble .. | .bleu .. | .blez .. | .bltz .. | .bnez ..
  | .csrr .. | .csrc .. | .csrci .. | .csrs .. | .csrsi .. | .csrw .. | .csrwi .. | .fabsD .. | .fabsS .. | .fmvD ..
  | .fmvS .. | .fnegD .. | .fnegS .. | .frcsr .. | .frflags .. | .frrm .. | .fscsr .. | .fsflags .. | .fsrm ..
  | .j .. | .jr .. | .mv .. | .neg .. | .negw .. | .nop | .not .. | .rdcycle .. | .rdcycleh .. | .rdinstret ..
  | .rdinstreth .. | .rdtime .. | .rdtimeh .. | .ret | .seqz .. | .sextW .. | .sgtz .. | .sltz .. | .snez ..
  | .call .. | .la .. | .li .. | .lla .. | .tail .. => true
  | .add .. | .addi .. | .addiw .. | .addw .. | .amoaddD .. | .amoaddW .. | .amoandD .. | .amoandW .. | .amomaxD ..
  | .amomaxW .. | .amomaxuD .. | .amomaxuW .. | .amominD .. | .amominW .. | .amominuD .. | .amominuW .. | .amoorD ..
  | .amoorW .. | .amoswapD .. | .amoswapW .. | .amoxorD .. | .amoxorW .. | .and .. | .andi .. | .auipc .. | .beq ..
  | .bge .. | .bgeu .. | .blt .. | .bltu .. | .bne .. | .cAdd .. | .cAddi .. | .cAddi16sp .. | .cAddi4spn ..
  | .cAddiw .. | .cAnd .. | .cAddw .. | .cAndi .. | .cBeqz .. | .cBnez .. | .cEbreak | .cFld .. | .cFldsp ..
  | .cFlw .. | .cFlwsp .. | .cFsd .. | .cFsdsp .. | .cFsw .. | .cFswsp .. | .cJ .. | .cJal .. | .cJalr .. | .cJr ..
  | .cLd .. | .cLdsp .. | .cLi .. | .cLui .. | .cLw .. | .cLwsp .. | .cMv .. | .cOr .. | .cSd .. | .cSdsp ..
  | .cSlli .. | .cSrai .. | .cSrli .. | .cSub .. | .cSubw .. | .cSw .. | .cSwsp .. | .cXor .. | .csrrc ..
  | .csrrci .. | .csrrs .. | .csrrsi .. | .csrrw .. | .csrrwi .. | .div .. | .divu .. | .divuw .. | .divw ..
  | .ebreak | .ecall | .faddD .. | .faddS .. | .fclassD .. | .fclassS .. | .fcvtDL .. | .fcvtDLu .. | .fcvtDS ..
  | .fcvtDW .. | .fcvtDWu .. | .fcvtLD .. | .fcvtLS .. | .fcvtLuD .. | .fcvtLuS .. | .fcvtSD .. | .fcvtSL ..
  | .fcvtSLu .. | .fcvtSW .. | .fcvtSWu .. | .fcvtWD .. | .fcvtWuD .. | .fcvtWS .. | .fcvtWuS .. | .fdivD ..
  | .fdivS .. | .fence .. | .fenceI | .feqD .. | .feqS .. | .fld .. | .fleD .. | .fleS .. | .fltD .. | .fltS ..
  | .flw .. | .fmaddD .. | .fmaddS .. | .fmaxD .. | .fmaxS .. | .fminD .. | .fminS .. | .fmsubD .. | .fmsubS ..
  | .fmulD .. | .fmulS .. | .fmvDX .. | .fmvWX .. | .fmvXD .. | .fmvXW .. | .fnmaddD .. | .fnmaddS .. | .fnmsubD ..
  | .fnmsubS .. | .fsd .. | .fsgnjD .. | .fsgnjS .. | .fsgnjnD .. | .fsgnjnS .. | .fsgnjxD .. | .fsgnjxS ..
  | .fsqrtD .. | .fsqrtS .. | .fsubD .. | .fsubS .. | .fsw .. | .jal .. | .jalr .. | .lb .. | .lbu .. | .ld ..
  | .lh .. | .lhu .. | .lrD .. | .lrW .. | .lw .. | .lwu .. | .lui .. | .mret | .mul .. | .mulh .. | .mulhsu ..
  | .mulhu .. | .mulw .. | .or .. | .ori .. | .rem .. | .remu .. | .remuw .. | .remw .. | .sb .. | .scD .. | .scW ..
  | .sd .. | .sfenceVma .. | .sh .. | .sw .. | .sll .. | .slli .. | .slliw .. | .sllw .. | .slt .. | .slti ..
  | .sltiu .. | .sltu .. | .sra .. | .srai .. | .sraiw .. | .sraw .. | .sret | .srl .. | .srli .. | .srliw ..
  | .srlw .. | .sub .. | .subw .. | .wfi | .xor .. | .xori .. => false

/-- The instruction is one of the five pseudoinstructions that expand to more than one instruction
(49_pseudoinstructions.md R513, R535, R536, R537, R555). -/
def Instr.isMacro : Instr → Bool
  | .call .. | .la .. | .li .. | .lla .. | .tail .. => true
  | .add .. | .addi .. | .addiw .. | .addw .. | .amoaddD .. | .amoaddW .. | .amoandD .. | .amoandW .. | .amomaxD ..
  | .amomaxW .. | .amomaxuD .. | .amomaxuW .. | .amominD .. | .amominW .. | .amominuD .. | .amominuW .. | .amoorD ..
  | .amoorW .. | .amoswapD .. | .amoswapW .. | .amoxorD .. | .amoxorW .. | .and .. | .andi .. | .auipc .. | .beq ..
  | .bge .. | .bgeu .. | .blt .. | .bltu .. | .bne .. | .cAdd .. | .cAddi .. | .cAddi16sp .. | .cAddi4spn ..
  | .cAddiw .. | .cAnd .. | .cAddw .. | .cAndi .. | .cBeqz .. | .cBnez .. | .cEbreak | .cFld .. | .cFldsp ..
  | .cFlw .. | .cFlwsp .. | .cFsd .. | .cFsdsp .. | .cFsw .. | .cFswsp .. | .cJ .. | .cJal .. | .cJalr .. | .cJr ..
  | .cLd .. | .cLdsp .. | .cLi .. | .cLui .. | .cLw .. | .cLwsp .. | .cMv .. | .cOr .. | .cSd .. | .cSdsp ..
  | .cSlli .. | .cSrai .. | .cSrli .. | .cSub .. | .cSubw .. | .cSw .. | .cSwsp .. | .cXor .. | .csrrc ..
  | .csrrci .. | .csrrs .. | .csrrsi .. | .csrrw .. | .csrrwi .. | .div .. | .divu .. | .divuw .. | .divw ..
  | .ebreak | .ecall | .faddD .. | .faddS .. | .fclassD .. | .fclassS .. | .fcvtDL .. | .fcvtDLu .. | .fcvtDS ..
  | .fcvtDW .. | .fcvtDWu .. | .fcvtLD .. | .fcvtLS .. | .fcvtLuD .. | .fcvtLuS .. | .fcvtSD .. | .fcvtSL ..
  | .fcvtSLu .. | .fcvtSW .. | .fcvtSWu .. | .fcvtWD .. | .fcvtWuD .. | .fcvtWS .. | .fcvtWuS .. | .fdivD ..
  | .fdivS .. | .fence .. | .fenceI | .feqD .. | .feqS .. | .fld .. | .fleD .. | .fleS .. | .fltD .. | .fltS ..
  | .flw .. | .fmaddD .. | .fmaddS .. | .fmaxD .. | .fmaxS .. | .fminD .. | .fminS .. | .fmsubD .. | .fmsubS ..
  | .fmulD .. | .fmulS .. | .fmvDX .. | .fmvWX .. | .fmvXD .. | .fmvXW .. | .fnmaddD .. | .fnmaddS .. | .fnmsubD ..
  | .fnmsubS .. | .fsd .. | .fsgnjD .. | .fsgnjS .. | .fsgnjnD .. | .fsgnjnS .. | .fsgnjxD .. | .fsgnjxS ..
  | .fsqrtD .. | .fsqrtS .. | .fsubD .. | .fsubS .. | .fsw .. | .jal .. | .jalr .. | .lb .. | .lbu .. | .ld ..
  | .lh .. | .lhu .. | .lrD .. | .lrW .. | .lw .. | .lwu .. | .lui .. | .mret | .mul .. | .mulh .. | .mulhsu ..
  | .mulhu .. | .mulw .. | .or .. | .ori .. | .rem .. | .remu .. | .remuw .. | .remw .. | .sb .. | .scD .. | .scW ..
  | .sd .. | .sfenceVma .. | .sh .. | .sw .. | .sll .. | .slli .. | .slliw .. | .sllw .. | .slt .. | .slti ..
  | .sltiu .. | .sltu .. | .sra .. | .srai .. | .sraiw .. | .sraw .. | .sret | .srl .. | .srli .. | .srliw ..
  | .srlw .. | .sub .. | .subw .. | .wfi | .xor .. | .xori .. | .beqz .. | .bgez .. | .bgt .. | .bgtu .. | .bgtz ..
  | .ble .. | .bleu .. | .blez .. | .bltz .. | .bnez .. | .csrr .. | .csrc .. | .csrci .. | .csrs .. | .csrsi ..
  | .csrw .. | .csrwi .. | .fabsD .. | .fabsS .. | .fmvD .. | .fmvS .. | .fnegD .. | .fnegS .. | .frcsr ..
  | .frflags .. | .frrm .. | .fscsr .. | .fsflags .. | .fsrm .. | .j .. | .jr .. | .mv .. | .neg .. | .negw .. | .nop
  | .not .. | .rdcycle .. | .rdcycleh .. | .rdinstret .. | .rdinstreth .. | .rdtime .. | .rdtimeh .. | .ret
  | .seqz .. | .sextW .. | .sgtz .. | .sltz .. | .snez .. => false

/-- The fields of the instruction are ones its row of the table admits for every XLEN: the ten "Invalid when" sentences
of R151 and the word shifts of R152. -/
def Instr.wf : Instr → Bool
  | .cAdd rd rs2 => rd != 0 && rs2 != 0 -- R151: invalid when rd = x0 or rs2 = x0
  | .cAddi16sp imm => imm != 0 -- R151: invalid when imm = 0
  | .cAddi4spn _ uimm => uimm != 0 -- R151: invalid when uimm = 0
  | .cAddiw rd _ => rd != 0 -- R151: invalid when rd = x0
  | .cJalr rs1 => rs1 != 0 -- R151: invalid when rs1 = x0
  | .cJr rs1 => rs1 != 0 -- R151: invalid when rs1 = x0
  | .cLdsp rd _ => rd != 0 -- R151: invalid when rd = x0
  | .cLwsp rd _ => rd != 0 -- R151: invalid when rd = x0
  | .cLui rd imm => rd != 2 && imm != 0 -- R151: invalid when rd = x2 or imm = 0
  | .cMv _ rs2 => rs2 != 0 -- R151: invalid when rs2 = x0
  | .slliw _ _ shamt => !shamt.getLsbD 5 -- R152: only legal when shamt[5] = 0
  | .srliw _ _ shamt => !shamt.getLsbD 5 -- R152: only legal when shamt[5] = 0
  | .sraiw _ _ shamt => !shamt.getLsbD 5 -- R152: only legal when shamt[5] = 0
  | .add .. | .addi .. | .addiw .. | .addw .. | .amoaddD .. | .amoaddW .. | .amoandD .. | .amoandW .. | .amomaxD ..
  | .amomaxW .. | .amomaxuD .. | .amomaxuW .. | .amominD .. | .amominW .. | .amominuD .. | .amominuW .. | .amoorD ..
  | .amoorW .. | .amoswapD .. | .amoswapW .. | .amoxorD .. | .amoxorW .. | .and .. | .andi .. | .auipc .. | .beq ..
  | .bge .. | .bgeu .. | .blt .. | .bltu .. | .bne .. | .cAddi .. | .cAnd .. | .cAddw .. | .cAndi .. | .cBeqz ..
  | .cBnez .. | .cEbreak | .cFld .. | .cFldsp .. | .cFlw .. | .cFlwsp .. | .cFsd .. | .cFsdsp .. | .cFsw ..
  | .cFswsp .. | .cJ .. | .cJal .. | .cLd .. | .cLi .. | .cLw .. | .cOr .. | .cSd .. | .cSdsp .. | .cSlli ..
  | .cSrai .. | .cSrli .. | .cSub .. | .cSubw .. | .cSw .. | .cSwsp .. | .cXor .. | .csrrc .. | .csrrci ..
  | .csrrs .. | .csrrsi .. | .csrrw .. | .csrrwi .. | .div .. | .divu .. | .divuw .. | .divw .. | .ebreak | .ecall
  | .faddD .. | .faddS .. | .fclassD .. | .fclassS .. | .fcvtDL .. | .fcvtDLu .. | .fcvtDS .. | .fcvtDW ..
  | .fcvtDWu .. | .fcvtLD .. | .fcvtLS .. | .fcvtLuD .. | .fcvtLuS .. | .fcvtSD .. | .fcvtSL .. | .fcvtSLu ..
  | .fcvtSW .. | .fcvtSWu .. | .fcvtWD .. | .fcvtWuD .. | .fcvtWS .. | .fcvtWuS .. | .fdivD .. | .fdivS ..
  | .fence .. | .fenceI | .feqD .. | .feqS .. | .fld .. | .fleD .. | .fleS .. | .fltD .. | .fltS .. | .flw ..
  | .fmaddD .. | .fmaddS .. | .fmaxD .. | .fmaxS .. | .fminD .. | .fminS .. | .fmsubD .. | .fmsubS .. | .fmulD ..
  | .fmulS .. | .fmvDX .. | .fmvWX .. | .fmvXD .. | .fmvXW .. | .fnmaddD .. | .fnmaddS .. | .fnmsubD .. | .fnmsubS ..
  | .fsd .. | .fsgnjD .. | .fsgnjS .. | .fsgnjnD .. | .fsgnjnS .. | .fsgnjxD .. | .fsgnjxS .. | .fsqrtD ..
  | .fsqrtS .. | .fsubD .. | .fsubS .. | .fsw .. | .jal .. | .jalr .. | .lb .. | .lbu .. | .ld .. | .lh .. | .lhu ..
  | .lrD .. | .lrW .. | .lw .. | .lwu .. | .lui .. | .mret | .mul .. | .mulh .. | .mulhsu .. | .mulhu .. | .mulw ..
  | .or .. | .ori .. | .rem .. | .remu .. | .remuw .. | .remw .. | .sb .. | .scD .. | .scW .. | .sd ..
  | .sfenceVma .. | .sh .. | .sw .. | .sll .. | .slli .. | .sllw .. | .slt .. | .slti .. | .sltiu .. | .sltu ..
  | .sra .. | .srai .. | .sraw .. | .sret | .srl .. | .srli .. | .srlw .. | .sub .. | .subw .. | .wfi | .xor ..
  | .xori .. | .beqz .. | .bgez .. | .bgt .. | .bgtu .. | .bgtz .. | .ble .. | .bleu .. | .blez .. | .bltz ..
  | .bnez .. | .csrr .. | .csrc .. | .csrci .. | .csrs .. | .csrsi .. | .csrw .. | .csrwi .. | .fabsD .. | .fabsS ..
  | .fmvD .. | .fmvS .. | .fnegD .. | .fnegS .. | .frcsr .. | .frflags .. | .frrm .. | .fscsr .. | .fsflags ..
  | .fsrm .. | .j .. | .jr .. | .mv .. | .neg .. | .negw .. | .nop | .not .. | .rdcycle .. | .rdcycleh ..
  | .rdinstret .. | .rdinstreth .. | .rdtime .. | .rdtimeh .. | .ret | .seqz .. | .sextW .. | .sgtz .. | .sltz ..
  | .snez .. | .call .. | .la .. | .li .. | .lla .. | .tail .. => true

/-- The instruction takes two bytes (30_encoding.md R120, R121). -/
def Instr.isCompressed : Instr → Bool
  | .cAdd .. | .cAddi .. | .cAddi16sp .. | .cAddi4spn .. | .cAddiw .. | .cAnd .. | .cAddw .. | .cAndi .. | .cBeqz ..
  | .cBnez .. | .cEbreak | .cFld .. | .cFldsp .. | .cFlw .. | .cFlwsp .. | .cFsd .. | .cFsdsp .. | .cFsw ..
  | .cFswsp .. | .cJ .. | .cJal .. | .cJalr .. | .cJr .. | .cLd .. | .cLdsp .. | .cLi .. | .cLui .. | .cLw ..
  | .cLwsp .. | .cMv .. | .cOr .. | .cSd .. | .cSdsp .. | .cSlli .. | .cSrai .. | .cSrli .. | .cSub .. | .cSubw ..
  | .cSw .. | .cSwsp .. | .cXor .. => true
  | .add .. | .addi .. | .addiw .. | .addw .. | .amoaddD .. | .amoaddW .. | .amoandD .. | .amoandW .. | .amomaxD ..
  | .amomaxW .. | .amomaxuD .. | .amomaxuW .. | .amominD .. | .amominW .. | .amominuD .. | .amominuW .. | .amoorD ..
  | .amoorW .. | .amoswapD .. | .amoswapW .. | .amoxorD .. | .amoxorW .. | .and .. | .andi .. | .auipc .. | .beq ..
  | .bge .. | .bgeu .. | .blt .. | .bltu .. | .bne .. | .csrrc .. | .csrrci .. | .csrrs .. | .csrrsi .. | .csrrw ..
  | .csrrwi .. | .div .. | .divu .. | .divuw .. | .divw .. | .ebreak | .ecall | .faddD .. | .faddS .. | .fclassD ..
  | .fclassS .. | .fcvtDL .. | .fcvtDLu .. | .fcvtDS .. | .fcvtDW .. | .fcvtDWu .. | .fcvtLD .. | .fcvtLS ..
  | .fcvtLuD .. | .fcvtLuS .. | .fcvtSD .. | .fcvtSL .. | .fcvtSLu .. | .fcvtSW .. | .fcvtSWu .. | .fcvtWD ..
  | .fcvtWuD .. | .fcvtWS .. | .fcvtWuS .. | .fdivD .. | .fdivS .. | .fence .. | .fenceI | .feqD .. | .feqS ..
  | .fld .. | .fleD .. | .fleS .. | .fltD .. | .fltS .. | .flw .. | .fmaddD .. | .fmaddS .. | .fmaxD .. | .fmaxS ..
  | .fminD .. | .fminS .. | .fmsubD .. | .fmsubS .. | .fmulD .. | .fmulS .. | .fmvDX .. | .fmvWX .. | .fmvXD ..
  | .fmvXW .. | .fnmaddD .. | .fnmaddS .. | .fnmsubD .. | .fnmsubS .. | .fsd .. | .fsgnjD .. | .fsgnjS ..
  | .fsgnjnD .. | .fsgnjnS .. | .fsgnjxD .. | .fsgnjxS .. | .fsqrtD .. | .fsqrtS .. | .fsubD .. | .fsubS .. | .fsw ..
  | .jal .. | .jalr .. | .lb .. | .lbu .. | .ld .. | .lh .. | .lhu .. | .lrD .. | .lrW .. | .lw .. | .lwu ..
  | .lui .. | .mret | .mul .. | .mulh .. | .mulhsu .. | .mulhu .. | .mulw .. | .or .. | .ori .. | .rem .. | .remu ..
  | .remuw .. | .remw .. | .sb .. | .scD .. | .scW .. | .sd .. | .sfenceVma .. | .sh .. | .sw .. | .sll .. | .slli ..
  | .slliw .. | .sllw .. | .slt .. | .slti .. | .sltiu .. | .sltu .. | .sra .. | .srai .. | .sraiw .. | .sraw ..
  | .sret | .srl .. | .srli .. | .srliw .. | .srlw .. | .sub .. | .subw .. | .wfi | .xor .. | .xori .. | .beqz ..
  | .bgez .. | .bgt .. | .bgtu .. | .bgtz .. | .ble .. | .bleu .. | .blez .. | .bltz .. | .bnez .. | .csrr ..
  | .csrc .. | .csrci .. | .csrs .. | .csrsi .. | .csrw .. | .csrwi .. | .fabsD .. | .fabsS .. | .fmvD .. | .fmvS ..
  | .fnegD .. | .fnegS .. | .frcsr .. | .frflags .. | .frrm .. | .fscsr .. | .fsflags .. | .fsrm .. | .j .. | .jr ..
  | .mv .. | .neg .. | .negw .. | .nop | .not .. | .rdcycle .. | .rdcycleh .. | .rdinstret .. | .rdinstreth ..
  | .rdtime .. | .rdtimeh .. | .ret | .seqz .. | .sextW .. | .sgtz .. | .sltz .. | .snez .. | .call .. | .la ..
  | .li .. | .lla .. | .tail .. => false

end Sys2Proof
end

