-- ==== Sys2Proof/Decode.lean ====
section
/-! DEFINITION. From bits to instructions and back (spec 30_encoding.md).

`decode` reads one parcel: a word of 32 bits or a halfword of 16 (R121). It is total: what selects no row of
spec/opcode_table.json under the configuration, or breaks a constraint of R151 or R152, is `none` (R150).
`encodeOne` writes the parcel of one instruction from the same encoding lines, `encode` the parcels of any term of
`Instr`, pseudoinstructions included (49_pseudoinstructions.md R500). -/

namespace Sys2Proof

/-- What one fetch delivers: a compressed instruction or a 32-bit one (R121). -/
inductive Parcel where
  | half (h : Half)
  | word (w : Word32)
deriving DecidableEq, Repr

/-- The parcel that two consecutive halfwords begin: 32 bits when the low one ends in 11 (R121, R122). -/
def Parcel.ofHalves (lo hi : Half) : Parcel :=
  if lo.extractLsb' 0 2 = 0b11#2 then .word (hi ++ lo) else .half lo

/-- The instruction bits, zero-extended: the `info` of IllegalInstruction (60_exceptions.md R602). -/
def Parcel.bits : Parcel → Word
  | .half h => h.setWidth 64
  | .word w => w.setWidth 64

/-! ## The fields of a 32-bit word (R123 to R130) -/

def opcode (w : Word32) : BitVec 7 := w.extractLsb' 0 7
def rdOf (w : Word32) : Reg := w.extractLsb' 7 5
def funct3 (w : Word32) : BitVec 3 := w.extractLsb' 12 3
def rs1Of (w : Word32) : Reg := w.extractLsb' 15 5
def rs2Of (w : Word32) : Reg := w.extractLsb' 20 5
def rs3Of (w : Word32) : Reg := w.extractLsb' 27 5
def funct7 (w : Word32) : BitVec 7 := w.extractLsb' 25 7
/-- The constant bits 31:26 of a shift by an immediate (R125). -/
def funct6 (w : Word32) : BitVec 6 := w.extractLsb' 26 6
/-- The constant bits 31:27 of an atomic (R124). -/
def funct5 (w : Word32) : BitVec 5 := w.extractLsb' 27 5
/-- The constant bits 26:25 of an R4-type word (R130). -/
def fmtR4 (w : Word32) : BitVec 2 := w.extractLsb' 25 2
/-- immediate[11:0], offset[11:0] or csr of the I-type (R125). -/
def immI (w : Word32) : BitVec 12 := w.extractLsb' 20 12
/-- offset[11:0] of the S-type (R126). -/
def immS (w : Word32) : BitVec 12 := w.extractLsb' 25 7 ++ w.extractLsb' 7 5
/-- offset[12:1] of the B-type (R127). -/
def offB (w : Word32) : BitVec 12 :=
  w.extractLsb' 31 1 ++ w.extractLsb' 7 1 ++ w.extractLsb' 25 6 ++ w.extractLsb' 8 4
/-- immediate[31:12] of the U-type (R128). -/
def immU (w : Word32) : BitVec 20 := w.extractLsb' 12 20
/-- offset[20:1] of the J-type (R129). -/
def offJ (w : Word32) : BitVec 20 :=
  w.extractLsb' 31 1 ++ w.extractLsb' 12 8 ++ w.extractLsb' 20 1 ++ w.extractLsb' 21 10

/-! ## The formats of a 32-bit word (R124 to R130) -/

/-- R-type (R124). -/
def rType (f7 : BitVec 7) (rs2 rs1 : Reg) (f3 : BitVec 3) (rd : Reg) (op : BitVec 7) : Word32 :=
  f7 ++ rs2 ++ rs1 ++ f3 ++ rd ++ op
/-- I-type (R125). -/
def iType (imm : BitVec 12) (rs1 : Reg) (f3 : BitVec 3) (rd : Reg) (op : BitVec 7) : Word32 :=
  imm ++ rs1 ++ f3 ++ rd ++ op
/-- The shift-immediate variant of the I-type (R125 (a)). -/
def shType (f6 shamt : BitVec 6) (rs1 : Reg) (f3 : BitVec 3) (rd : Reg) (op : BitVec 7) : Word32 :=
  f6 ++ shamt ++ rs1 ++ f3 ++ rd ++ op
/-- The A-extension variant of the R-type (R124 (c)). -/
def aType (f5 : BitVec 5) (aq rl : Bool) (rs2 rs1 : Reg) (f3 : BitVec 3) (rd : Reg) (op : BitVec 7) : Word32 :=
  f5 ++ BitVec.ofBool aq ++ BitVec.ofBool rl ++ rs2 ++ rs1 ++ f3 ++ rd ++ op
/-- S-type (R126). -/
def sType (off : BitVec 12) (rs2 rs1 : Reg) (f3 : BitVec 3) (op : BitVec 7) : Word32 :=
  off.extractLsb' 5 7 ++ rs2 ++ rs1 ++ f3 ++ off.extractLsb' 0 5 ++ op
/-- B-type (R127); `off` is offset[12:1]. -/
def bType (off : BitVec 12) (rs2 rs1 : Reg) (f3 : BitVec 3) (op : BitVec 7) : Word32 :=
  off.extractLsb' 11 1 ++ off.extractLsb' 4 6 ++ rs2 ++ rs1 ++ f3 ++ off.extractLsb' 0 4 ++
    off.extractLsb' 10 1 ++ op
/-- U-type (R128); `imm` is immediate[31:12]. -/
def uType (imm : BitVec 20) (rd : Reg) (op : BitVec 7) : Word32 := imm ++ rd ++ op
/-- J-type (R129); `off` is offset[20:1]. -/
def jType (off : BitVec 20) (rd : Reg) (op : BitVec 7) : Word32 :=
  off.extractLsb' 19 1 ++ off.extractLsb' 0 10 ++ off.extractLsb' 10 1 ++ off.extractLsb' 11 8 ++ rd ++ op
/-- R4-type (R130). -/
def r4Type (rs3 : Reg) (fmt : BitVec 2) (rs2 rs1 : Reg) (rm : BitVec 3) (rd : Reg) (op : BitVec 7) : Word32 :=
  rs3 ++ fmt ++ rs2 ++ rs1 ++ rm ++ rd ++ op

/-! ## Availability (R150, R152, R153) -/

/-- The instruction exists for the machine's XLEN and extensions: the ISA tag of its row (R150, R153), and R152 for the
shifts by an immediate, whose shamt[5] must be 0 when XLEN = 32. -/
def Instr.available (c : Config) : Instr → Bool
  | .add .. | .addi .. | .and .. | .andi .. | .auipc .. | .beq .. | .bge .. | .bgeu .. | .blt .. | .bltu .. | .bne ..
  | .csrrc .. | .csrrci .. | .csrrs .. | .csrrsi .. | .csrrw .. | .csrrwi .. | .ebreak | .ecall | .fence .. | .fenceI
  | .jal .. | .jalr .. | .lb .. | .lbu .. | .lh .. | .lhu .. | .lw .. | .lui .. | .mret | .or .. | .ori .. | .sb ..
  | .sfenceVma .. | .sh .. | .sw .. | .sll .. | .slt .. | .slti .. | .sltiu .. | .sltu .. | .sra .. | .sret | .srl ..
  | .sub .. | .wfi | .xor .. | .xori .. | .beqz .. | .bgez .. | .bgt .. | .bgtu .. | .bgtz .. | .ble .. | .bleu ..
  | .blez .. | .bltz .. | .bnez .. | .csrr .. | .csrc .. | .csrci .. | .csrs .. | .csrsi .. | .csrw .. | .csrwi ..
  | .j .. | .jr .. | .mv .. | .neg .. | .nop | .not .. | .rdcycle .. | .rdinstret .. | .rdtime .. | .ret | .seqz ..
  | .sgtz .. | .sltz .. | .snez .. | .call .. | .la .. | .li .. | .lla .. | .tail .. => true
  | .addiw .. | .addw .. | .ld .. | .lwu .. | .sd .. | .slliw .. | .sllw .. | .sraiw .. | .sraw .. | .srliw ..
  | .srlw .. | .subw .. | .negw .. | .sextW .. => c.xlen == .rv64
  | .amoaddD .. | .amoandD .. | .amomaxD .. | .amomaxuD .. | .amominD .. | .amominuD .. | .amoorD .. | .amoswapD ..
  | .amoxorD .. | .lrD .. | .scD .. => c.xlen == .rv64 && c.extA
  | .amoaddW .. | .amoandW .. | .amomaxW .. | .amomaxuW .. | .amominW .. | .amominuW .. | .amoorW .. | .amoswapW ..
  | .amoxorW .. | .lrW .. | .scW .. => c.extA
  | .cAdd .. | .cAddi .. | .cAddi16sp .. | .cAddi4spn .. | .cAnd .. | .cAndi .. | .cBeqz .. | .cBnez .. | .cEbreak
  | .cJ .. | .cJalr .. | .cJr .. | .cLi .. | .cLui .. | .cLw .. | .cLwsp .. | .cMv .. | .cOr .. | .cSub .. | .cSw ..
  | .cSwsp .. | .cXor .. => c.extC
  | .cAddiw .. | .cAddw .. | .cLd .. | .cLdsp .. | .cSd .. | .cSdsp .. | .cSubw .. => c.xlen == .rv64 && c.extC
  | .cFld .. | .cFldsp .. | .cFsd .. | .cFsdsp .. => c.extD && c.extC
  | .cFlw .. | .cFlwsp .. | .cFsw .. | .cFswsp .. => c.xlen == .rv32 && c.extF && c.extC
  | .cJal .. => c.xlen == .rv32 && c.extC
  | .div .. | .divu .. | .mul .. | .mulh .. | .mulhsu .. | .mulhu .. | .rem .. | .remu .. => c.extM
  | .divuw .. | .divw .. | .mulw .. | .remuw .. | .remw .. => c.xlen == .rv64 && c.extM
  | .faddD .. | .fclassD .. | .fcvtDS .. | .fcvtDW .. | .fcvtDWu .. | .fcvtSD .. | .fcvtWD .. | .fcvtWuD ..
  | .fdivD .. | .feqD .. | .fld .. | .fleD .. | .fltD .. | .fmaddD .. | .fmaxD .. | .fminD .. | .fmsubD ..
  | .fmulD .. | .fnmaddD .. | .fnmsubD .. | .fsd .. | .fsgnjD .. | .fsgnjnD .. | .fsgnjxD .. | .fsqrtD .. | .fsubD ..
  | .fabsD .. | .fmvD .. | .fnegD .. => c.extD
  | .faddS .. | .fclassS .. | .fcvtSW .. | .fcvtSWu .. | .fcvtWS .. | .fcvtWuS .. | .fdivS .. | .feqS .. | .fleS ..
  | .fltS .. | .flw .. | .fmaddS .. | .fmaxS .. | .fminS .. | .fmsubS .. | .fmulS .. | .fmvWX .. | .fmvXW ..
  | .fnmaddS .. | .fnmsubS .. | .fsgnjS .. | .fsgnjnS .. | .fsgnjxS .. | .fsqrtS .. | .fsubS .. | .fsw .. | .fabsS ..
  | .fmvS .. | .fnegS .. | .frcsr .. | .frflags .. | .frrm .. | .fscsr .. | .fsflags .. | .fsrm .. => c.extF
  | .fcvtDL .. | .fcvtDLu .. | .fcvtLD .. | .fcvtLuD .. | .fmvDX .. | .fmvXD .. => c.xlen == .rv64 && c.extD
  | .fcvtLS .. | .fcvtLuS .. | .fcvtSL .. | .fcvtSLu .. => c.xlen == .rv64 && c.extF
  | .rdcycleh .. | .rdinstreth .. | .rdtimeh .. => c.xlen == .rv32
  | .slli _ _ shamt | .srli _ _ shamt | .srai _ _ shamt => c.xlen == .rv64 || !shamt.getLsbD 5
  | .cSlli _ shamt => c.extC && (c.xlen == .rv64 || !shamt.getLsbD 5)
  | .cSrli _ shamt | .cSrai _ shamt => c.extC && (c.xlen == .rv64 || !shamt.getLsbD 5)

/-! ## Decoding a 32-bit word: one function for each major opcode of R147, its rows in the order of the table -/

/-- The rows with opcode 0110011. -/
def decodeOp (w : Word32) : Option Instr :=
  if funct7 w = 0b0000000#7 ∧ funct3 w = 0b000#3 then some (.add (rdOf w) (rs1Of w) (rs2Of w))
  else if funct7 w = 0b0000000#7 ∧ funct3 w = 0b111#3 then some (.and (rdOf w) (rs1Of w) (rs2Of w))
  else if funct7 w = 0b0000000#7 ∧ funct3 w = 0b110#3 then some (.or (rdOf w) (rs1Of w) (rs2Of w))
  else if funct7 w = 0b0000000#7 ∧ funct3 w = 0b001#3 then some (.sll (rdOf w) (rs1Of w) (rs2Of w))
  else if funct7 w = 0b0000000#7 ∧ funct3 w = 0b010#3 then some (.slt (rdOf w) (rs1Of w) (rs2Of w))
  else if funct7 w = 0b0000000#7 ∧ funct3 w = 0b011#3 then some (.sltu (rdOf w) (rs1Of w) (rs2Of w))
  else if funct7 w = 0b0100000#7 ∧ funct3 w = 0b101#3 then some (.sra (rdOf w) (rs1Of w) (rs2Of w))
  else if funct7 w = 0b0000000#7 ∧ funct3 w = 0b101#3 then some (.srl (rdOf w) (rs1Of w) (rs2Of w))
  else if funct7 w = 0b0100000#7 ∧ funct3 w = 0b000#3 then some (.sub (rdOf w) (rs1Of w) (rs2Of w))
  else if funct7 w = 0b0000000#7 ∧ funct3 w = 0b100#3 then some (.xor (rdOf w) (rs1Of w) (rs2Of w))
  else if funct7 w = 0b0000001#7 ∧ funct3 w = 0b000#3 then some (.mul (rdOf w) (rs1Of w) (rs2Of w))
  else if funct7 w = 0b0000001#7 ∧ funct3 w = 0b001#3 then some (.mulh (rdOf w) (rs1Of w) (rs2Of w))
  else if funct7 w = 0b0000001#7 ∧ funct3 w = 0b010#3 then some (.mulhsu (rdOf w) (rs1Of w) (rs2Of w))
  else if funct7 w = 0b0000001#7 ∧ funct3 w = 0b011#3 then some (.mulhu (rdOf w) (rs1Of w) (rs2Of w))
  else if funct7 w = 0b0000001#7 ∧ funct3 w = 0b100#3 then some (.div (rdOf w) (rs1Of w) (rs2Of w))
  else if funct7 w = 0b0000001#7 ∧ funct3 w = 0b101#3 then some (.divu (rdOf w) (rs1Of w) (rs2Of w))
  else if funct7 w = 0b0000001#7 ∧ funct3 w = 0b110#3 then some (.rem (rdOf w) (rs1Of w) (rs2Of w))
  else if funct7 w = 0b0000001#7 ∧ funct3 w = 0b111#3 then some (.remu (rdOf w) (rs1Of w) (rs2Of w))
  else none

/-- The rows with opcode 0010011. -/
def decodeOpImm (w : Word32) : Option Instr :=
  if funct3 w = 0b000#3 then some (.addi (rdOf w) (rs1Of w) (immI w))
  else if funct3 w = 0b111#3 then some (.andi (rdOf w) (rs1Of w) (immI w))
  else if funct3 w = 0b110#3 then some (.ori (rdOf w) (rs1Of w) (immI w))
  else if funct6 w = 0b000000#6 ∧ funct3 w = 0b001#3 then some (.slli (rdOf w) (rs1Of w) (w.extractLsb' 20 6))
  else if funct3 w = 0b010#3 then some (.slti (rdOf w) (rs1Of w) (immI w))
  else if funct3 w = 0b011#3 then some (.sltiu (rdOf w) (rs1Of w) (immI w))
  else if funct6 w = 0b010000#6 ∧ funct3 w = 0b101#3 then some (.srai (rdOf w) (rs1Of w) (w.extractLsb' 20 6))
  else if funct6 w = 0b000000#6 ∧ funct3 w = 0b101#3 then some (.srli (rdOf w) (rs1Of w) (w.extractLsb' 20 6))
  else if funct3 w = 0b100#3 then some (.xori (rdOf w) (rs1Of w) (immI w))
  else none

/-- The rows with opcode 0011011. -/
def decodeOpImm32 (w : Word32) : Option Instr :=
  if funct3 w = 0b000#3 then some (.addiw (rdOf w) (rs1Of w) (immI w))
  else if funct6 w = 0b000000#6 ∧ funct3 w = 0b001#3 then some (.slliw (rdOf w) (rs1Of w) (w.extractLsb' 20 6))
  else if funct6 w = 0b010000#6 ∧ funct3 w = 0b101#3 then some (.sraiw (rdOf w) (rs1Of w) (w.extractLsb' 20 6))
  else if funct6 w = 0b000000#6 ∧ funct3 w = 0b101#3 then some (.srliw (rdOf w) (rs1Of w) (w.extractLsb' 20 6))
  else none

/-- The rows with opcode 0111011. -/
def decodeOp32 (w : Word32) : Option Instr :=
  if funct7 w = 0b0000000#7 ∧ funct3 w = 0b000#3 then some (.addw (rdOf w) (rs1Of w) (rs2Of w))
  else if funct7 w = 0b0000000#7 ∧ funct3 w = 0b001#3 then some (.sllw (rdOf w) (rs1Of w) (rs2Of w))
  else if funct7 w = 0b0100000#7 ∧ funct3 w = 0b101#3 then some (.sraw (rdOf w) (rs1Of w) (rs2Of w))
  else if funct7 w = 0b0000000#7 ∧ funct3 w = 0b101#3 then some (.srlw (rdOf w) (rs1Of w) (rs2Of w))
  else if funct7 w = 0b0100000#7 ∧ funct3 w = 0b000#3 then some (.subw (rdOf w) (rs1Of w) (rs2Of w))
  else if funct7 w = 0b0000001#7 ∧ funct3 w = 0b000#3 then some (.mulw (rdOf w) (rs1Of w) (rs2Of w))
  else if funct7 w = 0b0000001#7 ∧ funct3 w = 0b100#3 then some (.divw (rdOf w) (rs1Of w) (rs2Of w))
  else if funct7 w = 0b0000001#7 ∧ funct3 w = 0b101#3 then some (.divuw (rdOf w) (rs1Of w) (rs2Of w))
  else if funct7 w = 0b0000001#7 ∧ funct3 w = 0b110#3 then some (.remw (rdOf w) (rs1Of w) (rs2Of w))
  else if funct7 w = 0b0000001#7 ∧ funct3 w = 0b111#3 then some (.remuw (rdOf w) (rs1Of w) (rs2Of w))
  else none

/-- The rows with opcode 0010111. -/
def decodeAuipc (w : Word32) : Option Instr :=
  some (.auipc (rdOf w) (immU w))

/-- The rows with opcode 0110111. -/
def decodeLui (w : Word32) : Option Instr :=
  some (.lui (rdOf w) (immU w))

/-- The rows with opcode 1100011. -/
def decodeBranch (w : Word32) : Option Instr :=
  if funct3 w = 0b000#3 then some (.beq (rs1Of w) (rs2Of w) (offB w))
  else if funct3 w = 0b101#3 then some (.bge (rs1Of w) (rs2Of w) (offB w))
  else if funct3 w = 0b111#3 then some (.bgeu (rs1Of w) (rs2Of w) (offB w))
  else if funct3 w = 0b100#3 then some (.blt (rs1Of w) (rs2Of w) (offB w))
  else if funct3 w = 0b110#3 then some (.bltu (rs1Of w) (rs2Of w) (offB w))
  else if funct3 w = 0b001#3 then some (.bne (rs1Of w) (rs2Of w) (offB w))
  else none

/-- The rows with opcode 1101111. -/
def decodeJal (w : Word32) : Option Instr :=
  some (.jal (rdOf w) (offJ w))

/-- The rows with opcode 1100111. -/
def decodeJalr (w : Word32) : Option Instr :=
  if funct3 w = 0b000#3 then some (.jalr (rdOf w) (rs1Of w) (immI w))
  else none

/-- The rows with opcode 0000011. -/
def decodeLoad (w : Word32) : Option Instr :=
  if funct3 w = 0b000#3 then some (.lb (rdOf w) (rs1Of w) (immI w))
  else if funct3 w = 0b100#3 then some (.lbu (rdOf w) (rs1Of w) (immI w))
  else if funct3 w = 0b011#3 then some (.ld (rdOf w) (rs1Of w) (immI w))
  else if funct3 w = 0b001#3 then some (.lh (rdOf w) (rs1Of w) (immI w))
  else if funct3 w = 0b101#3 then some (.lhu (rdOf w) (rs1Of w) (immI w))
  else if funct3 w = 0b010#3 then some (.lw (rdOf w) (rs1Of w) (immI w))
  else if funct3 w = 0b110#3 then some (.lwu (rdOf w) (rs1Of w) (immI w))
  else none

/-- The rows with opcode 0100011. -/
def decodeStore (w : Word32) : Option Instr :=
  if funct3 w = 0b000#3 then some (.sb (rs2Of w) (rs1Of w) (immS w))
  else if funct3 w = 0b011#3 then some (.sd (rs2Of w) (rs1Of w) (immS w))
  else if funct3 w = 0b001#3 then some (.sh (rs2Of w) (rs1Of w) (immS w))
  else if funct3 w = 0b010#3 then some (.sw (rs2Of w) (rs1Of w) (immS w))
  else none

/-- The rows with opcode 1110011. -/
def decodeSystem (w : Word32) : Option Instr :=
  if funct3 w = 0b001#3 then some (.csrrw (rdOf w) (immI w) (rs1Of w))
  else if funct3 w = 0b010#3 then some (.csrrs (rdOf w) (immI w) (rs1Of w))
  else if funct3 w = 0b011#3 then some (.csrrc (rdOf w) (immI w) (rs1Of w))
  else if funct3 w = 0b101#3 then some (.csrrwi (rdOf w) (immI w) (rs1Of w))
  else if funct3 w = 0b110#3 then some (.csrrsi (rdOf w) (immI w) (rs1Of w))
  else if funct3 w = 0b111#3 then some (.csrrci (rdOf w) (immI w) (rs1Of w))
  else if immI w = 0b000000000000#12 ∧ rs1Of w = 0b00000#5 ∧ funct3 w = 0b000#3 ∧ rdOf w = 0b00000#5 then some (.ecall)
  else if immI w = 0b000000000001#12 ∧ rs1Of w = 0b00000#5 ∧ funct3 w = 0b000#3 ∧ rdOf w = 0b00000#5 then some (.ebreak)
  else if funct7 w = 0b0011000#7 ∧ rs2Of w = 0b00010#5 ∧ rs1Of w = 0b00000#5 ∧ funct3 w = 0b000#3 ∧ rdOf w = 0b00000#5 then some (.mret)
  else if funct7 w = 0b0001000#7 ∧ rs2Of w = 0b00010#5 ∧ rs1Of w = 0b00000#5 ∧ funct3 w = 0b000#3 ∧ rdOf w = 0b00000#5 then some (.sret)
  else if funct7 w = 0b0001000#7 ∧ rs2Of w = 0b00101#5 ∧ rs1Of w = 0b00000#5 ∧ funct3 w = 0b000#3 ∧ rdOf w = 0b00000#5 then some (.wfi)
  else if funct7 w = 0b0001001#7 ∧ funct3 w = 0b000#3 ∧ rdOf w = 0b00000#5 then some (.sfenceVma (rs1Of w) (rs2Of w))
  else none

/-- The rows with opcode 0001111. -/
def decodeMiscMem (w : Word32) : Option Instr :=
  if w.extractLsb' 28 4 = 0b0000#4 ∧ rs1Of w = 0b00000#5 ∧ funct3 w = 0b000#3 ∧ rdOf w = 0b00000#5 then some (.fence (w.extractLsb' 24 4) (w.extractLsb' 20 4))
  else if immI w = 0b000000000000#12 ∧ rs1Of w = 0b00000#5 ∧ funct3 w = 0b001#3 ∧ rdOf w = 0b00000#5 then some (.fenceI)
  else none

/-- The rows with opcode 0101111. -/
def decodeAmo (w : Word32) : Option Instr :=
  if funct5 w = 0b00000#5 ∧ funct3 w = 0b011#3 then some (.amoaddD (rdOf w) (rs1Of w) (rs2Of w) (w.getLsbD 26) (w.getLsbD 25))
  else if funct5 w = 0b00000#5 ∧ funct3 w = 0b010#3 then some (.amoaddW (rdOf w) (rs1Of w) (rs2Of w) (w.getLsbD 26) (w.getLsbD 25))
  else if funct5 w = 0b01100#5 ∧ funct3 w = 0b011#3 then some (.amoandD (rdOf w) (rs1Of w) (rs2Of w) (w.getLsbD 26) (w.getLsbD 25))
  else if funct5 w = 0b01100#5 ∧ funct3 w = 0b010#3 then some (.amoandW (rdOf w) (rs1Of w) (rs2Of w) (w.getLsbD 26) (w.getLsbD 25))
  else if funct5 w = 0b10100#5 ∧ funct3 w = 0b011#3 then some (.amomaxD (rdOf w) (rs1Of w) (rs2Of w) (w.getLsbD 26) (w.getLsbD 25))
  else if funct5 w = 0b10100#5 ∧ funct3 w = 0b010#3 then some (.amomaxW (rdOf w) (rs1Of w) (rs2Of w) (w.getLsbD 26) (w.getLsbD 25))
  else if funct5 w = 0b11100#5 ∧ funct3 w = 0b011#3 then some (.amomaxuD (rdOf w) (rs1Of w) (rs2Of w) (w.getLsbD 26) (w.getLsbD 25))
  else if funct5 w = 0b11100#5 ∧ funct3 w = 0b010#3 then some (.amomaxuW (rdOf w) (rs1Of w) (rs2Of w) (w.getLsbD 26) (w.getLsbD 25))
  else if funct5 w = 0b10000#5 ∧ funct3 w = 0b011#3 then some (.amominD (rdOf w) (rs1Of w) (rs2Of w) (w.getLsbD 26) (w.getLsbD 25))
  else if funct5 w = 0b10000#5 ∧ funct3 w = 0b010#3 then some (.amominW (rdOf w) (rs1Of w) (rs2Of w) (w.getLsbD 26) (w.getLsbD 25))
  else if funct5 w = 0b11000#5 ∧ funct3 w = 0b011#3 then some (.amominuD (rdOf w) (rs1Of w) (rs2Of w) (w.getLsbD 26) (w.getLsbD 25))
  else if funct5 w = 0b11000#5 ∧ funct3 w = 0b010#3 then some (.amominuW (rdOf w) (rs1Of w) (rs2Of w) (w.getLsbD 26) (w.getLsbD 25))
  else if funct5 w = 0b01000#5 ∧ funct3 w = 0b011#3 then some (.amoorD (rdOf w) (rs1Of w) (rs2Of w) (w.getLsbD 26) (w.getLsbD 25))
  else if funct5 w = 0b01000#5 ∧ funct3 w = 0b010#3 then some (.amoorW (rdOf w) (rs1Of w) (rs2Of w) (w.getLsbD 26) (w.getLsbD 25))
  else if funct5 w = 0b00001#5 ∧ funct3 w = 0b011#3 then some (.amoswapD (rdOf w) (rs1Of w) (rs2Of w) (w.getLsbD 26) (w.getLsbD 25))
  else if funct5 w = 0b00001#5 ∧ funct3 w = 0b010#3 then some (.amoswapW (rdOf w) (rs1Of w) (rs2Of w) (w.getLsbD 26) (w.getLsbD 25))
  else if funct5 w = 0b00100#5 ∧ funct3 w = 0b011#3 then some (.amoxorD (rdOf w) (rs1Of w) (rs2Of w) (w.getLsbD 26) (w.getLsbD 25))
  else if funct5 w = 0b00100#5 ∧ funct3 w = 0b010#3 then some (.amoxorW (rdOf w) (rs1Of w) (rs2Of w) (w.getLsbD 26) (w.getLsbD 25))
  else if funct5 w = 0b00010#5 ∧ rs2Of w = 0b00000#5 ∧ funct3 w = 0b011#3 then some (.lrD (rdOf w) (rs1Of w) (w.getLsbD 26) (w.getLsbD 25))
  else if funct5 w = 0b00010#5 ∧ rs2Of w = 0b00000#5 ∧ funct3 w = 0b010#3 then some (.lrW (rdOf w) (rs1Of w) (w.getLsbD 26) (w.getLsbD 25))
  else if funct5 w = 0b00011#5 ∧ funct3 w = 0b011#3 then some (.scD (rdOf w) (rs1Of w) (rs2Of w) (w.getLsbD 26) (w.getLsbD 25))
  else if funct5 w = 0b00011#5 ∧ funct3 w = 0b010#3 then some (.scW (rdOf w) (rs1Of w) (rs2Of w) (w.getLsbD 26) (w.getLsbD 25))
  else none

/-- The rows with opcode 1010011. -/
def decodeOpFp (w : Word32) : Option Instr :=
  if funct7 w = 0b0000000#7 then some (.faddS (rdOf w) (rs1Of w) (rs2Of w) (funct3 w))
  else if funct7 w = 0b1110000#7 ∧ rs2Of w = 0b00000#5 ∧ funct3 w = 0b001#3 then some (.fclassS (rdOf w) (rs1Of w))
  else if funct7 w = 0b1100000#7 ∧ rs2Of w = 0b00010#5 then some (.fcvtLS (rdOf w) (rs1Of w) (funct3 w))
  else if funct7 w = 0b1100000#7 ∧ rs2Of w = 0b00011#5 then some (.fcvtLuS (rdOf w) (rs1Of w) (funct3 w))
  else if funct7 w = 0b1101000#7 ∧ rs2Of w = 0b00010#5 then some (.fcvtSL (rdOf w) (rs1Of w) (funct3 w))
  else if funct7 w = 0b1101000#7 ∧ rs2Of w = 0b00011#5 then some (.fcvtSLu (rdOf w) (rs1Of w) (funct3 w))
  else if funct7 w = 0b1101000#7 ∧ rs2Of w = 0b00000#5 then some (.fcvtSW (rdOf w) (rs1Of w) (funct3 w))
  else if funct7 w = 0b1101000#7 ∧ rs2Of w = 0b00001#5 then some (.fcvtSWu (rdOf w) (rs1Of w) (funct3 w))
  else if funct7 w = 0b1100000#7 ∧ rs2Of w = 0b00000#5 then some (.fcvtWS (rdOf w) (rs1Of w) (funct3 w))
  else if funct7 w = 0b1100000#7 ∧ rs2Of w = 0b00001#5 then some (.fcvtWuS (rdOf w) (rs1Of w) (funct3 w))
  else if funct7 w = 0b0001100#7 then some (.fdivS (rdOf w) (rs1Of w) (rs2Of w) (funct3 w))
  else if funct7 w = 0b1010000#7 ∧ funct3 w = 0b010#3 then some (.feqS (rdOf w) (rs1Of w) (rs2Of w))
  else if funct7 w = 0b1010000#7 ∧ funct3 w = 0b000#3 then some (.fleS (rdOf w) (rs1Of w) (rs2Of w))
  else if funct7 w = 0b1010000#7 ∧ funct3 w = 0b001#3 then some (.fltS (rdOf w) (rs1Of w) (rs2Of w))
  else if funct7 w = 0b0010100#7 ∧ funct3 w = 0b001#3 then some (.fmaxS (rdOf w) (rs1Of w) (rs2Of w))
  else if funct7 w = 0b0010100#7 ∧ funct3 w = 0b000#3 then some (.fminS (rdOf w) (rs1Of w) (rs2Of w))
  else if funct7 w = 0b0001000#7 then some (.fmulS (rdOf w) (rs1Of w) (rs2Of w) (funct3 w))
  else if funct7 w = 0b1111000#7 ∧ rs2Of w = 0b00000#5 ∧ funct3 w = 0b000#3 then some (.fmvWX (rdOf w) (rs1Of w))
  else if funct7 w = 0b1110000#7 ∧ rs2Of w = 0b00000#5 ∧ funct3 w = 0b000#3 then some (.fmvXW (rdOf w) (rs1Of w))
  else if funct7 w = 0b0010000#7 ∧ funct3 w = 0b000#3 then some (.fsgnjS (rdOf w) (rs1Of w) (rs2Of w))
  else if funct7 w = 0b0010000#7 ∧ funct3 w = 0b001#3 then some (.fsgnjnS (rdOf w) (rs1Of w) (rs2Of w))
  else if funct7 w = 0b0010000#7 ∧ funct3 w = 0b010#3 then some (.fsgnjxS (rdOf w) (rs1Of w) (rs2Of w))
  else if funct7 w = 0b0101100#7 ∧ rs2Of w = 0b00000#5 then some (.fsqrtS (rdOf w) (rs1Of w) (funct3 w))
  else if funct7 w = 0b0000100#7 then some (.fsubS (rdOf w) (rs1Of w) (rs2Of w) (funct3 w))
  else if funct7 w = 0b0000001#7 then some (.faddD (rdOf w) (rs1Of w) (rs2Of w) (funct3 w))
  else if funct7 w = 0b1110001#7 ∧ rs2Of w = 0b00000#5 ∧ funct3 w = 0b001#3 then some (.fclassD (rdOf w) (rs1Of w))
  else if funct7 w = 0b1101001#7 ∧ rs2Of w = 0b00010#5 then some (.fcvtDL (rdOf w) (rs1Of w) (funct3 w))
  else if funct7 w = 0b1101001#7 ∧ rs2Of w = 0b00011#5 then some (.fcvtDLu (rdOf w) (rs1Of w) (funct3 w))
  else if funct7 w = 0b0100001#7 ∧ rs2Of w = 0b00000#5 then some (.fcvtDS (rdOf w) (rs1Of w) (funct3 w))
  else if funct7 w = 0b1101001#7 ∧ rs2Of w = 0b00000#5 then some (.fcvtDW (rdOf w) (rs1Of w) (funct3 w))
  else if funct7 w = 0b1101001#7 ∧ rs2Of w = 0b00001#5 then some (.fcvtDWu (rdOf w) (rs1Of w) (funct3 w))
  else if funct7 w = 0b1100001#7 ∧ rs2Of w = 0b00010#5 then some (.fcvtLD (rdOf w) (rs1Of w) (funct3 w))
  else if funct7 w = 0b1100001#7 ∧ rs2Of w = 0b00011#5 then some (.fcvtLuD (rdOf w) (rs1Of w) (funct3 w))
  else if funct7 w = 0b0100000#7 ∧ rs2Of w = 0b00001#5 then some (.fcvtSD (rdOf w) (rs1Of w) (funct3 w))
  else if funct7 w = 0b1100001#7 ∧ rs2Of w = 0b00000#5 then some (.fcvtWD (rdOf w) (rs1Of w) (funct3 w))
  else if funct7 w = 0b1100001#7 ∧ rs2Of w = 0b00001#5 then some (.fcvtWuD (rdOf w) (rs1Of w) (funct3 w))
  else if funct7 w = 0b0001101#7 then some (.fdivD (rdOf w) (rs1Of w) (rs2Of w) (funct3 w))
  else if funct7 w = 0b1010001#7 ∧ funct3 w = 0b010#3 then some (.feqD (rdOf w) (rs1Of w) (rs2Of w))
  else if funct7 w = 0b1010001#7 ∧ funct3 w = 0b000#3 then some (.fleD (rdOf w) (rs1Of w) (rs2Of w))
  else if funct7 w = 0b1010001#7 ∧ funct3 w = 0b001#3 then some (.fltD (rdOf w) (rs1Of w) (rs2Of w))
  else if funct7 w = 0b0010101#7 ∧ funct3 w = 0b001#3 then some (.fmaxD (rdOf w) (rs1Of w) (rs2Of w))
  else if funct7 w = 0b0010101#7 ∧ funct3 w = 0b000#3 then some (.fminD (rdOf w) (rs1Of w) (rs2Of w))
  else if funct7 w = 0b0001001#7 then some (.fmulD (rdOf w) (rs1Of w) (rs2Of w) (funct3 w))
  else if funct7 w = 0b1111001#7 ∧ rs2Of w = 0b00000#5 ∧ funct3 w = 0b000#3 then some (.fmvDX (rdOf w) (rs1Of w))
  else if funct7 w = 0b1110001#7 ∧ rs2Of w = 0b00000#5 ∧ funct3 w = 0b000#3 then some (.fmvXD (rdOf w) (rs1Of w))
  else if funct7 w = 0b0010001#7 ∧ funct3 w = 0b000#3 then some (.fsgnjD (rdOf w) (rs1Of w) (rs2Of w))
  else if funct7 w = 0b0010001#7 ∧ funct3 w = 0b001#3 then some (.fsgnjnD (rdOf w) (rs1Of w) (rs2Of w))
  else if funct7 w = 0b0010001#7 ∧ funct3 w = 0b010#3 then some (.fsgnjxD (rdOf w) (rs1Of w) (rs2Of w))
  else if funct7 w = 0b0101101#7 ∧ rs2Of w = 0b00000#5 then some (.fsqrtD (rdOf w) (rs1Of w) (funct3 w))
  else if funct7 w = 0b0000101#7 then some (.fsubD (rdOf w) (rs1Of w) (rs2Of w) (funct3 w))
  else none

/-- The rows with opcode 0000111. -/
def decodeLoadFp (w : Word32) : Option Instr :=
  if funct3 w = 0b010#3 then some (.flw (rdOf w) (rs1Of w) (immI w))
  else if funct3 w = 0b011#3 then some (.fld (rdOf w) (rs1Of w) (immI w))
  else none

/-- The rows with opcode 1000011. -/
def decodeMadd (w : Word32) : Option Instr :=
  if fmtR4 w = 0b00#2 then some (.fmaddS (rdOf w) (rs1Of w) (rs2Of w) (rs3Of w) (funct3 w))
  else if fmtR4 w = 0b01#2 then some (.fmaddD (rdOf w) (rs1Of w) (rs2Of w) (rs3Of w) (funct3 w))
  else none

/-- The rows with opcode 1000111. -/
def decodeMsub (w : Word32) : Option Instr :=
  if fmtR4 w = 0b00#2 then some (.fmsubS (rdOf w) (rs1Of w) (rs2Of w) (rs3Of w) (funct3 w))
  else if fmtR4 w = 0b01#2 then some (.fmsubD (rdOf w) (rs1Of w) (rs2Of w) (rs3Of w) (funct3 w))
  else none

/-- The rows with opcode 1001111. -/
def decodeNmadd (w : Word32) : Option Instr :=
  if fmtR4 w = 0b00#2 then some (.fnmaddS (rdOf w) (rs1Of w) (rs2Of w) (rs3Of w) (funct3 w))
  else if fmtR4 w = 0b01#2 then some (.fnmaddD (rdOf w) (rs1Of w) (rs2Of w) (rs3Of w) (funct3 w))
  else none

/-- The rows with opcode 1001011. -/
def decodeNmsub (w : Word32) : Option Instr :=
  if fmtR4 w = 0b00#2 then some (.fnmsubS (rdOf w) (rs1Of w) (rs2Of w) (rs3Of w) (funct3 w))
  else if fmtR4 w = 0b01#2 then some (.fnmsubD (rdOf w) (rs1Of w) (rs2Of w) (rs3Of w) (funct3 w))
  else none

/-- The rows with opcode 0100111. -/
def decodeStoreFp (w : Word32) : Option Instr :=
  if funct3 w = 0b010#3 then some (.fsw (rs2Of w) (rs1Of w) (immS w))
  else if funct3 w = 0b011#3 then some (.fsd (rs2Of w) (rs1Of w) (immS w))
  else none

/-- The row a 32-bit word selects, whatever the configuration (R147, R155). -/
def decodeWord (w : Word32) : Option Instr :=
  if opcode w = 0b0110011#7 then decodeOp w
  else if opcode w = 0b0010011#7 then decodeOpImm w
  else if opcode w = 0b0011011#7 then decodeOpImm32 w
  else if opcode w = 0b0111011#7 then decodeOp32 w
  else if opcode w = 0b0010111#7 then decodeAuipc w
  else if opcode w = 0b0110111#7 then decodeLui w
  else if opcode w = 0b1100011#7 then decodeBranch w
  else if opcode w = 0b1101111#7 then decodeJal w
  else if opcode w = 0b1100111#7 then decodeJalr w
  else if opcode w = 0b0000011#7 then decodeLoad w
  else if opcode w = 0b0100011#7 then decodeStore w
  else if opcode w = 0b1110011#7 then decodeSystem w
  else if opcode w = 0b0001111#7 then decodeMiscMem w
  else if opcode w = 0b0101111#7 then decodeAmo w
  else if opcode w = 0b1010011#7 then decodeOpFp w
  else if opcode w = 0b0000111#7 then decodeLoadFp w
  else if opcode w = 0b1000011#7 then decodeMadd w
  else if opcode w = 0b1000111#7 then decodeMsub w
  else if opcode w = 0b1001111#7 then decodeNmadd w
  else if opcode w = 0b1001011#7 then decodeNmsub w
  else if opcode w = 0b0100111#7 then decodeStoreFp w
  else none

/-! ## Decoding a halfword: one function for each quadrant (R148, R149, R153, R154) -/

/-- The rows with inst[1:0] = 00. -/
def decodeQuadrant0 (xl : Xlen) (h : Half) : Option Instr :=
  if h.extractLsb' 13 3 = 0b000#3 then
    some (.cAddi4spn (h.extractLsb' 2 3) (h.extractLsb' 7 4 ++ h.extractLsb' 11 2 ++ h.extractLsb' 5 1 ++ h.extractLsb' 6 1))
  else if h.extractLsb' 13 3 = 0b001#3 then
    some (.cFld (h.extractLsb' 2 3) (h.extractLsb' 7 3) (h.extractLsb' 5 2 ++ h.extractLsb' 10 3))
  else if h.extractLsb' 13 3 = 0b010#3 then
    some (.cLw (h.extractLsb' 2 3) (h.extractLsb' 7 3) (h.extractLsb' 5 1 ++ h.extractLsb' 10 3 ++ h.extractLsb' 6 1))
  else if h.extractLsb' 13 3 = 0b011#3 then
    match xl with
    | .rv32 => some (.cFlw (h.extractLsb' 2 3) (h.extractLsb' 7 3) (h.extractLsb' 5 1 ++ h.extractLsb' 10 3 ++ h.extractLsb' 6 1))
    | .rv64 => some (.cLd (h.extractLsb' 2 3) (h.extractLsb' 7 3) (h.extractLsb' 5 2 ++ h.extractLsb' 10 3))
  else if h.extractLsb' 13 3 = 0b101#3 then
    some (.cFsd (h.extractLsb' 2 3) (h.extractLsb' 7 3) (h.extractLsb' 5 2 ++ h.extractLsb' 10 3))
  else if h.extractLsb' 13 3 = 0b110#3 then
    some (.cSw (h.extractLsb' 2 3) (h.extractLsb' 7 3) (h.extractLsb' 5 1 ++ h.extractLsb' 10 3 ++ h.extractLsb' 6 1))
  else if h.extractLsb' 13 3 = 0b111#3 then
    match xl with
    | .rv32 => some (.cFsw (h.extractLsb' 2 3) (h.extractLsb' 7 3) (h.extractLsb' 5 1 ++ h.extractLsb' 10 3 ++ h.extractLsb' 6 1))
    | .rv64 => some (.cSd (h.extractLsb' 2 3) (h.extractLsb' 7 3) (h.extractLsb' 5 2 ++ h.extractLsb' 10 3))
  else none

/-- The rows with inst[1:0] = 01. -/
def decodeQuadrant1 (xl : Xlen) (h : Half) : Option Instr :=
  if h.extractLsb' 13 3 = 0b000#3 then
    some (.cAddi (h.extractLsb' 7 5) (h.extractLsb' 12 1 ++ h.extractLsb' 2 5))
  else if h.extractLsb' 13 3 = 0b001#3 then
    match xl with
    | .rv32 => some (.cJal (h.extractLsb' 12 1 ++ h.extractLsb' 8 1 ++ h.extractLsb' 9 2 ++ h.extractLsb' 6 1 ++ h.extractLsb' 7 1 ++ h.extractLsb' 2 1 ++ h.extractLsb' 11 1 ++ h.extractLsb' 3 3))
    | .rv64 => some (.cAddiw (h.extractLsb' 7 5) (h.extractLsb' 12 1 ++ h.extractLsb' 2 5))
  else if h.extractLsb' 13 3 = 0b010#3 then
    some (.cLi (h.extractLsb' 7 5) (h.extractLsb' 12 1 ++ h.extractLsb' 2 5))
  else if h.extractLsb' 13 3 = 0b011#3 then
    if h.extractLsb' 7 5 = 0b00010#5 then some (.cAddi16sp (h.extractLsb' 12 1 ++ h.extractLsb' 3 2 ++ h.extractLsb' 5 1 ++ h.extractLsb' 2 1 ++ h.extractLsb' 6 1))
    else some (.cLui (h.extractLsb' 7 5) (h.extractLsb' 12 1 ++ h.extractLsb' 2 5))
  else if h.extractLsb' 13 3 = 0b100#3 then
    if h.extractLsb' 10 3 = 0b011#3 ∧ h.extractLsb' 5 2 = 0b11#2 then some (.cAnd (h.extractLsb' 7 3) (h.extractLsb' 2 3))
    else if h.extractLsb' 10 3 = 0b111#3 ∧ h.extractLsb' 5 2 = 0b01#2 then some (.cAddw (h.extractLsb' 7 3) (h.extractLsb' 2 3))
    else if h.extractLsb' 10 2 = 0b10#2 then some (.cAndi (h.extractLsb' 7 3) (h.extractLsb' 12 1 ++ h.extractLsb' 2 5))
    else if h.extractLsb' 10 3 = 0b011#3 ∧ h.extractLsb' 5 2 = 0b10#2 then some (.cOr (h.extractLsb' 7 3) (h.extractLsb' 2 3))
    else if h.extractLsb' 10 2 = 0b01#2 then some (.cSrai (h.extractLsb' 7 3) (h.extractLsb' 12 1 ++ h.extractLsb' 2 5))
    else if h.extractLsb' 10 2 = 0b00#2 then some (.cSrli (h.extractLsb' 7 3) (h.extractLsb' 12 1 ++ h.extractLsb' 2 5))
    else if h.extractLsb' 10 3 = 0b011#3 ∧ h.extractLsb' 5 2 = 0b00#2 then some (.cSub (h.extractLsb' 7 3) (h.extractLsb' 2 3))
    else if h.extractLsb' 10 3 = 0b111#3 ∧ h.extractLsb' 5 2 = 0b00#2 then some (.cSubw (h.extractLsb' 7 3) (h.extractLsb' 2 3))
    else if h.extractLsb' 10 3 = 0b011#3 ∧ h.extractLsb' 5 2 = 0b01#2 then some (.cXor (h.extractLsb' 7 3) (h.extractLsb' 2 3))
    else none
  else if h.extractLsb' 13 3 = 0b101#3 then
    some (.cJ (h.extractLsb' 12 1 ++ h.extractLsb' 8 1 ++ h.extractLsb' 9 2 ++ h.extractLsb' 6 1 ++ h.extractLsb' 7 1 ++ h.extractLsb' 2 1 ++ h.extractLsb' 11 1 ++ h.extractLsb' 3 3))
  else if h.extractLsb' 13 3 = 0b110#3 then
    some (.cBeqz (h.extractLsb' 7 3) (h.extractLsb' 12 1 ++ h.extractLsb' 5 2 ++ h.extractLsb' 2 1 ++ h.extractLsb' 10 2 ++ h.extractLsb' 3 2))
  else if h.extractLsb' 13 3 = 0b111#3 then
    some (.cBnez (h.extractLsb' 7 3) (h.extractLsb' 12 1 ++ h.extractLsb' 5 2 ++ h.extractLsb' 2 1 ++ h.extractLsb' 10 2 ++ h.extractLsb' 3 2))
  else none

/-- The rows with inst[1:0] = 10. -/
def decodeQuadrant2 (xl : Xlen) (h : Half) : Option Instr :=
  if h.extractLsb' 13 3 = 0b000#3 then
    some (.cSlli (h.extractLsb' 7 5) (h.extractLsb' 12 1 ++ h.extractLsb' 2 5))
  else if h.extractLsb' 13 3 = 0b001#3 then
    some (.cFldsp (h.extractLsb' 7 5) (h.extractLsb' 2 3 ++ h.extractLsb' 12 1 ++ h.extractLsb' 5 2))
  else if h.extractLsb' 13 3 = 0b010#3 then
    some (.cLwsp (h.extractLsb' 7 5) (h.extractLsb' 2 2 ++ h.extractLsb' 12 1 ++ h.extractLsb' 4 3))
  else if h.extractLsb' 13 3 = 0b011#3 then
    match xl with
    | .rv32 => some (.cFlwsp (h.extractLsb' 7 5) (h.extractLsb' 2 2 ++ h.extractLsb' 12 1 ++ h.extractLsb' 4 3))
    | .rv64 => some (.cLdsp (h.extractLsb' 7 5) (h.extractLsb' 2 3 ++ h.extractLsb' 12 1 ++ h.extractLsb' 5 2))
  else if h.extractLsb' 13 3 = 0b100#3 then
    if h.extractLsb' 2 11 = 0b10000000000#11 then some (.cEbreak)
    else if h.extractLsb' 12 1 = 0b0#1 ∧ h.extractLsb' 2 5 = 0b00000#5 then some (.cJr (h.extractLsb' 7 5))
    else if h.extractLsb' 12 1 = 0b0#1 then some (.cMv (h.extractLsb' 7 5) (h.extractLsb' 2 5))
    else if h.extractLsb' 12 1 = 0b1#1 ∧ h.extractLsb' 2 5 = 0b00000#5 then some (.cJalr (h.extractLsb' 7 5))
    else if h.extractLsb' 12 1 = 0b1#1 then some (.cAdd (h.extractLsb' 7 5) (h.extractLsb' 2 5))
    else none
  else if h.extractLsb' 13 3 = 0b101#3 then
    some (.cFsdsp (h.extractLsb' 2 5) (h.extractLsb' 7 3 ++ h.extractLsb' 10 3))
  else if h.extractLsb' 13 3 = 0b110#3 then
    some (.cSwsp (h.extractLsb' 2 5) (h.extractLsb' 7 2 ++ h.extractLsb' 9 4))
  else if h.extractLsb' 13 3 = 0b111#3 then
    match xl with
    | .rv32 => some (.cFswsp (h.extractLsb' 2 5) (h.extractLsb' 7 2 ++ h.extractLsb' 9 4))
    | .rv64 => some (.cSdsp (h.extractLsb' 2 5) (h.extractLsb' 7 3 ++ h.extractLsb' 10 3))
  else none

/-- The row a halfword selects for an XLEN, before the constraints of R151 and R152 (R149, R154). -/
def decodeHalf (xl : Xlen) (h : Half) : Option Instr :=
  if h.extractLsb' 0 2 = 0b00#2 then decodeQuadrant0 xl h
  else if h.extractLsb' 0 2 = 0b01#2 then decodeQuadrant1 xl h
  else if h.extractLsb' 0 2 = 0b10#2 then decodeQuadrant2 xl h
  else none

/-- The row a parcel selects, before the constraints. -/
def decodeRow (xl : Xlen) : Parcel → Option Instr
  | .half h => decodeHalf xl h
  | .word w => decodeWord w

/-- THE DECODER: the instruction a parcel is under a configuration, `none` when it is illegal (R150). -/
def decode (c : Config) (p : Parcel) : Option Instr :=
  match decodeRow c.xlen p with
  | some i => if i.wf && i.available c then some i else none
  | none => none

/-! ## Encoding -/

/-- The upper part of a pc-relative distance: offsetHi of 49_pseudoinstructions.md R501. -/
def offsetHi (delta : BitVec 32) : BitVec 20 := (delta + 0x800#32).extractLsb' 12 20

/-- The lower part of a pc-relative distance: offsetLo of 49_pseudoinstructions.md R501. -/
def offsetLo (delta : BitVec 32) : BitVec 12 := delta.extractLsb' 0 12

/-- One instruction of the expansion of `li rd, immediate` (49_pseudoinstructions.md R502); all act on `rd` alone. -/
inductive LiOp where
  /-- `addi rd, x0, imm` -/
  | load (imm : BitVec 12)
  /-- `lui rd, imm` -/
  | lui (imm : BitVec 20)
  /-- `addi rd, rd, imm` -/
  | addi (imm : BitVec 12)
  /-- `addiw rd, rd, imm` -/
  | addiw (imm : BitVec 12)
  /-- `slli rd, rd, shamt` -/
  | slli (shamt : BitVec 6)
deriving DecidableEq, Repr

/-- The low part of an immediate of `li`: sext_12 of its bits 11:0 (R502). -/
def liLo (v : Int) : Int := (v + 2048) % 4096 - 2048

/-- Step (3) of R502: while h is even, halve it and count; the first argument bounds the count. -/
def liHalve : Nat → Int → Nat → Int × Nat
  | 0, h, s => (h, s)
  | n + 1, h, s => if h % 2 = 0 then liHalve n (h / 2) (s + 1) else (h, s)

/-- The expansion of `li` for the signed immediate v (R502). The first argument bounds the recursion of step (3): each
level takes at least 12 of the 64 bits away, so 5 levels are enough. -/
def liExpand (xl : Xlen) : Nat → Int → List LiOp
  | 0, _ => []
  | n + 1, v =>
    let lo := liLo v
    if -2048 ≤ v ∧ v ≤ 2047 then [.load (BitVec.ofInt 12 v)]
    else if -2 ^ 31 ≤ v ∧ v < 2 ^ 31 then
      .lui (BitVec.ofInt 20 ((v - lo) / 4096)) ::
        (if lo = 0 then [] else match xl with
          | .rv32 => [.addi (BitVec.ofInt 12 lo)]
          | .rv64 => [.addiw (BitVec.ofInt 12 lo)])
    else
      let (h, s) := liHalve 52 ((v - lo) / 4096) 12
      liExpand xl n h ++ [.slli (BitVec.ofNat 6 s)] ++ (if lo = 0 then [] else [.addi (BitVec.ofInt 12 lo)])

/-- The expansion of `li rd, imm`: the immediate is an XLEN-bit value read as signed (R502). -/
def liOps (xl : Xlen) (imm : Word) : List LiOp :=
  match xl with
  | .rv32 => liExpand .rv32 5 (imm.setWidth 32).toInt
  | .rv64 => liExpand .rv64 5 imm.toInt

/-- The instruction an element of the expansion of `li` stands for. -/
def LiOp.instr (rd : Reg) : LiOp → Instr
  | .load imm => .addi rd 0 imm
  | .lui imm => .lui rd imm
  | .addi imm => .addi rd rd imm
  | .addiw imm => .addiw rd rd imm
  | .slli shamt => .slli rd rd shamt

/-- Its parcel. -/
def LiOp.parcel (rd : Reg) : LiOp → Parcel
  | .load imm => .word (iType imm 0 0b000 rd 0b0010011)
  | .lui imm => .word (uType imm rd 0b0110111)
  | .addi imm => .word (iType imm rd 0b000 rd 0b0010011)
  | .addiw imm => .word (iType imm rd 0b000 rd 0b0011011)
  | .slli shamt => .word (shType 0b000000 shamt rd 0b001 rd 0b0010011)

/-- The parcel of one instruction, from its encoding line. A pseudoinstruction that expands to one instruction has that
instruction's parcel; one that expands to several has the parcel of the first (`encode` gives them all). -/
def encodeOne : Instr → Parcel
  | .add rd rs1 rs2 => .word (rType 0b0000000 rs2 rs1 0b000 rd 0b0110011)
  | .addi rd rs1 imm => .word (iType imm rs1 0b000 rd 0b0010011)
  | .addiw rd rs1 imm => .word (iType imm rs1 0b000 rd 0b0011011)
  | .addw rd rs1 rs2 => .word (rType 0b0000000 rs2 rs1 0b000 rd 0b0111011)
  | .and rd rs1 rs2 => .word (rType 0b0000000 rs2 rs1 0b111 rd 0b0110011)
  | .andi rd rs1 imm => .word (iType imm rs1 0b111 rd 0b0010011)
  | .auipc rd imm => .word (uType imm rd 0b0010111)
  | .lui rd imm => .word (uType imm rd 0b0110111)
  | .or rd rs1 rs2 => .word (rType 0b0000000 rs2 rs1 0b110 rd 0b0110011)
  | .ori rd rs1 imm => .word (iType imm rs1 0b110 rd 0b0010011)
  | .sll rd rs1 rs2 => .word (rType 0b0000000 rs2 rs1 0b001 rd 0b0110011)
  | .slli rd rs1 shamt => .word (shType 0b000000 shamt rs1 0b001 rd 0b0010011)
  | .slliw rd rs1 shamt => .word (shType 0b000000 shamt rs1 0b001 rd 0b0011011)
  | .sllw rd rs1 rs2 => .word (rType 0b0000000 rs2 rs1 0b001 rd 0b0111011)
  | .slt rd rs1 rs2 => .word (rType 0b0000000 rs2 rs1 0b010 rd 0b0110011)
  | .slti rd rs1 imm => .word (iType imm rs1 0b010 rd 0b0010011)
  | .sltiu rd rs1 imm => .word (iType imm rs1 0b011 rd 0b0010011)
  | .sltu rd rs1 rs2 => .word (rType 0b0000000 rs2 rs1 0b011 rd 0b0110011)
  | .sra rd rs1 rs2 => .word (rType 0b0100000 rs2 rs1 0b101 rd 0b0110011)
  | .srai rd rs1 shamt => .word (shType 0b010000 shamt rs1 0b101 rd 0b0010011)
  | .sraiw rd rs1 shamt => .word (shType 0b010000 shamt rs1 0b101 rd 0b0011011)
  | .sraw rd rs1 rs2 => .word (rType 0b0100000 rs2 rs1 0b101 rd 0b0111011)
  | .srl rd rs1 rs2 => .word (rType 0b0000000 rs2 rs1 0b101 rd 0b0110011)
  | .srli rd rs1 shamt => .word (shType 0b000000 shamt rs1 0b101 rd 0b0010011)
  | .srliw rd rs1 shamt => .word (shType 0b000000 shamt rs1 0b101 rd 0b0011011)
  | .srlw rd rs1 rs2 => .word (rType 0b0000000 rs2 rs1 0b101 rd 0b0111011)
  | .sub rd rs1 rs2 => .word (rType 0b0100000 rs2 rs1 0b000 rd 0b0110011)
  | .subw rd rs1 rs2 => .word (rType 0b0100000 rs2 rs1 0b000 rd 0b0111011)
  | .xor rd rs1 rs2 => .word (rType 0b0000000 rs2 rs1 0b100 rd 0b0110011)
  | .xori rd rs1 imm => .word (iType imm rs1 0b100 rd 0b0010011)
  | .beq rs1 rs2 off => .word (bType off rs2 rs1 0b000 0b1100011)
  | .bge rs1 rs2 off => .word (bType off rs2 rs1 0b101 0b1100011)
  | .bgeu rs1 rs2 off => .word (bType off rs2 rs1 0b111 0b1100011)
  | .blt rs1 rs2 off => .word (bType off rs2 rs1 0b100 0b1100011)
  | .bltu rs1 rs2 off => .word (bType off rs2 rs1 0b110 0b1100011)
  | .bne rs1 rs2 off => .word (bType off rs2 rs1 0b001 0b1100011)
  | .jal rd off => .word (jType off rd 0b1101111)
  | .jalr rd rs1 off => .word (iType off rs1 0b000 rd 0b1100111)
  | .lb rd rs1 off => .word (iType off rs1 0b000 rd 0b0000011)
  | .lbu rd rs1 off => .word (iType off rs1 0b100 rd 0b0000011)
  | .ld rd rs1 off => .word (iType off rs1 0b011 rd 0b0000011)
  | .lh rd rs1 off => .word (iType off rs1 0b001 rd 0b0000011)
  | .lhu rd rs1 off => .word (iType off rs1 0b101 rd 0b0000011)
  | .lw rd rs1 off => .word (iType off rs1 0b010 rd 0b0000011)
  | .lwu rd rs1 off => .word (iType off rs1 0b110 rd 0b0000011)
  | .sb rs2 rs1 off => .word (sType off rs2 rs1 0b000 0b0100011)
  | .sd rs2 rs1 off => .word (sType off rs2 rs1 0b011 0b0100011)
  | .sh rs2 rs1 off => .word (sType off rs2 rs1 0b001 0b0100011)
  | .sw rs2 rs1 off => .word (sType off rs2 rs1 0b010 0b0100011)
  | .csrrw rd csr rs1 => .word (iType csr rs1 0b001 rd 0b1110011)
  | .csrrs rd csr rs1 => .word (iType csr rs1 0b010 rd 0b1110011)
  | .csrrc rd csr rs1 => .word (iType csr rs1 0b011 rd 0b1110011)
  | .csrrwi rd csr zimm => .word (iType csr zimm 0b101 rd 0b1110011)
  | .csrrsi rd csr zimm => .word (iType csr zimm 0b110 rd 0b1110011)
  | .csrrci rd csr zimm => .word (iType csr zimm 0b111 rd 0b1110011)
  | .fence pred succ => .word (iType (0b0000#4 ++ pred ++ succ) 0 0b000 0 0b0001111)
  | .fenceI => .word (iType 0b000000000000 0b00000 0b001 0b00000 0b0001111)
  | .ecall => .word (iType 0b000000000000 0b00000 0b000 0b00000 0b1110011)
  | .ebreak => .word (iType 0b000000000001 0b00000 0b000 0b00000 0b1110011)
  | .mret => .word (rType 0b0011000 0b00010 0b00000 0b000 0b00000 0b1110011)
  | .sret => .word (rType 0b0001000 0b00010 0b00000 0b000 0b00000 0b1110011)
  | .wfi => .word (rType 0b0001000 0b00101 0b00000 0b000 0b00000 0b1110011)
  | .sfenceVma rs1 rs2 => .word (rType 0b0001001 rs2 rs1 0b000 0 0b1110011)
  | .mul rd rs1 rs2 => .word (rType 0b0000001 rs2 rs1 0b000 rd 0b0110011)
  | .mulh rd rs1 rs2 => .word (rType 0b0000001 rs2 rs1 0b001 rd 0b0110011)
  | .mulhsu rd rs1 rs2 => .word (rType 0b0000001 rs2 rs1 0b010 rd 0b0110011)
  | .mulhu rd rs1 rs2 => .word (rType 0b0000001 rs2 rs1 0b011 rd 0b0110011)
  | .mulw rd rs1 rs2 => .word (rType 0b0000001 rs2 rs1 0b000 rd 0b0111011)
  | .div rd rs1 rs2 => .word (rType 0b0000001 rs2 rs1 0b100 rd 0b0110011)
  | .divu rd rs1 rs2 => .word (rType 0b0000001 rs2 rs1 0b101 rd 0b0110011)
  | .divw rd rs1 rs2 => .word (rType 0b0000001 rs2 rs1 0b100 rd 0b0111011)
  | .divuw rd rs1 rs2 => .word (rType 0b0000001 rs2 rs1 0b101 rd 0b0111011)
  | .rem rd rs1 rs2 => .word (rType 0b0000001 rs2 rs1 0b110 rd 0b0110011)
  | .remu rd rs1 rs2 => .word (rType 0b0000001 rs2 rs1 0b111 rd 0b0110011)
  | .remw rd rs1 rs2 => .word (rType 0b0000001 rs2 rs1 0b110 rd 0b0111011)
  | .remuw rd rs1 rs2 => .word (rType 0b0000001 rs2 rs1 0b111 rd 0b0111011)
  | .amoaddD rd rs1 rs2 aq rl => .word (aType 0b00000 aq rl rs2 rs1 0b011 rd 0b0101111)
  | .amoaddW rd rs1 rs2 aq rl => .word (aType 0b00000 aq rl rs2 rs1 0b010 rd 0b0101111)
  | .amoandD rd rs1 rs2 aq rl => .word (aType 0b01100 aq rl rs2 rs1 0b011 rd 0b0101111)
  | .amoandW rd rs1 rs2 aq rl => .word (aType 0b01100 aq rl rs2 rs1 0b010 rd 0b0101111)
  | .amomaxD rd rs1 rs2 aq rl => .word (aType 0b10100 aq rl rs2 rs1 0b011 rd 0b0101111)
  | .amomaxW rd rs1 rs2 aq rl => .word (aType 0b10100 aq rl rs2 rs1 0b010 rd 0b0101111)
  | .amomaxuD rd rs1 rs2 aq rl => .word (aType 0b11100 aq rl rs2 rs1 0b011 rd 0b0101111)
  | .amomaxuW rd rs1 rs2 aq rl => .word (aType 0b11100 aq rl rs2 rs1 0b010 rd 0b0101111)
  | .amominD rd rs1 rs2 aq rl => .word (aType 0b10000 aq rl rs2 rs1 0b011 rd 0b0101111)
  | .amominW rd rs1 rs2 aq rl => .word (aType 0b10000 aq rl rs2 rs1 0b010 rd 0b0101111)
  | .amominuD rd rs1 rs2 aq rl => .word (aType 0b11000 aq rl rs2 rs1 0b011 rd 0b0101111)
  | .amominuW rd rs1 rs2 aq rl => .word (aType 0b11000 aq rl rs2 rs1 0b010 rd 0b0101111)
  | .amoorD rd rs1 rs2 aq rl => .word (aType 0b01000 aq rl rs2 rs1 0b011 rd 0b0101111)
  | .amoorW rd rs1 rs2 aq rl => .word (aType 0b01000 aq rl rs2 rs1 0b010 rd 0b0101111)
  | .amoswapD rd rs1 rs2 aq rl => .word (aType 0b00001 aq rl rs2 rs1 0b011 rd 0b0101111)
  | .amoswapW rd rs1 rs2 aq rl => .word (aType 0b00001 aq rl rs2 rs1 0b010 rd 0b0101111)
  | .amoxorD rd rs1 rs2 aq rl => .word (aType 0b00100 aq rl rs2 rs1 0b011 rd 0b0101111)
  | .amoxorW rd rs1 rs2 aq rl => .word (aType 0b00100 aq rl rs2 rs1 0b010 rd 0b0101111)
  | .lrD rd rs1 aq rl => .word (aType 0b00010 aq rl 0 rs1 0b011 rd 0b0101111)
  | .lrW rd rs1 aq rl => .word (aType 0b00010 aq rl 0 rs1 0b010 rd 0b0101111)
  | .scD rd rs1 rs2 aq rl => .word (aType 0b00011 aq rl rs2 rs1 0b011 rd 0b0101111)
  | .scW rd rs1 rs2 aq rl => .word (aType 0b00011 aq rl rs2 rs1 0b010 rd 0b0101111)
  | .faddS rd rs1 rs2 rm => .word (rType 0b0000000 rs2 rs1 rm rd 0b1010011)
  | .fclassS rd rs1 => .word (rType 0b1110000 0b00000 rs1 0b001 rd 0b1010011)
  | .fcvtLS rd rs1 rm => .word (rType 0b1100000 0b00010 rs1 rm rd 0b1010011)
  | .fcvtLuS rd rs1 rm => .word (rType 0b1100000 0b00011 rs1 rm rd 0b1010011)
  | .fcvtSL rd rs1 rm => .word (rType 0b1101000 0b00010 rs1 rm rd 0b1010011)
  | .fcvtSLu rd rs1 rm => .word (rType 0b1101000 0b00011 rs1 rm rd 0b1010011)
  | .fcvtSW rd rs1 rm => .word (rType 0b1101000 0b00000 rs1 rm rd 0b1010011)
  | .fcvtSWu rd rs1 rm => .word (rType 0b1101000 0b00001 rs1 rm rd 0b1010011)
  | .fcvtWS rd rs1 rm => .word (rType 0b1100000 0b00000 rs1 rm rd 0b1010011)
  | .fcvtWuS rd rs1 rm => .word (rType 0b1100000 0b00001 rs1 rm rd 0b1010011)
  | .fdivS rd rs1 rs2 rm => .word (rType 0b0001100 rs2 rs1 rm rd 0b1010011)
  | .feqS rd rs1 rs2 => .word (rType 0b1010000 rs2 rs1 0b010 rd 0b1010011)
  | .fleS rd rs1 rs2 => .word (rType 0b1010000 rs2 rs1 0b000 rd 0b1010011)
  | .fltS rd rs1 rs2 => .word (rType 0b1010000 rs2 rs1 0b001 rd 0b1010011)
  | .flw rd rs1 off => .word (iType off rs1 0b010 rd 0b0000111)
  | .fmaddS rd rs1 rs2 rs3 rm => .word (r4Type rs3 0b00 rs2 rs1 rm rd 0b1000011)
  | .fmaxS rd rs1 rs2 => .word (rType 0b0010100 rs2 rs1 0b001 rd 0b1010011)
  | .fminS rd rs1 rs2 => .word (rType 0b0010100 rs2 rs1 0b000 rd 0b1010011)
  | .fmsubS rd rs1 rs2 rs3 rm => .word (r4Type rs3 0b00 rs2 rs1 rm rd 0b1000111)
  | .fmulS rd rs1 rs2 rm => .word (rType 0b0001000 rs2 rs1 rm rd 0b1010011)
  | .fmvWX rd rs1 => .word (rType 0b1111000 0b00000 rs1 0b000 rd 0b1010011)
  | .fmvXW rd rs1 => .word (rType 0b1110000 0b00000 rs1 0b000 rd 0b1010011)
  | .fnmaddS rd rs1 rs2 rs3 rm => .word (r4Type rs3 0b00 rs2 rs1 rm rd 0b1001111)
  | .fnmsubS rd rs1 rs2 rs3 rm => .word (r4Type rs3 0b00 rs2 rs1 rm rd 0b1001011)
  | .fsgnjS rd rs1 rs2 => .word (rType 0b0010000 rs2 rs1 0b000 rd 0b1010011)
  | .fsgnjnS rd rs1 rs2 => .word (rType 0b0010000 rs2 rs1 0b001 rd 0b1010011)
  | .fsgnjxS rd rs1 rs2 => .word (rType 0b0010000 rs2 rs1 0b010 rd 0b1010011)
  | .fsqrtS rd rs1 rm => .word (rType 0b0101100 0b00000 rs1 rm rd 0b1010011)
  | .fsubS rd rs1 rs2 rm => .word (rType 0b0000100 rs2 rs1 rm rd 0b1010011)
  | .fsw rs2 rs1 off => .word (sType off rs2 rs1 0b010 0b0100111)
  | .faddD rd rs1 rs2 rm => .word (rType 0b0000001 rs2 rs1 rm rd 0b1010011)
  | .fclassD rd rs1 => .word (rType 0b1110001 0b00000 rs1 0b001 rd 0b1010011)
  | .fcvtDL rd rs1 rm => .word (rType 0b1101001 0b00010 rs1 rm rd 0b1010011)
  | .fcvtDLu rd rs1 rm => .word (rType 0b1101001 0b00011 rs1 rm rd 0b1010011)
  | .fcvtDS rd rs1 rm => .word (rType 0b0100001 0b00000 rs1 rm rd 0b1010011)
  | .fcvtDW rd rs1 rm => .word (rType 0b1101001 0b00000 rs1 rm rd 0b1010011)
  | .fcvtDWu rd rs1 rm => .word (rType 0b1101001 0b00001 rs1 rm rd 0b1010011)
  | .fcvtLD rd rs1 rm => .word (rType 0b1100001 0b00010 rs1 rm rd 0b1010011)
  | .fcvtLuD rd rs1 rm => .word (rType 0b1100001 0b00011 rs1 rm rd 0b1010011)
  | .fcvtSD rd rs1 rm => .word (rType 0b0100000 0b00001 rs1 rm rd 0b1010011)
  | .fcvtWD rd rs1 rm => .word (rType 0b1100001 0b00000 rs1 rm rd 0b1010011)
  | .fcvtWuD rd rs1 rm => .word (rType 0b1100001 0b00001 rs1 rm rd 0b1010011)
  | .fdivD rd rs1 rs2 rm => .word (rType 0b0001101 rs2 rs1 rm rd 0b1010011)
  | .feqD rd rs1 rs2 => .word (rType 0b1010001 rs2 rs1 0b010 rd 0b1010011)
  | .fld rd rs1 off => .word (iType off rs1 0b011 rd 0b0000111)
  | .fleD rd rs1 rs2 => .word (rType 0b1010001 rs2 rs1 0b000 rd 0b1010011)
  | .fltD rd rs1 rs2 => .word (rType 0b1010001 rs2 rs1 0b001 rd 0b1010011)
  | .fmaddD rd rs1 rs2 rs3 rm => .word (r4Type rs3 0b01 rs2 rs1 rm rd 0b1000011)
  | .fmaxD rd rs1 rs2 => .word (rType 0b0010101 rs2 rs1 0b001 rd 0b1010011)
  | .fminD rd rs1 rs2 => .word (rType 0b0010101 rs2 rs1 0b000 rd 0b1010011)
  | .fmsubD rd rs1 rs2 rs3 rm => .word (r4Type rs3 0b01 rs2 rs1 rm rd 0b1000111)
  | .fmulD rd rs1 rs2 rm => .word (rType 0b0001001 rs2 rs1 rm rd 0b1010011)
  | .fmvDX rd rs1 => .word (rType 0b1111001 0b00000 rs1 0b000 rd 0b1010011)
  | .fmvXD rd rs1 => .word (rType 0b1110001 0b00000 rs1 0b000 rd 0b1010011)
  | .fnmaddD rd rs1 rs2 rs3 rm => .word (r4Type rs3 0b01 rs2 rs1 rm rd 0b1001111)
  | .fnmsubD rd rs1 rs2 rs3 rm => .word (r4Type rs3 0b01 rs2 rs1 rm rd 0b1001011)
  | .fsd rs2 rs1 off => .word (sType off rs2 rs1 0b011 0b0100111)
  | .fsgnjD rd rs1 rs2 => .word (rType 0b0010001 rs2 rs1 0b000 rd 0b1010011)
  | .fsgnjnD rd rs1 rs2 => .word (rType 0b0010001 rs2 rs1 0b001 rd 0b1010011)
  | .fsgnjxD rd rs1 rs2 => .word (rType 0b0010001 rs2 rs1 0b010 rd 0b1010011)
  | .fsqrtD rd rs1 rm => .word (rType 0b0101101 0b00000 rs1 rm rd 0b1010011)
  | .fsubD rd rs1 rs2 rm => .word (rType 0b0000101 rs2 rs1 rm rd 0b1010011)
  | .cAdd rd rs2 => .half (0b1001#4 ++ rd ++ rs2 ++ 0b10#2)
  | .cAddi rd imm => .half (0b000#3 ++ imm.extractLsb' 5 1 ++ rd ++ imm.extractLsb' 0 5 ++ 0b01#2)
  | .cAddi16sp imm => .half (0b011#3 ++ imm.extractLsb' 5 1 ++ 0b00010#5 ++ imm.extractLsb' 0 1 ++ imm.extractLsb' 2 1 ++ imm.extractLsb' 3 2 ++ imm.extractLsb' 1 1 ++ 0b01#2)
  | .cAddi4spn rd uimm => .half (0b000#3 ++ uimm.extractLsb' 2 2 ++ uimm.extractLsb' 4 4 ++ uimm.extractLsb' 0 1 ++ uimm.extractLsb' 1 1 ++ rd ++ 0b00#2)
  | .cAddiw rd imm => .half (0b001#3 ++ imm.extractLsb' 5 1 ++ rd ++ imm.extractLsb' 0 5 ++ 0b01#2)
  | .cAnd rd rs2 => .half (0b100011#6 ++ rd ++ 0b11#2 ++ rs2 ++ 0b01#2)
  | .cAddw rd rs2 => .half (0b100111#6 ++ rd ++ 0b01#2 ++ rs2 ++ 0b01#2)
  | .cAndi rd imm => .half (0b100#3 ++ imm.extractLsb' 5 1 ++ 0b10#2 ++ rd ++ imm.extractLsb' 0 5 ++ 0b01#2)
  | .cBeqz rs1 off => .half (0b110#3 ++ off.extractLsb' 7 1 ++ off.extractLsb' 2 2 ++ rs1 ++ off.extractLsb' 5 2 ++ off.extractLsb' 0 2 ++ off.extractLsb' 4 1 ++ 0b01#2)
  | .cBnez rs1 off => .half (0b111#3 ++ off.extractLsb' 7 1 ++ off.extractLsb' 2 2 ++ rs1 ++ off.extractLsb' 5 2 ++ off.extractLsb' 0 2 ++ off.extractLsb' 4 1 ++ 0b01#2)
  | .cEbreak => .half (0b1001000000000010#16)
  | .cFld rd rs1 uimm => .half (0b001#3 ++ uimm.extractLsb' 0 3 ++ rs1 ++ uimm.extractLsb' 3 2 ++ rd ++ 0b00#2)
  | .cFldsp rd uimm => .half (0b001#3 ++ uimm.extractLsb' 2 1 ++ rd ++ uimm.extractLsb' 0 2 ++ uimm.extractLsb' 3 3 ++ 0b10#2)
  | .cFlw rd rs1 uimm => .half (0b011#3 ++ uimm.extractLsb' 1 3 ++ rs1 ++ uimm.extractLsb' 0 1 ++ uimm.extractLsb' 4 1 ++ rd ++ 0b00#2)
  | .cFlwsp rd uimm => .half (0b011#3 ++ uimm.extractLsb' 3 1 ++ rd ++ uimm.extractLsb' 0 3 ++ uimm.extractLsb' 4 2 ++ 0b10#2)
  | .cFsd rs2 rs1 uimm => .half (0b101#3 ++ uimm.extractLsb' 0 3 ++ rs1 ++ uimm.extractLsb' 3 2 ++ rs2 ++ 0b00#2)
  | .cFsdsp rs2 uimm => .half (0b101#3 ++ uimm.extractLsb' 0 3 ++ uimm.extractLsb' 3 3 ++ rs2 ++ 0b10#2)
  | .cFsw rs2 rs1 uimm => .half (0b111#3 ++ uimm.extractLsb' 1 3 ++ rs1 ++ uimm.extractLsb' 0 1 ++ uimm.extractLsb' 4 1 ++ rs2 ++ 0b00#2)
  | .cFswsp rs2 uimm => .half (0b111#3 ++ uimm.extractLsb' 0 4 ++ uimm.extractLsb' 4 2 ++ rs2 ++ 0b10#2)
  | .cJ off => .half (0b101#3 ++ off.extractLsb' 10 1 ++ off.extractLsb' 3 1 ++ off.extractLsb' 7 2 ++ off.extractLsb' 9 1 ++ off.extractLsb' 5 1 ++ off.extractLsb' 6 1 ++ off.extractLsb' 0 3 ++ off.extractLsb' 4 1 ++ 0b01#2)
  | .cJal off => .half (0b001#3 ++ off.extractLsb' 10 1 ++ off.extractLsb' 3 1 ++ off.extractLsb' 7 2 ++ off.extractLsb' 9 1 ++ off.extractLsb' 5 1 ++ off.extractLsb' 6 1 ++ off.extractLsb' 0 3 ++ off.extractLsb' 4 1 ++ 0b01#2)
  | .cJalr rs1 => .half (0b1001#4 ++ rs1 ++ 0b0000010#7)
  | .cJr rs1 => .half (0b1000#4 ++ rs1 ++ 0b0000010#7)
  | .cLd rd rs1 uimm => .half (0b011#3 ++ uimm.extractLsb' 0 3 ++ rs1 ++ uimm.extractLsb' 3 2 ++ rd ++ 0b00#2)
  | .cLdsp rd uimm => .half (0b011#3 ++ uimm.extractLsb' 2 1 ++ rd ++ uimm.extractLsb' 0 2 ++ uimm.extractLsb' 3 3 ++ 0b10#2)
  | .cLi rd imm => .half (0b010#3 ++ imm.extractLsb' 5 1 ++ rd ++ imm.extractLsb' 0 5 ++ 0b01#2)
  | .cLui rd imm => .half (0b011#3 ++ imm.extractLsb' 5 1 ++ rd ++ imm.extractLsb' 0 5 ++ 0b01#2)
  | .cLw rd rs1 uimm => .half (0b010#3 ++ uimm.extractLsb' 1 3 ++ rs1 ++ uimm.extractLsb' 0 1 ++ uimm.extractLsb' 4 1 ++ rd ++ 0b00#2)
  | .cLwsp rd uimm => .half (0b010#3 ++ uimm.extractLsb' 3 1 ++ rd ++ uimm.extractLsb' 0 3 ++ uimm.extractLsb' 4 2 ++ 0b10#2)
  | .cMv rd rs2 => .half (0b1000#4 ++ rd ++ rs2 ++ 0b10#2)
  | .cOr rd rs2 => .half (0b100011#6 ++ rd ++ 0b10#2 ++ rs2 ++ 0b01#2)
  | .cSd rs2 rs1 uimm => .half (0b111#3 ++ uimm.extractLsb' 0 3 ++ rs1 ++ uimm.extractLsb' 3 2 ++ rs2 ++ 0b00#2)
  | .cSdsp rs2 uimm => .half (0b111#3 ++ uimm.extractLsb' 0 3 ++ uimm.extractLsb' 3 3 ++ rs2 ++ 0b10#2)
  | .cSlli rd shamt => .half (0b000#3 ++ shamt.extractLsb' 5 1 ++ rd ++ shamt.extractLsb' 0 5 ++ 0b10#2)
  | .cSrai rd shamt => .half (0b100#3 ++ shamt.extractLsb' 5 1 ++ 0b01#2 ++ rd ++ shamt.extractLsb' 0 5 ++ 0b01#2)
  | .cSrli rd shamt => .half (0b100#3 ++ shamt.extractLsb' 5 1 ++ 0b00#2 ++ rd ++ shamt.extractLsb' 0 5 ++ 0b01#2)
  | .cSub rd rs2 => .half (0b100011#6 ++ rd ++ 0b00#2 ++ rs2 ++ 0b01#2)
  | .cSubw rd rs2 => .half (0b100111#6 ++ rd ++ 0b00#2 ++ rs2 ++ 0b01#2)
  | .cSw rs2 rs1 uimm => .half (0b110#3 ++ uimm.extractLsb' 1 3 ++ rs1 ++ uimm.extractLsb' 0 1 ++ uimm.extractLsb' 4 1 ++ rs2 ++ 0b00#2)
  | .cSwsp rs2 uimm => .half (0b110#3 ++ uimm.extractLsb' 0 4 ++ uimm.extractLsb' 4 2 ++ rs2 ++ 0b10#2)
  | .cXor rd rs2 => .half (0b100011#6 ++ rd ++ 0b01#2 ++ rs2 ++ 0b01#2)
  | .beqz rs1 off => .word (bType off 0 rs1 0b000 0b1100011)
  | .bgez rs1 off => .word (bType off 0 rs1 0b101 0b1100011)
  | .bgt rs1 rs2 off => .word (bType off rs1 rs2 0b100 0b1100011)
  | .bgtu rs1 rs2 off => .word (bType off rs1 rs2 0b110 0b1100011)
  | .bgtz rs2 off => .word (bType off rs2 0 0b100 0b1100011)
  | .ble rs1 rs2 off => .word (bType off rs1 rs2 0b101 0b1100011)
  | .bleu rs1 rs2 off => .word (bType off rs1 rs2 0b111 0b1100011)
  | .blez rs2 off => .word (bType off rs2 0 0b101 0b1100011)
  | .bltz rs1 off => .word (bType off 0 rs1 0b100 0b1100011)
  | .bnez rs1 off => .word (bType off 0 rs1 0b001 0b1100011)
  | .call rd delta => .word (uType (offsetHi delta) rd 0b0010111)
  | .csrr rd csr => .word (iType csr 0 0b010 rd 0b1110011)
  | .csrc csr rs1 => .word (iType csr rs1 0b011 0 0b1110011)
  | .csrci csr zimm => .word (iType csr zimm 0b111 0 0b1110011)
  | .csrs csr rs1 => .word (iType csr rs1 0b010 0 0b1110011)
  | .csrsi csr zimm => .word (iType csr zimm 0b110 0 0b1110011)
  | .csrw csr rs1 => .word (iType csr rs1 0b001 0 0b1110011)
  | .csrwi csr zimm => .word (iType csr zimm 0b101 0 0b1110011)
  | .fabsD rd rs1 => .word (rType 0b0010001 rs1 rs1 0b010 rd 0b1010011)
  | .fabsS rd rs1 => .word (rType 0b0010000 rs1 rs1 0b010 rd 0b1010011)
  | .fmvD rd rs1 => .word (rType 0b0010001 rs1 rs1 0b000 rd 0b1010011)
  | .fmvS rd rs1 => .word (rType 0b0010000 rs1 rs1 0b000 rd 0b1010011)
  | .fnegD rd rs1 => .word (rType 0b0010001 rs1 rs1 0b001 rd 0b1010011)
  | .fnegS rd rs1 => .word (rType 0b0010000 rs1 rs1 0b001 rd 0b1010011)
  | .frcsr rd => .word (iType 0x003 0 0b010 rd 0b1110011)
  | .frflags rd => .word (iType 0x001 0 0b010 rd 0b1110011)
  | .frrm rd => .word (iType 0x002 0 0b010 rd 0b1110011)
  | .fscsr rd rs1 => .word (iType 0x003 rs1 0b001 rd 0b1110011)
  | .fsflags rd rs1 => .word (iType 0x001 rs1 0b001 rd 0b1110011)
  | .fsrm rd rs1 => .word (iType 0x002 rs1 0b001 rd 0b1110011)
  | .j off => .word (jType off 0 0b1101111)
  | .jr rs1 => .word (iType 0 rs1 0b000 0 0b1100111)
  | .la rd _ delta => .word (uType (offsetHi delta) rd 0b0010111)
  | .lla rd delta => .word (uType (offsetHi delta) rd 0b0010111)
  | .mv rd rs1 => .word (iType 0 rs1 0b000 rd 0b0010011)
  | .neg rd rs2 => .word (rType 0b0100000 rs2 0 0b000 rd 0b0110011)
  | .negw rd rs2 => .word (rType 0b0100000 rs2 0 0b000 rd 0b0111011)
  | .nop => .word (iType 0 0 0b000 0 0b0010011)
  | .not rd rs1 => .word (iType 0xFFF rs1 0b100 rd 0b0010011)
  | .rdcycle rd => .word (iType 0xC00 0 0b010 rd 0b1110011)
  | .rdcycleh rd => .word (iType 0xC80 0 0b010 rd 0b1110011)
  | .rdinstret rd => .word (iType 0xC02 0 0b010 rd 0b1110011)
  | .rdinstreth rd => .word (iType 0xC82 0 0b010 rd 0b1110011)
  | .rdtime rd => .word (iType 0xC01 0 0b010 rd 0b1110011)
  | .rdtimeh rd => .word (iType 0xC81 0 0b010 rd 0b1110011)
  | .ret => .word (iType 0 1 0b000 0 0b1100111)
  | .seqz rd rs1 => .word (iType 1 rs1 0b011 rd 0b0010011)
  | .sextW rd rs1 => .word (iType 0 rs1 0b000 rd 0b0011011)
  | .sgtz rd rs2 => .word (rType 0b0000000 rs2 0 0b010 rd 0b0110011)
  | .sltz rd rs1 => .word (rType 0b0000000 0 rs1 0b010 rd 0b0110011)
  | .snez rd rs2 => .word (rType 0b0000000 rs2 0 0b011 rd 0b0110011)
  | .tail delta => .word (uType (offsetHi delta) 6 0b0010111)
  | .li rd imm => (liOps .rv64 imm).head?.elim (.half 0) (fun op => op.parcel rd)

/-- What a term of `Instr` expands to: a machine instruction to itself, a pseudoinstruction to its expansion
(49_pseudoinstructions.md R500 to R555). -/
def expand (xl : Xlen) : Instr → List Instr
  | .beqz rs1 off => [.beq rs1 0 off]
  | .bgez rs1 off => [.bge rs1 0 off]
  | .bgt rs1 rs2 off => [.blt rs2 rs1 off]
  | .bgtu rs1 rs2 off => [.bltu rs2 rs1 off]
  | .bgtz rs2 off => [.blt 0 rs2 off]
  | .ble rs1 rs2 off => [.bge rs2 rs1 off]
  | .bleu rs1 rs2 off => [.bgeu rs2 rs1 off]
  | .blez rs2 off => [.bge 0 rs2 off]
  | .bltz rs1 off => [.blt rs1 0 off]
  | .bnez rs1 off => [.bne rs1 0 off]
  | .csrr rd csr => [.csrrs rd csr 0]
  | .csrc csr rs1 => [.csrrc 0 csr rs1]
  | .csrci csr zimm => [.csrrci 0 csr zimm]
  | .csrs csr rs1 => [.csrrs 0 csr rs1]
  | .csrsi csr zimm => [.csrrsi 0 csr zimm]
  | .csrw csr rs1 => [.csrrw 0 csr rs1]
  | .csrwi csr zimm => [.csrrwi 0 csr zimm]
  | .fabsD rd rs1 => [.fsgnjxD rd rs1 rs1]
  | .fabsS rd rs1 => [.fsgnjxS rd rs1 rs1]
  | .fmvD rd rs1 => [.fsgnjD rd rs1 rs1]
  | .fmvS rd rs1 => [.fsgnjS rd rs1 rs1]
  | .fnegD rd rs1 => [.fsgnjnD rd rs1 rs1]
  | .fnegS rd rs1 => [.fsgnjnS rd rs1 rs1]
  | .frcsr rd => [.csrrs rd 0x003 0]
  | .frflags rd => [.csrrs rd 0x001 0]
  | .frrm rd => [.csrrs rd 0x002 0]
  | .fscsr rd rs1 => [.csrrw rd 0x003 rs1]
  | .fsflags rd rs1 => [.csrrw rd 0x001 rs1]
  | .fsrm rd rs1 => [.csrrw rd 0x002 rs1]
  | .j off => [.jal 0 off]
  | .jr rs1 => [.jalr 0 rs1 0]
  | .mv rd rs1 => [.addi rd rs1 0]
  | .neg rd rs2 => [.sub rd 0 rs2]
  | .negw rd rs2 => [.subw rd 0 rs2]
  | .nop => [.addi 0 0 0]
  | .not rd rs1 => [.xori rd rs1 0xFFF]
  | .rdcycle rd => [.csrrs rd 0xC00 0]
  | .rdcycleh rd => [.csrrs rd 0xC80 0]
  | .rdinstret rd => [.csrrs rd 0xC02 0]
  | .rdinstreth rd => [.csrrs rd 0xC82 0]
  | .rdtime rd => [.csrrs rd 0xC01 0]
  | .rdtimeh rd => [.csrrs rd 0xC81 0]
  | .ret => [.jalr 0 1 0]
  | .seqz rd rs1 => [.sltiu rd rs1 1]
  | .sextW rd rs1 => [.addiw rd rs1 0]
  | .sgtz rd rs2 => [.slt rd 0 rs2]
  | .sltz rd rs1 => [.slt rd rs1 0]
  | .snez rd rs2 => [.sltu rd 0 rs2]
  | .call rd delta => [.auipc rd (offsetHi delta), .jalr rd rd (offsetLo delta)]
  | .la rd pic delta =>
    [.auipc rd (offsetHi delta),
     match pic, xl with
     | false, _ => .addi rd rd (offsetLo delta)
     | true, .rv32 => .lw rd rd (offsetLo delta)
     | true, .rv64 => .ld rd rd (offsetLo delta)]
  | .li rd imm => (liOps xl imm).map (LiOp.instr rd)
  | .lla rd delta => [.auipc rd (offsetHi delta), .addi rd rd (offsetLo delta)]
  | .tail delta => [.auipc 6 (offsetHi delta), .jalr 0 6 (offsetLo delta)]
  | i@(.add ..) | i@(.addi ..) | i@(.addiw ..) | i@(.addw ..) | i@(.amoaddD ..) | i@(.amoaddW ..) | i@(.amoandD ..)
  | i@(.amoandW ..) | i@(.amomaxD ..) | i@(.amomaxW ..) | i@(.amomaxuD ..) | i@(.amomaxuW ..) | i@(.amominD ..)
  | i@(.amominW ..) | i@(.amominuD ..) | i@(.amominuW ..) | i@(.amoorD ..) | i@(.amoorW ..) | i@(.amoswapD ..)
  | i@(.amoswapW ..) | i@(.amoxorD ..) | i@(.amoxorW ..) | i@(.and ..) | i@(.andi ..) | i@(.auipc ..) | i@(.beq ..)
  | i@(.bge ..) | i@(.bgeu ..) | i@(.blt ..) | i@(.bltu ..) | i@(.bne ..) | i@(.cAdd ..) | i@(.cAddi ..)
  | i@(.cAddi16sp ..) | i@(.cAddi4spn ..) | i@(.cAddiw ..) | i@(.cAnd ..) | i@(.cAddw ..) | i@(.cAndi ..)
  | i@(.cBeqz ..) | i@(.cBnez ..) | i@(.cEbreak) | i@(.cFld ..) | i@(.cFldsp ..) | i@(.cFlw ..) | i@(.cFlwsp ..)
  | i@(.cFsd ..) | i@(.cFsdsp ..) | i@(.cFsw ..) | i@(.cFswsp ..) | i@(.cJ ..) | i@(.cJal ..) | i@(.cJalr ..)
  | i@(.cJr ..) | i@(.cLd ..) | i@(.cLdsp ..) | i@(.cLi ..) | i@(.cLui ..) | i@(.cLw ..) | i@(.cLwsp ..)
  | i@(.cMv ..) | i@(.cOr ..) | i@(.cSd ..) | i@(.cSdsp ..) | i@(.cSlli ..) | i@(.cSrai ..) | i@(.cSrli ..)
  | i@(.cSub ..) | i@(.cSubw ..) | i@(.cSw ..) | i@(.cSwsp ..) | i@(.cXor ..) | i@(.csrrc ..) | i@(.csrrci ..)
  | i@(.csrrs ..) | i@(.csrrsi ..) | i@(.csrrw ..) | i@(.csrrwi ..) | i@(.div ..) | i@(.divu ..) | i@(.divuw ..)
  | i@(.divw ..) | i@(.ebreak) | i@(.ecall) | i@(.faddD ..) | i@(.faddS ..) | i@(.fclassD ..) | i@(.fclassS ..)
  | i@(.fcvtDL ..) | i@(.fcvtDLu ..) | i@(.fcvtDS ..) | i@(.fcvtDW ..) | i@(.fcvtDWu ..) | i@(.fcvtLD ..)
  | i@(.fcvtLS ..) | i@(.fcvtLuD ..) | i@(.fcvtLuS ..) | i@(.fcvtSD ..) | i@(.fcvtSL ..) | i@(.fcvtSLu ..)
  | i@(.fcvtSW ..) | i@(.fcvtSWu ..) | i@(.fcvtWD ..) | i@(.fcvtWuD ..) | i@(.fcvtWS ..) | i@(.fcvtWuS ..)
  | i@(.fdivD ..) | i@(.fdivS ..) | i@(.fence ..) | i@(.fenceI) | i@(.feqD ..) | i@(.feqS ..) | i@(.fld ..)
  | i@(.fleD ..) | i@(.fleS ..) | i@(.fltD ..) | i@(.fltS ..) | i@(.flw ..) | i@(.fmaddD ..) | i@(.fmaddS ..)
  | i@(.fmaxD ..) | i@(.fmaxS ..) | i@(.fminD ..) | i@(.fminS ..) | i@(.fmsubD ..) | i@(.fmsubS ..) | i@(.fmulD ..)
  | i@(.fmulS ..) | i@(.fmvDX ..) | i@(.fmvWX ..) | i@(.fmvXD ..) | i@(.fmvXW ..) | i@(.fnmaddD ..) | i@(.fnmaddS ..)
  | i@(.fnmsubD ..) | i@(.fnmsubS ..) | i@(.fsd ..) | i@(.fsgnjD ..) | i@(.fsgnjS ..) | i@(.fsgnjnD ..)
  | i@(.fsgnjnS ..) | i@(.fsgnjxD ..) | i@(.fsgnjxS ..) | i@(.fsqrtD ..) | i@(.fsqrtS ..) | i@(.fsubD ..)
  | i@(.fsubS ..) | i@(.fsw ..) | i@(.jal ..) | i@(.jalr ..) | i@(.lb ..) | i@(.lbu ..) | i@(.ld ..) | i@(.lh ..)
  | i@(.lhu ..) | i@(.lrD ..) | i@(.lrW ..) | i@(.lw ..) | i@(.lwu ..) | i@(.lui ..) | i@(.mret) | i@(.mul ..)
  | i@(.mulh ..) | i@(.mulhsu ..) | i@(.mulhu ..) | i@(.mulw ..) | i@(.or ..) | i@(.ori ..) | i@(.rem ..)
  | i@(.remu ..) | i@(.remuw ..) | i@(.remw ..) | i@(.sb ..) | i@(.scD ..) | i@(.scW ..) | i@(.sd ..)
  | i@(.sfenceVma ..) | i@(.sh ..) | i@(.sw ..) | i@(.sll ..) | i@(.slli ..) | i@(.slliw ..) | i@(.sllw ..)
  | i@(.slt ..) | i@(.slti ..) | i@(.sltiu ..) | i@(.sltu ..) | i@(.sra ..) | i@(.srai ..) | i@(.sraiw ..)
  | i@(.sraw ..) | i@(.sret) | i@(.srl ..) | i@(.srli ..) | i@(.srliw ..) | i@(.srlw ..) | i@(.sub ..) | i@(.subw ..)
  | i@(.wfi) | i@(.xor ..) | i@(.xori ..) => [i]

/-- THE ENCODER: the parcels of a well-formed instruction, the first at the lowest address. -/
def encode (xl : Xlen) (i : Instr) : List Parcel := (expand xl i).map encodeOne

/-- The bytes an instruction occupies (R120). -/
def Instr.len (i : Instr) : Nat := if i.isCompressed then 2 else 4

/-- The instruction word, zero-extended: the `info` of an IllegalInstruction it raises (60_exceptions.md R602). -/
def Instr.bits (i : Instr) : Word := (encodeOne i).bits

/-! ## The host's view of the decoder -/

/-- The configuration with every module present, for an XLEN: what `decodeTableWord` reads the table under. -/
def Config.full (xl : Xlen) : Config :=
  { xlen := xl, extM := true, extA := true, extF := true, extD := true, extC := true, privS := true, privU := true,
    timeFreq := 1, resetVector := 0x1000, resGranule := 8,
    memMap := [], mvendorid := 0, marchid := 0, mimpid := 0, mhartid := 0 }

/-- The parcel that the bits w, numbered as the table numbers them, begin; bits above 32 are dropped. -/
def tableParcel (nbits w : Nat) : Parcel :=
  let v := w % 2 ^ nbits
  Parcel.ofHalves (BitVec.ofNat 16 v) (BitVec.ofNat 16 (v / 65536))

/-- The instruction the decoder reads from the bits w: as RV64 with every extension, and where RV64 has no such
instruction as RV32 (a halfword of R153 that both have is read as RV64's; log entry 20). -/
def decodeTableWord (nbits w : Nat) : Option Instr :=
  match decode (Config.full .rv64) (tableParcel nbits w) with
  | some i => some i
  | none => decode (Config.full .rv32) (tableParcel nbits w)

end Sys2Proof
end

