-- ==== Sys2Proof/Machine/Flags.lean ====
section
/-! DEFINITION. The accrued floating-point flags and `mstatus.FS` (spec 10_state.md R41, R47; 46_float_single.md R350,
R353). The integer ISA has no flags (10_state.md R36). -/

namespace Sys2Proof.Machine

open Sys2Proof

/-- Invalid operation. -/
def flagNV : BitVec 5 := 0x10
/-- Divide by zero. -/
def flagDZ : BitVec 5 := 0x08
/-- Overflow. -/
def flagOF : BitVec 5 := 0x04
/-- Underflow. -/
def flagUF : BitVec 5 := 0x02
/-- Inexact. -/
def flagNX : BitVec 5 := 0x01

/-- CSRs[fflags] <- CSRs[fflags] | raised (R350 (e)). -/
def State.accrue (s : State) (raised : BitVec 5) : State := { s with fflags := s.fflags ||| raised }

/-- `mstatus.FS` gates floating point and is Off (R350 (f)). -/
def State.fsOff (s : State) : Bool := s.cfg.fsTracking && s.mstatus.fs == 0#2

/-- `mstatus.FS` becomes Dirty when it is tracked (R350 (f)). -/
def State.fsDirty (s : State) : State :=
  if s.cfg.fsTracking then { s with mstatus := { s.mstatus with fs := 3#2 } } else s

/-- The rounding modes (10_state.md R42). -/
inductive Rounding where
  /-- to nearest, ties to even -/
  | rne
  /-- towards zero -/
  | rtz
  /-- down, towards minus infinity -/
  | rdn
  /-- up, towards plus infinity -/
  | rup
  /-- to nearest, ties to maximum magnitude -/
  | rmm
deriving DecidableEq, Repr

/-- The rounding mode an encoding of R42 names; 101, 110 and 111 name none. -/
def Rounding.ofBits (b : BitVec 3) : Option Rounding :=
  if b = 0b000#3 then some .rne
  else if b = 0b001#3 then some .rtz
  else if b = 0b010#3 then some .rdn
  else if b = 0b011#3 then some .rup
  else if b = 0b100#3 then some .rmm
  else none

/-- The effective rounding mode of an instruction's `rm` field: `frm` when it is 111; `none` when the instruction is
illegal (46_float_single.md R351). -/
def State.rounding (s : State) (rm : BitVec 3) : Option Rounding :=
  if rm = 0b111#3 then Rounding.ofBits s.frm else Rounding.ofBits rm

end Sys2Proof.Machine
end

