-- ==== Sys2Proof/Machine/Float.lean ====
section
/-! DEFINITION. IEEE 754-2008 binary32 and binary64, the default of FP, computed exactly (spec 46_float_single.md R350, R352
to R355; 47_float_double.md R400). A datum is a Nat below 2^(1 + ebits + fbits). Every operation forms its exact result as a
fraction times a power of two (or a square root of one) and rounds once. -/

namespace Sys2Proof.Machine

open Sys2Proof

/-- A binary format: how many exponent and fraction bits (R350 (a), R400), and the numerics record FP (00_scope.md R8). -/
structure Fmt where
  ebits : Nat
  fbits : Nat
  fp : FpRecord
deriving DecidableEq, Repr

/-- binary32. -/
def Fmt.single (fp : FpRecord) : Fmt := { ebits := 8, fbits := 23, fp := fp }
/-- binary64. -/
def Fmt.double (fp : FpRecord) : Fmt := { ebits := 11, fbits := 52, fp := fp }

/-- The exponent bias, which is also the largest exponent of a finite number. -/
def Fmt.bias (F : Fmt) : Nat := 2 ^ (F.ebits - 1) - 1
/-- The exponent of the smallest normal number. -/
def Fmt.emin (F : Fmt) : Int := 1 - (F.bias : Int)
/-- The exponent of the last bit of a subnormal number. -/
def Fmt.qmin (F : Fmt) : Int := F.emin - (F.fbits : Int)
/-- The weight of the sign bit. -/
def Fmt.signBit (F : Fmt) : Nat := 2 ^ (F.ebits + F.fbits)
/-- Infinity without its sign. -/
def Fmt.infMag (F : Fmt) : Nat := (2 ^ F.ebits - 1) * 2 ^ F.fbits
/-- The largest finite number without its sign. -/
def Fmt.maxMag (F : Fmt) : Nat := F.infMag - 1
/-- The canonical NaN: positive, quiet, payload zero (R352 (a)). -/
def Fmt.nan (F : Fmt) : Nat := F.infMag + 2 ^ (F.fbits - 1)

/-- A datum from its sign and magnitude. -/
def Fmt.withSign (F : Fmt) (neg : Bool) (mag : Nat) : Nat := if neg then F.signBit + mag else mag

/-- The sign of a datum. -/
def Fmt.isNeg (F : Fmt) (v : Nat) : Bool := v / F.signBit % 2 == 1
/-- A datum without its sign. -/
def Fmt.mag (F : Fmt) (v : Nat) : Nat := v % F.signBit
def Fmt.isNan (F : Fmt) (v : Nat) : Bool := F.infMag < F.mag v
def Fmt.isSignaling (F : Fmt) (v : Nat) : Bool := F.isNan v && v / 2 ^ (F.fbits - 1) % 2 == 0
def Fmt.isInf (F : Fmt) (v : Nat) : Bool := F.mag v == F.infMag
def Fmt.isZero (F : Fmt) (v : Nat) : Bool := F.mag v == 0

/-- The significand of a finite datum, as an integer (R350 (a)). -/
def Fmt.sig (F : Fmt) (v : Nat) : Nat :=
  if F.mag v / 2 ^ F.fbits = 0 then F.mag v else 2 ^ F.fbits + F.mag v % 2 ^ F.fbits

/-- The exponent of its last bit: a finite datum is ± sig * 2^exp. -/
def Fmt.exp (F : Fmt) (v : Nat) : Int :=
  if F.mag v / 2 ^ F.fbits = 0 then F.qmin else F.qmin + (F.mag v / 2 ^ F.fbits : Nat) - 1

/-! ## Rounding (R350 (b), R353) -/

/-- How what is left over compares with half a unit. -/
inductive Rest where
  | zero
  | below
  | half
  | above
deriving DecidableEq, Repr

/-- What is left of a division. -/
def Rest.ofDiv (r d : Nat) : Rest :=
  if r = 0 then .zero else if 2 * r < d then .below else if 2 * r = d then .half else .above

/-- A magnitude is rounded up to the next unit. -/
def roundsUp (rm : Rounding) (neg : Bool) (q : Nat) : Rest → Bool
  | .zero => false
  | r =>
    match rm with
    | .rne => r == .above || (r == .half && q % 2 == 1)
    | .rtz => false
    | .rdn => neg
    | .rup => !neg
    | .rmm => r == .above || r == .half

/-- A magnitude in units of 2^k, and what is left. -/
abbrev Quant := Int → Nat × Rest

/-- (num / den) * 2^e in units of 2^k. -/
def quantFrac (num den : Nat) (e : Int) : Quant := fun k =>
  let n := if k ≤ e then num * 2 ^ (e - k).toNat else num
  let d := if k ≤ e then den else den * 2 ^ (k - e).toNat
  (n / d, Rest.ofDiv (n % d) d)

/-- The exponent E with 2^E ≤ (num / den) * 2^e < 2^(E+1), for num and den not zero. -/
def floorLog (num den : Nat) (e : Int) : Int :=
  let l : Int := (Nat.log2 num : Int) - (Nat.log2 den : Int)
  let fits := if 0 ≤ l then den * 2 ^ l.toNat ≤ num else den ≤ num * 2 ^ (-l).toNat
  e + (if fits then l else l - 1)

/-- A magnitude rounded to an integer number of units. -/
def roundQuant (rm : Rounding) (neg : Bool) (q : Nat × Rest) : Nat := if roundsUp rm neg q.1 q.2 then q.1 + 1 else q.1

/-- What overflow delivers (R353). -/
def overflowMag (F : Fmt) (rm : Rounding) (neg : Bool) : Nat :=
  match rm with
  | .rne | .rmm => F.infMag
  | .rtz => F.maxMag
  | .rdn => if neg then F.infMag else F.maxMag
  | .rup => if neg then F.maxMag else F.infMag

/-- Round a nonzero magnitude with leading exponent E to a format, with the flags (R353). The first rounding is to the
precision with an unbounded exponent range: it decides overflow and, where FP detects tininess after rounding,
underflow. The second is to the format. -/
def roundReal (F : Fmt) (rm : Rounding) (neg : Bool) (E : Int) (quant : Quant) : Nat × BitVec 5 :=
  let wide := roundQuant rm neg (quant (E - F.fbits))
  let E' := if wide = 2 ^ (F.fbits + 1) then E + 1 else E
  let k := max (E - F.fbits) F.qmin
  let q := quant k
  let m := roundQuant rm neg q
  let nx : BitVec 5 := if q.2 = .zero then 0 else flagNX
  let tiny := match F.fp.tininess with
    | .afterRounding => E'
    | .beforeRounding => E
  let uf : BitVec 5 := if tiny < F.emin ∧ q.2 ≠ .zero then flagUF else 0
  if (F.bias : Int) < E' then (F.withSign neg (overflowMag F rm neg), flagOF ||| flagNX)
  else (F.withSign neg ((k - F.qmin).toNat * 2 ^ F.fbits + m), uf ||| nx)

/-- Round ± (num / den) * 2^e; a zero has the sign given (R352 (e)). -/
def roundFrac (F : Fmt) (rm : Rounding) (neg : Bool) (num den : Nat) (e : Int) : Nat × BitVec 5 :=
  if num = 0 then (F.withSign neg 0, 0) else roundReal F rm neg (floorLog num den e) (quantFrac num den e)

/-- Round v * 2^e; an exact zero is +0, in RDN -0 (R352 (e)). -/
def roundInt (F : Fmt) (rm : Rounding) (v : Int) (e : Int) : Nat × BitVec 5 :=
  if v = 0 then (F.withSign (rm == .rdn) 0, 0) else roundFrac F rm (decide (v < 0)) v.natAbs 1 e

/-! ## Arithmetic (R352, R353) -/

/-- The number of a rounding mode (R351). -/
def Rounding.number : Rounding → Nat
  | .rne => 0
  | .rtz => 1
  | .rdn => 2
  | .rup => 3
  | .rmm => 4

/-- The result and flags of an operation: those of IEEE 754-2008, or for an operation that FP keeps abstract those of an
uninterpreted function, the result a datum of the format (D14; log entry 31). -/
def Fmt.numeric (F : Fmt) (op : FloatOp) (rm : Rounding) (ops : List Nat) (ieee : Nat × BitVec 5) : Nat × BitVec 5 :=
  if F.fp.uninterpreted.contains op then
    let r := Config.freeFloat op F.ebits F.fbits rm.number ops
    (r.1 % 2 ^ (1 + F.ebits + F.fbits), r.2)
  else ieee

/-- The same for an integer result between lo and hi. -/
def Fmt.numericInt (F : Fmt) (rm : Rounding) (lo hi : Int) (a : Nat) (ieee : Int × BitVec 5) : Int × BitVec 5 :=
  if F.fp.uninterpreted.contains .toInteger then
    let r := Config.freeFloat .toInteger F.ebits F.fbits rm.number [hi.toNat, (hi - lo).toNat, a]
    (lo + (r.1 % ((hi - lo).toNat + 1) : Nat), r.2)
  else ieee

/-- The same for a comparison, whose result is 0 or 1. -/
def Fmt.numericBit (F : Fmt) (op : FloatOp) (a b : Nat) (ieee : Word × BitVec 5) : Word × BitVec 5 :=
  if F.fp.uninterpreted.contains op then
    let r := Config.freeFloat op F.ebits F.fbits 0 [a, b]
    (if r.1 % 2 = 1 then 1 else 0, r.2)
  else ieee

/-- The NaN that FP.nan gives for the operands: the canonical one, or some quiet NaN (R352 (a), (b), (f); log entry 31). -/
def Fmt.nanOf (F : Fmt) (ops : List Nat) : Nat :=
  match F.fp.nan with
  | .canonical => F.nan
  | .propagating =>
    F.withSign (Config.freeNan F.fbits ops % 2 == 1) (F.nan + Config.freeNan F.fbits ops / 2 % 2 ^ (F.fbits - 1))

/-- The NaN of an invalid operation, with NV. -/
def invalid (F : Fmt) : Nat × BitVec 5 := (F.nanOf [], flagNV)

/-- The NaN result of NaN operands, with NV when an operand is signaling (R352 (b), (c)). -/
def nanResult (F : Fmt) (ops : List Nat) : Nat × BitVec 5 := (F.nanOf ops, if ops.any F.isSignaling then flagNV else 0)

/-- The signed significand of a finite datum. -/
def Fmt.sigInt (F : Fmt) (v : Nat) : Int := if F.isNeg v then -(F.sig v : Int) else F.sig v

/-- The sum m1 * 2^e1 + m2 * 2^e2 over the smaller exponent. -/
def sumOver (m1 m2 : Int) (e1 e2 : Int) : Int :=
  m1 * 2 ^ (e1 - min e1 e2).toNat + m2 * 2 ^ (e2 - min e1 e2).toNat

/-- a + b with b's sign flipped when `sub` (R356, R384). -/
def fAdd (F : Fmt) (rm : Rounding) (sub : Bool) (a b : Nat) : Nat × BitVec 5 :=
  let nb := F.isNeg b != sub
  F.numeric (if sub then .sub else .add) rm [a, b] <|
  if F.isNan a || F.isNan b then nanResult F [a, b]
  else if F.isInf a then if F.isInf b && F.isNeg a != nb then invalid F else (F.withSign (F.isNeg a) F.infMag, 0)
  else if F.isInf b then (F.withSign nb F.infMag, 0)
  else if F.isZero a && F.isZero b && F.isNeg a == nb then (F.withSign nb 0, 0)
  else roundInt F rm (sumOver (F.sigInt a) (if sub then -F.sigInt b else F.sigInt b) (F.exp a) (F.exp b))
    (min (F.exp a) (F.exp b))

/-- a * b (R375). -/
def fMul (F : Fmt) (rm : Rounding) (a b : Nat) : Nat × BitVec 5 :=
  let neg := F.isNeg a != F.isNeg b
  F.numeric .mul rm [a, b] <|
  if F.isNan a || F.isNan b then nanResult F [a, b]
  else if F.isInf a || F.isInf b then
    if F.isZero a || F.isZero b then invalid F else (F.withSign neg F.infMag, 0)
  else roundFrac F rm neg (F.sig a * F.sig b) 1 (F.exp a + F.exp b)

/-- a / b (R366). -/
def fDiv (F : Fmt) (rm : Rounding) (a b : Nat) : Nat × BitVec 5 :=
  let neg := F.isNeg a != F.isNeg b
  F.numeric .div rm [a, b] <|
  if F.isNan a || F.isNan b then nanResult F [a, b]
  else if F.isInf a then if F.isInf b then invalid F else (F.withSign neg F.infMag, 0)
  else if F.isInf b then (F.withSign neg 0, 0)
  else if F.isZero b then if F.isZero a then invalid F else (F.withSign neg F.infMag, flagDZ)
  else roundFrac F rm neg (F.sig a) (F.sig b) (F.exp a - F.exp b)

/-- The largest r below 2^n plus `root` built bit by bit with r * r ≤ v. -/
def isqrtFrom : Nat → Nat → Nat → Nat
  | 0, _, root => root
  | n + 1, v, root =>
    if (root + 2 ^ n) * (root + 2 ^ n) ≤ v then isqrtFrom n v (root + 2 ^ n) else isqrtFrom n v root

/-- The integer square root. -/
def isqrt (v : Nat) : Nat := isqrtFrom (Nat.log2 v / 2 + 1) v 0

/-- sqrt(m * 2^e) in units of 2^k, for 2 * k ≤ e. A square root is never half way between two integers. -/
def quantSqrt (m : Nat) (e : Int) : Quant := fun k =>
  let v := m * 2 ^ (e - 2 * k).toNat
  let r := isqrt v
  (r, if v = r * r then .zero else if v ≤ r * r + r then .below else .above)

/-- The square root of a (R383). -/
def fSqrt (F : Fmt) (rm : Rounding) (a : Nat) : Nat × BitVec 5 :=
  F.numeric .sqrt rm [a] <|
  if F.isNan a then nanResult F [a]
  else if F.isZero a then (a, 0)
  else if F.isNeg a then invalid F
  else if F.isInf a then (a, 0)
  else roundReal F rm false ((Nat.log2 (F.sig a) + F.exp a) / 2) (quantSqrt (F.sig a) (F.exp a))

/-- ±(a * b) ± c with one rounding: the product negated when `negProd`, c negated when `negAdd` (R371, R374, R378, R379). -/
def fFma (F : Fmt) (rm : Rounding) (negProd negAdd : Bool) (a b c : Nat) : Nat × BitVec 5 :=
  let np := (F.isNeg a != F.isNeg b) != negProd
  let nc := F.isNeg c != negAdd
  F.numeric (.fused negProd negAdd) rm [a, b, c] <|
  if (F.isInf a && F.isZero b) || (F.isZero a && F.isInf b) then invalid F
  else if F.isNan a || F.isNan b || F.isNan c then nanResult F [a, b, c]
  else if F.isInf a || F.isInf b then
    if F.isInf c && np != nc then invalid F else (F.withSign np F.infMag, 0)
  else if F.isInf c then (F.withSign nc F.infMag, 0)
  else
    let p : Int := F.sig a * F.sig b
    let ep := F.exp a + F.exp b
    if p = 0 ∧ F.sig c = 0 ∧ np = nc then (F.withSign nc 0, 0)
    else roundInt F rm (sumOver (if np then -p else p) (if nc then -(F.sig c : Int) else F.sig c) ep (F.exp c))
      (min ep (F.exp c))

/-- A datum of one format rounded to another (47_float_double.md R405, R410). -/
def fConvert (F G : Fmt) (rm : Rounding) (a : Nat) : Nat × BitVec 5 :=
  G.numeric .convert rm [F.fbits, a] <|
  if F.isNan a then (G.nanOf [a], if F.isSignaling a then flagNV else 0)
  else if F.isInf a then (G.withSign (F.isNeg a) G.infMag, 0)
  else roundFrac G rm (F.isNeg a) (F.sig a) 1 (F.exp a)

/-- An integer rounded to a format; 0 gives +0 (R354). -/
def fOfInt (F : Fmt) (rm : Rounding) (v : Int) : Nat × BitVec 5 :=
  F.numeric .ofInteger rm [if v < 0 then 1 else 0, v.natAbs] (roundFrac F rm (decide (v < 0)) v.natAbs 1 0)

/-- A datum rounded to an integer between lo and hi, saturating with NV (R354). -/
def fToInt (F : Fmt) (rm : Rounding) (lo hi : Int) (a : Nat) : Int × BitVec 5 :=
  F.numericInt rm lo hi a <|
  if F.isNan a then (hi, flagNV)
  else if F.isInf a then (if F.isNeg a then lo else hi, flagNV)
  else
    let q := quantFrac (F.sig a) 1 (F.exp a) 0
    let m : Int := roundQuant rm (F.isNeg a) q
    let n := if F.isNeg a then -m else m
    if hi < n then (hi, flagNV)
    else if n < lo then (lo, flagNV)
    else (n, if q.2 = .zero then 0 else flagNX)

/-! ## Comparison, minimum and maximum (R355) -/

/-- The order of the numbers that are not NaN: both zeros are 0. -/
def Fmt.key (F : Fmt) (v : Nat) : Int := if F.isNeg v then -(F.mag v : Int) else F.mag v

def boolBit (b : Bool) : Word := if b then 1 else 0

/-- `feq`: quiet (R355). -/
def fEq (F : Fmt) (a b : Nat) : Word × BitVec 5 :=
  F.numericBit .eq a b <|
  if F.isNan a || F.isNan b then (0, if F.isSignaling a || F.isSignaling b then flagNV else 0)
  else (boolBit (F.key a == F.key b), 0)

/-- `flt`: signaling (R355). -/
def fLt (F : Fmt) (a b : Nat) : Word × BitVec 5 :=
  F.numericBit .lt a b <|
  if F.isNan a || F.isNan b then (0, flagNV) else (boolBit (decide (F.key a < F.key b)), 0)

/-- `fle`: signaling (R355). -/
def fLe (F : Fmt) (a b : Nat) : Word × BitVec 5 :=
  F.numericBit .le a b <|
  if F.isNan a || F.isNan b then (0, flagNV) else (boolBit (decide (F.key a ≤ F.key b)), 0)

/-- `fmin` or, when `wantMax`, `fmax`: a bit copy of one operand; FP.minmax orders -0 below +0, or leaves open which zero
is copied, and says whether a signaling NaN gives a NaN; NV for a signaling NaN (R355). -/
def fMinMax (F : Fmt) (wantMax : Bool) (a b : Nat) : Nat × BitVec 5 :=
  let signaling := F.isSignaling a || F.isSignaling b
  let fl : BitVec 5 := if signaling then flagNV else 0
  F.numeric (if wantMax then .max else .min) .rne [a, b] <|
  if (F.isNan a && F.isNan b) || (signaling && F.fp.minmax.signalingGivesNan) then (F.nanOf [a, b], fl)
  else if F.isNan a then (b, fl)
  else if F.isNan b then (a, fl)
  else if F.isZero a && F.isZero b && !F.fp.minmax.zerosOrdered then
    (if Config.freeZero wantMax a b then a else b, fl)
  else
    let aLess := decide (F.key a < F.key b) || (F.key a == F.key b && F.isNeg a)
    (if aLess != wantMax then a else b, fl)

/-! ## Sign injection and classification (R357, R380 to R382) -/

/-- The magnitude of a with a sign. -/
def fSgn (F : Fmt) (neg : Bool) (a : Nat) : Nat := F.withSign neg (F.mag a)

/-- The class of a datum, one bit set (R357). -/
def fClass (F : Fmt) (a : Nat) : Word :=
  if F.isNan a then if F.isSignaling a then 0x100 else 0x200
  else if F.isInf a then if F.isNeg a then 0x001 else 0x080
  else if F.isZero a then if F.isNeg a then 0x008 else 0x010
  else if F.mag a / 2 ^ F.fbits = 0 then if F.isNeg a then 0x004 else 0x020
  else if F.isNeg a then 0x002 else 0x040

end Sys2Proof.Machine
end

