-- ==== Sys2Proof/Machine/FloatOps.lean ====
section
/-! DEFINITION. Shared shapes of floating-point instructions (spec 46_float_single.md R350, R351). In each, `i` is the
instruction: its word is the `info` of the IllegalInstruction it raises. -/

namespace Sys2Proof.Machine

open Sys2Proof

/-- binary32 with the machine's numerics. -/
def State.single (s : State) : Fmt := Fmt.single s.cfg.fp

/-- binary64 with the machine's numerics. -/
def State.double (s : State) : Fmt := Fmt.double s.cfg.fp

/-- An instruction that is illegal while `mstatus.FS` is Off (R350 (f)). -/
def fpGuard (i : Instr) (s : State) (k : Result) : Result :=
  if s.fsOff then raise .illegalInstruction i.bits s else k

/-- An instruction with a rounding-mode field, illegal when it names no mode (R350 (f), R351). -/
def fpRounded (i : Instr) (rm : BitVec 3) (s : State) (k : Rounding → Result) : Result :=
  fpGuard i s (match s.rounding rm with
    | some r => k r
    | none => raise .illegalInstruction i.bits s)

/-- Rounded arithmetic with a single result (R350 (c), (e), (f)). -/
def arithS (i : Instr) (rm : BitVec 3) (rd : Reg) (op : Rounding → Nat × BitVec 5) (s : State) : Result :=
  fpRounded i rm s (fun r =>
    finish 4 ((s.writeS rd (BitVec.ofNat 32 (op r).1)).accrue (op r).2).fsDirty)

/-- Rounded arithmetic with a double result. -/
def arithD (i : Instr) (rm : BitVec 3) (rd : Reg) (op : Rounding → Nat × BitVec 5) (s : State) : Result :=
  fpRounded i rm s (fun r =>
    finish 4 ((s.writeF rd (BitVec.ofNat 64 (op r).1)).accrue (op r).2).fsDirty)

/-- Minimum, maximum and sign injection with a single result: not rounded. -/
def selectS (i : Instr) (rd : Reg) (v : Nat × BitVec 5) (s : State) : Result :=
  fpGuard i s (finish 4 ((s.writeS rd (BitVec.ofNat 32 v.1)).accrue v.2).fsDirty)

/-- Minimum, maximum and sign injection with a double result. -/
def selectD (i : Instr) (rd : Reg) (v : Nat × BitVec 5) (s : State) : Result :=
  fpGuard i s (finish 4 ((s.writeF rd (BitVec.ofNat 64 v.1)).accrue v.2).fsDirty)

/-- A comparison: 0 or 1 in x[rd] (R355). -/
def compareF (i : Instr) (rd : Reg) (v : Word × BitVec 5) (s : State) : Result :=
  fpGuard i s (finish 4 ((s.writeX rd v.1).accrue v.2).fsDirty)

/-- Float to integer: a result of `bits` bits, sign-extended into x[rd] (R354). -/
def convertToX (i : Instr) (rm : BitVec 3) (rd : Reg) (bits : Nat) (op : Rounding → Int × BitVec 5) (s : State) :
    Result :=
  fpRounded i rm s (fun r =>
    finish 4 ((s.writeX rd ((BitVec.ofInt bits (op r).1).signExtend 64)).accrue (op r).2).fsDirty)

/-- A move or classification into x[rd]: no flag, and `mstatus.FS` is left as it is (R350 (f)). -/
def moveToX (i : Instr) (rd : Reg) (v : Word) (s : State) : Result := fpGuard i s (finish 4 (s.writeX rd v))

/-- A move into f[rd]: no flag. -/
def moveToF (i : Instr) (rd : Reg) (v : Word) (s : State) : Result := fpGuard i s (finish 4 (s.writeF rd v).fsDirty)

/-- A floating-point load of 4 bytes (boxed) or 8 (46_float_single.md R370; 47_float_double.md R415). -/
def loadF (i : Instr) (len : Nat) (rd : Reg) (addr : Word) (n : Nat) (s : State) : Result :=
  fpGuard i s ((s.load addr n).andThen (fun v t =>
    finish len (if n = 4 then t.writeS rd (v.setWidth 32) else t.writeF rd v).fsDirty))

/-- A floating-point store of the low n bytes of f[rs2]; `mstatus.FS` is left as it is (R350 (f), R385, R427). -/
def storeF (i : Instr) (len : Nat) (rs2 : Reg) (addr : Word) (n : Nat) (s : State) : Result :=
  fpGuard i s ((s.store addr n (s.readF rs2)).andThen (fun _ t => finish len t))

end Sys2Proof.Machine
end

