-- ==== Sys2Proof/Machine/LoadStore.lean ====
section
/-! DEFINITION. Integer loads and stores (spec 42_loads_stores.md). -/

namespace Sys2Proof.Machine

open Sys2Proof

/-- A load of `n` bytes into x[rd], widened by `ext` (R260). -/
def loadX (len : Nat) (rd : Reg) (addr : Word) (n : Nat) (ext : Word → Word) (s : State) : Result :=
  (s.load addr n).andThen (fun v t => finish len (t.writeX rd (ext v)))

/-- A store of the low `n` bytes of x[rs2] (R260). -/
def storeX (len : Nat) (rs2 : Reg) (addr : Word) (n : Nat) (s : State) : Result :=
  (s.store addr n (s.readX rs2)).andThen (fun _ t => finish len t)

/-- `lb rd, offset(rs1)` (R261). -/
def execLb (rd rs1 : Reg) (off : BitVec 12) (s : State) : Result :=
  loadX 4 rd (s.address rs1 (immediate off)) 1 (signedBytes 1) s

/-- `lbu rd, offset(rs1)` (R262). -/
def execLbu (rd rs1 : Reg) (off : BitVec 12) (s : State) : Result := loadX 4 rd (s.address rs1 (immediate off)) 1 id s

/-- `ld rd, offset(rs1)` (R263). -/
def execLd (rd rs1 : Reg) (off : BitVec 12) (s : State) : Result :=
  loadX 4 rd (s.address rs1 (immediate off)) 8 (signedBytes 8) s

/-- `lh rd, offset(rs1)` (R264). -/
def execLh (rd rs1 : Reg) (off : BitVec 12) (s : State) : Result :=
  loadX 4 rd (s.address rs1 (immediate off)) 2 (signedBytes 2) s

/-- `lhu rd, offset(rs1)` (R265). -/
def execLhu (rd rs1 : Reg) (off : BitVec 12) (s : State) : Result := loadX 4 rd (s.address rs1 (immediate off)) 2 id s

/-- `lw rd, offset(rs1)` (R266). -/
def execLw (rd rs1 : Reg) (off : BitVec 12) (s : State) : Result :=
  loadX 4 rd (s.address rs1 (immediate off)) 4 (signedBytes 4) s

/-- `lwu rd, offset(rs1)` (R267). -/
def execLwu (rd rs1 : Reg) (off : BitVec 12) (s : State) : Result := loadX 4 rd (s.address rs1 (immediate off)) 4 id s

/-- `sb rs2, offset(rs1)` (R268). -/
def execSb (rs2 rs1 : Reg) (off : BitVec 12) (s : State) : Result := storeX 4 rs2 (s.address rs1 (immediate off)) 1 s

/-- `sd rs2, offset(rs1)` (R269). -/
def execSd (rs2 rs1 : Reg) (off : BitVec 12) (s : State) : Result := storeX 4 rs2 (s.address rs1 (immediate off)) 8 s

/-- `sh rs2, offset(rs1)` (R270). -/
def execSh (rs2 rs1 : Reg) (off : BitVec 12) (s : State) : Result := storeX 4 rs2 (s.address rs1 (immediate off)) 2 s

/-- `sw rs2, offset(rs1)` (R271). -/
def execSw (rs2 rs1 : Reg) (off : BitVec 12) (s : State) : Result := storeX 4 rs2 (s.address rs1 (immediate off)) 4 s

end Sys2Proof.Machine
end

