-- ==== Sys2Proof/Machine/Compressed.lean ====
section
/-! DEFINITION. Compressed instructions (spec 48_compressed.md): each does what its expansion does, in two bytes (R450). -/

namespace Sys2Proof.Machine

open Sys2Proof

/-- `c.add rd, rs2` (R453). -/
def execCAdd (rd rs2 : Reg) (s : State) : Result := regReg 2 opAdd rd rd rs2 s

/-- `c.addi rd, imm` (R454). -/
def execCAddi (rd : Reg) (imm : BitVec 6) (s : State) : Result := regImm 2 opAdd rd rd (cImmediate imm) s

/-- `c.addi16sp imm` (R455). -/
def execCAddi16sp (imm : BitVec 6) (s : State) : Result := regImm 2 opAdd 2 2 (cStackImmediate imm) s

/-- `c.addi4spn rd′, uimm` (R456). -/
def execCAddi4spn (rd : CReg) (uimm : BitVec 8) (s : State) : Result := regImm 2 opAdd rd.full 2 (cStackOffset uimm) s

/-- `c.addiw rd, imm` (R457). -/
def execCAddiw (rd : Reg) (imm : BitVec 6) (s : State) : Result := regImmW 2 opAdd rd rd (cImmediate imm) s

/-- `c.and rd′, rs2′` (R458). -/
def execCAnd (rd rs2 : CReg) (s : State) : Result := regReg 2 opAnd rd.full rd.full rs2.full s

/-- `c.addw rd′, rs2′` (R459). -/
def execCAddw (rd rs2 : CReg) (s : State) : Result := regRegW 2 opAdd rd.full rd.full rs2.full s

/-- `c.andi rd′, imm` (R460). -/
def execCAndi (rd : CReg) (imm : BitVec 6) (s : State) : Result := regImm 2 opAnd rd.full rd.full (cImmediate imm) s

/-- `c.beqz rs1′, offset` (R461). -/
def execCBeqz (rs1 : CReg) (off : BitVec 8) (s : State) : Result :=
  branch 2 (s.readX rs1.full == 0) (cBranchOffset off) s

/-- `c.bnez rs1′, offset` (R462). -/
def execCBnez (rs1 : CReg) (off : BitVec 8) (s : State) : Result :=
  branch 2 (s.readX rs1.full != 0) (cBranchOffset off) s

/-- `c.ebreak` (R463). -/
def execCEbreak (s : State) : Result := raise .breakpoint s.pc s

/-- `c.fld rd′, uimm(rs1′)` (R464). -/
def execCFld (rd rs1 : CReg) (uimm : BitVec 5) (s : State) : Result :=
  loadF (.cFld rd rs1 uimm) 2 rd.full (s.address rs1.full (cDoubleOffset uimm)) 8 s

/-- `c.fldsp rd, uimm(x2)` (R465). -/
def execCFldsp (rd : Reg) (uimm : BitVec 6) (s : State) : Result :=
  loadF (.cFldsp rd uimm) 2 rd (s.address 2 (cDoubleStackOffset uimm)) 8 s

/-- `c.flw rd′, uimm(rs1′)` (R466). -/
def execCFlw (rd rs1 : CReg) (uimm : BitVec 5) (s : State) : Result :=
  loadF (.cFlw rd rs1 uimm) 2 rd.full (s.address rs1.full (cWordOffset uimm)) 4 s

/-- `c.flwsp rd, uimm(x2)` (R467). -/
def execCFlwsp (rd : Reg) (uimm : BitVec 6) (s : State) : Result :=
  loadF (.cFlwsp rd uimm) 2 rd (s.address 2 (cWordStackOffset uimm)) 4 s

/-- `c.fsd rs2′, uimm(rs1′)` (R468). -/
def execCFsd (rs2 rs1 : CReg) (uimm : BitVec 5) (s : State) : Result :=
  storeF (.cFsd rs2 rs1 uimm) 2 rs2.full (s.address rs1.full (cDoubleOffset uimm)) 8 s

/-- `c.fsdsp rs2, uimm(x2)` (R469). -/
def execCFsdsp (rs2 : Reg) (uimm : BitVec 6) (s : State) : Result :=
  storeF (.cFsdsp rs2 uimm) 2 rs2 (s.address 2 (cDoubleStackOffset uimm)) 8 s

/-- `c.fsw rs2′, uimm(rs1′)` (R470). -/
def execCFsw (rs2 rs1 : CReg) (uimm : BitVec 5) (s : State) : Result :=
  storeF (.cFsw rs2 rs1 uimm) 2 rs2.full (s.address rs1.full (cWordOffset uimm)) 4 s

/-- `c.fswsp rs2, uimm(x2)` (R471). -/
def execCFswsp (rs2 : Reg) (uimm : BitVec 6) (s : State) : Result :=
  storeF (.cFswsp rs2 uimm) 2 rs2 (s.address 2 (cWordStackOffset uimm)) 4 s

/-- `c.j offset` (R472). -/
def execCJ (off : BitVec 11) (s : State) : Result := jumpLink 2 0 (s.pcPlus (cJumpOffset off)) s

/-- `c.jal offset` (R473). -/
def execCJal (off : BitVec 11) (s : State) : Result := jumpLink 2 1 (s.pcPlus (cJumpOffset off)) s

/-- `c.jalr rs1` (R474). -/
def execCJalr (rs1 : Reg) (s : State) : Result := jumpLink 2 1 (s.registerTarget rs1 0) s

/-- `c.jr rs1` (R475). -/
def execCJr (rs1 : Reg) (s : State) : Result := jumpLink 2 0 (s.registerTarget rs1 0) s

/-- `c.ld rd′, uimm(rs1′)` (R476). -/
def execCLd (rd rs1 : CReg) (uimm : BitVec 5) (s : State) : Result :=
  loadX 2 rd.full (s.address rs1.full (cDoubleOffset uimm)) 8 (signedBytes 8) s

/-- `c.ldsp rd, uimm(x2)` (R477). -/
def execCLdsp (rd : Reg) (uimm : BitVec 6) (s : State) : Result :=
  loadX 2 rd (s.address 2 (cDoubleStackOffset uimm)) 8 (signedBytes 8) s

/-- `c.li rd, imm` (R478). -/
def execCLi (rd : Reg) (imm : BitVec 6) (s : State) : Result := regImm 2 opAdd rd 0 (cImmediate imm) s

/-- `c.lui rd, imm` (R479). -/
def execCLui (rd : Reg) (imm : BitVec 6) (s : State) : Result := setX 2 rd (cUpperImmediate imm) s

/-- `c.lw rd′, uimm(rs1′)` (R480). -/
def execCLw (rd rs1 : CReg) (uimm : BitVec 5) (s : State) : Result :=
  loadX 2 rd.full (s.address rs1.full (cWordOffset uimm)) 4 (signedBytes 4) s

/-- `c.lwsp rd, uimm(x2)` (R481). -/
def execCLwsp (rd : Reg) (uimm : BitVec 6) (s : State) : Result :=
  loadX 2 rd (s.address 2 (cWordStackOffset uimm)) 4 (signedBytes 4) s

/-- `c.mv rd, rs2` (R482). -/
def execCMv (rd rs2 : Reg) (s : State) : Result := regReg 2 opAdd rd 0 rs2 s

/-- `c.or rd′, rs2′` (R483). -/
def execCOr (rd rs2 : CReg) (s : State) : Result := regReg 2 opOr rd.full rd.full rs2.full s

/-- `c.sd rs2′, uimm(rs1′)` (R484). -/
def execCSd (rs2 rs1 : CReg) (uimm : BitVec 5) (s : State) : Result :=
  storeX 2 rs2.full (s.address rs1.full (cDoubleOffset uimm)) 8 s

/-- `c.sdsp rs2, uimm(x2)` (R485). -/
def execCSdsp (rs2 : Reg) (uimm : BitVec 6) (s : State) : Result :=
  storeX 2 rs2 (s.address 2 (cDoubleStackOffset uimm)) 8 s

/-- `c.slli rd, uimm` (R486). -/
def execCSlli (rd : Reg) (shamt : BitVec 6) (s : State) : Result := regImm 2 opSll rd rd (shamt.setWidth 64) s

/-- `c.srai rd′, uimm` (R487). -/
def execCSrai (rd : CReg) (shamt : BitVec 6) (s : State) : Result :=
  regImm 2 opSra rd.full rd.full (shamt.setWidth 64) s

/-- `c.srli rd′, uimm` (R488). -/
def execCSrli (rd : CReg) (shamt : BitVec 6) (s : State) : Result :=
  regImm 2 opSrl rd.full rd.full (shamt.setWidth 64) s

/-- `c.sub rd′, rs2′` (R489). -/
def execCSub (rd rs2 : CReg) (s : State) : Result := regReg 2 opSub rd.full rd.full rs2.full s

/-- `c.subw rd′, rs2′` (R490). -/
def execCSubw (rd rs2 : CReg) (s : State) : Result := regRegW 2 opSub rd.full rd.full rs2.full s

/-- `c.sw rs2′, uimm(rs1′)` (R491). -/
def execCSw (rs2 rs1 : CReg) (uimm : BitVec 5) (s : State) : Result :=
  storeX 2 rs2.full (s.address rs1.full (cWordOffset uimm)) 4 s

/-- `c.swsp rs2, uimm(x2)` (R492). -/
def execCSwsp (rs2 : Reg) (uimm : BitVec 6) (s : State) : Result :=
  storeX 2 rs2 (s.address 2 (cWordStackOffset uimm)) 4 s

/-- `c.xor rd′, rs2′` (R493). -/
def execCXor (rd rs2 : CReg) (s : State) : Result := regReg 2 opXor rd.full rd.full rs2.full s

end Sys2Proof.Machine
end

