-- ==== Sys2Proof/Machine/FloatDouble.lean ====
section
/-! DEFINITION. Double-precision floating point (spec 47_float_double.md). -/

namespace Sys2Proof.Machine

open Sys2Proof

/-- `fadd.d rd, rs1, rs2` (R401). -/
def execFaddD (rd rs1 rs2 : Reg) (rm : BitVec 3) (s : State) : Result :=
  arithD (.faddD rd rs1 rs2 rm) rm rd (fun r => fAdd s.double r false (s.readF rs1).toNat (s.readF rs2).toNat) s

/-- `fclass.d rd, rs1` (R402). -/
def execFclassD (rd rs1 : Reg) (s : State) : Result :=
  moveToX (.fclassD rd rs1) rd (fClass s.double (s.readF rs1).toNat) s

/-- `fcvt.d.l rd, rs1` (R403). -/
def execFcvtDL (rd rs1 : Reg) (rm : BitVec 3) (s : State) : Result :=
  arithD (.fcvtDL rd rs1 rm) rm rd (fun r => fOfInt s.double r (s.readX rs1).toInt) s

/-- `fcvt.d.lu rd, rs1` (R404). -/
def execFcvtDLu (rd rs1 : Reg) (rm : BitVec 3) (s : State) : Result :=
  arithD (.fcvtDLu rd rs1 rm) rm rd (fun r => fOfInt s.double r (s.readX rs1).toNat) s

/-- `fcvt.d.s rd, rs1` (R405). -/
def execFcvtDS (rd rs1 : Reg) (rm : BitVec 3) (s : State) : Result :=
  arithD (.fcvtDS rd rs1 rm) rm rd (fun r => fConvert s.single s.double r (s.readS rs1).toNat) s

/-- `fcvt.d.w rd, rs1` (R406). -/
def execFcvtDW (rd rs1 : Reg) (rm : BitVec 3) (s : State) : Result :=
  arithD (.fcvtDW rd rs1 rm) rm rd (fun r => fOfInt s.double r ((s.readX rs1).setWidth 32).toInt) s

/-- `fcvt.d.wu rd, rs1` (R407). -/
def execFcvtDWu (rd rs1 : Reg) (rm : BitVec 3) (s : State) : Result :=
  arithD (.fcvtDWu rd rs1 rm) rm rd (fun r => fOfInt s.double r ((s.readX rs1).setWidth 32).toNat) s

/-- `fcvt.l.d rd, rs1` (R408). -/
def execFcvtLD (rd rs1 : Reg) (rm : BitVec 3) (s : State) : Result :=
  convertToX (.fcvtLD rd rs1 rm) rm rd 64 (fun r => fToInt s.double r (-2 ^ 63) (2 ^ 63 - 1) (s.readF rs1).toNat) s

/-- `fcvt.lu.d rd, rs1` (R409). -/
def execFcvtLuD (rd rs1 : Reg) (rm : BitVec 3) (s : State) : Result :=
  convertToX (.fcvtLuD rd rs1 rm) rm rd 64 (fun r => fToInt s.double r 0 (2 ^ 64 - 1) (s.readF rs1).toNat) s

/-- `fcvt.s.d rd, rs1` (R410). -/
def execFcvtSD (rd rs1 : Reg) (rm : BitVec 3) (s : State) : Result :=
  arithS (.fcvtSD rd rs1 rm) rm rd (fun r => fConvert s.double s.single r (s.readF rs1).toNat) s

/-- `fcvt.w.d rd, rs1` (R411). -/
def execFcvtWD (rd rs1 : Reg) (rm : BitVec 3) (s : State) : Result :=
  convertToX (.fcvtWD rd rs1 rm) rm rd 32 (fun r => fToInt s.double r (-2 ^ 31) (2 ^ 31 - 1) (s.readF rs1).toNat) s

/-- `fcvt.wu.d rd, rs1` (R412). -/
def execFcvtWuD (rd rs1 : Reg) (rm : BitVec 3) (s : State) : Result :=
  convertToX (.fcvtWuD rd rs1 rm) rm rd 32 (fun r => fToInt s.double r 0 (2 ^ 32 - 1) (s.readF rs1).toNat) s

/-- `fdiv.d rd, rs1, rs2` (R413). -/
def execFdivD (rd rs1 rs2 : Reg) (rm : BitVec 3) (s : State) : Result :=
  arithD (.fdivD rd rs1 rs2 rm) rm rd (fun r => fDiv s.double r (s.readF rs1).toNat (s.readF rs2).toNat) s

/-- `feq.d rd, rs1, rs2` (R414). -/
def execFeqD (rd rs1 rs2 : Reg) (s : State) : Result :=
  compareF (.feqD rd rs1 rs2) rd (fEq s.double (s.readF rs1).toNat (s.readF rs2).toNat) s

/-- `fld rd, offset(rs1)` (R415). -/
def execFld (rd rs1 : Reg) (off : BitVec 12) (s : State) : Result :=
  loadF (.fld rd rs1 off) 4 rd (s.address rs1 (immediate off)) 8 s

/-- `fle.d rd, rs1, rs2` (R416). -/
def execFleD (rd rs1 rs2 : Reg) (s : State) : Result :=
  compareF (.fleD rd rs1 rs2) rd (fLe s.double (s.readF rs1).toNat (s.readF rs2).toNat) s

/-- `flt.d rd, rs1, rs2` (R417). -/
def execFltD (rd rs1 rs2 : Reg) (s : State) : Result :=
  compareF (.fltD rd rs1 rs2) rd (fLt s.double (s.readF rs1).toNat (s.readF rs2).toNat) s

/-- `fmadd.d rd, rs1, rs2, rs3` (R418). -/
def execFmaddD (rd rs1 rs2 rs3 : Reg) (rm : BitVec 3) (s : State) : Result :=
  arithD (.fmaddD rd rs1 rs2 rs3 rm) rm rd (fun r => fFma s.double r false false (s.readF rs1).toNat (s.readF rs2).toNat (s.readF rs3).toNat) s

/-- `fmax.d rd, rs1, rs2` (R419). -/
def execFmaxD (rd rs1 rs2 : Reg) (s : State) : Result :=
  selectD (.fmaxD rd rs1 rs2) rd (fMinMax s.double true (s.readF rs1).toNat (s.readF rs2).toNat) s

/-- `fmin.d rd, rs1, rs2` (R420). -/
def execFminD (rd rs1 rs2 : Reg) (s : State) : Result :=
  selectD (.fminD rd rs1 rs2) rd (fMinMax s.double false (s.readF rs1).toNat (s.readF rs2).toNat) s

/-- `fmsub.d rd, rs1, rs2, rs3` (R421). -/
def execFmsubD (rd rs1 rs2 rs3 : Reg) (rm : BitVec 3) (s : State) : Result :=
  arithD (.fmsubD rd rs1 rs2 rs3 rm) rm rd (fun r => fFma s.double r false true (s.readF rs1).toNat (s.readF rs2).toNat (s.readF rs3).toNat) s

/-- `fmul.d rd, rs1, rs2` (R422). -/
def execFmulD (rd rs1 rs2 : Reg) (rm : BitVec 3) (s : State) : Result :=
  arithD (.fmulD rd rs1 rs2 rm) rm rd (fun r => fMul s.double r (s.readF rs1).toNat (s.readF rs2).toNat) s

/-- `fmv.d.x rd, rs1` (R423). -/
def execFmvDX (rd rs1 : Reg) (s : State) : Result := moveToF (.fmvDX rd rs1) rd (s.readX rs1) s

/-- `fmv.x.d rd, rs1` (R424). -/
def execFmvXD (rd rs1 : Reg) (s : State) : Result := moveToX (.fmvXD rd rs1) rd (s.readF rs1) s

/-- `fnmadd.d rd, rs1, rs2, rs3` (R425). -/
def execFnmaddD (rd rs1 rs2 rs3 : Reg) (rm : BitVec 3) (s : State) : Result :=
  arithD (.fnmaddD rd rs1 rs2 rs3 rm) rm rd (fun r => fFma s.double r true true (s.readF rs1).toNat (s.readF rs2).toNat (s.readF rs3).toNat) s

/-- `fnmsub.d rd, rs1, rs2, rs3` (R426). -/
def execFnmsubD (rd rs1 rs2 rs3 : Reg) (rm : BitVec 3) (s : State) : Result :=
  arithD (.fnmsubD rd rs1 rs2 rs3 rm) rm rd (fun r => fFma s.double r true false (s.readF rs1).toNat (s.readF rs2).toNat (s.readF rs3).toNat) s

/-- `fsd rs2, offset(rs1)` (R427). -/
def execFsd (rs2 rs1 : Reg) (off : BitVec 12) (s : State) : Result :=
  storeF (.fsd rs2 rs1 off) 4 rs2 (s.address rs1 (immediate off)) 8 s

/-- `fsgnj.d rd, rs1, rs2` (R428). -/
def execFsgnjD (rd rs1 rs2 : Reg) (s : State) : Result :=
  selectD (.fsgnjD rd rs1 rs2) rd (fSgn s.double (Fmt.isNeg s.double (s.readF rs2).toNat) (s.readF rs1).toNat, 0) s

/-- `fsgnjn.d rd, rs1, rs2` (R429). -/
def execFsgnjnD (rd rs1 rs2 : Reg) (s : State) : Result :=
  selectD (.fsgnjnD rd rs1 rs2) rd (fSgn s.double (!Fmt.isNeg s.double (s.readF rs2).toNat) (s.readF rs1).toNat, 0) s

/-- `fsgnjx.d rd, rs1, rs2` (R430). -/
def execFsgnjxD (rd rs1 rs2 : Reg) (s : State) : Result :=
  selectD (.fsgnjxD rd rs1 rs2) rd (fSgn s.double (Fmt.isNeg s.double (s.readF rs1).toNat != Fmt.isNeg s.double (s.readF rs2).toNat) (s.readF rs1).toNat, 0) s

/-- `fsqrt.d rd, rs1` (R431). -/
def execFsqrtD (rd rs1 : Reg) (rm : BitVec 3) (s : State) : Result :=
  arithD (.fsqrtD rd rs1 rm) rm rd (fun r => fSqrt s.double r (s.readF rs1).toNat) s

/-- `fsub.d rd, rs1, rs2` (R432). -/
def execFsubD (rd rs1 rs2 : Reg) (rm : BitVec 3) (s : State) : Result :=
  arithD (.fsubD rd rs1 rs2 rm) rm rd (fun r => fAdd s.double r true (s.readF rs1).toNat (s.readF rs2).toNat) s

end Sys2Proof.Machine
end

