-- ==== Sys2Proof/Machine/FloatSingle.lean ====
section
/-! DEFINITION. Single-precision floating point (spec 46_float_single.md). -/

namespace Sys2Proof.Machine

open Sys2Proof

/-- `fadd.s rd, rs1, rs2` (R356). -/
def execFaddS (rd rs1 rs2 : Reg) (rm : BitVec 3) (s : State) : Result :=
  arithS (.faddS rd rs1 rs2 rm) rm rd (fun r => fAdd s.single r false (s.readS rs1).toNat (s.readS rs2).toNat) s

/-- `fclass.s rd, rs1` (R357). -/
def execFclassS (rd rs1 : Reg) (s : State) : Result :=
  moveToX (.fclassS rd rs1) rd (fClass s.single (s.readS rs1).toNat) s

/-- `fcvt.l.s rd, rs1` (R358). -/
def execFcvtLS (rd rs1 : Reg) (rm : BitVec 3) (s : State) : Result :=
  convertToX (.fcvtLS rd rs1 rm) rm rd 64 (fun r => fToInt s.single r (-2 ^ 63) (2 ^ 63 - 1) (s.readS rs1).toNat) s

/-- `fcvt.lu.s rd, rs1` (R359). -/
def execFcvtLuS (rd rs1 : Reg) (rm : BitVec 3) (s : State) : Result :=
  convertToX (.fcvtLuS rd rs1 rm) rm rd 64 (fun r => fToInt s.single r 0 (2 ^ 64 - 1) (s.readS rs1).toNat) s

/-- `fcvt.s.l rd, rs1` (R360). -/
def execFcvtSL (rd rs1 : Reg) (rm : BitVec 3) (s : State) : Result :=
  arithS (.fcvtSL rd rs1 rm) rm rd (fun r => fOfInt s.single r (s.readX rs1).toInt) s

/-- `fcvt.s.lu rd, rs1` (R361). -/
def execFcvtSLu (rd rs1 : Reg) (rm : BitVec 3) (s : State) : Result :=
  arithS (.fcvtSLu rd rs1 rm) rm rd (fun r => fOfInt s.single r (s.readX rs1).toNat) s

/-- `fcvt.s.w rd, rs1` (R362). -/
def execFcvtSW (rd rs1 : Reg) (rm : BitVec 3) (s : State) : Result :=
  arithS (.fcvtSW rd rs1 rm) rm rd (fun r => fOfInt s.single r ((s.readX rs1).setWidth 32).toInt) s

/-- `fcvt.s.wu rd, rs1` (R363). -/
def execFcvtSWu (rd rs1 : Reg) (rm : BitVec 3) (s : State) : Result :=
  arithS (.fcvtSWu rd rs1 rm) rm rd (fun r => fOfInt s.single r ((s.readX rs1).setWidth 32).toNat) s

/-- `fcvt.w.s rd, rs1` (R364). -/
def execFcvtWS (rd rs1 : Reg) (rm : BitVec 3) (s : State) : Result :=
  convertToX (.fcvtWS rd rs1 rm) rm rd 32 (fun r => fToInt s.single r (-2 ^ 31) (2 ^ 31 - 1) (s.readS rs1).toNat) s

/-- `fcvt.wu.s rd, rs1` (R365). -/
def execFcvtWuS (rd rs1 : Reg) (rm : BitVec 3) (s : State) : Result :=
  convertToX (.fcvtWuS rd rs1 rm) rm rd 32 (fun r => fToInt s.single r 0 (2 ^ 32 - 1) (s.readS rs1).toNat) s

/-- `fdiv.s rd, rs1, rs2` (R366). -/
def execFdivS (rd rs1 rs2 : Reg) (rm : BitVec 3) (s : State) : Result :=
  arithS (.fdivS rd rs1 rs2 rm) rm rd (fun r => fDiv s.single r (s.readS rs1).toNat (s.readS rs2).toNat) s

/-- `feq.s rd, rs1, rs2` (R367). -/
def execFeqS (rd rs1 rs2 : Reg) (s : State) : Result :=
  compareF (.feqS rd rs1 rs2) rd (fEq s.single (s.readS rs1).toNat (s.readS rs2).toNat) s

/-- `fle.s rd, rs1, rs2` (R368). -/
def execFleS (rd rs1 rs2 : Reg) (s : State) : Result :=
  compareF (.fleS rd rs1 rs2) rd (fLe s.single (s.readS rs1).toNat (s.readS rs2).toNat) s

/-- `flt.s rd, rs1, rs2` (R369). -/
def execFltS (rd rs1 rs2 : Reg) (s : State) : Result :=
  compareF (.fltS rd rs1 rs2) rd (fLt s.single (s.readS rs1).toNat (s.readS rs2).toNat) s

/-- `flw rd, offset(rs1)` (R370). -/
def execFlw (rd rs1 : Reg) (off : BitVec 12) (s : State) : Result :=
  loadF (.flw rd rs1 off) 4 rd (s.address rs1 (immediate off)) 4 s

/-- `fmadd.s rd, rs1, rs2, rs3` (R371). -/
def execFmaddS (rd rs1 rs2 rs3 : Reg) (rm : BitVec 3) (s : State) : Result :=
  arithS (.fmaddS rd rs1 rs2 rs3 rm) rm rd (fun r => fFma s.single r false false (s.readS rs1).toNat (s.readS rs2).toNat (s.readS rs3).toNat) s

/-- `fmax.s rd, rs1, rs2` (R372). -/
def execFmaxS (rd rs1 rs2 : Reg) (s : State) : Result :=
  selectS (.fmaxS rd rs1 rs2) rd (fMinMax s.single true (s.readS rs1).toNat (s.readS rs2).toNat) s

/-- `fmin.s rd, rs1, rs2` (R373). -/
def execFminS (rd rs1 rs2 : Reg) (s : State) : Result :=
  selectS (.fminS rd rs1 rs2) rd (fMinMax s.single false (s.readS rs1).toNat (s.readS rs2).toNat) s

/-- `fmsub.s rd, rs1, rs2, rs3` (R374). -/
def execFmsubS (rd rs1 rs2 rs3 : Reg) (rm : BitVec 3) (s : State) : Result :=
  arithS (.fmsubS rd rs1 rs2 rs3 rm) rm rd (fun r => fFma s.single r false true (s.readS rs1).toNat (s.readS rs2).toNat (s.readS rs3).toNat) s

/-- `fmul.s rd, rs1, rs2` (R375). -/
def execFmulS (rd rs1 rs2 : Reg) (rm : BitVec 3) (s : State) : Result :=
  arithS (.fmulS rd rs1 rs2 rm) rm rd (fun r => fMul s.single r (s.readS rs1).toNat (s.readS rs2).toNat) s

/-- `fmv.w.x rd, rs1` (R376). -/
def execFmvWX (rd rs1 : Reg) (s : State) : Result :=
  moveToF (.fmvWX rd rs1) rd (Config.boxS s.cfg ((s.readX rs1).setWidth 32)) s

/-- `fmv.x.w rd, rs1` (R377). -/
def execFmvXW (rd rs1 : Reg) (s : State) : Result :=
  moveToX (.fmvXW rd rs1) rd (((s.readF rs1).setWidth 32).signExtend 64) s

/-- `fnmadd.s rd, rs1, rs2, rs3` (R378). -/
def execFnmaddS (rd rs1 rs2 rs3 : Reg) (rm : BitVec 3) (s : State) : Result :=
  arithS (.fnmaddS rd rs1 rs2 rs3 rm) rm rd (fun r => fFma s.single r true true (s.readS rs1).toNat (s.readS rs2).toNat (s.readS rs3).toNat) s

/-- `fnmsub.s rd, rs1, rs2, rs3` (R379). -/
def execFnmsubS (rd rs1 rs2 rs3 : Reg) (rm : BitVec 3) (s : State) : Result :=
  arithS (.fnmsubS rd rs1 rs2 rs3 rm) rm rd (fun r => fFma s.single r true false (s.readS rs1).toNat (s.readS rs2).toNat (s.readS rs3).toNat) s

/-- `fsgnj.s rd, rs1, rs2` (R380). -/
def execFsgnjS (rd rs1 rs2 : Reg) (s : State) : Result :=
  selectS (.fsgnjS rd rs1 rs2) rd (fSgn s.single (Fmt.isNeg s.single (s.readS rs2).toNat) (s.readS rs1).toNat, 0) s

/-- `fsgnjn.s rd, rs1, rs2` (R381). -/
def execFsgnjnS (rd rs1 rs2 : Reg) (s : State) : Result :=
  selectS (.fsgnjnS rd rs1 rs2) rd (fSgn s.single (!Fmt.isNeg s.single (s.readS rs2).toNat) (s.readS rs1).toNat, 0) s

/-- `fsgnjx.s rd, rs1, rs2` (R382). -/
def execFsgnjxS (rd rs1 rs2 : Reg) (s : State) : Result :=
  selectS (.fsgnjxS rd rs1 rs2) rd (fSgn s.single (Fmt.isNeg s.single (s.readS rs1).toNat != Fmt.isNeg s.single (s.readS rs2).toNat) (s.readS rs1).toNat, 0) s

/-- `fsqrt.s rd, rs1` (R383). -/
def execFsqrtS (rd rs1 : Reg) (rm : BitVec 3) (s : State) : Result :=
  arithS (.fsqrtS rd rs1 rm) rm rd (fun r => fSqrt s.single r (s.readS rs1).toNat) s

/-- `fsub.s rd, rs1, rs2` (R384). -/
def execFsubS (rd rs1 rs2 : Reg) (rm : BitVec 3) (s : State) : Result :=
  arithS (.fsubS rd rs1 rs2 rm) rm rd (fun r => fAdd s.single r true (s.readS rs1).toNat (s.readS rs2).toNat) s

/-- `fsw rs2, offset(rs1)` (R385). -/
def execFsw (rs2 rs1 : Reg) (off : BitVec 12) (s : State) : Result :=
  storeF (.fsw rs2 rs1 off) 4 rs2 (s.address rs1 (immediate off)) 4 s

end Sys2Proof.Machine
end

