-- ==== Sys2Proof/Machine/Integer.lean ====
section
/-! DEFINITION. Integer computational instructions (spec 40_integer_computational.md). -/

namespace Sys2Proof.Machine

open Sys2Proof

/-- `add rd, rs1, rs2` (R201). -/
def execAdd (rd rs1 rs2 : Reg) (s : State) : Result := regReg 4 opAdd rd rs1 rs2 s

/-- `addi rd, rs1, immediate` (R202). -/
def execAddi (rd rs1 : Reg) (imm : BitVec 12) (s : State) : Result := regImm 4 opAdd rd rs1 (immediate imm) s

/-- `addiw rd, rs1, immediate` (R203). -/
def execAddiw (rd rs1 : Reg) (imm : BitVec 12) (s : State) : Result := regImmW 4 opAdd rd rs1 (immediate imm) s

/-- `addw rd, rs1, rs2` (R204). -/
def execAddw (rd rs1 rs2 : Reg) (s : State) : Result := regRegW 4 opAdd rd rs1 rs2 s

/-- `and rd, rs1, rs2` (R205). -/
def execAnd (rd rs1 rs2 : Reg) (s : State) : Result := regReg 4 opAnd rd rs1 rs2 s

/-- `andi rd, rs1, immediate` (R206). -/
def execAndi (rd rs1 : Reg) (imm : BitVec 12) (s : State) : Result := regImm 4 opAnd rd rs1 (immediate imm) s

/-- `auipc rd, immediate` (R207). -/
def execAuipc (rd : Reg) (imm : BitVec 20) (s : State) : Result := setX 4 rd (s.pcPlus (upperImmediate imm)) s

/-- `lui rd, immediate` (R208). -/
def execLui (rd : Reg) (imm : BitVec 20) (s : State) : Result := setX 4 rd (upperImmediate imm) s

/-- `or rd, rs1, rs2` (R209). -/
def execOr (rd rs1 rs2 : Reg) (s : State) : Result := regReg 4 opOr rd rs1 rs2 s

/-- `ori rd, rs1, immediate` (R210). -/
def execOri (rd rs1 : Reg) (imm : BitVec 12) (s : State) : Result := regImm 4 opOr rd rs1 (immediate imm) s

/-- `sll rd, rs1, rs2` (R211). -/
def execSll (rd rs1 rs2 : Reg) (s : State) : Result := regReg 4 opSll rd rs1 rs2 s

/-- `slli rd, rs1, shamt` (R212). -/
def execSlli (rd rs1 : Reg) (shamt : BitVec 6) (s : State) : Result := regImm 4 opSll rd rs1 (shamt.setWidth 64) s

/-- `slliw rd, rs1, shamt` (R213). -/
def execSlliw (rd rs1 : Reg) (shamt : BitVec 6) (s : State) : Result := regImmW 4 opSll rd rs1 (shamt.setWidth 64) s

/-- `sllw rd, rs1, rs2` (R214). -/
def execSllw (rd rs1 rs2 : Reg) (s : State) : Result := regRegW 4 opSll rd rs1 rs2 s

/-- `slt rd, rs1, rs2` (R215). -/
def execSlt (rd rs1 rs2 : Reg) (s : State) : Result := regReg 4 opSlt rd rs1 rs2 s

/-- `slti rd, rs1, immediate` (R216). -/
def execSlti (rd rs1 : Reg) (imm : BitVec 12) (s : State) : Result := regImm 4 opSlt rd rs1 (immediate imm) s

/-- `sltiu rd, rs1, immediate` (R217). -/
def execSltiu (rd rs1 : Reg) (imm : BitVec 12) (s : State) : Result := regImm 4 opSltu rd rs1 (immediate imm) s

/-- `sltu rd, rs1, rs2` (R218). -/
def execSltu (rd rs1 rs2 : Reg) (s : State) : Result := regReg 4 opSltu rd rs1 rs2 s

/-- `sra rd, rs1, rs2` (R219). -/
def execSra (rd rs1 rs2 : Reg) (s : State) : Result := regReg 4 opSra rd rs1 rs2 s

/-- `srai rd, rs1, shamt` (R220). -/
def execSrai (rd rs1 : Reg) (shamt : BitVec 6) (s : State) : Result := regImm 4 opSra rd rs1 (shamt.setWidth 64) s

/-- `sraiw rd, rs1, shamt` (R221). -/
def execSraiw (rd rs1 : Reg) (shamt : BitVec 6) (s : State) : Result := regImmW 4 opSra rd rs1 (shamt.setWidth 64) s

/-- `sraw rd, rs1, rs2` (R222). -/
def execSraw (rd rs1 rs2 : Reg) (s : State) : Result := regRegW 4 opSra rd rs1 rs2 s

/-- `srl rd, rs1, rs2` (R223). -/
def execSrl (rd rs1 rs2 : Reg) (s : State) : Result := regReg 4 opSrl rd rs1 rs2 s

/-- `srli rd, rs1, shamt` (R224). -/
def execSrli (rd rs1 : Reg) (shamt : BitVec 6) (s : State) : Result := regImm 4 opSrl rd rs1 (shamt.setWidth 64) s

/-- `srliw rd, rs1, shamt` (R225). -/
def execSrliw (rd rs1 : Reg) (shamt : BitVec 6) (s : State) : Result := regImmW 4 opSrl rd rs1 (shamt.setWidth 64) s

/-- `srlw rd, rs1, rs2` (R226). -/
def execSrlw (rd rs1 rs2 : Reg) (s : State) : Result := regRegW 4 opSrl rd rs1 rs2 s

/-- `sub rd, rs1, rs2` (R227). -/
def execSub (rd rs1 rs2 : Reg) (s : State) : Result := regReg 4 opSub rd rs1 rs2 s

/-- `subw rd, rs1, rs2` (R228). -/
def execSubw (rd rs1 rs2 : Reg) (s : State) : Result := regRegW 4 opSub rd rs1 rs2 s

/-- `xor rd, rs1, rs2` (R229). -/
def execXor (rd rs1 rs2 : Reg) (s : State) : Result := regReg 4 opXor rd rs1 rs2 s

/-- `xori rd, rs1, immediate` (R230). -/
def execXori (rd rs1 : Reg) (imm : BitVec 12) (s : State) : Result := regImm 4 opXor rd rs1 (immediate imm) s

end Sys2Proof.Machine
end

