-- ==== Sys2Proof/Machine/MulDiv.lean ====
section
/-! DEFINITION. Multiply and divide (spec 44_muldiv.md). -/

namespace Sys2Proof.Machine

open Sys2Proof

/-- `mul rd, rs1, rs2` (R302). -/
def execMul (rd rs1 rs2 : Reg) (s : State) : Result := regReg 4 opMul rd rs1 rs2 s

/-- `mulh rd, rs1, rs2` (R303). -/
def execMulh (rd rs1 rs2 : Reg) (s : State) : Result := regReg 4 opMulh rd rs1 rs2 s

/-- `mulhsu rd, rs1, rs2` (R304). -/
def execMulhsu (rd rs1 rs2 : Reg) (s : State) : Result := regReg 4 opMulhsu rd rs1 rs2 s

/-- `mulhu rd, rs1, rs2` (R305). -/
def execMulhu (rd rs1 rs2 : Reg) (s : State) : Result := regReg 4 opMulhu rd rs1 rs2 s

/-- `mulw rd, rs1, rs2` (R306). -/
def execMulw (rd rs1 rs2 : Reg) (s : State) : Result := regRegW 4 opMul rd rs1 rs2 s

/-- `div rd, rs1, rs2` (R307). -/
def execDiv (rd rs1 rs2 : Reg) (s : State) : Result := regReg 4 (opDiv s.cfg.div) rd rs1 rs2 s

/-- `divu rd, rs1, rs2` (R308). -/
def execDivu (rd rs1 rs2 : Reg) (s : State) : Result := regReg 4 (opDivu s.cfg.div) rd rs1 rs2 s

/-- `divw rd, rs1, rs2` (R309). -/
def execDivw (rd rs1 rs2 : Reg) (s : State) : Result := regRegW 4 (opDiv s.cfg.div) rd rs1 rs2 s

/-- `divuw rd, rs1, rs2` (R310). -/
def execDivuw (rd rs1 rs2 : Reg) (s : State) : Result := regRegW 4 (opDivu s.cfg.div) rd rs1 rs2 s

/-- `rem rd, rs1, rs2` (R311). -/
def execRem (rd rs1 rs2 : Reg) (s : State) : Result := regReg 4 (opRem s.cfg.div) rd rs1 rs2 s

/-- `remu rd, rs1, rs2` (R312). -/
def execRemu (rd rs1 rs2 : Reg) (s : State) : Result := regReg 4 (opRemu s.cfg.div) rd rs1 rs2 s

/-- `remw rd, rs1, rs2` (R313). -/
def execRemw (rd rs1 rs2 : Reg) (s : State) : Result := regRegW 4 (opRem s.cfg.div) rd rs1 rs2 s

/-- `remuw rd, rs1, rs2` (R314). -/
def execRemuw (rd rs1 rs2 : Reg) (s : State) : Result := regRegW 4 (opRemu s.cfg.div) rd rs1 rs2 s

end Sys2Proof.Machine
end

