-- ==== Sys2Proof/Machine/Csr.lean ====
section
/-! DEFINITION. The control and status registers: which exist, who may access them, what a read gives and what a write
keeps (spec 10_state.md R39 to R60; 43_system_csr_fence.md R281, R282). -/

namespace Sys2Proof.Machine

open Sys2Proof

/-- The CSRs of 10_state.md R40 to R60. -/
inductive Csr where
  | fflags | frm | fcsr
  | cycle | time | instret | cycleh | timeh | instreth
  | sstatus | sie | stvec | scounteren | sscratch | sepc | scause | stval | sip | satp
  | mstatus | misa | medeleg | mideleg | mie | mtvec | mcounteren | mscratch | mepc | mcause | mtval | mip
  | mcycle | minstret | mcycleh | minstreth
  | mvendorid | marchid | mimpid | mhartid
deriving DecidableEq, Repr

/-- The number of each CSR (10_state.md R40, R47 to R60). -/
def Csr.number : Csr → BitVec 12
  | .fflags => 0x001 | .frm => 0x002 | .fcsr => 0x003
  | .cycle => 0xC00 | .time => 0xC01 | .instret => 0xC02
  | .cycleh => 0xC80 | .timeh => 0xC81 | .instreth => 0xC82
  | .sstatus => 0x100 | .sie => 0x104 | .stvec => 0x105 | .scounteren => 0x106 | .sscratch => 0x140 | .sepc => 0x141
  | .scause => 0x142 | .stval => 0x143 | .sip => 0x144 | .satp => 0x180
  | .mstatus => 0x300 | .misa => 0x301 | .medeleg => 0x302 | .mideleg => 0x303 | .mie => 0x304 | .mtvec => 0x305
  | .mcounteren => 0x306 | .mscratch => 0x340 | .mepc => 0x341 | .mcause => 0x342 | .mtval => 0x343 | .mip => 0x344
  | .mcycle => 0xB00 | .minstret => 0xB02 | .mcycleh => 0xB80 | .minstreth => 0xB82
  | .mvendorid => 0xF11 | .marchid => 0xF12 | .mimpid => 0xF13 | .mhartid => 0xF14

/-- Every CSR. -/
def Csr.all : List Csr :=
  [.fflags, .frm, .fcsr, .cycle, .time, .instret, .cycleh, .timeh, .instreth,
   .sstatus, .sie, .stvec, .scounteren, .sscratch, .sepc, .scause, .stval, .sip, .satp,
   .mstatus, .misa, .medeleg, .mideleg, .mie, .mtvec, .mcounteren, .mscratch, .mepc, .mcause, .mtval, .mip,
   .mcycle, .minstret, .mcycleh, .minstreth, .mvendorid, .marchid, .mimpid, .mhartid]

/-- The CSR exists in the configuration (R282 (a)). R48, R54 and R56 to R58 of 10_state.md say which supervisor CSRs
exist only with PRIV_S; R55 does not say it of `sip` and `sie`, which exist only with PRIV_S too (DESIGN CHOICE, log
entry 36). -/
def Csr.exists (c : Config) : Csr → Bool
  | .fflags | .frm | .fcsr => c.extF
  | .cycleh | .timeh | .instreth | .mcycleh | .minstreth => c.xlen == .rv32
  | .sstatus | .sie | .stvec | .scounteren | .sscratch | .sepc | .scause | .stval | .sip | .satp => c.privS
  | .medeleg | .mideleg => c.privS
  | .cycle | .time | .instret => true
  | .mstatus | .misa | .mie | .mtvec | .mcounteren | .mscratch | .mepc | .mcause | .mtval | .mip => true
  | .mcycle | .minstret | .mvendorid | .marchid | .mimpid | .mhartid => true

/-- The CSR a number names. -/
def Csr.ofNumber (c : Config) (n : BitVec 12) : Option Csr := Csr.all.find? (fun r => r.number == n && Csr.exists c r)

/-! ## The access check (R282) -/

/-- The modes in order (10_state.md R61). -/
def Priv.level : Priv → Nat
  | .user => 0
  | .supervisor => 1
  | .machine => 3

/-- The lowest mode that may access a CSR: bits 9:8 of its number, 10 counting as machine (R282 (b)). -/
def lowestLevel (n : BitVec 12) : Nat :=
  if n.extractLsb' 8 2 = 0b00#2 then 0 else if n.extractLsb' 8 2 = 0b01#2 then 1 else 3

/-- The number marks a read-only register (R282 (c)). -/
def isReadOnly (n : BitVec 12) : Bool := n.extractLsb' 10 2 == 0b11#2

/-- The bit of the counter-enable registers for a user counter (10_state.md R60). -/
def Csr.counterBit : Csr → Option Nat
  | .cycle | .cycleh => some 0
  | .time | .timeh => some 1
  | .instret | .instreth => some 2
  | _ => none

/-- The counter-enable registers let the mode read the counter (R282 (d); 10_state.md R60). -/
def State.counterEnabled (s : State) (c : Csr) : Bool :=
  match c.counterBit with
  | none => true
  | some b =>
    match s.priv with
    | .machine => true
    | .supervisor => s.mcounteren.getLsbD b
    | .user => s.mcounteren.getLsbD b && (!s.cfg.privS || s.scounteren.getLsbD b)

/-- One of the three floating-point CSRs. -/
def Csr.isFloat : Csr → Bool
  | .fflags | .frm | .fcsr => true
  | _ => false

/-- What a mode may do with a CSR of a number: R282 (b) to (e), or with TRAP_MODEL = environment its last sentence, under
which only the user-level registers are accessible and no counter-enable register exists. -/
def State.csrAllowed (s : State) (n : BitVec 12) (c : Csr) (writes : Bool) : Bool :=
  !(writes && isReadOnly n) && !(c.isFloat && s.fsOff) &&
  match s.cfg.trapModel with
  | .environment => lowestLevel n == 0
  | .machine => lowestLevel n ≤ Priv.level s.priv && s.counterEnabled c

/-- The CSR an instruction accesses, `none` when the access check fails (R282). -/
def State.csrAccess (s : State) (n : BitVec 12) (writes : Bool) : Option Csr :=
  match Csr.ofNumber s.cfg n with
  | none => none
  | some c => if s.csrAllowed n c writes then some c else none

/-! ## Reading (R281 (3)) -/

/-- A Boolean as bit k of a register. -/
def bitAt (b : Bool) (k : Nat) : Word := if b then 1#64 <<< k else 0

/-- `mstatus.FS` can hold a value (10_state.md R47). -/
def Config.hasFs (c : Config) : Bool := c.fsTracking && c.extF

/-- `mstatus.FS` as it reads. -/
def State.fsField (s : State) : BitVec 2 := if Config.hasFs s.cfg then s.mstatus.fs else 0

/-- The encoding of a mode in MPP (10_state.md R47). -/
def Priv.bits : Priv → BitVec 2
  | .user => 0
  | .supervisor => 1
  | .machine => 3

/-- The fields `sstatus` shows: SIE, SPIE, SPP, FS, SD, UXL (10_state.md R48). -/
def State.sstatusBits (s : State) : Word :=
  (if s.cfg.privS then bitAt s.mstatus.sie 1 ||| bitAt s.mstatus.spie 5 ||| bitAt s.mstatus.spp 8 else 0) |||
  ((s.fsField.setWidth 64) <<< 13) ||| bitAt (s.fsField == 3#2) (s.cfg.xlen.bits - 1) |||
  (if s.cfg.xlen == .rv64 && s.cfg.privU then 2#64 <<< 32 else 0)

/-- `mstatus` as it reads (10_state.md R47): MIE, MPIE, MPP, SXL, and what `sstatus` shows. -/
def State.mstatusBits (s : State) : Word :=
  bitAt s.mstatus.mie 3 ||| bitAt s.mstatus.mpie 7 ||| (((Priv.bits s.mstatus.mpp).setWidth 64) <<< 11) |||
  (if s.cfg.xlen == .rv64 && s.cfg.privS then 2#64 <<< 34 else 0) ||| s.sstatusBits

/-- `misa` (10_state.md R59). -/
def misaBits (c : Config) : Word :=
  (match c.xlen with
    | .rv32 => 1#64 <<< 30
    | .rv64 => 2#64 <<< 62) |||
  bitAt c.extA 0 ||| bitAt c.extC 2 ||| bitAt c.extD 3 ||| bitAt c.extF 5 ||| bitAt true 8 ||| bitAt c.extM 12 |||
  bitAt c.privS 18 ||| bitAt c.privU 20

/-- A later value of a 64-bit counter, not below it: `by` further on, as far as the counter goes
(10_state.md R44, R45; log entry 10). -/
def advanceCounter (v : Word) (by' : Nat) : Word := BitVec.ofNat 64 (v.toNat + by' % (2 ^ 64 - v.toNat))

/-- `cycle` is read: the value is free, not below the last one (10_state.md R44; log entry 10). -/
def State.tickCycle (s : State) : State :=
  { s with mcycle := advanceCounter s.mcycle (Config.freeCycles s.draws), draws := s.draws + 1 }

/-- `time` is read: the value is free, not below the last one (10_state.md R45; log entry 10). -/
def State.tickTime (s : State) : State :=
  { s with time := advanceCounter s.time (Config.freeTime s.draws), draws := s.draws + 1 }

/-- The bits of `mip` and `mie` that supervisor mode sees: the supervisor interrupts that `mideleg` delegates
(10_state.md R55). -/
def State.delegatedMask (s : State) : BitVec 12 := s.mideleg.setWidth 12 &&& 0x222#12

/-- The high half of a 64-bit counter. -/
def highHalf (v : Word) : Word := v >>> 32

/-- CSRs[c] as a read gives it, and the state after the read: a read of `cycle` or `time` uses a free value
(R281 (3); 10_state.md R40 to R60). -/
def State.readCsr (s : State) (c : Csr) : Word × State :=
  match c with
  | .fflags => (s.fflags.setWidth 64, s)
  | .frm => (s.frm.setWidth 64, s)
  | .fcsr => ((s.frm ++ s.fflags).setWidth 64, s)
  | .cycle | .mcycle => (s.cfg.xlen.wrap s.tickCycle.mcycle, s.tickCycle)
  | .cycleh | .mcycleh => (highHalf s.tickCycle.mcycle, s.tickCycle)
  | .time => (s.cfg.xlen.wrap s.tickTime.time, s.tickTime)
  | .timeh => (highHalf s.tickTime.time, s.tickTime)
  | .instret | .minstret => (s.cfg.xlen.wrap s.minstret, s)
  | .instreth | .minstreth => (highHalf s.minstret, s)
  | .sstatus => (s.cfg.xlen.wrap s.sstatusBits, s)
  | .sie => ((s.mie &&& interruptBits s.cfg &&& s.delegatedMask).setWidth 64, s)
  | .stvec => (s.cfg.xlen.wrap s.stvec, s)
  | .scounteren => (s.scounteren.setWidth 64, s)
  | .sscratch => (s.cfg.xlen.wrap s.sscratch, s)
  | .sepc => (maskEpc s.cfg s.sepc, s)
  | .scause => (s.cfg.xlen.wrap s.scause, s)
  | .stval => (s.cfg.xlen.wrap s.stval, s)
  | .sip => ((s.mip &&& s.delegatedMask).setWidth 64, s)
  | .satp => (0, s)
  | .mstatus => (s.cfg.xlen.wrap s.mstatusBits, s)
  | .misa => (misaBits s.cfg, s)
  | .medeleg => (s.cfg.xlen.wrap s.medeleg, s)
  | .mideleg => (s.cfg.xlen.wrap s.mideleg, s)
  | .mie => ((s.mie &&& interruptBits s.cfg).setWidth 64, s)
  | .mtvec => (s.cfg.xlen.wrap s.mtvec, s)
  | .mcounteren => (s.mcounteren.setWidth 64, s)
  | .mscratch => (s.cfg.xlen.wrap s.mscratch, s)
  | .mepc => (maskEpc s.cfg s.mepc, s)
  | .mcause => (s.cfg.xlen.wrap s.mcause, s)
  | .mtval => (s.cfg.xlen.wrap s.mtval, s)
  | .mip => (s.mip.setWidth 64, s)
  | .mvendorid => (s.cfg.xlen.wrap s.cfg.mvendorid, s)
  | .marchid => (s.cfg.xlen.wrap s.cfg.marchid, s)
  | .mimpid => (s.cfg.xlen.wrap s.cfg.mimpid, s)
  | .mhartid => (s.cfg.xlen.wrap s.cfg.mhartid, s)

/-! ## Writing (R281 (4), `csr_legalize`) -/

/-- The mode a two-bit MPP field names (10_state.md R47: 10 is not a mode). -/
def Priv.ofBits (b : BitVec 2) : Option Priv :=
  if b = 0b00#2 then some .user else if b = 0b01#2 then some .supervisor else if b = 0b11#2 then some .machine else none

/-- MPP after a write: the mode written if the machine has it, else the old one (10_state.md R47). -/
def legalMpp (c : Config) (old : Priv) (b : BitVec 2) : Priv :=
  match Priv.ofBits b with
  | some p => if Config.hasMode c p then p else old
  | none => old

/-- The fields a write of `sstatus` changes: SIE, SPIE, SPP, FS (10_state.md R48). -/
def State.writeSstatus (s : State) (v : Word) : MStatus :=
  { s.mstatus with
    sie := if s.cfg.privS then v.getLsbD 1 else s.mstatus.sie
    spie := if s.cfg.privS then v.getLsbD 5 else s.mstatus.spie
    spp := if s.cfg.privS then v.getLsbD 8 else s.mstatus.spp
    fs := if Config.hasFs s.cfg then v.extractLsb' 13 2 else s.mstatus.fs }

/-- The fields a write of `mstatus` changes (10_state.md R47). -/
def State.writeMstatus (s : State) (v : Word) : MStatus :=
  { s.writeSstatus v with
    mie := v.getLsbD 3
    mpie := v.getLsbD 7
    mpp := legalMpp s.cfg s.mstatus.mpp (v.extractLsb' 11 2) }

/-- A trap-vector register after a write: MODE 2 and 3 keep the old MODE (10_state.md R51). -/
def legalTvec (xl : Xlen) (old v : Word) : Word :=
  xl.wrap (if v.getLsbD 1 then (v &&& ~~~(3#64)) ||| (old &&& 3#64) else v)

/-- The low XLEN bits of a 64-bit counter are written. -/
def writeLow (xl : Xlen) (old v : Word) : Word :=
  match xl with
  | .rv32 => old.extractLsb' 32 32 ++ v.extractLsb' 0 32
  | .rv64 => v

/-- The high half of a 64-bit counter is written. -/
def writeHigh (old v : Word) : Word := v.extractLsb' 0 32 ++ old.extractLsb' 0 32

/-- The bits of `m` come from v, the others from old. -/
def mergeBits (old v m : BitVec 12) : BitVec 12 := (old &&& ~~~m) ||| (v &&& m)

/-- The value a register holds, without the draws and the interrupt lines that a read of some of them shows. -/
def State.heldCsr (s : State) (c : Csr) : Word :=
  match c with
  | .mcycle => s.cfg.xlen.wrap s.mcycle
  | .mcycleh => highHalf s.mcycle
  | .mip | .sip => s.mipSoft.setWidth 64
  | _ => (s.readCsr c).1

/-- The bits of a CSR that the platform's part of `csr_legalize` makes read-only (00_scope.md R8; log entry 32). -/
def csrReadOnlyBits (c : Config) (r : Csr) : Word :=
  match c.csrReadOnly.find? (fun p => p.1 == r.number) with
  | some p => p.2
  | none => 0

/-- The value written, or what the platform's own rule makes of it for a CSR that has one (00_scope.md R8; log
entry 32). -/
def csrOwnValue (c : Config) (r : Csr) (old new : Word) : Word :=
  if c.csrOwnRule.contains r.number then Config.freeLegalize r.number old new else new

/-- `csr_legalize(csr, old, new)`, the platform's part: its own rule where it has one, and its read-only bits, which keep
the old value. What 92_eei_decisions.md D20 fixes is in `storeCsr`. -/
def csrLegalize (c : Config) (r : Csr) (old new : Word) : Word :=
  (csrOwnValue c r old new &&& ~~~(csrReadOnlyBits c r)) ||| (old &&& csrReadOnlyBits c r)

/-- Put a value into a register, keeping of it what the register can hold (D20; 10_state.md R40 to R60). -/
def State.storeCsr (s : State) (c : Csr) (v : Word) : State :=
  match c with
  | .fflags => State.fsDirty { s with fflags := v.extractLsb' 0 5 }
  | .frm => State.fsDirty { s with frm := v.extractLsb' 0 3 }
  | .fcsr => State.fsDirty { s with fflags := v.extractLsb' 0 5, frm := v.extractLsb' 5 3 }
  | .sstatus => { s with mstatus := s.writeSstatus v }
  | .sie => { s with mie := mergeBits s.mie (v.setWidth 12) s.delegatedMask }
  | .stvec => { s with stvec := legalTvec s.cfg.xlen s.stvec v }
  | .scounteren => { s with scounteren := v.extractLsb' 0 3 }
  | .sscratch => { s with sscratch := s.cfg.xlen.wrap v }
  | .sepc => { s with sepc := maskEpc s.cfg v }
  | .scause => { s with scause := s.cfg.xlen.wrap v }
  | .stval => { s with stval := s.cfg.xlen.wrap v }
  | .sip => { s with mipSoft := mergeBits s.mipSoft (v.setWidth 12) (s.delegatedMask &&& 0x002#12) }
  | .mstatus => { s with mstatus := s.writeMstatus v }
  | .medeleg => { s with medeleg := s.cfg.xlen.wrap (v &&& ~~~(0x800#64)) }
  | .mideleg => { s with mideleg := s.cfg.xlen.wrap (v &&& ~~~(0x888#64)) }
  | .mie => { s with mie := v.setWidth 12 &&& interruptBits s.cfg }
  | .mtvec => { s with mtvec := legalTvec s.cfg.xlen s.mtvec v }
  | .mcounteren => { s with mcounteren := v.extractLsb' 0 3 }
  | .mscratch => { s with mscratch := s.cfg.xlen.wrap v }
  | .mepc => { s with mepc := maskEpc s.cfg v }
  | .mcause => { s with mcause := s.cfg.xlen.wrap v }
  | .mtval => { s with mtval := s.cfg.xlen.wrap v }
  | .mip => { s with mipSoft := mergeBits s.mipSoft (v.setWidth 12) (interruptBits s.cfg &&& 0x222#12) }
  | .mcycle => { s with mcycle := writeLow s.cfg.xlen s.mcycle v }
  | .mcycleh => { s with mcycle := writeHigh s.mcycle v }
  | .minstret => { s with minstret := writeLow s.cfg.xlen s.minstret v }
  | .minstreth => { s with minstret := writeHigh s.minstret v }
  | .satp | .misa => s
  | .cycle | .cycleh | .time | .timeh | .instret | .instreth => s
  | .mvendorid | .marchid | .mimpid | .mhartid => s

/-- CSRs[c] <- v (R281 (4)). -/
def State.writeCsr (s : State) (c : Csr) (v : Word) : State := s.storeCsr c (csrLegalize s.cfg c (s.heldCsr c) v)

/-- A write sets the retired-instruction counter, so that the writing instruction does not advance it: R650 of
60_exceptions.md says so of `minstret`. That a write of the high half `minstreth` also leaves out the instruction's own
increment is the model's choice (DESIGN CHOICE, log entry 34). -/
def Csr.isInstret : Csr → Bool
  | .minstret | .minstreth => true
  | _ => false

/-- How a CSR instruction uses its CSR (R281). -/
structure CsrUse where
  /-- The CSR is read: not by `csrrw` and `csrrwi` with rd = x0 (R283). -/
  reads : Bool
  /-- The CSR is written (R281 (1)). -/
  writes : Bool

/-- The state after the CSR is read and written and x[rd] has the old value: steps (3) to (5) of R281. -/
def State.csrEffect (s : State) (c : Csr) (u : CsrUse) (rd : Reg) (new : Word → Word) : State :=
  let r := if u.reads then s.readCsr c else (0, s)
  let s' := if u.writes then r.2.writeCsr c (new r.1) else r.2
  s'.writeX rd r.1

/-- The common procedure of the CSR instructions (R281): `i` is the instruction, `new` what it writes for the value
read. -/
def csrInstruction (i : Instr) (rd : Reg) (n : BitVec 12) (u : CsrUse) (new : Word → Word) (s : State) : Result :=
  match s.csrAccess n u.writes with
  | none => raise .illegalInstruction i.bits s
  | some c =>
    if u.writes && c.isInstret then .next ((s.csrEffect c u rd new).advance 4)
    else finish 4 (s.csrEffect c u rd new)

end Sys2Proof.Machine
end

