-- ==== Sys2Proof/Machine/System.lean ====
section
/-! DEFINITION. CSR instructions, fences, environment calls, trap returns (spec 43_system_csr_fence.md;
60_exceptions.md R612, R643). -/

namespace Sys2Proof.Machine

open Sys2Proof

/-- `csrrw` and `csrrwi` always write, and read unless rd = x0 (R281 (1), R283). -/
def useOfWrite (rd : Reg) : CsrUse := { reads := rd != 0, writes := true }

/-- The set and clear forms always read, and write unless their source field is zero (R281 (1)). -/
def useOfModify (nonzero : Bool) : CsrUse := { reads := true, writes := nonzero }

/-- Every later fetch sees every earlier store (20_memory.md R101). -/
def State.syncFetch (s : State) : State := { s with storeLog := [] }

/-- The environment call exception of the current mode (R291); with TRAP_MODEL = environment always that of user mode
(60_exceptions.md R613). -/
def State.environmentCall (s : State) : Exc :=
  match s.cfg.trapModel with
  | .environment => .environmentCallFromU
  | .machine =>
    match s.priv with
    | .user => .environmentCallFromU
    | .supervisor => .environmentCallFromS
    | .machine => .environmentCallFromM

/-- `mret` is legal: in machine mode (60_exceptions.md R643), and not with TRAP_MODEL = environment (R613). -/
def State.mretLegal (s : State) : Bool := s.cfg.trapModel == .machine && s.priv == .machine

/-- `sret` and `sfence.vma` are legal: with PRIV_S, in supervisor or machine mode (60_exceptions.md R643, R613). -/
def State.supervisorLegal (s : State) : Bool := s.cfg.trapModel == .machine && s.cfg.privS && s.priv != .user

/-- `wfi` is legal: in machine or supervisor mode (60_exceptions.md R643, R613). -/
def State.wfiLegal (s : State) : Bool := s.cfg.trapModel == .machine && s.priv != .user

/-- `csrrw rd, csr, rs1` (R283). -/
def execCsrrw (rd : Reg) (csr : BitVec 12) (rs1 : Reg) (s : State) : Result :=
  csrInstruction (.csrrw rd csr rs1) rd csr (useOfWrite rd) (fun _ => s.readX rs1) s

/-- `csrrs rd, csr, rs1` (R284). -/
def execCsrrs (rd : Reg) (csr : BitVec 12) (rs1 : Reg) (s : State) : Result :=
  csrInstruction (.csrrs rd csr rs1) rd csr (useOfModify (rs1 != 0)) (fun t => t ||| s.readX rs1) s

/-- `csrrc rd, csr, rs1` (R285). -/
def execCsrrc (rd : Reg) (csr : BitVec 12) (rs1 : Reg) (s : State) : Result :=
  csrInstruction (.csrrc rd csr rs1) rd csr (useOfModify (rs1 != 0)) (fun t => t &&& ~~~(s.readX rs1)) s

/-- `csrrwi rd, csr, zimm[4:0]` (R286). -/
def execCsrrwi (rd : Reg) (csr : BitVec 12) (zimm : BitVec 5) (s : State) : Result :=
  csrInstruction (.csrrwi rd csr zimm) rd csr (useOfWrite rd) (fun _ => zimm.setWidth 64) s

/-- `csrrsi rd, csr, zimm[4:0]` (R287). -/
def execCsrrsi (rd : Reg) (csr : BitVec 12) (zimm : BitVec 5) (s : State) : Result :=
  csrInstruction (.csrrsi rd csr zimm) rd csr (useOfModify (zimm != 0)) (fun t => t ||| zimm.setWidth 64) s

/-- `csrrci rd, csr, zimm[4:0]` (R288). -/
def execCsrrci (rd : Reg) (csr : BitVec 12) (zimm : BitVec 5) (s : State) : Result :=
  csrInstruction (.csrrci rd csr zimm) rd csr (useOfModify (zimm != 0)) (fun t => t &&& ~~~(zimm.setWidth 64)) s

/-- `fence pred, succ` (R289): one hart sees nothing of it, and the record of I/O accesses has program order with it and
without it (log entries 18, 37). -/
def execFence (_pred _succ : BitVec 4) (s : State) : Result := finish 4 s

/-- `fence.i` (R290). -/
def execFenceI (s : State) : Result := finish 4 s.syncFetch

/-- `ecall` (R291). -/
def execEcall (s : State) : Result := raise s.environmentCall 0 s

/-- `ebreak` (R292). -/
def execEbreak (s : State) : Result := raise .breakpoint s.pc s

/-- `mret` (R293). -/
def execMret (s : State) : Result :=
  if s.mretLegal then .next s.returnM.retire else raise .illegalInstruction (Instr.bits .mret) s

/-- `sret` (R294). -/
def execSret (s : State) : Result :=
  if s.supervisorLegal then .next s.returnS.retire else raise .illegalInstruction (Instr.bits .sret) s

/-- `wfi` (R295). -/
def execWfi (s : State) : Result := if s.wfiLegal then finish 4 s else raise .illegalInstruction (Instr.bits .wfi) s

/-- `sfence.vma rs1, rs2` (R296). -/
def execSfenceVma (rs1 rs2 : Reg) (s : State) : Result :=
  if s.supervisorLegal then finish 4 s else raise .illegalInstruction (Instr.bits (.sfenceVma rs1 rs2)) s

end Sys2Proof.Machine
end

