-- ==== Sys2Proof/Machine/Pseudo.lean ====
section
/-! DEFINITION. Pseudoinstructions (spec 49_pseudoinstructions.md R500): each is its expansion. The decoder never gives
one; an expansion of several instructions runs them one after the other, with no interrupt between (log entry 21). -/

namespace Sys2Proof.Machine

open Sys2Proof

/-- Run the next instruction of an expansion where the one before completed. -/
def Result.thenDo (r : Result) (k : State → Result) : Result :=
  match r with
  | .next s => k s
  | .fault f => .fault f
  | .refused f => .refused f

/-- The second instruction of `la`: `addi`, or for position-independent code `lw` or `ld` (R535). -/
def loadAddressEnd (rd : Reg) (pic : Bool) (lo : BitVec 12) (s : State) : Result :=
  match pic, s.cfg.xlen with
  | false, _ => execAddi rd rd lo s
  | true, .rv32 => execLw rd rd lo s
  | true, .rv64 => execLd rd rd lo s

/-- One instruction of the expansion of `li` (R502). -/
def execLiOp (rd : Reg) : LiOp → State → Result
  | .load imm => execAddi rd 0 imm
  | .lui imm => execLui rd imm
  | .addi imm => execAddi rd rd imm
  | .addiw imm => execAddiw rd rd imm
  | .slli shamt => execSlli rd rd shamt

/-- The instructions of an expansion of `li`, in order. -/
def runLi (rd : Reg) : List LiOp → State → Result
  | [], s => .next s
  | op :: ops, s => Result.thenDo (execLiOp rd op s) (runLi rd ops)

/-- `beqz rs1, offset` (R503). -/
def execBeqz (rs1 : Reg) (off : BitVec 12) (s : State) : Result := execBeq rs1 0 off s

/-- `bgez rs1, offset` (R504). -/
def execBgez (rs1 : Reg) (off : BitVec 12) (s : State) : Result := execBge rs1 0 off s

/-- `bgt rs1, rs2, offset` (R505). -/
def execBgt (rs1 rs2 : Reg) (off : BitVec 12) (s : State) : Result := execBlt rs2 rs1 off s

/-- `bgtu rs1, rs2, offset` (R506). -/
def execBgtu (rs1 rs2 : Reg) (off : BitVec 12) (s : State) : Result := execBltu rs2 rs1 off s

/-- `bgtz rs2, offset` (R507). -/
def execBgtz (rs2 : Reg) (off : BitVec 12) (s : State) : Result := execBlt 0 rs2 off s

/-- `ble rs1, rs2, offset` (R508). -/
def execBle (rs1 rs2 : Reg) (off : BitVec 12) (s : State) : Result := execBge rs2 rs1 off s

/-- `bleu rs1, rs2, offset` (R509). -/
def execBleu (rs1 rs2 : Reg) (off : BitVec 12) (s : State) : Result := execBgeu rs2 rs1 off s

/-- `blez rs2, offset` (R510). -/
def execBlez (rs2 : Reg) (off : BitVec 12) (s : State) : Result := execBge 0 rs2 off s

/-- `bltz rs1, offset` (R511). -/
def execBltz (rs1 : Reg) (off : BitVec 12) (s : State) : Result := execBlt rs1 0 off s

/-- `bnez rs1, offset` (R512). -/
def execBnez (rs1 : Reg) (off : BitVec 12) (s : State) : Result := execBne rs1 0 off s

/-- `call rd, symbol` (R513). -/
def execCall (rd : Reg) (delta : BitVec 32) (s : State) : Result :=
  Result.thenDo (execAuipc rd (offsetHi delta) s) (execJalr rd rd (offsetLo delta))

/-- `csrr rd, csr` (R514). -/
def execCsrr (rd : Reg) (csr : BitVec 12) (s : State) : Result := execCsrrs rd csr 0 s

/-- `csrc csr, rs1` (R515). -/
def execCsrc (csr : BitVec 12) (rs1 : Reg) (s : State) : Result := execCsrrc 0 csr rs1 s

/-- `csrci csr, zimm[4:0]` (R516). -/
def execCsrci (csr : BitVec 12) (zimm : BitVec 5) (s : State) : Result := execCsrrci 0 csr zimm s

/-- `csrs csr, rs1` (R517). -/
def execCsrs (csr : BitVec 12) (rs1 : Reg) (s : State) : Result := execCsrrs 0 csr rs1 s

/-- `csrsi csr, zimm[4:0]` (R518). -/
def execCsrsi (csr : BitVec 12) (zimm : BitVec 5) (s : State) : Result := execCsrrsi 0 csr zimm s

/-- `csrw csr, rs1` (R519). -/
def execCsrw (csr : BitVec 12) (rs1 : Reg) (s : State) : Result := execCsrrw 0 csr rs1 s

/-- `csrwi csr, zimm[4:0]` (R520). -/
def execCsrwi (csr : BitVec 12) (zimm : BitVec 5) (s : State) : Result := execCsrrwi 0 csr zimm s

/-- `fabs.d rd, rs1` (R521). -/
def execFabsD (rd rs1 : Reg) (s : State) : Result := execFsgnjxD rd rs1 rs1 s

/-- `fabs.s rd, rs1` (R522). -/
def execFabsS (rd rs1 : Reg) (s : State) : Result := execFsgnjxS rd rs1 rs1 s

/-- `fmv.d rd, rs1` (R523). -/
def execFmvD (rd rs1 : Reg) (s : State) : Result := execFsgnjD rd rs1 rs1 s

/-- `fmv.s rd, rs1` (R524). -/
def execFmvS (rd rs1 : Reg) (s : State) : Result := execFsgnjS rd rs1 rs1 s

/-- `fneg.d rd, rs1` (R525). -/
def execFnegD (rd rs1 : Reg) (s : State) : Result := execFsgnjnD rd rs1 rs1 s

/-- `fneg.s rd, rs1` (R526). -/
def execFnegS (rd rs1 : Reg) (s : State) : Result := execFsgnjnS rd rs1 rs1 s

/-- `frcsr rd` (R527). -/
def execFrcsr (rd : Reg) (s : State) : Result := execCsrrs rd 0x003 0 s

/-- `frflags rd` (R528). -/
def execFrflags (rd : Reg) (s : State) : Result := execCsrrs rd 0x001 0 s

/-- `frrm rd` (R529). -/
def execFrrm (rd : Reg) (s : State) : Result := execCsrrs rd 0x002 0 s

/-- `fscsr rd, rs1` (R530). -/
def execFscsr (rd rs1 : Reg) (s : State) : Result := execCsrrw rd 0x003 rs1 s

/-- `fsflags rd, rs1` (R531). -/
def execFsflags (rd rs1 : Reg) (s : State) : Result := execCsrrw rd 0x001 rs1 s

/-- `fsrm rd, rs1` (R532). -/
def execFsrm (rd rs1 : Reg) (s : State) : Result := execCsrrw rd 0x002 rs1 s

/-- `j offset` (R533). -/
def execJ (off : BitVec 20) (s : State) : Result := execJal 0 off s

/-- `jr rs1` (R534). -/
def execJr (rs1 : Reg) (s : State) : Result := execJalr 0 rs1 0 s

/-- `la rd, symbol` (R535). -/
def execLa (rd : Reg) (pic : Bool) (delta : BitVec 32) (s : State) : Result :=
  Result.thenDo (execAuipc rd (offsetHi delta) s) (loadAddressEnd rd pic (offsetLo delta))

/-- `li rd, immediate` (R536). -/
def execLi (rd : Reg) (imm : Word) (s : State) : Result := runLi rd (liOps s.cfg.xlen imm) s

/-- `lla rd, symbol` (R537). -/
def execLla (rd : Reg) (delta : BitVec 32) (s : State) : Result :=
  Result.thenDo (execAuipc rd (offsetHi delta) s) (execAddi rd rd (offsetLo delta))

/-- `mv rd, rs1` (R538). -/
def execMv (rd rs1 : Reg) (s : State) : Result := execAddi rd rs1 0 s

/-- `neg rd, rs2` (R539). -/
def execNeg (rd rs2 : Reg) (s : State) : Result := execSub rd 0 rs2 s

/-- `negw rd, rs2` (R540). -/
def execNegw (rd rs2 : Reg) (s : State) : Result := execSubw rd 0 rs2 s

/-- `nop` (R541). -/
def execNop (s : State) : Result := execAddi 0 0 0 s

/-- `not rd, rs1` (R542). -/
def execNot (rd rs1 : Reg) (s : State) : Result := execXori rd rs1 0xFFF s

/-- `rdcycle rd` (R543). -/
def execRdcycle (rd : Reg) (s : State) : Result := execCsrrs rd 0xC00 0 s

/-- `rdcycleh rd` (R544). -/
def execRdcycleh (rd : Reg) (s : State) : Result := execCsrrs rd 0xC80 0 s

/-- `rdinstret rd` (R545). -/
def execRdinstret (rd : Reg) (s : State) : Result := execCsrrs rd 0xC02 0 s

/-- `rdinstreth rd` (R546). -/
def execRdinstreth (rd : Reg) (s : State) : Result := execCsrrs rd 0xC82 0 s

/-- `rdtime rd` (R547). -/
def execRdtime (rd : Reg) (s : State) : Result := execCsrrs rd 0xC01 0 s

/-- `rdtimeh rd` (R548). -/
def execRdtimeh (rd : Reg) (s : State) : Result := execCsrrs rd 0xC81 0 s

/-- `ret` (R549). -/
def execRet (s : State) : Result := execJalr 0 1 0 s

/-- `seqz rd, rs1` (R550). -/
def execSeqz (rd rs1 : Reg) (s : State) : Result := execSltiu rd rs1 1 s

/-- `sext.w rd, rs1` (R551). -/
def execSextW (rd rs1 : Reg) (s : State) : Result := execAddiw rd rs1 0 s

/-- `sgtz rd, rs2` (R552). -/
def execSgtz (rd rs2 : Reg) (s : State) : Result := execSlt rd 0 rs2 s

/-- `sltz rd, rs1` (R553). -/
def execSltz (rd rs1 : Reg) (s : State) : Result := execSlt rd rs1 0 s

/-- `snez rd, rs2` (R554). -/
def execSnez (rd rs2 : Reg) (s : State) : Result := execSltu rd 0 rs2 s

/-- `tail symbol` (R555). -/
def execTail (delta : BitVec 32) (s : State) : Result :=
  Result.thenDo (execAuipc 6 (offsetHi delta) s) (execJalr 0 6 (offsetLo delta))

end Sys2Proof.Machine
end

