-- ==== Sys2Proof/Machine/Fetch.lean ====
section
/-! DEFINITION. Fetching an instruction, and placing one where the next step fetches it (spec 20_memory.md R83, R101;
30_encoding.md R121, R122). -/

namespace Sys2Proof.Machine

open Sys2Proof

/-- The byte that the k newest of the logged stores overwrote, or `now` when they did not store to it: what memory held
before them (R101; log entry 12). -/
def byteBefore (log : List (List Host.Cell)) (k a : Nat) (now : Byte) : Byte :=
  (log.take k).foldl (fun v cells => match cells.find? (fun c => c.1 == a) with
    | some c => c.2
    | none => v) now

/-- A store since the last `fence.i` wrote to one of the addresses. -/
def storedSince (log : List (List Host.Cell)) (as : List Nat) : Bool :=
  log.any (fun cells => cells.any (fun c => as.contains c.1))

/-- A halfword from its two bytes, little-endian (R81, R122). -/
def halfOf (b0 b1 : Byte) : Half := b1 ++ b0

/-- The halfword a fetch reads at an address (R83 (3), (5)). A fetch of bytes stored since the last `fence.i` gives what
memory holds or held before some of those stores, both bytes from one moment (R101; log entry 12); a fetch from I/O
addresses gives a free value (R90; log entry 8). -/
def State.fetchHalf (s : State) (a : Word) : Half × State :=
  let as := byteAddrs s.cfg.xlen a 2
  let a0 := as.headD 0
  let a1 := as.getLastD 0
  if touchesIo s.cfg as then
    ((Config.freeIoValue s.draws).extractLsb' 0 16, { s with draws := s.draws + 1 })
  else if storedSince s.storeLog as then
    let k := Config.freeFetchView s.draws % (s.storeLog.length + 1)
    (halfOf (byteBefore s.storeLog k a0 (Memory.read s.mem a0)) (byteBefore s.storeLog k a1 (Memory.read s.mem a1)),
     { s with draws := s.draws + 1 })
  else (halfOf (Memory.read s.mem a0) (Memory.read s.mem a1), s)

/-- `Fetch(pc)` (R83). -/
def State.fetch (s : State) : Access Parcel :=
  if !(s.pc.toNat % (if s.cfg.extC then 2 else 4) == 0) then .trap .instructionAddressMisaligned s.pc s
  else if !memValid s.cfg .fetch s.pc 2 then .trap .instructionAccessFault s.pc s
  else
    let lo := s.fetchHalf s.pc
    if lo.1.extractLsb' 0 2 != 0b11#2 then .done (.half lo.1) lo.2
    else
      let pc2 := s.cfg.xlen.wrap (s.pc + 2)
      if !memValid s.cfg .fetch pc2 2 then .trap .instructionAccessFault s.pc lo.2
      else
        let hi := lo.2.fetchHalf pc2
        .done (.word (hi.1 ++ lo.1)) hi.2

/-- The XLEN under which the decoder reads the bits w as `decodeTableWord` does: RV64 where RV64 has the instruction, RV32
where only RV32 has it, else the XLEN given (log entry 20). -/
def tableXlen (nbits w : Nat) (now : Xlen) : Xlen :=
  match decode (Config.full .rv64) (tableParcel nbits w) with
  | some _ => .rv64
  | none =>
    match decode (Config.full .rv32) (tableParcel nbits w) with
    | some _ => .rv32
    | none => now

/-- The instruction of the bits w, up to 32 of them, stored as a loader stores it at the pc; what stores left behind for
fetches is forgotten, and XLEN is the one the instruction exists for (log entries 19, 20). -/
def State.placeAtPc (s : State) (nbits w : Nat) : State :=
  let v := BitVec.ofNat 64 (w % 2 ^ nbits)
  let xl := tableXlen nbits w s.cfg.xlen
  { s with
    cfg := { s.cfg with xlen := xl }
    mem := Memory.writeCells s.mem (cellsOf xl s.pc 4 v)
    storeLog := [] }

end Sys2Proof.Machine
end

