-- ==== Sys2Proof/Machine/Step.lean ====
section
/-! DEFINITION. One step of the hart (spec 00_scope.md R15; 60_exceptions.md R630), and the host's way to place an
instruction. -/

namespace Sys2Proof.Machine

open Sys2Proof

/-- R15 steps (2) to (5): the parcel fetched is decoded and executed; one that is no instruction raises
IllegalInstruction with its bits (30_encoding.md R150). -/
def runParcel (p : Parcel) (s : State) : Result :=
  match decode s.cfg p with
  | some i => exec i s
  | none => raise .illegalInstruction p.bits s

/-- R15 step (1): fetch, and run what was fetched. -/
def runInstruction (s : State) : Result := s.fetch.andThen runParcel

/-- ONE STEP: the interrupt lines of the step are seen; an interrupt that qualifies is taken, otherwise the instruction at
pc executes (R15, R630). -/
def step (s : State) : Host.Outcome State Fault Refusal :=
  match s.sample.interrupt with
  | some i => .next (s.sample.takeTrap (.irq i) 0)
  | none => runInstruction s.sample

/-- The state with an instruction stored where `step` fetches next (log entry 19). -/
def State.withFetchWord (s : State) (nbits w : Nat) : State := s.placeAtPc nbits w

end Sys2Proof.Machine
end

