-- ==== Sys2Proof/Safety.lean ====
section
/-! DEFINITION. The terms the statements use: registers and memory read as numbers, the ways an instruction may end, and
the invariant of the machine. The numbers are formed by integer arithmetic here, not by the operations of the model. -/

namespace Sys2Proof.Machine

open Sys2Proof

/-! ## Numbers (00_scope.md R10) -/

/-- An n-bit number read as two's complement. -/
def signedOf (n v : Nat) : Int := if v < 2 ^ (n - 1) then v else (v : Int) - 2 ^ n

/-- The n-bit number an integer is congruent to. -/
def modBits (n : Nat) (v : Int) : Nat := (v % (2 : Int) ^ n).toNat

/-- The low 32 bits of an integer, sign-extended to 64. -/
def wordOf (v : Int) : Nat := modBits 64 (signedOf 32 (modBits 32 v))

/-- XLEN. -/
def State.xlen (s : State) : Nat := s.cfg.xlen.bits

/-- IALIGN / 8 (20_memory.md R86). -/
def State.ialign (s : State) : Nat := if s.cfg.extC then 2 else 4

/-- x[r] as an unsigned number. -/
def State.ux (s : State) (r : Reg) : Nat := (s.readX r).toNat

/-- x[r] as a signed number. -/
def State.sx (s : State) (r : Reg) : Int := signedOf s.xlen (s.ux r)

/-- f[r] as an unsigned number. -/
def State.uf (s : State) (r : Reg) : Nat := (s.readF r).toNat

/-- The single in f[r] (10_state.md R38). -/
def State.us (s : State) (r : Reg) : Nat :=
  if s.cfg.extD = true ∧ s.uf r / 2 ^ 32 ≠ 2 ^ 32 - 1 then 0x7FC00000 else s.uf r % 2 ^ 32

/-- A single as an f register holds it (10_state.md R38). -/
def boxedSingle (c : Config) (v : Nat) : Nat :=
  if c.extD then (2 ^ 32 - 1) * 2 ^ 32 + v % 2 ^ 32 else v % 2 ^ 32

/-- The register a three-bit field names (48_compressed.md R451). -/
def shortReg (r : CReg) : Reg := BitVec.ofNat 5 (8 + r.toNat)

/-- x[rs1] + offset modulo 2^XLEN (20_memory.md R80). -/
def State.effective (s : State) (rs1 : Reg) (off : Int) : Nat := modBits s.xlen (s.ux rs1 + off)

/-- The address of byte k of an access at a. -/
def State.byteAt (s : State) (a k : Nat) : Nat := (a + k) % 2 ^ s.xlen

/-- The n bytes at a, little-endian (20_memory.md R81). -/
def State.littleEndian (s : State) (a n : Nat) : Nat :=
  ((List.range n).map (fun k => (Memory.read s.mem (s.byteAt a k)).toNat * 256 ^ k)).sum

/-! ## What stays as it was -/

/-- Every byte of memory reads as before. -/
def SameMemory (s t : State) : Prop := ∀ a : Nat, Memory.read t.mem a = Memory.read s.mem a

/-- What memory held at an address before the k newest of the stores made since the last `fence.i`: what the oldest of
those that stored there overwrote (20_memory.md R101). -/
def State.heldBefore (s : State) (k a : Nat) : Byte :=
  match (s.storeLog.take k).reverse.flatten.find? (fun c => c.1 == a) with
  | some c => c.2
  | none => Memory.read s.mem a

/-- A store since the last `fence.i` wrote to one of the n bytes at a. -/
def StoredTo (s : State) (a n : Nat) : Prop := ∃ cells ∈ s.storeLog, ∃ c ∈ cells, ∃ k, k < n ∧ c.1 = s.byteAt a k

/-- A fetch of the halfword at a in main memory can give h: both its bytes as they were before the k newest stores since
the last `fence.i`, where k is free if one of them stored to the halfword (20_memory.md R101; log entry 12). -/
def HalfFetched (s : State) (a : Nat) (h : BitVec 16) : Prop :=
  ∃ k, k ≤ s.storeLog.length ∧
    (StoredTo s a 2 → ∃ d, (d = s.draws ∨ d = s.draws + 1) ∧ k = Config.freeFetchView d % (s.storeLog.length + 1)) ∧
    h.toNat = (s.heldBefore k (s.byteAt a 0)).toNat + 256 * (s.heldBefore k (s.byteAt a 1)).toNat

/-- x[rd] is the number v, every other x register is as before, and x[0] is zero (10_state.md R31). -/
def XWritten (s t : State) (rd : Reg) (v : Nat) : Prop :=
  ∀ q, t.ux q = if q = 0 then 0 else if q = rd then v else s.ux q

/-- f[rd] is the number v and every other f register is as before. -/
def FWritten (s t : State) (rd : Reg) (v : Nat) : Prop := ∀ q, t.uf q = if q = rd then v else s.uf q

/-- `mstatus` after an instruction that can write floating-point state: FS is Dirty when it is tracked
(46_float_single.md R350 (f)). -/
def State.dirtied (s : State) : MStatus := if s.cfg.fsTracking then { s.mstatus with fs := 3#2 } else s.mstatus

/-- k instructions have retired (60_exceptions.md R650). -/
def Retired (s t : State) (k : Nat) : Prop := t.minstret.toNat = (s.minstret.toNat + k) % 2 ^ 64

/-- One instruction of len bytes has retired and the next one follows it (10_state.md R35). -/
def Advanced (s t : State) (len : Nat) : Prop := t.pc.toNat = (s.pc.toNat + len) % 2 ^ s.xlen ∧ Retired s t 1

/-- What the spec fixes of the state a reset leaves under a configuration (70_reset_and_hazards.md R701; 20_memory.md
R91). -/
structure IsReset (c : Config) (t : State) : Prop where
  config : t.cfg = c
  atVector : t.pc = c.resetVector
  vectorBase : ∀ v, c.mtvecReset = some v → t.mtvec = v
  machineMode : t.priv = .machine
  interruptsOff : t.mstatus.mie = false
  noCause : t.mcause = 0
  noReservation : t.reservation = none
  noPendingFetch : t.storeLog = []
  zeroRegister : t.ux 0 = 0
  noInterrupt : t.interrupt = none
  noTranslation : (t.readCsr .satp).1 = 0

/-! ## Instructions on x registers -/

/-- The outcome of k instructions is a next state at the pc `target` in which x[rd] is v and nothing else has changed. -/
def Arrives (r : Result) (s : State) (k target : Nat) (rd : Reg) (v : Nat) : Prop :=
  ∃ t, r = .next t ∧ XWritten s t rd v ∧ t.pc.toNat = target ∧ Retired s t k ∧ SameMemory s t ∧
    t = { s with x := t.x, pc := t.pc, minstret := t.minstret }

/-- The outcome is a next state in which x[rd] is v, the pc has moved on by len, and nothing else has changed. -/
def SetsX (r : Result) (s : State) (len : Nat) (rd : Reg) (v : Nat) : Prop :=
  Arrives r s 1 ((s.pc.toNat + len) % 2 ^ s.xlen) rd v

/-- The outcome is a next state at the pc `target` in which x[rd] is `link` and nothing else has changed. -/
def Jumps (r : Result) (s : State) (target : Nat) (rd : Reg) (link : Nat) : Prop := Arrives r s 1 target rd link

/-- The offset d is within the reach of the two-instruction sequence on `auipc` whose symbol operand is delta
(49_pseudoinstructions.md R501): any offset on RV32, and -2^31 - 2^11 to 2^31 - 2^11 - 1 on RV64. -/
def PairReaches (s : State) (delta : BitVec 32) (d : Int) : Prop :=
  delta = BitVec.ofInt 32 d ∧ (s.cfg.xlen = .rv64 → -2 ^ 31 - 2 ^ 11 ≤ d ∧ d ≤ 2 ^ 31 - 2 ^ 11 - 1)

/-- A jump of len bytes to `target` completes when the target is a multiple of IALIGN/8, and else raises on the jump with
x[rd] unwritten (20_memory.md R86). -/
def JumpMeets (r : Result) (s : State) (len : Nat) (rd : Reg) (target : Nat) : Prop :=
  (target % s.ialign = 0 → Jumps r s target rd ((s.pc.toNat + len) % 2 ^ s.xlen)) ∧
  (target % s.ialign ≠ 0 → r = raise .instructionAddressMisaligned (BitVec.ofNat 64 target) s)

/-- A conditional branch of len bytes writes no register: it falls through, jumps, or raises for a misaligned target when
taken (41_control_transfer.md R240; 20_memory.md R86). -/
def BranchMeets (r : Result) (s : State) (len : Nat) (cond : Prop) (target : Nat) : Prop :=
  (¬cond → SetsX r s len 0 0) ∧
  (cond → target % s.ialign = 0 → Jumps r s target 0 0) ∧
  (cond → target % s.ialign ≠ 0 → r = raise .instructionAddressMisaligned (BitVec.ofNat 64 target) s)

/-! ## Instructions on memory -/

/-- An n-byte access at a is aligned, or misaligned ones are emulated (20_memory.md R84, R85). -/
def AlignmentOk (s : State) (a n : Nat) : Prop := a % n = 0 ∨ s.cfg.misaligned = .emulate

/-- Every byte of an n-byte access at a exists and permits the access, made in bytes when it is misaligned (20_memory.md
R85, R87). -/
def BytesOk (s : State) (k : AccessKind) (a n : Nat) : Prop :=
  ∀ j, j < n → byteValid s.cfg k (if a % n = 0 then n else 1) (s.byteAt a j) = true

/-- No byte of an n-byte access at a is an I/O address (20_memory.md R90). -/
def MainMemory (s : State) (a n : Nat) : Prop := ∀ j, j < n → isIo s.cfg (s.byteAt a j) = false

/-- The I/O bytes of an n-byte access at a. -/
def State.ioBytesOf (s : State) (a n : Nat) : List Nat := (List.range n).filter (fun k => isIo s.cfg (s.byteAt a k))

/-- The accesses a load makes to devices: one read when the access is aligned, one a byte when it is misaligned
(20_memory.md R85, R90). -/
def State.ioReads (s : State) (a n : Nat) : List IoEvent :=
  if a % n = 0 then (if s.ioBytesOf a n = [] then [] else [.read (BitVec.ofNat 64 a) n])
  else (s.ioBytesOf a n).map (fun k => .read (BitVec.ofNat 64 (s.byteAt a k)) 1)

/-- The accesses a store of the low n bytes of v makes to devices, those bytes alone (20_memory.md R85, R90;
42_loads_stores.md R272). -/
def State.ioWrites (s : State) (a n v : Nat) : List IoEvent :=
  if a % n = 0 then (if s.ioBytesOf a n = [] then [] else [.write (BitVec.ofNat 64 a) n (BitVec.ofNat 64 (v % 256 ^ n))])
  else (s.ioBytesOf a n).map (fun k => .write (BitVec.ofNat 64 (s.byteAt a k)) 1 (BitVec.ofNat 64 (v / 256 ^ k % 256)))

/-- The record of I/O accesses has grown by these accesses, in some order. -/
def IoLogged (s t : State) (events : List IoEvent) : Prop := ∃ new, new.Perm events ∧ t.ioLog = new ++ s.ioLog

/-- The record of I/O accesses has grown by some of these accesses, none of them twice. -/
def IoPartlyLogged (s t : State) (events : List IoEvent) : Prop := ∃ made, IoLogged s t made ∧ made.Sublist events

/-- A load raises for a misaligned address before it raises for an invalid one; only an emulated one that reaches I/O
bytes before the invalid byte leaves a trace, in the devices (20_memory.md R85, R87, R88). -/
def LoadTraps (r : Result) (s : State) (a n : Nat) : Prop :=
  (¬AlignmentOk s a n → r = raise .loadAddressMisaligned (BitVec.ofNat 64 a) s) ∧
  (AlignmentOk s a n → ¬BytesOk s .load a n → (a % n = 0 ∨ MainMemory s a n) →
    r = raise .loadAccessFault (BitVec.ofNat 64 a) s) ∧
  (AlignmentOk s a n → ¬BytesOk s .load a n →
    ∃ t, r = raise .loadAccessFault (BitVec.ofNat 64 a) t ∧ IoPartlyLogged s t (s.ioReads a n) ∧
      t = { s with ioLog := t.ioLog, draws := t.draws })

/-- A load of n bytes at a into x[rd] completes with the number `value`; from I/O addresses the value is free and the
device sees the reads. -/
def LoadsX (r : Result) (s : State) (len : Nat) (rd : Reg) (a n value : Nat) : Prop :=
  ∃ t, r = .next t ∧ Advanced s t len ∧ SameMemory s t ∧ (∃ v, XWritten s t rd v) ∧ IoLogged s t (s.ioReads a n) ∧
    t = { s with x := t.x, pc := t.pc, minstret := t.minstret, ioLog := t.ioLog, draws := t.draws } ∧
    (MainMemory s a n → XWritten s t rd value ∧ t.ioLog = s.ioLog ∧ t.draws = s.draws)

/-- A load completes, or raises. -/
def LoadMeets (r : Result) (s : State) (len : Nat) (rd : Reg) (a n value : Nat) : Prop :=
  (AlignmentOk s a n → BytesOk s .load a n → LoadsX r s len rd a n value) ∧ LoadTraps r s a n

/-- The n bytes at a hold the low n bytes of v where they are main memory, and every other byte is as before. -/
def BytesWritten (s t : State) (a n v : Nat) : Prop :=
  (∀ k, k < n → isIo s.cfg (s.byteAt a k) = false →
    (Memory.read t.mem (s.byteAt a k)).toNat = v / 256 ^ k % 256) ∧
  (∀ p, (∀ k, k < n → isIo s.cfg (s.byteAt a k) = false → p ≠ s.byteAt a k) →
    Memory.read t.mem p = Memory.read s.mem p)

/-- Each of the n bytes at a that is valid main memory is as before or is that of v, and every other byte is as before
(20_memory.md R85). -/
def BytesPartlyWritten (s t : State) (a n v : Nat) : Prop :=
  (∀ k, k < n → Memory.read t.mem (s.byteAt a k) = Memory.read s.mem (s.byteAt a k) ∨
    (Memory.read t.mem (s.byteAt a k)).toNat = v / 256 ^ k % 256) ∧
  (∀ p, (∀ k, k < n → isIo s.cfg (s.byteAt a k) = false → byteValid s.cfg .store 1 (s.byteAt a k) = true →
      p ≠ s.byteAt a k) →
    Memory.read t.mem p = Memory.read s.mem p)

/-- The bytes of main memory among the n bytes at a, with what they hold: what a store there overwrites. -/
def State.overwritten (s : State) (a n : Nat) : List Host.Cell :=
  ((List.range n).filter (fun k => !isIo s.cfg (s.byteAt a k))).map
    (fun k => (s.byteAt a k, Memory.read s.mem (s.byteAt a k)))

/-- The stores made since the last `fence.i` have become more by stores that overwrote these bytes (20_memory.md R101; log
entry 12). -/
def StoresLogged (s t : State) (cells : List Host.Cell) : Prop :=
  ∃ new, t.storeLog = new ++ s.storeLog ∧ new.flatten.Perm cells

/-- The same by stores that overwrote some of these bytes. -/
def StoresPartlyLogged (s t : State) (cells : List Host.Cell) : Prop :=
  ∃ made, StoresLogged s t made ∧ made.Sublist cells

/-- The reservation is kept or lost (20_memory.md R99). -/
def ReservationKeptOrLost (s t : State) : Prop := t.reservation = s.reservation ∨ t.reservation = none

/-- A store of the low n bytes of v at a completes: no register changes, of memory those bytes, which later fetches may
see or not, and a device gets its own. -/
def Stores (r : Result) (s : State) (len a n v : Nat) : Prop :=
  ∃ t, r = .next t ∧ Advanced s t len ∧ BytesWritten s t a n v ∧ ReservationKeptOrLost s t ∧
    IoLogged s t (s.ioWrites a n v) ∧ StoresLogged s t (s.overwritten a n) ∧
    t = { s with mem := t.mem, storeLog := t.storeLog, ioLog := t.ioLog, draws := t.draws, reservation := t.reservation,
                 pc := t.pc, minstret := t.minstret }

/-- A store completes, or raises: for a misaligned address first, with no byte written unless it is emulated in bytes
(20_memory.md R85, R87, R88). -/
def StoreMeets (r : Result) (s : State) (len a n v : Nat) : Prop :=
  (AlignmentOk s a n → BytesOk s .store a n → Stores r s len a n v) ∧
  (¬AlignmentOk s a n → r = raise .storeAmoAddressMisaligned (BitVec.ofNat 64 a) s) ∧
  (a % n = 0 → ¬BytesOk s .store a n → r = raise .storeAmoAccessFault (BitVec.ofNat 64 a) s) ∧
  (a % n ≠ 0 → s.cfg.misaligned = .emulate → ¬BytesOk s .store a n →
    ∃ t, r = raise .storeAmoAccessFault (BitVec.ofNat 64 a) t ∧ BytesPartlyWritten s t a n v ∧
      ReservationKeptOrLost s t ∧ IoPartlyLogged s t (s.ioWrites a n v) ∧ StoresPartlyLogged s t (s.overwritten a n) ∧
      t = { s with mem := t.mem, storeLog := t.storeLog, ioLog := t.ioLog, draws := t.draws,
                   reservation := t.reservation })

/-- An atomic operation on n bytes: x[rd] gets the old bytes sign-extended, memory gets `new` of the old bytes; misaligned
or invalid addresses raise store exceptions and change nothing (20_memory.md R87, R88, R100). -/
def AmoMeets (r : Result) (s : State) (rd : Reg) (a n : Nat) (new : Nat → Nat) : Prop :=
  (a % n = 0 → BytesOk s .load a n → BytesOk s .store a n →
    ∃ t, r = .next t ∧ Advanced s t 4 ∧ (∃ v, XWritten s t rd v) ∧ (∃ v, BytesWritten s t a n v) ∧
      ReservationKeptOrLost s t ∧ StoresLogged s t (s.overwritten a n) ∧
      t = { s with x := t.x, mem := t.mem, storeLog := t.storeLog, ioLog := t.ioLog, draws := t.draws,
                   reservation := t.reservation, pc := t.pc, minstret := t.minstret } ∧
      (MainMemory s a n → XWritten s t rd (modBits s.xlen (signedOf (8 * n) (s.littleEndian a n))) ∧
        BytesWritten s t a n (new (s.littleEndian a n)) ∧ t.ioLog = s.ioLog)) ∧
  (a % n ≠ 0 → r = raise .storeAmoAddressMisaligned (BitVec.ofNat 64 a) s) ∧
  (a % n = 0 → ¬(BytesOk s .load a n ∧ BytesOk s .store a n) →
    r = raise .storeAmoAccessFault (BitVec.ofNat 64 a) s)

/-! ## Floating-point instructions -/

/-- The outcome is a next state in which f[rd] is v, the flags have accrued, FS is Dirty if tracked, and nothing else has
changed (46_float_single.md R350). -/
def SetsF (r : Result) (s : State) (len : Nat) (rd : Reg) (v : Nat) (raised : BitVec 5) : Prop :=
  ∃ t, r = .next t ∧ FWritten s t rd v ∧ t.fflags = s.fflags ||| raised ∧ t.mstatus = s.dirtied ∧ Advanced s t len ∧
    SameMemory s t ∧
    t = { s with f := t.f, fflags := t.fflags, mstatus := t.mstatus, pc := t.pc, minstret := t.minstret }

/-- The same for a result in x[rd]. -/
def SetsXWithFlags (r : Result) (s : State) (rd : Reg) (v : Nat) (raised : BitVec 5) : Prop :=
  ∃ t, r = .next t ∧ XWritten s t rd v ∧ t.fflags = s.fflags ||| raised ∧ t.mstatus = s.dirtied ∧ Advanced s t 4 ∧
    SameMemory s t ∧
    t = { s with x := t.x, fflags := t.fflags, mstatus := t.mstatus, pc := t.pc, minstret := t.minstret }

/-- Floating-point instructions are legal: FS is not tracked, or is not Off (R350 (f)). -/
def FloatOn (s : State) : Prop := ¬(s.cfg.fsTracking = true ∧ s.mstatus.fs = 0#2)

/-- The rounding mode an instruction's rm field selects (46_float_single.md R351). -/
def SelectsRounding (s : State) (rm : BitVec 3) (r : Rounding) : Prop :=
  ∃ m : BitVec 3, m = (if rm = 7#3 then s.frm else rm) ∧
    ((m = 0#3 ∧ r = .rne) ∨ (m = 1#3 ∧ r = .rtz) ∨ (m = 2#3 ∧ r = .rdn) ∨ (m = 3#3 ∧ r = .rup) ∨ (m = 4#3 ∧ r = .rmm))

/-- A rounded instruction with a single result completes. -/
def RoundsToSingle (i : Instr) (s : State) (rd : Reg) (rm : BitVec 3) (op : Rounding → Nat × BitVec 5) : Prop :=
  ∀ r, FloatOn s → SelectsRounding s rm r → SetsF (exec i s) s 4 rd (boxedSingle s.cfg (op r).1) (op r).2

/-- A rounded instruction with a double result completes. -/
def RoundsToDouble (i : Instr) (s : State) (rd : Reg) (rm : BitVec 3) (op : Rounding → Nat × BitVec 5) : Prop :=
  ∀ r, FloatOn s → SelectsRounding s rm r → SetsF (exec i s) s 4 rd ((op r).1 % 2 ^ 64) (op r).2

/-- A rounded instruction with a w-bit integer result, sign-extended into x[rd], completes (R354). -/
def RoundsToInteger (i : Instr) (s : State) (rd : Reg) (rm : BitVec 3) (w : Nat) (op : Rounding → Int × BitVec 5) :
    Prop :=
  ∀ r, FloatOn s → SelectsRounding s rm r →
    SetsXWithFlags (exec i s) s rd (modBits s.xlen (signedOf w (modBits w (op r).1))) (op r).2

/-- A floating-point load of n bytes at a into f[rd] completes with `value`, or raises; from I/O addresses the value is
free (46_float_single.md R350, R370). -/
def FloatLoadMeets (r : Result) (s : State) (len : Nat) (rd : Reg) (a n value : Nat) : Prop :=
  (AlignmentOk s a n → BytesOk s .load a n →
    ∃ t, r = .next t ∧ Advanced s t len ∧ SameMemory s t ∧ t.mstatus = s.dirtied ∧ (∃ v, FWritten s t rd v) ∧
      IoLogged s t (s.ioReads a n) ∧
      t = { s with f := t.f, mstatus := t.mstatus, pc := t.pc, minstret := t.minstret, ioLog := t.ioLog,
                   draws := t.draws } ∧
      (MainMemory s a n → FWritten s t rd value ∧ t.ioLog = s.ioLog ∧ t.draws = s.draws)) ∧
  LoadTraps r s a n

/-- A datum of a format with `e` exponent bits and `f` fraction bits is finite (46_float_single.md R350 (a)). -/
def IsFinite (e f v : Nat) : Prop := v < 2 ^ (1 + e + f) ∧ v / 2 ^ f % 2 ^ e ≠ 2 ^ e - 1

/-- The real number a finite datum stands for (R350 (a)). -/
def realOf (e f v : Nat) : ℚ :=
  (if v / 2 ^ (e + f) % 2 = 1 then -1 else 1) *
  (if v / 2 ^ f % 2 ^ e = 0 then ((v % 2 ^ f : Nat) : ℚ) * (2 : ℚ) ^ (2 - (2 : Int) ^ (e - 1) - f)
   else ((2 ^ f + v % 2 ^ f : Nat) : ℚ) * (2 : ℚ) ^ (((v / 2 ^ f % 2 ^ e : Nat) : Int) + 1 - (2 : Int) ^ (e - 1) - f))

/-- A datum is a NaN (R350 (a)). -/
abbrev DatumIsNaN (e f v : Nat) : Prop := v / 2 ^ f % 2 ^ e = 2 ^ e - 1 ∧ v % 2 ^ f ≠ 0

/-- A datum is a signaling NaN (R350 (a)). -/
abbrev DatumIsSignaling (e f v : Nat) : Prop := DatumIsNaN e f v ∧ v % 2 ^ f < 2 ^ (f - 1)

/-- A datum as a signed number in the order of R355: both zeros are 0. -/
def orderKey (e f v : Nat) : Int :=
  if v / 2 ^ (e + f) % 2 = 1 then -((v % 2 ^ (e + f) : Nat) : Int) else ((v % 2 ^ (e + f) : Nat) : Int)

/-- The number of the class of a datum (46_float_single.md R357). -/
def classOf (e f v : Nat) : Nat :=
  let negative := v / 2 ^ (e + f) % 2 = 1
  if v / 2 ^ f % 2 ^ e = 2 ^ e - 1 then
    if v % 2 ^ f = 0 then (if negative then 0 else 7) else if v % 2 ^ f < 2 ^ (f - 1) then 8 else 9
  else if v / 2 ^ f % 2 ^ e = 0 then
    if v % 2 ^ f = 0 then (if negative then 3 else 4) else if negative then 2 else 5
  else if negative then 1 else 6

/-- The sign of a datum is set. -/
abbrev DatumIsNegative (e f v : Nat) : Prop := v / 2 ^ (e + f) % 2 = 1

/-- Infinity without its sign (R350 (a)). -/
def infinityOf (e f : Nat) : Nat := (2 ^ e - 1) * 2 ^ f

/-- A datum is an infinity. -/
abbrev DatumIsInfinite (e f v : Nat) : Prop := v % 2 ^ (e + f) = infinityOf e f

/-- A datum is a zero. -/
abbrev DatumIsZero (e f v : Nat) : Prop := v % 2 ^ (e + f) = 0

/-- A datum with a sign and a magnitude. -/
def datum (e f : Nat) (negative : Bool) (mag : Nat) : Nat := if negative then 2 ^ (e + f) + mag else mag

/-- The sign of a datum. -/
def negativeOf (e f v : Nat) : Bool := decide (DatumIsNegative e f v)

/-- The finite datum r is the rounding of the real q in the mode, among the finite data of the format (R351, R353). -/
def IsRounding (e f : Nat) (rm : Rounding) (q : ℝ) (r : Nat) : Prop :=
  IsFinite e f r ∧ ∀ d, IsFinite e f d →
    match rm with
    | .rdn => (realOf e f r : ℝ) ≤ q ∧ ((realOf e f d : ℝ) ≤ q → realOf e f d ≤ realOf e f r)
    | .rup => q ≤ (realOf e f r : ℝ) ∧ (q ≤ (realOf e f d : ℝ) → realOf e f r ≤ realOf e f d)
    | .rtz => |(realOf e f r : ℝ)| ≤ |q| ∧ 0 ≤ (realOf e f r : ℝ) * q ∧
        (|(realOf e f d : ℝ)| ≤ |q| → |realOf e f d| ≤ |realOf e f r|)
    | .rne => |(realOf e f r : ℝ) - q| ≤ |(realOf e f d : ℝ) - q| ∧
        (|(realOf e f r : ℝ) - q| = |(realOf e f d : ℝ) - q| → realOf e f r = realOf e f d ∨ r % 2 = 0)
    | .rmm => |(realOf e f r : ℝ) - q| ≤ |(realOf e f d : ℝ) - q| ∧
        (|(realOf e f r : ℝ) - q| = |(realOf e f d : ℝ) - q| → |realOf e f d| ≤ |realOf e f r|)

/-- The real w is q rounded in the mode to the precision of the format with an unbounded exponent range (R353): q is
scaled between 1 and 2, where every datum is normal, rounded there and scaled back. -/
def IsWideRounding (e f : Nat) (rm : Rounding) (q w : ℝ) : Prop :=
  (q = 0 ∧ w = 0) ∨
  ∃ (k : Int) (d : Nat), 1 ≤ |q * 2 ^ k| ∧ |q * 2 ^ k| < 2 ∧ IsRounding e f rm (q * 2 ^ k) d ∧
    w = (realOf e f d : ℝ) * 2 ^ (-k)

/-- What overflow delivers, without its sign (R353). -/
def overflowOf (e f : Nat) (rm : Rounding) (negative : Prop) [Decidable negative] : Nat :=
  match rm with
  | .rne | .rmm => infinityOf e f
  | .rtz => infinityOf e f - 1
  | .rdn => if negative then infinityOf e f else infinityOf e f - 1
  | .rup => if negative then infinityOf e f - 1 else infinityOf e f

/-- A result has the sign of the exact result q; an exact zero is negative when `zeroNegative` (R352 (e)). -/
def HasSign (e f : Nat) (q : ℝ) (zeroNegative : Prop) (r : Nat) : Prop :=
  DatumIsNegative e f r ↔ q < 0 ∨ (q = 0 ∧ zeroNegative)

/-- THE ROUNDED RESULT of an operation on finite data whose exact result is the real q, with its flags (R350 (b), R352 (e),
R353). It overflows when the wide rounding w of q exceeds the largest finite datum; else it is the rounding of q, UF says
that it is tiny and inexact, NX that it is inexact. -/
def RoundedResult (F : Fmt) (rm : Rounding) (q : ℝ) (zeroNegative : Prop) (o : Nat × BitVec 5) : Prop :=
  ∃ w, IsWideRounding F.ebits F.fbits rm q w ∧ HasSign F.ebits F.fbits q zeroNegative o.1 ∧
    ((realOf F.ebits F.fbits (infinityOf F.ebits F.fbits - 1) : ℝ) < |w| →
      o.2 = 0x05#5 ∧ ((0 < q → o.1 = overflowOf F.ebits F.fbits rm False) ∧
        (q < 0 → o.1 = 2 ^ (F.ebits + F.fbits) + overflowOf F.ebits F.fbits rm True))) ∧
    (|w| ≤ (realOf F.ebits F.fbits (infinityOf F.ebits F.fbits - 1) : ℝ) →
      IsRounding F.ebits F.fbits rm q o.1 ∧
      ((realOf F.ebits F.fbits o.1 : ℝ) = q → o.2 = 0#5) ∧
      ((realOf F.ebits F.fbits o.1 : ℝ) ≠ q →
        (|if F.fp.tininess = .afterRounding then w else q| < (realOf F.ebits F.fbits (2 ^ F.fbits) : ℝ) → o.2 = 0x03#5) ∧
        ((realOf F.ebits F.fbits (2 ^ F.fbits) : ℝ) ≤ |if F.fp.tininess = .afterRounding then w else q| → o.2 = 0x01#5)))

/-- The integer m is the real q rounded to an integer in the mode (R354). -/
def IsIntegerRounding (rm : Rounding) (q : ℚ) (m : Int) : Prop :=
  match rm with
  | .rdn => (m : ℚ) ≤ q ∧ q < m + 1
  | .rup => q ≤ (m : ℚ) ∧ (m : ℚ) < q + 1
  | .rtz => |(m : ℚ)| ≤ |q| ∧ |q| < |(m : ℚ)| + 1 ∧ 0 ≤ (m : ℚ) * q
  | .rne => |(m : ℚ) - q| ≤ 1 / 2 ∧ (|(m : ℚ) - q| = 1 / 2 → m % 2 = 0)
  | .rmm => |(m : ℚ) - q| ≤ 1 / 2 ∧ (|(m : ℚ) - q| = 1 / 2 → |q| < |(m : ℚ)|)

/-! ## Control and status -/

/-- A legal access to CSR number n by an instruction that reads and writes as `u` says: x[rd] gets the value read, the CSR
the value `new` gives for it, and no other state changes than what the read and the write change
(43_system_csr_fence.md R281; 60_exceptions.md R650). The model's choices in it: a write of `minstreth`, like one of
`minstret`, is not followed by the instruction's own increment (log entry 34); what `new` is given for `mip` includes the
SEIP line (log entry 24); without a read no free value is used (log entry 27). -/
def CsrCompletes (i : Instr) (s : State) (rd : Reg) (c : Csr) (reads writes : Bool) (new : Word → Word) : Prop :=
  ∃ t u : State,
    u = (if writes then State.writeCsr (if reads then (s.readCsr c).2 else s) c (new (if reads then (s.readCsr c).1 else 0))
         else if reads then (s.readCsr c).2 else s) ∧
    exec i s = .next t ∧ XWritten s t rd (s.readCsr c).1.toNat ∧ t.pc.toNat = (s.pc.toNat + 4) % 2 ^ s.xlen ∧
    t.minstret = (if writes = true ∧ (c = .minstret ∨ c = .minstreth) then u.minstret else u.minstret + 1) ∧
    SameMemory s t ∧ t.f = s.f ∧ t = { u with x := t.x, pc := t.pc, minstret := t.minstret }

/-- The number of a mode in MPP (10_state.md R47). -/
def modeNumber : Priv → Nat
  | .user => 0
  | .supervisor => 1
  | .machine => 3

/-- A field of a register: n where p holds. -/
def field (p : Bool) (n : Nat) : Nat := if p then n else 0

/-- FS as it reads (10_state.md R47). -/
def State.fsNumber (s : State) : Nat := if s.cfg.fsTracking = true ∧ s.cfg.extF = true then s.mstatus.fs.toNat else 0

/-- `sstatus` (10_state.md R47, R48): SIE, SPIE, SPP, FS, SD and UXL at their places. -/
def State.sstatusNumber (s : State) : Nat :=
  field (s.cfg.privS && s.mstatus.sie) (2 ^ 1) + field (s.cfg.privS && s.mstatus.spie) (2 ^ 5) +
  field (s.cfg.privS && s.mstatus.spp) (2 ^ 8) + s.fsNumber * 2 ^ 13 + field (s.fsNumber == 3) (2 ^ (s.xlen - 1)) +
  field (s.cfg.xlen == .rv64 && s.cfg.privU) (2 * 2 ^ 32)

/-- `mstatus` (10_state.md R47): MIE, MPIE, MPP and SXL beside what `sstatus` shows. -/
def State.mstatusNumber (s : State) : Nat :=
  s.sstatusNumber + field s.mstatus.mie (2 ^ 3) + field s.mstatus.mpie (2 ^ 7) + modeNumber s.mstatus.mpp * 2 ^ 11 +
  field (s.cfg.xlen == .rv64 && s.cfg.privS) (2 * 2 ^ 34)

/-- `misa` (10_state.md R59). -/
def State.misaNumber (s : State) : Nat :=
  (if s.cfg.xlen = .rv64 then 2 * 2 ^ 62 else 2 ^ 30) + field s.cfg.extA (2 ^ 0) + field s.cfg.extC (2 ^ 2) +
  field s.cfg.extD (2 ^ 3) + field s.cfg.extF (2 ^ 5) + 2 ^ 8 + field s.cfg.extM (2 ^ 12) + field s.cfg.privS (2 ^ 18) +
  field s.cfg.privU (2 ^ 20)

/-- Bit k of `mip` (10_state.md R55). -/
def State.pending (s : State) (k : Nat) : Prop :=
  (k = 3 ∧ s.lines.msip = true) ∨ (k = 7 ∧ s.lines.mtip = true) ∨ (k = 11 ∧ s.lines.meip = true) ∨
  (s.cfg.privS = true ∧ ((k = 1 ∨ k = 5 ∨ k = 9) ∧ s.mipSoft.getLsbD k = true ∨ k = 9 ∧ s.lines.seip = true))

/-- Bit k of `mie` exists (10_state.md R55). -/
def State.enableExists (s : State) (k : Nat) : Prop :=
  k = 3 ∨ k = 7 ∨ k = 11 ∨ (s.cfg.privS = true ∧ (k = 1 ∨ k = 5 ∨ k = 9))

/-- Bit k of a number register after a write of v that changes only the bits p. -/
def BitsWritten {w : Nat} (old new : BitVec w) (v : Word) (p : Nat → Prop) : Prop :=
  ∀ k, k < w → (p k → new.getLsbD k = v.getLsbD k) ∧ (¬p k → new.getLsbD k = old.getLsbD k)

/-- A CSR instruction completes where the access check of R282 lets it, and else is illegal with nothing changed. -/
def CsrMeets (i : Instr) (s : State) (rd : Reg) (n : BitVec 12) (reads writes : Bool) (new : Word → Word) : Prop :=
  (∀ c, s.csrAccess n writes = some c → CsrCompletes i s rd c reads writes new) ∧
  (s.csrAccess n writes = none → exec i s = raise .illegalInstruction i.bits s)

/-- The hart in u is the hart in s: every register, the mode and the configuration. The rest is what a step can have changed
before it traps: the lines of the step, what the fetch drew, and the byte accesses of an emulated access that faults
(20_memory.md R85, R88). -/
def SameHart (s u : State) : Prop :=
  u = { s with mem := u.mem, storeLog := u.storeLog, reservation := u.reservation, lines := u.lines, inputs := u.inputs,
               ioLog := u.ioLog, draws := u.draws }

/-- Instructions run one after the other, each in the state the one before it answered (49_pseudoinstructions.md R500; log
entry 21). -/
def runInOrder : List Instr → State → Result
  | [], s => .next s
  | i :: is, s =>
    match exec i s with
    | .next t => runInOrder is t
    | .fault f => .fault f
    | .refused r => .refused r

/-- The modes the machine is in, and would return to, exist in its configuration (10_state.md R47, R61). -/
def ModesExist (s : State) : Prop :=
  Config.hasMode s.cfg s.priv = true ∧ Config.hasMode s.cfg s.mstatus.mpp = true

/-- An interrupt that is pending, individually enabled and taken to machine mode now (60_exceptions.md R630, R632). -/
def ReadyForM (s : State) (i : Nat) : Prop :=
  s.mip.getLsbD i = true ∧ s.mie.getLsbD i = true ∧ ¬(s.cfg.privS = true ∧ s.mideleg.getLsbD i = true) ∧
  (s.priv ≠ .machine ∨ s.mstatus.mie = true)

/-- An interrupt that is pending, individually enabled and taken to supervisor mode now (R630, R632). -/
def ReadyForS (s : State) (i : Nat) : Prop :=
  s.mip.getLsbD i = true ∧ s.mie.getLsbD i = true ∧ s.cfg.privS = true ∧ s.mideleg.getLsbD i = true ∧
  (s.priv = .user ∨ (s.priv = .supervisor ∧ s.mstatus.sie = true))

/-- The interrupts with a higher priority than i (R633). -/
def HigherPriority : Nat → List Nat
  | 11 => []
  | 3 => [11]
  | 7 => [11, 3]
  | 9 => [11, 3, 7]
  | 1 => [11, 3, 7, 9]
  | 5 => [11, 3, 7, 9, 1]
  | _ => []

/-- THE INVARIANT of every step: the configuration is one R8 allows, memory has its canonical form, the pc is a multiple
of IALIGN/8 below 2^XLEN, the modes exist, and the hard-wired bits of the delegation and enable registers are zero. -/
structure Inv (s : State) : Prop where
  config : Config.wf s.cfg = true
  memory : Memory.wf s.mem = true
  pcAligned : targetAligned s.cfg s.pc = true
  pcFits : s.cfg.xlen.wrap s.pc = s.pc
  modes : ModesExist s
  mieBits : s.mie &&& ~~~interruptBits s.cfg = 0
  medelegBit : s.medeleg.getLsbD 11 = false
  midelegBits : s.mideleg &&& 0x888#64 = 0

end Sys2Proof.Machine
end

