-- ==== Sys2Proof/Certificates/Slice0/Obligations.lean ====
section
/-! DEFINITION. The statements. Each docstring names the rules it formalises; the terms are those of Safety.lean. -/

open Sys2Proof Sys2Proof.Machine

/-! ## Reset, registers, memory -/

/-- 70_reset_and_hazards.md R701, for every configuration: the values the spec gives for reset, and the initial `mtvec` of
a platform that fixes one (20_memory.md R91). Resetting a machine in any state leaves them too, and does not clear its
memory; that the interrupt lines stay as they are is the model's choice (log entry 38). -/
def Obligations.ResetLeavesSpecifiedValues : Prop :=
  ∀ c : Config, Config.wf c = true →
    IsReset c (State.resetWith c) ∧
    ∀ s : State, s.cfg = c →
      IsReset c s.afterReset ∧ SameMemory s s.afterReset ∧ s.afterReset.lines = s.lines

/-- 10_state.md R31; and R30: any other register holds the XLEN-bit value written to it. -/
def Obligations.RegisterZeroReadsZero : Prop :=
  ∀ (s : State) (r q : Reg) (v : Word),
    s.readX 0 = 0 ∧ s.writeX 0 v = s ∧
    (r ≠ 0 → (s.writeX r v).ux r = v.toNat % 2 ^ s.xlen) ∧ (q ≠ r → (s.writeX r v).readX q = s.readX q)

/-- The memory law of 20_memory.md R80: a byte reads as last written, other bytes are left alone, and the canonical form
of the model is kept. -/
def Obligations.MemoryWriteThenRead : Prop :=
  ∀ (m : List Host.Cell) (a b : Nat) (v : Byte), Memory.wf m = true →
    Memory.wf (Memory.write m a v) = true ∧
    Memory.read (Memory.write m a v) b = (if b = a then v else Memory.read m b)

/-- Two memories in the canonical form of the model that read alike are equal data (the model's form, log entry 6). -/
def Obligations.MemoriesThatReadAlikeAreEqual : Prop :=
  ∀ m k : List Host.Cell, Memory.wf m = true → Memory.wf k = true →
    (∀ a, Memory.read m a = Memory.read k a) → m = k

/-- 20_memory.md R81 and R80: an access of n bytes is little-endian and wraps at 2^XLEN; a store is seen by a load of the
same bytes. -/
def Obligations.StoredBytesAreLoadedLittleEndian : Prop :=
  ∀ (s : State) (a v : Word) (n : Nat), Memory.wf s.mem = true → n ≤ 8 → MainMemory s a.toNat n →
    (s.readMem a n).1.toNat = s.littleEndian a.toNat n ∧ (s.readMem a n).2 = s ∧
    BytesWritten s (s.writeMem a n v) a.toNat n v.toNat ∧
    ((s.writeMem a n v).readMem a n).1.toNat = v.toNat % 256 ^ n

/-! ## Encoding -/

/-- Words written out from the encoding lines of the spec (R201, R271, R241, R247, R283, R322, R371, R418, R474, R491). -/
def Obligations.SpecWordsDecode : Prop :=
  decode (Config.full .rv64) (.word 0x006283B3#32) = some (.add 7 5 6) ∧
  decode (Config.full .rv64) (.word 0x00512623#32) = some (.sw 5 2 12) ∧
  decode (Config.full .rv64) (.word 0xFE628EE3#32) = some (.beq 5 6 0xFFE#12) ∧
  decode (Config.full .rv64) (.word 0xFF9FF0EF#32) = some (.jal 1 0xFFFFC#20) ∧
  decode (Config.full .rv32) (.word 0x340312F3#32) = some (.csrrw 5 0x340#12 6) ∧
  decode (Config.full .rv32) (.word 0x0062A3AF#32) = some (.amoaddW 7 5 6 false false) ∧
  decode (Config.full .rv32) (.word 0x1820F243#32) = some (.fmaddS 4 1 2 3 7#3) ∧
  decode (Config.full .rv32) (.word 0x1A20F243#32) = some (.fmaddD 4 1 2 3 7#3) ∧
  decode (Config.full .rv64) (.half 0x9082#16) = some (.cJalr 1) ∧
  decode (Config.full .rv64) (.half 0xC504#16) = some (.cSw 1 2 2)

/-- 30_encoding.md R121 to R153: decoding the encoding of an available well-formed 32-bit instruction gives it back. -/
def Obligations.WordEncodingRoundTrip : Prop :=
  ∀ (c : Config) (i : Instr), i.isPseudo = false → i.isCompressed = false → i.wf = true → i.available c = true →
    decode c (encodeOne i) = some i

/-- The same for the compressed instructions (48_compressed.md R450 to R493). -/
def Obligations.CompressedEncodingRoundTrip : Prop :=
  ∀ (c : Config) (i : Instr), i.isCompressed = true → i.wf = true → i.available c = true →
    decode c (encodeOne i) = some i

/-- 49_pseudoinstructions.md R500 to R555: the expansions the rules give (that of `li`, R502 and R536, has a statement of
its own), the parcels of a pseudoinstruction decode to its expansion, and exec of it is exec of the instructions of its
expansion one after the other. That exec runs a pseudoinstruction at all is the model's choice (log entry 21). -/
def Obligations.PseudoinstructionsDecodeToExpansion : Prop :=
  (∀ (c : Config) (i : Instr), i.isPseudo = true → i.available c = true →
    (encode c.xlen i).map (decode c) = (expand c.xlen i).map some) ∧
  (∀ (s : State) (i : Instr), i.isPseudo = true → exec i s = runInOrder (expand s.cfg.xlen i) s) ∧
  (∀ (rd r r' : Reg) (off : BitVec 12) (joff : BitVec 20) (csr : BitVec 12) (zimm : BitVec 5) (delta : BitVec 32)
      (hi : BitVec 20) (lo : BitVec 12) (xl : Xlen), hi = offsetHi delta → lo = offsetLo delta →
    -- R503 to R512
    (∀ p ∈ [(Instr.beqz r off, Instr.beq r 0 off), (.bnez r off, .bne r 0 off), (.blez r off, .bge 0 r off),
        (.bgez r off, .bge r 0 off), (.bltz r off, .blt r 0 off), (.bgtz r off, .blt 0 r off),
        (.bgt r r' off, .blt r' r off), (.ble r r' off, .bge r' r off), (.bgtu r r' off, .bltu r' r off),
        (.bleu r r' off, .bgeu r' r off),
        -- R533, R534, R549
        (.j joff, .jal 0 joff), (.jr r, .jalr 0 r 0), (.ret, .jalr 0 1 0),
        -- R514 to R520
        (.csrr rd csr, .csrrs rd csr 0), (.csrw csr r, .csrrw 0 csr r), (.csrs csr r, .csrrs 0 csr r),
        (.csrc csr r, .csrrc 0 csr r), (.csrwi csr zimm, .csrrwi 0 csr zimm), (.csrsi csr zimm, .csrrsi 0 csr zimm),
        (.csrci csr zimm, .csrrci 0 csr zimm),
        -- R527 to R532, R543 to R548
        (.frcsr rd, .csrrs rd 3 0), (.frrm rd, .csrrs rd 2 0), (.frflags rd, .csrrs rd 1 0),
        (.fscsr rd r, .csrrw rd 3 r), (.fsrm rd r, .csrrw rd 2 r), (.fsflags rd r, .csrrw rd 1 r),
        (.rdcycle rd, .csrrs rd 0xC00 0), (.rdtime rd, .csrrs rd 0xC01 0), (.rdinstret rd, .csrrs rd 0xC02 0),
        (.rdcycleh rd, .csrrs rd 0xC80 0), (.rdtimeh rd, .csrrs rd 0xC81 0), (.rdinstreth rd, .csrrs rd 0xC82 0),
        -- R521 to R526
        (.fabsS rd r, .fsgnjxS rd r r), (.fabsD rd r, .fsgnjxD rd r r), (.fmvS rd r, .fsgnjS rd r r),
        (.fmvD rd r, .fsgnjD rd r r), (.fnegS rd r, .fsgnjnS rd r r), (.fnegD rd r, .fsgnjnD rd r r),
        -- R538 to R542, R550 to R554
        (.mv rd r, .addi rd r 0), (.neg rd r, .sub rd 0 r), (.negw rd r, .subw rd 0 r), (.nop, .addi 0 0 0),
        (.not rd r, .xori rd r 0xFFF), (.seqz rd r, .sltiu rd r 1), (.sextW rd r, .addiw rd r 0),
        (.sgtz rd r, .slt rd 0 r), (.sltz rd r, .slt rd r 0), (.snez rd r, .sltu rd 0 r)],
      expand xl p.1 = [p.2]) ∧
    -- R513, R555, R535, R537
    expand xl (.call rd delta) = [.auipc rd hi, .jalr rd rd lo] ∧
    expand xl (.tail delta) = [.auipc 6 hi, .jalr 0 6 lo] ∧
    expand xl (.lla rd delta) = [.auipc rd hi, .addi rd rd lo] ∧
    expand xl (.la rd false delta) = [.auipc rd hi, .addi rd rd lo] ∧
    expand .rv32 (.la rd true delta) = [.auipc rd hi, .lw rd rd lo] ∧
    expand .rv64 (.la rd true delta) = [.auipc rd hi, .ld rd rd lo])

/-- 30_encoding.md R150: a parcel has at most one meaning, and only an available well-formed machine instruction. -/
def Obligations.DecodedParcelIsItsEncoding : Prop :=
  ∀ (c : Config) (p : Parcel) (i : Instr), decode c p = some i →
    encodeOne i = p ∧ i.wf = true ∧ i.available c = true ∧ i.isPseudo = false

/-! ## The step -/

/-- 00_scope.md R15 with 60_exceptions.md R630: what a step is, case by case. -/
def Obligations.StepRunsDecodedInstruction : Prop :=
  ∀ s : State,
    (∀ n, s.sample.interrupt = some n → step s = .next (s.sample.takeTrap (.irq n) 0)) ∧
    (s.sample.interrupt = none →
      (∀ p t i, s.sample.fetch = .done p t → decode s.cfg p = some i → step s = exec i t) ∧
      (∀ p t, s.sample.fetch = .done p t → decode s.cfg p = none → step s = raise .illegalInstruction p.bits t) ∧
      (∀ e a t, s.sample.fetch = .trap e a t → step s = raise e a t))

/-- 20_memory.md R83, R81, R87, R101: the parcel at an aligned, executable pc in main memory, and the exceptions of a
fetch. Where stores since the last `fence.i` wrote to the parcel, each halfword is what memory holds or held before some of
them, the number being a free value; that both its bytes come from one moment, and that the values between the oldest and
the newest are among those fetched, is the model's reading of R101 (log entry 12). -/
def Obligations.FetchReadsTheParcelAtPc : Prop :=
  ∀ s : State, s.pc.toNat < 2 ^ s.xlen →
    (s.pc.toNat % s.ialign ≠ 0 → s.fetch = .trap .instructionAddressMisaligned s.pc s) ∧
    (s.pc.toNat % s.ialign = 0 → ¬(∀ j, j < 2 → byteValid s.cfg .fetch 2 (s.byteAt s.pc.toNat j) = true) →
      s.fetch = .trap .instructionAccessFault s.pc s) ∧
    (s.pc.toNat % s.ialign = 0 → (∀ j, j < 2 → byteValid s.cfg .fetch 2 (s.byteAt s.pc.toNat j) = true) →
      MainMemory s s.pc.toNat 4 →
      ∃ low d, HalfFetched s s.pc.toNat low ∧
        (low.toNat % 4 ≠ 3 → s.fetch = .done (.half low) { s with draws := d }) ∧
        (low.toNat % 4 = 3 → (∀ j, j < 4 → byteValid s.cfg .fetch 2 (s.byteAt s.pc.toNat j) = true) →
          ∃ high e, HalfFetched s (s.pc.toNat + 2) high ∧ s.fetch = .done (.word (high ++ low)) { s with draws := e }) ∧
        (low.toNat % 4 = 3 → ¬(∀ j, j < 4 → byteValid s.cfg .fetch 2 (s.byteAt s.pc.toNat j) = true) →
          s.fetch = .trap .instructionAccessFault s.pc { s with draws := d })) ∧
    (s.pc.toNat % s.ialign = 0 → (∀ j, j < 2 → byteValid s.cfg .fetch 2 (s.byteAt s.pc.toNat j) = true) →
      MainMemory s s.pc.toNat 4 → ¬StoredTo s s.pc.toNat 4 →
      (s.littleEndian s.pc.toNat 2 % 4 ≠ 3 →
        s.fetch = .done (.half (BitVec.ofNat 16 (s.littleEndian s.pc.toNat 2))) s) ∧
      (s.littleEndian s.pc.toNat 2 % 4 = 3 →
        (∀ j, j < 4 → byteValid s.cfg .fetch 2 (s.byteAt s.pc.toNat j) = true) →
        s.fetch = .done (.word (BitVec.ofNat 32 (s.littleEndian s.pc.toNat 4))) s) ∧
      (s.littleEndian s.pc.toNat 2 % 4 = 3 →
        ¬(∀ j, j < 4 → byteValid s.cfg .fetch 2 (s.byteAt s.pc.toNat j) = true) →
        s.fetch = .trap .instructionAccessFault s.pc s))

/-! ## Interrupts and traps -/

/-- 60_exceptions.md R633 (with R630, R632): which interrupt is taken. -/
def Obligations.InterruptTakenHasHighestPriority : Prop :=
  ∀ (s : State) (n : Nat), s.interrupt = some n ↔
    s.cfg.trapModel = .machine ∧
    ((ReadyForM s n ∧ ∀ j ∈ HigherPriority n, ¬ReadyForM s j) ∨
     (ReadyForS s n ∧ (∀ j ∈ HigherPriority n, ¬ReadyForS s j) ∧ ∀ j, ¬ReadyForM s j))

/-- 60_exceptions.md R610: trap entry to machine mode; `info` is 0 for an interrupt. -/
def Obligations.TrapEntryToMachineMode : Prop :=
  ∀ (s : State) (c : Cause) (info : Word), (∀ n, c = .irq n → info = 0) →
    ¬(s.cfg.privS = true ∧ s.priv ≠ .machine ∧
      (match c with | .exc e => s.medeleg.getLsbD e.code | .irq n => s.mideleg.getLsbD n) = true) →
    ∃ t, s.takeTrap c info = t ∧
      t.mepc.toNat = s.pc.toNat % 2 ^ s.xlen / s.ialign * s.ialign ∧
      t.mcause.toNat = (match c with | .exc e => e.code | .irq n => (2 ^ (s.xlen - 1) + n) % 2 ^ 64) ∧
      t.mtval.toNat = (match c with | .exc _ => info.toNat % 2 ^ s.xlen | .irq _ => 0) ∧
      t.mstatus = { s.mstatus with mpie := s.mstatus.mie, mie := false, mpp := s.priv } ∧
      t.priv = .machine ∧ t.reservation = none ∧
      t.pc.toNat = (s.mtvec.toNat / 4 * 4 +
        (match c with | .exc _ => 0 | .irq n => if s.mtvec.toNat % 4 = 1 then 4 * n else 0)) % 2 ^ s.xlen ∧
      t = { s with mepc := t.mepc, mcause := t.mcause, mtval := t.mtval, mstatus := t.mstatus, priv := t.priv,
                   reservation := t.reservation, pc := t.pc }

/-- 60_exceptions.md R611: delegation, and trap entry to supervisor mode. -/
def Obligations.TrapEntryToSupervisorMode : Prop :=
  ∀ (s : State) (c : Cause) (info : Word), (∀ n, c = .irq n → info = 0) →
    (s.priv = .machine →
      (s.takeTrap c info).priv = .machine ∧ (s.takeTrap c info).sepc = s.sepc ∧
      (s.takeTrap c info).scause = s.scause ∧ (s.takeTrap c info).stval = s.stval) ∧
    (s.cfg.privS = true → s.priv ≠ .machine →
      (match c with | .exc e => s.medeleg.getLsbD e.code | .irq n => s.mideleg.getLsbD n) = true →
      ∃ t, s.takeTrap c info = t ∧
        t.sepc.toNat = s.pc.toNat % 2 ^ s.xlen / s.ialign * s.ialign ∧
        t.scause.toNat = (match c with | .exc e => e.code | .irq n => (2 ^ (s.xlen - 1) + n) % 2 ^ 64) ∧
        t.stval.toNat = (match c with | .exc _ => info.toNat % 2 ^ s.xlen | .irq _ => 0) ∧
        t.mstatus = { s.mstatus with spie := s.mstatus.sie, sie := false, spp := decide (s.priv = .supervisor) } ∧
        t.priv = .supervisor ∧ t.reservation = none ∧
        t.pc.toNat = (s.stvec.toNat / 4 * 4 +
          (match c with | .exc _ => 0 | .irq n => if s.stvec.toNat % 4 = 1 then 4 * n else 0)) % 2 ^ s.xlen ∧
        t = { s with sepc := t.sepc, scause := t.scause, stval := t.stval, mstatus := t.mstatus, priv := t.priv,
                     reservation := t.reservation, pc := t.pc })

/-- 60_exceptions.md R600 and R613: raising an exception enters the trap, or hands over to the environment. -/
def Obligations.RaiseEntersTrapOrHandsOver : Prop :=
  ∀ (s : State) (e : Exc) (info : Word),
    (s.cfg.trapModel = .machine → raise e info s = .next (s.takeTrap (.exc e) info)) ∧
    (s.cfg.trapModel = .environment →
      raise e info s = .fault (.trapped e info s.pc) ∧ s.interrupt = none ∧
      exec .ecall s = .fault (.trapped .environmentCallFromU 0 s.pc))

/-- 60_exceptions.md R612: a return with the saved values unchanged goes back to where the trap was taken. -/
def Obligations.TrapThenReturnRestores : Prop :=
  ∀ (s : State) (c : Cause) (info : Word), Inv s → s.cfg.trapModel = .machine →
    (s.trapsToS c = false → ∃ t, exec .mret (s.takeTrap c info) = .next t ∧ t.pc = s.pc ∧ t.priv = s.priv ∧
      t.mstatus.mie = s.mstatus.mie ∧ t.x = s.x ∧ t.f = s.f ∧ t.fflags = s.fflags ∧ SameMemory s t) ∧
    (s.trapsToS c = true → ∃ t, exec .sret (s.takeTrap c info) = .next t ∧ t.pc = s.pc ∧ t.priv = s.priv ∧
      t.mstatus.sie = s.mstatus.sie ∧ t.x = s.x ∧ t.f = s.f ∧ t.fflags = s.fflags ∧ SameMemory s t)

/-! ## Integer computation -/

/-- 40_integer_computational.md R201, R205, R209, R211, R215, R218, R219, R223, R227, R229. -/
def Obligations.IntegerRegisterResults : Prop :=
  ∀ (s : State) (rd rs1 rs2 : Reg),
    SetsX (exec (.add rd rs1 rs2) s) s 4 rd ((s.ux rs1 + s.ux rs2) % 2 ^ s.xlen) ∧
    SetsX (exec (.sub rd rs1 rs2) s) s 4 rd (modBits s.xlen ((s.ux rs1 : Int) - s.ux rs2)) ∧
    SetsX (exec (.and rd rs1 rs2) s) s 4 rd (s.ux rs1 &&& s.ux rs2) ∧
    SetsX (exec (.or rd rs1 rs2) s) s 4 rd (s.ux rs1 ||| s.ux rs2) ∧
    SetsX (exec (.xor rd rs1 rs2) s) s 4 rd (s.ux rs1 ^^^ s.ux rs2) ∧
    SetsX (exec (.sll rd rs1 rs2) s) s 4 rd (s.ux rs1 * 2 ^ (s.ux rs2 % s.xlen) % 2 ^ s.xlen) ∧
    SetsX (exec (.srl rd rs1 rs2) s) s 4 rd (s.ux rs1 / 2 ^ (s.ux rs2 % s.xlen)) ∧
    SetsX (exec (.sra rd rs1 rs2) s) s 4 rd (modBits s.xlen (s.sx rs1 / 2 ^ (s.ux rs2 % s.xlen))) ∧
    SetsX (exec (.slt rd rs1 rs2) s) s 4 rd (if s.sx rs1 < s.sx rs2 then 1 else 0) ∧
    SetsX (exec (.sltu rd rs1 rs2) s) s 4 rd (if s.ux rs1 < s.ux rs2 then 1 else 0)

/-- 40_integer_computational.md R202, R206 to R208, R210, R212, R216, R217, R220, R224, R230. -/
def Obligations.IntegerImmediateResults : Prop :=
  ∀ (s : State) (rd rs1 : Reg) (imm : BitVec 12) (shamt : BitVec 6) (upper : BitVec 20),
    SetsX (exec (.lui rd upper) s) s 4 rd (modBits s.xlen (4096 * upper.toInt)) ∧
    SetsX (exec (.auipc rd upper) s) s 4 rd (modBits s.xlen (s.pc.toNat + 4096 * upper.toInt)) ∧
    SetsX (exec (.addi rd rs1 imm) s) s 4 rd (modBits s.xlen (s.ux rs1 + imm.toInt)) ∧
    SetsX (exec (.andi rd rs1 imm) s) s 4 rd (s.ux rs1 &&& modBits s.xlen imm.toInt) ∧
    SetsX (exec (.ori rd rs1 imm) s) s 4 rd (s.ux rs1 ||| modBits s.xlen imm.toInt) ∧
    SetsX (exec (.xori rd rs1 imm) s) s 4 rd (s.ux rs1 ^^^ modBits s.xlen imm.toInt) ∧
    SetsX (exec (.slti rd rs1 imm) s) s 4 rd (if s.sx rs1 < imm.toInt then 1 else 0) ∧
    SetsX (exec (.sltiu rd rs1 imm) s) s 4 rd (if s.ux rs1 < modBits s.xlen imm.toInt then 1 else 0) ∧
    (shamt.toNat < s.xlen →
      SetsX (exec (.slli rd rs1 shamt) s) s 4 rd (s.ux rs1 * 2 ^ shamt.toNat % 2 ^ s.xlen) ∧
      SetsX (exec (.srli rd rs1 shamt) s) s 4 rd (s.ux rs1 / 2 ^ shamt.toNat) ∧
      SetsX (exec (.srai rd rs1 shamt) s) s 4 rd (modBits s.xlen (s.sx rs1 / 2 ^ shamt.toNat)))

/-- 40_integer_computational.md R203, R204, R213, R214, R221, R222, R225, R226, R228: the forms of RV64 on words. -/
def Obligations.IntegerWordResults : Prop :=
  ∀ (s : State) (rd rs1 rs2 : Reg) (imm : BitVec 12) (shamt : BitVec 6), s.cfg.xlen = .rv64 →
    SetsX (exec (.addw rd rs1 rs2) s) s 4 rd (wordOf (s.ux rs1 + s.ux rs2)) ∧
    SetsX (exec (.subw rd rs1 rs2) s) s 4 rd (wordOf ((s.ux rs1 : Int) - s.ux rs2)) ∧
    SetsX (exec (.addiw rd rs1 imm) s) s 4 rd (wordOf (s.ux rs1 + imm.toInt)) ∧
    SetsX (exec (.sllw rd rs1 rs2) s) s 4 rd (wordOf (s.ux rs1 * 2 ^ (s.ux rs2 % 32))) ∧
    SetsX (exec (.srlw rd rs1 rs2) s) s 4 rd (wordOf ((s.ux rs1 % 2 ^ 32 / 2 ^ (s.ux rs2 % 32) : Nat))) ∧
    SetsX (exec (.sraw rd rs1 rs2) s) s 4 rd (wordOf (signedOf 32 (s.ux rs1 % 2 ^ 32) / 2 ^ (s.ux rs2 % 32))) ∧
    (shamt.toNat < 32 →
      SetsX (exec (.slliw rd rs1 shamt) s) s 4 rd (wordOf (s.ux rs1 * 2 ^ shamt.toNat)) ∧
      SetsX (exec (.srliw rd rs1 shamt) s) s 4 rd (wordOf ((s.ux rs1 % 2 ^ 32 / 2 ^ shamt.toNat : Nat))) ∧
      SetsX (exec (.sraiw rd rs1 shamt) s) s 4 rd (wordOf (signedOf 32 (s.ux rs1 % 2 ^ 32) / 2 ^ shamt.toNat)))

/-- 44_muldiv.md R300, R302 to R306: products are exact before a half is selected. -/
def Obligations.MultiplyResults : Prop :=
  ∀ (s : State) (rd rs1 rs2 : Reg),
    SetsX (exec (.mul rd rs1 rs2) s) s 4 rd (s.ux rs1 * s.ux rs2 % 2 ^ s.xlen) ∧
    SetsX (exec (.mulh rd rs1 rs2) s) s 4 rd (modBits s.xlen (s.sx rs1 * s.sx rs2 / 2 ^ s.xlen)) ∧
    SetsX (exec (.mulhsu rd rs1 rs2) s) s 4 rd (modBits s.xlen (s.sx rs1 * (s.ux rs2 : Int) / 2 ^ s.xlen)) ∧
    SetsX (exec (.mulhu rd rs1 rs2) s) s 4 rd (s.ux rs1 * s.ux rs2 / 2 ^ s.xlen) ∧
    (s.cfg.xlen = .rv64 → SetsX (exec (.mulw rd rs1 rs2) s) s 4 rd (wordOf ((s.ux rs1 * s.ux rs2 : Nat))))

/-- 44_muldiv.md R300, R307 to R314: for a divisor that is not zero, the quotient q rounds towards zero and the remainder r
goes with it: dividend = q * divisor + r, r smaller than the divisor and of the dividend's sign. On signed overflow, which
R301 leaves to DIV, the signed forms do so when DIV is the default; whatever DIV is, every form completes. -/
def Obligations.DivideResults : Prop :=
  ∀ (s : State) (rd rs1 rs2 : Reg),
    (∃ q r : Nat, SetsX (exec (.div rd rs1 rs2) s) s 4 rd q ∧ SetsX (exec (.rem rd rs1 rs2) s) s 4 rd r) ∧
    (∃ q r : Nat, SetsX (exec (.divu rd rs1 rs2) s) s 4 rd q ∧ SetsX (exec (.remu rd rs1 rs2) s) s 4 rd r) ∧
    (s.cfg.xlen = .rv64 →
      (∃ q r : Nat, SetsX (exec (.divw rd rs1 rs2) s) s 4 rd q ∧ SetsX (exec (.remw rd rs1 rs2) s) s 4 rd r) ∧
      (∃ q r : Nat, SetsX (exec (.divuw rd rs1 rs2) s) s 4 rd q ∧ SetsX (exec (.remuw rd rs1 rs2) s) s 4 rd r)) ∧
    (s.ux rs2 ≠ 0 → (s.sx rs1 ≠ -2 ^ (s.xlen - 1) ∨ s.sx rs2 ≠ -1 ∨ s.cfg.div = .standard) →
      ∃ q r : Int, s.sx rs1 = q * s.sx rs2 + r ∧ |r| < |s.sx rs2| ∧ 0 ≤ r * s.sx rs1 ∧
        SetsX (exec (.div rd rs1 rs2) s) s 4 rd (modBits s.xlen q) ∧
        SetsX (exec (.rem rd rs1 rs2) s) s 4 rd (modBits s.xlen r)) ∧
    (s.ux rs2 ≠ 0 →
      ∃ q r : Nat, s.ux rs1 = q * s.ux rs2 + r ∧ r < s.ux rs2 ∧
        SetsX (exec (.divu rd rs1 rs2) s) s 4 rd q ∧ SetsX (exec (.remu rd rs1 rs2) s) s 4 rd r) ∧
    (s.cfg.xlen = .rv64 → s.ux rs2 % 2 ^ 32 ≠ 0 →
      ((s.ux rs1 % 2 ^ 32 ≠ 2 ^ 31 ∨ s.ux rs2 % 2 ^ 32 ≠ 2 ^ 32 - 1 ∨ s.cfg.div = .standard) →
        ∃ q r : Int, signedOf 32 (s.ux rs1 % 2 ^ 32) = q * signedOf 32 (s.ux rs2 % 2 ^ 32) + r ∧
        |r| < |signedOf 32 (s.ux rs2 % 2 ^ 32)| ∧ 0 ≤ r * signedOf 32 (s.ux rs1 % 2 ^ 32) ∧
        SetsX (exec (.divw rd rs1 rs2) s) s 4 rd (wordOf q) ∧ SetsX (exec (.remw rd rs1 rs2) s) s 4 rd (wordOf r)) ∧
      (∃ q r : Nat, s.ux rs1 % 2 ^ 32 = q * (s.ux rs2 % 2 ^ 32) + r ∧ r < s.ux rs2 % 2 ^ 32 ∧
        SetsX (exec (.divuw rd rs1 rs2) s) s 4 rd (wordOf q) ∧ SetsX (exec (.remuw rd rs1 rs2) s) s 4 rd (wordOf r)))

/-- 44_muldiv.md R301: with the default of DIV division by zero and signed overflow give these values; nothing traps, no
flag is set. -/
def Obligations.DivisionCornerCases : Prop :=
  ∀ (s : State) (rd rs1 rs2 : Reg), s.cfg.div = .standard →
    (s.ux rs2 = 0 →
      SetsX (exec (.div rd rs1 rs2) s) s 4 rd (2 ^ s.xlen - 1) ∧
      SetsX (exec (.divu rd rs1 rs2) s) s 4 rd (2 ^ s.xlen - 1) ∧
      SetsX (exec (.rem rd rs1 rs2) s) s 4 rd (s.ux rs1) ∧ SetsX (exec (.remu rd rs1 rs2) s) s 4 rd (s.ux rs1)) ∧
    (s.ux rs1 = 2 ^ (s.xlen - 1) → s.ux rs2 = 2 ^ s.xlen - 1 →
      SetsX (exec (.div rd rs1 rs2) s) s 4 rd (2 ^ (s.xlen - 1)) ∧ SetsX (exec (.rem rd rs1 rs2) s) s 4 rd 0) ∧
    (s.cfg.xlen = .rv64 → s.ux rs2 % 2 ^ 32 = 0 →
      SetsX (exec (.divw rd rs1 rs2) s) s 4 rd (2 ^ 64 - 1) ∧
      SetsX (exec (.divuw rd rs1 rs2) s) s 4 rd (2 ^ 64 - 1) ∧
      SetsX (exec (.remw rd rs1 rs2) s) s 4 rd (wordOf (s.ux rs1)) ∧
      SetsX (exec (.remuw rd rs1 rs2) s) s 4 rd (wordOf (s.ux rs1))) ∧
    (s.cfg.xlen = .rv64 → s.ux rs1 % 2 ^ 32 = 2 ^ 31 → s.ux rs2 % 2 ^ 32 = 2 ^ 32 - 1 →
      SetsX (exec (.divw rd rs1 rs2) s) s 4 rd (wordOf (2 ^ 31)) ∧ SetsX (exec (.remw rd rs1 rs2) s) s 4 rd 0)

/-! ## Control transfer -/

/-- 41_control_transfer.md R240 to R246; 20_memory.md R86. -/
def Obligations.BranchesFollowTheirCondition : Prop :=
  ∀ (s : State) (rs1 rs2 : Reg) (off : BitVec 12) (target : Nat),
    target = modBits s.xlen (s.pc.toNat + 2 * off.toInt) →
    BranchMeets (exec (.beq rs1 rs2 off) s) s 4 (s.ux rs1 = s.ux rs2) target ∧
    BranchMeets (exec (.bne rs1 rs2 off) s) s 4 (s.ux rs1 ≠ s.ux rs2) target ∧
    BranchMeets (exec (.blt rs1 rs2 off) s) s 4 (s.sx rs1 < s.sx rs2) target ∧
    BranchMeets (exec (.bge rs1 rs2 off) s) s 4 (s.sx rs2 ≤ s.sx rs1) target ∧
    BranchMeets (exec (.bltu rs1 rs2 off) s) s 4 (s.ux rs1 < s.ux rs2) target ∧
    BranchMeets (exec (.bgeu rs1 rs2 off) s) s 4 (s.ux rs2 ≤ s.ux rs1) target

/-- 41_control_transfer.md R247, R248; 20_memory.md R86. -/
def Obligations.JumpsLinkAndTransfer : Prop :=
  ∀ (s : State) (rd rs1 : Reg) (off : BitVec 20) (imm : BitVec 12),
    JumpMeets (exec (.jal rd off) s) s 4 rd (modBits s.xlen (s.pc.toNat + 2 * off.toInt)) ∧
    JumpMeets (exec (.jalr rd rs1 imm) s) s 4 rd (s.effective rs1 imm.toInt / 2 * 2)

/-! ## Loads, stores, atomics -/

/-- 42_loads_stores.md R260 to R267; 20_memory.md R85, R87, R90. The record of the accesses made to devices, in program
order, is the model's (log entries 8, 37), and so is the free order of the bytes of an emulated access (log entry 15). -/
def Obligations.IntegerLoadsReadMemory : Prop :=
  ∀ (s : State) (rd rs1 : Reg) (off : BitVec 12) (a : Nat), a = s.effective rs1 off.toInt →
    LoadMeets (exec (.lb rd rs1 off) s) s 4 rd a 1 (modBits s.xlen (signedOf 8 (s.littleEndian a 1))) ∧
    LoadMeets (exec (.lbu rd rs1 off) s) s 4 rd a 1 (s.littleEndian a 1) ∧
    LoadMeets (exec (.lh rd rs1 off) s) s 4 rd a 2 (modBits s.xlen (signedOf 16 (s.littleEndian a 2))) ∧
    LoadMeets (exec (.lhu rd rs1 off) s) s 4 rd a 2 (s.littleEndian a 2) ∧
    LoadMeets (exec (.lw rd rs1 off) s) s 4 rd a 4 (modBits s.xlen (signedOf 32 (s.littleEndian a 4))) ∧
    (s.cfg.xlen = .rv64 →
      LoadMeets (exec (.lwu rd rs1 off) s) s 4 rd a 4 (s.littleEndian a 4) ∧
      LoadMeets (exec (.ld rd rs1 off) s) s 4 rd a 8 (s.littleEndian a 8))

/-- 42_loads_stores.md R260, R268 to R272; 20_memory.md R85, R87, R90, R99, R101. The record of the accesses made to
devices, in program order, is the model's (log entries 8, 37), and so are the record of what fetches may still see (log
entry 12) and the free order of the bytes of an emulated access (log entry 15). -/
def Obligations.IntegerStoresWriteMemory : Prop :=
  ∀ (s : State) (rs2 rs1 : Reg) (off : BitVec 12) (a : Nat), Memory.wf s.mem = true → a = s.effective rs1 off.toInt →
    StoreMeets (exec (.sb rs2 rs1 off) s) s 4 a 1 (s.ux rs2) ∧
    StoreMeets (exec (.sh rs2 rs1 off) s) s 4 a 2 (s.ux rs2) ∧
    StoreMeets (exec (.sw rs2 rs1 off) s) s 4 a 4 (s.ux rs2) ∧
    (s.cfg.xlen = .rv64 → StoreMeets (exec (.sd rs2 rs1 off) s) s 4 a 8 (s.ux rs2))

/-- 45_atomics.md R320 to R338; 20_memory.md R88, R100: aq and rl change no value. The record of what fetches may still see
(R101) is the model's (log entry 12). -/
def Obligations.AtomicOperationsUpdateMemory : Prop :=
  ∀ (s : State) (rd rs1 rs2 : Reg) (aq rl : Bool) (a b : Nat), Memory.wf s.mem = true →
    a = s.ux rs1 → b = s.ux rs2 →
    AmoMeets (exec (.amoswapW rd rs1 rs2 aq rl) s) s rd a 4 (fun _ => b) ∧
    AmoMeets (exec (.amoaddW rd rs1 rs2 aq rl) s) s rd a 4 (fun t => t + b) ∧
    AmoMeets (exec (.amoandW rd rs1 rs2 aq rl) s) s rd a 4 (fun t => t &&& b) ∧
    AmoMeets (exec (.amoorW rd rs1 rs2 aq rl) s) s rd a 4 (fun t => t ||| b) ∧
    AmoMeets (exec (.amoxorW rd rs1 rs2 aq rl) s) s rd a 4 (fun t => t ^^^ b) ∧
    AmoMeets (exec (.amomaxW rd rs1 rs2 aq rl) s) s rd a 4
      (fun t => if signedOf 32 t < signedOf 32 (b % 2 ^ 32) then b else t) ∧
    AmoMeets (exec (.amominW rd rs1 rs2 aq rl) s) s rd a 4
      (fun t => if signedOf 32 (b % 2 ^ 32) < signedOf 32 t then b else t) ∧
    AmoMeets (exec (.amomaxuW rd rs1 rs2 aq rl) s) s rd a 4 (fun t => max t (b % 2 ^ 32)) ∧
    AmoMeets (exec (.amominuW rd rs1 rs2 aq rl) s) s rd a 4 (fun t => min t (b % 2 ^ 32)) ∧
    (s.cfg.xlen = .rv64 →
      AmoMeets (exec (.amoswapD rd rs1 rs2 aq rl) s) s rd a 8 (fun _ => b) ∧
      AmoMeets (exec (.amoaddD rd rs1 rs2 aq rl) s) s rd a 8 (fun t => t + b) ∧
      AmoMeets (exec (.amoandD rd rs1 rs2 aq rl) s) s rd a 8 (fun t => t &&& b) ∧
      AmoMeets (exec (.amoorD rd rs1 rs2 aq rl) s) s rd a 8 (fun t => t ||| b) ∧
      AmoMeets (exec (.amoxorD rd rs1 rs2 aq rl) s) s rd a 8 (fun t => t ^^^ b) ∧
      AmoMeets (exec (.amomaxD rd rs1 rs2 aq rl) s) s rd a 8 (fun t => if signedOf 64 t < signedOf 64 b then b else t) ∧
      AmoMeets (exec (.amominD rd rs1 rs2 aq rl) s) s rd a 8 (fun t => if signedOf 64 b < signedOf 64 t then b else t) ∧
      AmoMeets (exec (.amomaxuD rd rs1 rs2 aq rl) s) s rd a 8 (fun t => max t b) ∧
      AmoMeets (exec (.amominuD rd rs1 rs2 aq rl) s) s rd a 8 (fun t => min t b))

/-- 45_atomics.md R339, R340; 20_memory.md R97. -/
def Obligations.LoadReservedRegistersReservation : Prop :=
  ∀ (s : State) (rd rs1 : Reg) (aq rl : Bool) (n : Nat) (i : Instr),
    (n = 4 ∧ i = .lrW rd rs1 aq rl) ∨ (n = 8 ∧ i = .lrD rd rs1 aq rl ∧ s.cfg.xlen = .rv64) →
    (s.ux rs1 % n ≠ 0 → exec i s = raise .loadAddressMisaligned (s.readX rs1) s) ∧
    (s.ux rs1 % n = 0 → ¬BytesOk s .load (s.ux rs1) n → exec i s = raise .loadAccessFault (s.readX rs1) s) ∧
    (s.ux rs1 % n = 0 → BytesOk s .load (s.ux rs1) n →
      ∃ t, exec i s = .next t ∧ t.reservation = some { addr := s.readX rs1, size := n } ∧ Advanced s t 4 ∧
        SameMemory s t ∧ (∃ v, XWritten s t rd v) ∧
        t = { s with x := t.x, reservation := t.reservation, pc := t.pc, minstret := t.minstret, ioLog := t.ioLog,
                     draws := t.draws } ∧
        (MainMemory s (s.ux rs1) n →
          XWritten s t rd (modBits s.xlen (signedOf (8 * n) (s.littleEndian (s.ux rs1) n))) ∧
          t.ioLog = s.ioLog ∧ t.draws = s.draws))

/-- 45_atomics.md R341, R342; 20_memory.md R88, R98: where the bytes of the reservation include those of the `sc` it stores
exactly if the free Boolean of this `sc` says so; else it fails. The code of a failure is free but not zero (log entries 13,
14). The records of what devices get, in program order, and of what fetches may still see are the model's (log entries 8,
37, 12). -/
def Obligations.StoreConditionalSucceedsOrFails : Prop :=
  ∀ (s : State) (rd rs1 rs2 : Reg) (aq rl : Bool) (n : Nat) (i : Instr), Memory.wf s.mem = true →
    (n = 4 ∧ i = .scW rd rs1 rs2 aq rl) ∨ (n = 8 ∧ i = .scD rd rs1 rs2 aq rl ∧ s.cfg.xlen = .rv64) →
    (s.ux rs1 % n ≠ 0 → exec i s = raise .storeAmoAddressMisaligned (s.readX rs1) s) ∧
    (s.ux rs1 % n = 0 → ¬BytesOk s .store (s.ux rs1) n → exec i s = raise .storeAmoAccessFault (s.readX rs1) s) ∧
    (s.ux rs1 % n = 0 → BytesOk s .store (s.ux rs1) n →
      ∃ t, exec i s = .next t ∧ t.reservation = none ∧ Advanced s t 4 ∧
        t = { s with x := t.x, mem := t.mem, storeLog := t.storeLog, ioLog := t.ioLog, draws := t.draws,
                     reservation := t.reservation, pc := t.pc, minstret := t.minstret } ∧
        (if (∃ r, s.reservation = some r ∧
              ∀ k, k < n → ∃ j, j < r.size ∧ s.byteAt (s.ux rs1) k = s.byteAt r.addr.toNat j) ∧
            Config.freeScSucceeds s.draws = true
         then XWritten s t rd 0 ∧ BytesWritten s t (s.ux rs1) n (s.ux rs2) ∧
            IoLogged s t (s.ioWrites (s.ux rs1) n (s.ux rs2)) ∧ StoresLogged s t (s.overwritten (s.ux rs1) n)
         else SameMemory s t ∧ t.ioLog = s.ioLog ∧ t.storeLog = s.storeLog ∧
            ∃ code, 0 < code ∧ code < 2 ^ s.xlen ∧ XWritten s t rd code))

/-! ## System -/

/-- 43_system_csr_fence.md R281 to R288; 60_exceptions.md R650: the six CSR instructions. Three clauses, at `CsrCompletes`,
are the model's choice: a write of `minstreth` is not followed by the instruction's own increment, which R650 says of
`minstret` alone (log entry 34); the set and clear forms of `mip` modify the value read with the SEIP line in it (log entry
24); the write forms with rd = x0 perform no read (log entry 27). -/
def Obligations.CsrInstructionsSwapAndModify : Prop :=
  ∀ (s : State) (rd rs1 : Reg) (n : BitVec 12) (zimm : BitVec 5),
    CsrMeets (.csrrw rd n rs1) s rd n (decide (rd ≠ 0)) true (fun _ => s.readX rs1) ∧
    CsrMeets (.csrrs rd n rs1) s rd n true (decide (rs1 ≠ 0)) (fun t => t ||| s.readX rs1) ∧
    CsrMeets (.csrrc rd n rs1) s rd n true (decide (rs1 ≠ 0)) (fun t => t &&& ~~~(s.readX rs1)) ∧
    CsrMeets (.csrrwi rd n zimm) s rd n (decide (rd ≠ 0)) true (fun _ => zimm.setWidth 64) ∧
    CsrMeets (.csrrsi rd n zimm) s rd n true (decide (zimm ≠ 0)) (fun t => t ||| zimm.setWidth 64) ∧
    CsrMeets (.csrrci rd n zimm) s rd n true (decide (zimm ≠ 0)) (fun t => t &&& ~~~(zimm.setWidth 64))

/-- 43_system_csr_fence.md R282; 10_state.md R60: when an access to CSR number n is legal. Which CSRs exist is
`Csr.exists`, where it is the model's choice that `sip` and `sie` need PRIV_S (log entry 36). With TRAP_MODEL =
environment, that the counters need no counter enable and that FS still gates the floating-point CSRs is the model's choice
(log entry 30). -/
def Obligations.CsrAccessIsChecked : Prop :=
  ∀ (s : State) (n : BitVec 12) (writes : Bool) (c : Csr), s.csrAccess n writes = some c ↔
    Csr.number c = n ∧ Csr.exists s.cfg c = true ∧ ¬(writes = true ∧ n.toNat / 1024 = 3) ∧
    ¬((c = .fflags ∨ c = .frm ∨ c = .fcsr) ∧ ¬FloatOn s) ∧
    (s.cfg.trapModel = .environment → n.toNat / 256 % 4 = 0) ∧
    (s.cfg.trapModel = .machine →
      (n.toNat / 256 % 4 = 1 → s.priv ≠ .user) ∧ (2 ≤ n.toNat / 256 % 4 → s.priv = .machine) ∧
      (∀ b, ((c = .cycle ∨ c = .cycleh) ∧ b = 0 ∨ (c = .time ∨ c = .timeh) ∧ b = 1 ∨
          (c = .instret ∨ c = .instreth) ∧ b = 2) →
        (s.priv ≠ .machine → s.mcounteren.getLsbD b = true) ∧
        (s.priv = .user → s.cfg.privS = true → s.scounteren.getLsbD b = true)))

/-- 10_state.md R40 to R60, `csr_legalize` (92_eei_decisions.md D20): what each CSR reads as, and what a write keeps. A read
changes no state but a counter that moves when it is read, and a write no register but its own. These clauses are the
model's choice, not words of those rules: that a platform's part of `csr_legalize` is a rule of its own for some CSRs and
read-only bits which keep their value, as `csrLegalize` and the premises `csrReadOnly = []` and `csrOwnRule = []` have it
(log entry 32); that the registers with no stated limit hold every XLEN-bit value, `medeleg` and `mideleg` also the bits no
cause has, and the counter enables three bits (log entry 26); that a bit of `sip` or `sie` that is not delegated reads zero
and ignores writes (log entry 25); that `mhartid` is a parameter and `misa`, `satp` and the identity registers ignore writes
(log entry 23). -/
def Obligations.CsrReadsWhatItCanHold : Prop :=
  ∀ (s : State) (v : Word),
    -- what a read gives
    (s.readCsr .mstatus).1.toNat = s.mstatusNumber ∧ (s.readCsr .sstatus).1.toNat = s.sstatusNumber ∧
    (s.readCsr .misa).1.toNat = s.misaNumber ∧ (s.readCsr .satp).1 = 0 ∧
    (∀ k, (s.readCsr .mip).1.getLsbD k = true ↔ s.pending k) ∧
    (∀ k, (s.readCsr .mie).1.getLsbD k = true ↔ s.mie.getLsbD k = true ∧ s.enableExists k) ∧
    (∀ k, (s.readCsr .sip).1.getLsbD k = true ↔ (k = 1 ∨ k = 5 ∨ k = 9) ∧ s.pending k ∧ s.mideleg.getLsbD k = true) ∧
    (∀ k, (s.readCsr .sie).1.getLsbD k = true ↔ (k = 1 ∨ k = 5 ∨ k = 9) ∧ s.mie.getLsbD k = true ∧ s.enableExists k ∧
      s.mideleg.getLsbD k = true) ∧
    (s.readCsr .mcounteren).1.toNat = s.mcounteren.toNat ∧ (s.readCsr .scounteren).1.toNat = s.scounteren.toNat ∧
    (s.readCsr .mhartid).1.toNat = s.cfg.mhartid.toNat % 2 ^ s.xlen ∧
    (∀ c ∉ [Csr.cycle, .cycleh, .mcycle, .mcycleh, .time, .timeh], (s.readCsr c).2 = s) ∧
    -- what a write leaves alone
    (∀ c ∈ [Csr.mstatus, .sstatus], s.writeCsr c v = { s with mstatus := (s.writeCsr c v).mstatus }) ∧
    (∀ c ∈ [Csr.mie, .sie], s.writeCsr c v = { s with mie := (s.writeCsr c v).mie }) ∧
    (∀ c ∈ [Csr.mip, .sip], s.writeCsr c v = { s with mipSoft := (s.writeCsr c v).mipSoft }) ∧
    (∀ c ∈ [Csr.mcycle, .mcycleh], s.writeCsr c v = { s with mcycle := (s.writeCsr c v).mcycle }) ∧
    (∀ c ∈ [Csr.minstret, .minstreth], s.writeCsr c v = { s with minstret := (s.writeCsr c v).minstret }) ∧
    s.writeCsr .fflags v = { s with fflags := (s.writeCsr .fflags v).fflags, mstatus := s.dirtied } ∧
    s.writeCsr .frm v = { s with frm := (s.writeCsr .frm v).frm, mstatus := s.dirtied } ∧
    s.writeCsr .fcsr v = { s with fflags := (s.writeCsr .fcsr v).fflags, frm := (s.writeCsr .fcsr v).frm,
                                  mstatus := s.dirtied } ∧
    s.writeCsr .mepc v = { s with mepc := (s.writeCsr .mepc v).mepc } ∧
    s.writeCsr .mtvec v = { s with mtvec := (s.writeCsr .mtvec v).mtvec } ∧
    s.writeCsr .mcause v = { s with mcause := (s.writeCsr .mcause v).mcause } ∧
    s.writeCsr .mtval v = { s with mtval := (s.writeCsr .mtval v).mtval } ∧
    s.writeCsr .mscratch v = { s with mscratch := (s.writeCsr .mscratch v).mscratch } ∧
    s.writeCsr .sepc v = { s with sepc := (s.writeCsr .sepc v).sepc } ∧
    s.writeCsr .stvec v = { s with stvec := (s.writeCsr .stvec v).stvec } ∧
    s.writeCsr .scause v = { s with scause := (s.writeCsr .scause v).scause } ∧
    s.writeCsr .stval v = { s with stval := (s.writeCsr .stval v).stval } ∧
    s.writeCsr .sscratch v = { s with sscratch := (s.writeCsr .sscratch v).sscratch } ∧
    s.writeCsr .medeleg v = { s with medeleg := (s.writeCsr .medeleg v).medeleg } ∧
    s.writeCsr .mideleg v = { s with mideleg := (s.writeCsr .mideleg v).mideleg } ∧
    s.writeCsr .mcounteren v = { s with mcounteren := (s.writeCsr .mcounteren v).mcounteren } ∧
    s.writeCsr .scounteren v = { s with scounteren := (s.writeCsr .scounteren v).scounteren } ∧
    (∀ c ∈ [Csr.satp, .misa, .mvendorid, .marchid, .mimpid, .mhartid], s.writeCsr c v = s) ∧
    -- the platform's own rule and read-only bits
    (∀ c, s.writeCsr c v = s.storeCsr c (csrLegalize s.cfg c (s.heldCsr c) v)) ∧
    (∀ (c : Csr) (old : Word) (k : Nat), (csrLegalize s.cfg c old v).getLsbD k =
      if (csrReadOnlyBits s.cfg c).getLsbD k then old.getLsbD k else (csrOwnValue s.cfg c old v).getLsbD k) ∧
    (∀ (c : Csr) (old : Word), Csr.number c ∉ s.cfg.csrOwnRule → csrOwnValue s.cfg c old v = v) ∧
    -- what a write keeps
    (s.cfg.csrReadOnly = [] → s.cfg.csrOwnRule = [] →
      (∀ c ∈ [Csr.mscratch, .sscratch, .mcause, .scause, .mtval, .stval],
        ((s.writeCsr c v).readCsr c).1.toNat = v.toNat % 2 ^ s.xlen) ∧
      (∀ c ∈ [Csr.mepc, .sepc],
        ((s.writeCsr c v).readCsr c).1.toNat = v.toNat % 2 ^ s.xlen / s.ialign * s.ialign) ∧
      (∀ c ∈ [Csr.mtvec, .stvec], v.toNat % 4 < 2 → ((s.writeCsr c v).readCsr c).1.toNat = v.toNat % 2 ^ s.xlen) ∧
      (∀ c ∈ [Csr.mtvec, .stvec], 2 ≤ v.toNat % 4 → ((s.writeCsr c v).readCsr c).1.toNat =
        v.toNat % 2 ^ s.xlen / 4 * 4 + (s.readCsr c).1.toNat % 4) ∧
      (∀ c ∈ [Csr.mcounteren, .scounteren], ((s.writeCsr c v).readCsr c).1.toNat = v.toNat % 8) ∧
      (∀ k, ((s.writeCsr .medeleg v).readCsr .medeleg).1.getLsbD k = true ↔
        v.getLsbD k = true ∧ k < s.xlen ∧ k ≠ 11) ∧
      (∀ k, ((s.writeCsr .mideleg v).readCsr .mideleg).1.getLsbD k = true ↔
        v.getLsbD k = true ∧ k < s.xlen ∧ k ≠ 3 ∧ k ≠ 7 ∧ k ≠ 11) ∧
      (∀ k, ((s.writeCsr .mie v).readCsr .mie).1.getLsbD k = true ↔ v.getLsbD k = true ∧ s.enableExists k) ∧
      BitsWritten s.mie (s.writeCsr .sie v).mie v
        (fun k => (k = 1 ∨ k = 5 ∨ k = 9) ∧ s.mideleg.getLsbD k = true) ∧
      BitsWritten s.mipSoft (s.writeCsr .mip v).mipSoft v (fun k => s.cfg.privS = true ∧ (k = 1 ∨ k = 5 ∨ k = 9)) ∧
      BitsWritten s.mipSoft (s.writeCsr .sip v).mipSoft v (fun k => k = 1 ∧ s.mideleg.getLsbD 1 = true) ∧
      ((s.writeCsr .fcsr v).fflags.toNat = v.toNat % 32 ∧ (s.writeCsr .fcsr v).frm.toNat = v.toNat / 32 % 8 ∧
        (s.writeCsr .fflags v).fflags.toNat = v.toNat % 32 ∧ (s.writeCsr .fflags v).frm = s.frm ∧
        (s.writeCsr .frm v).frm.toNat = v.toNat % 8 ∧ (s.writeCsr .frm v).fflags = s.fflags ∧
        (∀ c ∈ [Csr.fcsr, .fflags, .frm], (s.writeCsr c v).mstatus = s.dirtied)) ∧
      ((s.readCsr .fcsr).1.toNat = s.frm.toNat * 32 + s.fflags.toNat ∧ (s.readCsr .fflags).1.toNat = s.fflags.toNat ∧
        (s.readCsr .frm).1.toNat = s.frm.toNat) ∧
      ((s.writeCsr .minstret v).readCsr .instret).1.toNat = v.toNat % 2 ^ s.xlen ∧
      (s.cfg.xlen = .rv64 → (s.writeCsr .minstret v).minstret = v ∧ (s.writeCsr .mcycle v).mcycle = v) ∧
      (s.cfg.xlen = .rv32 →
        (s.writeCsr .minstret v).minstret.toNat = s.minstret.toNat / 2 ^ 32 * 2 ^ 32 + v.toNat % 2 ^ 32 ∧
        (s.writeCsr .mcycle v).mcycle.toNat = s.mcycle.toNat / 2 ^ 32 * 2 ^ 32 + v.toNat % 2 ^ 32) ∧
      (s.writeCsr .minstreth v).minstret.toNat = v.toNat % 2 ^ 32 * 2 ^ 32 + s.minstret.toNat % 2 ^ 32 ∧
      (s.writeCsr .mcycleh v).mcycle.toNat = v.toNat % 2 ^ 32 * 2 ^ 32 + s.mcycle.toNat % 2 ^ 32 ∧
      (∀ c ∈ [Csr.mstatus, .sstatus],
        (s.cfg.privS = true → (s.writeCsr c v).mstatus.sie = v.getLsbD 1 ∧ (s.writeCsr c v).mstatus.spie = v.getLsbD 5 ∧
          (s.writeCsr c v).mstatus.spp = v.getLsbD 8) ∧
        (s.cfg.privS = false → (s.writeCsr c v).mstatus.sie = s.mstatus.sie ∧
          (s.writeCsr c v).mstatus.spie = s.mstatus.spie ∧ (s.writeCsr c v).mstatus.spp = s.mstatus.spp) ∧
        (s.cfg.fsTracking = true ∧ s.cfg.extF = true → (s.writeCsr c v).mstatus.fs.toNat = v.toNat / 2 ^ 13 % 4) ∧
        (¬(s.cfg.fsTracking = true ∧ s.cfg.extF = true) → (s.writeCsr c v).mstatus.fs = s.mstatus.fs)) ∧
      ((s.writeCsr .mstatus v).mstatus.mie = v.getLsbD 3 ∧ (s.writeCsr .mstatus v).mstatus.mpie = v.getLsbD 7) ∧
      (∀ p, Config.hasMode s.cfg p = true → v.toNat / 2 ^ 11 % 4 = modeNumber p →
        (s.writeCsr .mstatus v).mstatus.mpp = p) ∧
      ((∀ p, Config.hasMode s.cfg p = true → v.toNat / 2 ^ 11 % 4 ≠ modeNumber p) →
        (s.writeCsr .mstatus v).mstatus.mpp = s.mstatus.mpp) ∧
      ((s.writeCsr .sstatus v).mstatus.mie = s.mstatus.mie ∧ (s.writeCsr .sstatus v).mstatus.mpie = s.mstatus.mpie ∧
        (s.writeCsr .sstatus v).mstatus.mpp = s.mstatus.mpp))

/-- 10_state.md R44 to R46, R60; 60_exceptions.md R650: a counter reads no less than before (how far it moves at a read is
free, and that it moves at reads alone is the model's choice, log entry 10); `instret` reads the instructions retired
before. -/
def Obligations.CountersDoNotDecrease : Prop :=
  ∀ s : State,
    (∀ c ∈ [Csr.cycle, .cycleh, .mcycle, .mcycleh], s.mcycle.toNat ≤ (s.readCsr c).2.mcycle.toNat ∧
      (s.readCsr c).2 = { s with mcycle := (s.readCsr c).2.mcycle, draws := (s.readCsr c).2.draws }) ∧
    (∀ c ∈ [Csr.time, .timeh], s.time.toNat ≤ (s.readCsr c).2.time.toNat ∧
      (s.readCsr c).2 = { s with time := (s.readCsr c).2.time, draws := (s.readCsr c).2.draws }) ∧
    (∀ c ∈ [Csr.cycle, .mcycle], (s.readCsr c).1.toNat = (s.readCsr c).2.mcycle.toNat % 2 ^ s.xlen) ∧
    (∀ c ∈ [Csr.cycleh, .mcycleh], (s.readCsr c).1.toNat = (s.readCsr c).2.mcycle.toNat / 2 ^ 32) ∧
    (s.readCsr .time).1.toNat = (s.readCsr .time).2.time.toNat % 2 ^ s.xlen ∧
    (s.readCsr .timeh).1.toNat = (s.readCsr .timeh).2.time.toNat / 2 ^ 32 ∧
    (∀ c ∈ [Csr.instret, .minstret], (s.readCsr c).1.toNat = s.minstret.toNat % 2 ^ s.xlen) ∧
    (∀ c ∈ [Csr.instreth, .minstreth], (s.readCsr c).1.toNat = s.minstret.toNat / 2 ^ 32) ∧
    (∀ c ∈ [Csr.instret, .instreth, .minstret, .minstreth], (s.readCsr c).2 = s)

/-- 43_system_csr_fence.md R289, R290, R295, R296; 60_exceptions.md R613, R643; 20_memory.md R101. That `wfi` completes at
once, which R295 allows, is the model's choice (log entry 18); so is the record of stores that `fence.i` empties (log
entry 12). -/
def Obligations.FencesAndWaitsAdvance : Prop :=
  ∀ (s : State) (pred succ : BitVec 4) (rs1 rs2 : Reg),
    SetsX (exec (.fence pred succ) s) s 4 0 0 ∧
    (∃ t, exec .fenceI s = .next t ∧ XWritten s t 0 0 ∧ Advanced s t 4 ∧ SameMemory s t ∧ t.storeLog = [] ∧
      t = { s with storeLog := t.storeLog, pc := t.pc, minstret := t.minstret }) ∧
    (s.cfg.trapModel = .machine ∧ s.priv ≠ .user → SetsX (exec .wfi s) s 4 0 0) ∧
    (¬(s.cfg.trapModel = .machine ∧ s.priv ≠ .user) → exec .wfi s = raise .illegalInstruction 0x10500073#64 s) ∧
    (s.cfg.trapModel = .machine ∧ s.cfg.privS = true ∧ s.priv ≠ .user →
      SetsX (exec (.sfenceVma rs1 rs2) s) s 4 0 0) ∧
    (¬(s.cfg.trapModel = .machine ∧ s.cfg.privS = true ∧ s.priv ≠ .user) →
      exec (.sfenceVma rs1 rs2) s =
        raise .illegalInstruction (BitVec.ofNat 64 (0x12000073 + rs1.toNat * 2 ^ 15 + rs2.toNat * 2 ^ 20)) s)

/-- 43_system_csr_fence.md R291, R292; 48_compressed.md R463; 60_exceptions.md R602: taking the exception is the
instruction's effect. -/
def Obligations.EnvironmentCallsAndBreakpointsTrap : Prop :=
  ∀ s : State, s.cfg.trapModel = .machine →
    (s.priv = .user → exec .ecall s = .next (s.takeTrap (.exc .environmentCallFromU) 0)) ∧
    (s.priv = .supervisor → exec .ecall s = .next (s.takeTrap (.exc .environmentCallFromS) 0)) ∧
    (s.priv = .machine → exec .ecall s = .next (s.takeTrap (.exc .environmentCallFromM) 0)) ∧
    exec .ebreak s = .next (s.takeTrap (.exc .breakpoint) s.pc) ∧
    exec .cEbreak s = .next (s.takeTrap (.exc .breakpoint) s.pc)

/-- 43_system_csr_fence.md R293, R294; 60_exceptions.md R612, R643. -/
def Obligations.TrapReturnsRestoreTheMode : Prop :=
  ∀ s : State,
    (s.cfg.trapModel = .machine ∧ s.priv = .machine →
      ∃ t, exec .mret s = .next t ∧ t.pc.toNat = s.mepc.toNat % 2 ^ s.xlen / s.ialign * s.ialign ∧
        t.priv = s.mstatus.mpp ∧ Retired s t 1 ∧ SameMemory s t ∧
        t = { s with
          pc := t.pc, priv := s.mstatus.mpp, reservation := none, minstret := t.minstret
          mstatus := { s.mstatus with
            mie := s.mstatus.mpie, mpie := true, mpp := if s.cfg.privU then .user else s.mstatus.mpp } }) ∧
    (¬(s.cfg.trapModel = .machine ∧ s.priv = .machine) → exec .mret s = raise .illegalInstruction 0x30200073#64 s) ∧
    (s.cfg.trapModel = .machine ∧ s.cfg.privS = true ∧ s.priv ≠ .user →
      ∃ t, exec .sret s = .next t ∧ t.pc.toNat = s.sepc.toNat % 2 ^ s.xlen / s.ialign * s.ialign ∧
        t.priv = (if s.mstatus.spp then .supervisor else .user) ∧ Retired s t 1 ∧ SameMemory s t ∧
        t = { s with
          pc := t.pc, priv := t.priv, reservation := none, minstret := t.minstret
          mstatus := { s.mstatus with sie := s.mstatus.spie, spie := true, spp := false } }) ∧
    (¬(s.cfg.trapModel = .machine ∧ s.cfg.privS = true ∧ s.priv ≠ .user) →
      exec .sret s = raise .illegalInstruction 0x10200073#64 s)

/-! ## Floating point -/

/-- 46_float_single.md R356, R360 to R363, R366, R371, R374, R375, R378, R379, R383, R384; 47_float_double.md R410: the
single result of one rounding, NaN-boxed. -/
def Obligations.SingleArithmeticCompletes : Prop :=
  ∀ (s : State) (rd rs1 rs2 rs3 : Reg) (rm : BitVec 3) (a b c : Nat),
    a = s.us rs1 → b = s.us rs2 → c = s.us rs3 →
    RoundsToSingle (.faddS rd rs1 rs2 rm) s rd rm (fun r => fAdd s.single r false a b) ∧
    RoundsToSingle (.fsubS rd rs1 rs2 rm) s rd rm (fun r => fAdd s.single r true a b) ∧
    RoundsToSingle (.fmulS rd rs1 rs2 rm) s rd rm (fun r => fMul s.single r a b) ∧
    RoundsToSingle (.fdivS rd rs1 rs2 rm) s rd rm (fun r => fDiv s.single r a b) ∧
    RoundsToSingle (.fsqrtS rd rs1 rm) s rd rm (fun r => fSqrt s.single r a) ∧
    RoundsToSingle (.fmaddS rd rs1 rs2 rs3 rm) s rd rm (fun r => fFma s.single r false false a b c) ∧
    RoundsToSingle (.fmsubS rd rs1 rs2 rs3 rm) s rd rm (fun r => fFma s.single r false true a b c) ∧
    RoundsToSingle (.fnmsubS rd rs1 rs2 rs3 rm) s rd rm (fun r => fFma s.single r true false a b c) ∧
    RoundsToSingle (.fnmaddS rd rs1 rs2 rs3 rm) s rd rm (fun r => fFma s.single r true true a b c) ∧
    RoundsToSingle (.fcvtSW rd rs1 rm) s rd rm (fun r => fOfInt s.single r (signedOf 32 (s.ux rs1 % 2 ^ 32))) ∧
    RoundsToSingle (.fcvtSWu rd rs1 rm) s rd rm (fun r => fOfInt s.single r ((s.ux rs1 % 2 ^ 32 : Nat) : Int)) ∧
    (s.cfg.xlen = .rv64 →
      RoundsToSingle (.fcvtSL rd rs1 rm) s rd rm (fun r => fOfInt s.single r (s.sx rs1)) ∧
      RoundsToSingle (.fcvtSLu rd rs1 rm) s rd rm (fun r => fOfInt s.single r (s.ux rs1 : Int))) ∧
    (s.cfg.extD = true →
      RoundsToSingle (.fcvtSD rd rs1 rm) s rd rm (fun r => fConvert s.double s.single r (s.uf rs1)))

/-- 47_float_double.md R401, R403 to R407, R413, R418, R421, R422, R425, R426, R431, R432. -/
def Obligations.DoubleArithmeticCompletes : Prop :=
  ∀ (s : State) (rd rs1 rs2 rs3 : Reg) (rm : BitVec 3) (a b c : Nat), s.cfg.extD = true →
    a = s.uf rs1 → b = s.uf rs2 → c = s.uf rs3 →
    RoundsToDouble (.faddD rd rs1 rs2 rm) s rd rm (fun r => fAdd s.double r false a b) ∧
    RoundsToDouble (.fsubD rd rs1 rs2 rm) s rd rm (fun r => fAdd s.double r true a b) ∧
    RoundsToDouble (.fmulD rd rs1 rs2 rm) s rd rm (fun r => fMul s.double r a b) ∧
    RoundsToDouble (.fdivD rd rs1 rs2 rm) s rd rm (fun r => fDiv s.double r a b) ∧
    RoundsToDouble (.fsqrtD rd rs1 rm) s rd rm (fun r => fSqrt s.double r a) ∧
    RoundsToDouble (.fmaddD rd rs1 rs2 rs3 rm) s rd rm (fun r => fFma s.double r false false a b c) ∧
    RoundsToDouble (.fmsubD rd rs1 rs2 rs3 rm) s rd rm (fun r => fFma s.double r false true a b c) ∧
    RoundsToDouble (.fnmsubD rd rs1 rs2 rs3 rm) s rd rm (fun r => fFma s.double r true false a b c) ∧
    RoundsToDouble (.fnmaddD rd rs1 rs2 rs3 rm) s rd rm (fun r => fFma s.double r true true a b c) ∧
    RoundsToDouble (.fcvtDW rd rs1 rm) s rd rm (fun r => fOfInt s.double r (signedOf 32 (s.ux rs1 % 2 ^ 32))) ∧
    RoundsToDouble (.fcvtDWu rd rs1 rm) s rd rm (fun r => fOfInt s.double r ((s.ux rs1 % 2 ^ 32 : Nat) : Int)) ∧
    RoundsToDouble (.fcvtDS rd rs1 rm) s rd rm (fun r => fConvert s.single s.double r (s.us rs1)) ∧
    (s.cfg.xlen = .rv64 →
      RoundsToDouble (.fcvtDL rd rs1 rm) s rd rm (fun r => fOfInt s.double r (s.sx rs1)) ∧
      RoundsToDouble (.fcvtDLu rd rs1 rm) s rd rm (fun r => fOfInt s.double r (s.ux rs1 : Int)))

/-- 46_float_single.md R358, R359, R364, R365; 47_float_double.md R408, R409, R411, R412; R354. -/
def Obligations.FloatToIntegerCompletes : Prop :=
  ∀ (s : State) (rd rs1 : Reg) (rm : BitVec 3),
    RoundsToInteger (.fcvtWS rd rs1 rm) s rd rm 32 (fun r => fToInt s.single r (-2 ^ 31) (2 ^ 31 - 1) (s.us rs1)) ∧
    RoundsToInteger (.fcvtWuS rd rs1 rm) s rd rm 32 (fun r => fToInt s.single r 0 (2 ^ 32 - 1) (s.us rs1)) ∧
    (s.cfg.extD = true →
      RoundsToInteger (.fcvtWD rd rs1 rm) s rd rm 32 (fun r => fToInt s.double r (-2 ^ 31) (2 ^ 31 - 1) (s.uf rs1)) ∧
      RoundsToInteger (.fcvtWuD rd rs1 rm) s rd rm 32 (fun r => fToInt s.double r 0 (2 ^ 32 - 1) (s.uf rs1))) ∧
    (s.cfg.xlen = .rv64 →
      RoundsToInteger (.fcvtLS rd rs1 rm) s rd rm 64 (fun r => fToInt s.single r (-2 ^ 63) (2 ^ 63 - 1) (s.us rs1)) ∧
      RoundsToInteger (.fcvtLuS rd rs1 rm) s rd rm 64 (fun r => fToInt s.single r 0 (2 ^ 64 - 1) (s.us rs1)) ∧
      (s.cfg.extD = true →
        RoundsToInteger (.fcvtLD rd rs1 rm) s rd rm 64 (fun r => fToInt s.double r (-2 ^ 63) (2 ^ 63 - 1) (s.uf rs1)) ∧
        RoundsToInteger (.fcvtLuD rd rs1 rm) s rd rm 64 (fun r => fToInt s.double r 0 (2 ^ 64 - 1) (s.uf rs1))))

/-- 46_float_single.md R350 (b), R352 (e), R353, R354; 47_float_double.md R400: every operation on finite data, and the
conversions of integers and formats, give the exact real rounded once, with the sign, the overflow result and the flags
OF, UF and NX that go with it. `z` says when an exact zero is negative. For an FP that keeps no operation abstract (log
entry 31). -/
def Obligations.ArithmeticIsCorrectlyRounded : Prop :=
  ∀ (P : FpRecord) (F G : Fmt) (rm : Rounding) (e f a b c x : Nat) (v : Int) (o : Nat × BitVec 5) (q : ℝ) (z : Prop)
    (np na : Bool), P.uninterpreted = [] →
    (F = .single P ∧ G = .double P ∨ F = .double P ∧ G = .single P) → e = F.ebits → f = F.fbits →
    IsFinite e f a → IsFinite e f b → IsFinite e f c → IsFinite G.ebits G.fbits x →
    ((o = fAdd F rm false a b ∧ q = realOf e f a + realOf e f b ∧
        (z ↔ if DatumIsZero e f a ∧ DatumIsZero e f b ∧ negativeOf e f a = negativeOf e f b then
          DatumIsNegative e f a else rm = .rdn)) ∨
     (o = fAdd F rm true a b ∧ q = realOf e f a - realOf e f b ∧
        (z ↔ if DatumIsZero e f a ∧ DatumIsZero e f b ∧ negativeOf e f a ≠ negativeOf e f b then
          DatumIsNegative e f a else rm = .rdn)) ∨
     (o = fMul F rm a b ∧ q = realOf e f a * realOf e f b ∧ (z ↔ negativeOf e f a ≠ negativeOf e f b)) ∨
     (o = fDiv F rm a b ∧ ¬DatumIsZero e f b ∧ q = realOf e f a / realOf e f b ∧
        (z ↔ negativeOf e f a ≠ negativeOf e f b)) ∨
     (o = fSqrt F rm a ∧ 0 ≤ realOf e f a ∧ q = Real.sqrt (realOf e f a) ∧ (z ↔ DatumIsNegative e f a)) ∨
     (o = fFma F rm np na a b c ∧
        q = (if np then -1 else 1) * (realOf e f a * realOf e f b) + (if na then -1 else 1) * realOf e f c ∧
        (z ↔ if (DatumIsZero e f a ∨ DatumIsZero e f b) ∧ DatumIsZero e f c ∧
            ((negativeOf e f a ^^ negativeOf e f b) ^^ np) = (negativeOf e f c ^^ na) then
          (negativeOf e f c ^^ na) = true else rm = .rdn)) ∨
     (o = fOfInt F rm v ∧ -2 ^ 63 ≤ v ∧ v < 2 ^ 64 ∧ q = v ∧ (z ↔ False)) ∨
     (o = fConvert G F rm x ∧ q = realOf G.ebits G.fbits x ∧ (z ↔ DatumIsNegative G.ebits G.fbits x))) →
    RoundedResult F rm q z o

/-- 46_float_single.md R354: a NaN and the infinities saturate with NV; a finite datum is rounded to an integer in the mode,
which saturates with NV when it is outside [lo, hi] and is else the result, NX saying whether it is inexact. For an FP that
does not keep these conversions abstract (log entry 31). -/
def Obligations.FloatToIntegerRoundsOrSaturates : Prop :=
  ∀ (P : FpRecord) (F : Fmt) (rm : Rounding) (lo hi : Int) (e f a : Nat),
    FloatOp.toInteger ∉ P.uninterpreted → (F = .single P ∨ F = .double P) → e = F.ebits → f = F.fbits →
    a < 2 ^ (1 + e + f) → lo ≤ hi →
    (DatumIsNaN e f a → fToInt F rm lo hi a = (hi, 0x10#5)) ∧
    (DatumIsInfinite e f a → fToInt F rm lo hi a = (if DatumIsNegative e f a then lo else hi, 0x10#5)) ∧
    (IsFinite e f a → ∃ n, IsIntegerRounding rm (realOf e f a) n ∧
      (hi < n → fToInt F rm lo hi a = (hi, 0x10#5)) ∧
      (n < lo → fToInt F rm lo hi a = (lo, 0x10#5)) ∧
      (lo ≤ n → n ≤ hi → fToInt F rm lo hi a = (n, if (n : ℚ) = realOf e f a then 0#5 else 0x01#5)))

/-- 46_float_single.md R352 (a) to (c), R353: with the default of FP.nan, and no operation kept abstract (log entry 31), a
NaN operand gives the canonical NaN, with NV when one is signaling; the invalid operations give it with NV; a finite nonzero
number divided by zero gives infinity with DZ; an operation on infinities that is not invalid is exact. `s` says whether the
signs of a and b differ, `p` and `q` are the signs of the product and the addend of a fused operation. -/
def Obligations.NaNsAndInvalidOperations : Prop :=
  ∀ (P : FpRecord) (F G : Fmt) (e f nan other : Nat) (rm : Rounding) (sub np na s p q : Bool) (a b c : Nat),
    P.nan = .canonical → P.uninterpreted = [] →
    (F = .single P ∧ G = .double P ∧ e = 8 ∧ f = 23 ∧ nan = 0x7FC00000 ∧ other = 0x7FF8000000000000) ∨
      (F = .double P ∧ G = .single P ∧ e = 11 ∧ f = 52 ∧ nan = 0x7FF8000000000000 ∧ other = 0x7FC00000) →
    a < 2 ^ (1 + e + f) → b < 2 ^ (1 + e + f) → c < 2 ^ (1 + e + f) →
    s = (negativeOf e f a ^^ negativeOf e f b) → p = (s ^^ np) → q = (negativeOf e f c ^^ na) →
    -- NaN operands
    (DatumIsNaN e f a ∨ DatumIsNaN e f b →
      fAdd F rm sub a b = (nan, if DatumIsSignaling e f a ∨ DatumIsSignaling e f b then 0x10#5 else 0#5) ∧
      fMul F rm a b = (nan, if DatumIsSignaling e f a ∨ DatumIsSignaling e f b then 0x10#5 else 0#5) ∧
      fDiv F rm a b = (nan, if DatumIsSignaling e f a ∨ DatumIsSignaling e f b then 0x10#5 else 0#5)) ∧
    (DatumIsNaN e f a → fSqrt F rm a = (nan, if DatumIsSignaling e f a then 0x10#5 else 0#5) ∧
      fConvert F G rm a = (other, if DatumIsSignaling e f a then 0x10#5 else 0#5)) ∧
    -- infinity times zero, whatever the addend
    ((DatumIsInfinite e f a ∧ DatumIsZero e f b) ∨ (DatumIsZero e f a ∧ DatumIsInfinite e f b) →
      fMul F rm a b = (nan, 0x10#5) ∧ fFma F rm np na a b c = (nan, 0x10#5)) ∧
    -- fused operations
    (¬((DatumIsInfinite e f a ∧ DatumIsZero e f b) ∨ (DatumIsZero e f a ∧ DatumIsInfinite e f b)) →
      (DatumIsNaN e f a ∨ DatumIsNaN e f b ∨ DatumIsNaN e f c → fFma F rm np na a b c =
        (nan, if DatumIsSignaling e f a ∨ DatumIsSignaling e f b ∨ DatumIsSignaling e f c then 0x10#5 else 0#5)) ∧
      (¬DatumIsNaN e f a → ¬DatumIsNaN e f b → ¬DatumIsNaN e f c →
        (DatumIsInfinite e f a ∨ DatumIsInfinite e f b → fFma F rm np na a b c =
          if DatumIsInfinite e f c ∧ p ≠ q then (nan, 0x10#5) else (datum e f p (infinityOf e f), 0#5)) ∧
        (¬DatumIsInfinite e f a → ¬DatumIsInfinite e f b → DatumIsInfinite e f c →
          fFma F rm np na a b c = (datum e f q (infinityOf e f), 0#5)))) ∧
    -- infinities
    (DatumIsInfinite e f a →
      (DatumIsInfinite e f b → fDiv F rm a b = (nan, 0x10#5) ∧
        fAdd F rm sub a b = if (s ^^ sub) = true then (nan, 0x10#5) else (a, 0#5)) ∧
      (IsFinite e f b → fAdd F rm sub a b = (a, 0#5) ∧ fDiv F rm a b = (datum e f s (infinityOf e f), 0#5)) ∧
      (¬DatumIsNaN e f b → ¬DatumIsZero e f b → fMul F rm a b = (datum e f s (infinityOf e f), 0#5)) ∧
      (¬DatumIsNegative e f a → fSqrt F rm a = (a, 0#5)) ∧
      fConvert F G rm a = (datum G.ebits G.fbits (negativeOf e f a) (infinityOf G.ebits G.fbits), 0#5)) ∧
    (DatumIsInfinite e f b → IsFinite e f a →
      fAdd F rm sub a b = (datum e f (negativeOf e f b ^^ sub) (infinityOf e f), 0#5) ∧
      fDiv F rm a b = (datum e f s 0, 0#5) ∧
      (¬DatumIsZero e f a → fMul F rm a b = (datum e f s (infinityOf e f), 0#5))) ∧
    -- division by zero, square roots of negative numbers
    (DatumIsZero e f b →
      (DatumIsZero e f a → fDiv F rm a b = (nan, 0x10#5)) ∧
      (¬DatumIsZero e f a → IsFinite e f a → fDiv F rm a b = (datum e f s (infinityOf e f), 0x08#5))) ∧
    (DatumIsNegative e f a → ¬DatumIsZero e f a → ¬DatumIsNaN e f a → fSqrt F rm a = (nan, 0x10#5))

/-- 46_float_single.md R355, R367 to R369; 47_float_double.md R414, R416, R417. A comparison that FP keeps abstract (log entry
31) completes with 0 or 1 and some flags. -/
def Obligations.FloatComparisonsOrderData : Prop :=
  ∀ (s : State) (rd rs1 rs2 : Reg) (e f a b : Nat) (feq flt fle : Instr), FloatOn s →
    (e = 8 ∧ f = 23 ∧ a = s.us rs1 ∧ b = s.us rs2 ∧ feq = .feqS rd rs1 rs2 ∧ flt = .fltS rd rs1 rs2 ∧
        fle = .fleS rd rs1 rs2) ∨
      (e = 11 ∧ f = 52 ∧ s.cfg.extD = true ∧ a = s.uf rs1 ∧ b = s.uf rs2 ∧ feq = .feqD rd rs1 rs2 ∧
        flt = .fltD rd rs1 rs2 ∧ fle = .fleD rd rs1 rs2) →
    (FloatOp.eq ∉ s.cfg.fp.uninterpreted → SetsXWithFlags (exec feq s) s rd
      (if ¬DatumIsNaN e f a ∧ ¬DatumIsNaN e f b ∧ orderKey e f a = orderKey e f b then 1 else 0)
      (if DatumIsSignaling e f a ∨ DatumIsSignaling e f b then 0x10 else 0)) ∧
    (FloatOp.lt ∉ s.cfg.fp.uninterpreted → SetsXWithFlags (exec flt s) s rd
      (if ¬DatumIsNaN e f a ∧ ¬DatumIsNaN e f b ∧ orderKey e f a < orderKey e f b then 1 else 0)
      (if DatumIsNaN e f a ∨ DatumIsNaN e f b then 0x10 else 0)) ∧
    (FloatOp.le ∉ s.cfg.fp.uninterpreted → SetsXWithFlags (exec fle s) s rd
      (if ¬DatumIsNaN e f a ∧ ¬DatumIsNaN e f b ∧ orderKey e f a ≤ orderKey e f b then 1 else 0)
      (if DatumIsNaN e f a ∨ DatumIsNaN e f b then 0x10 else 0)) ∧
    (∀ i ∈ [feq, flt, fle], ∃ v raised, v ≤ 1 ∧ SetsXWithFlags (exec i s) s rd v raised)

/-- 46_float_single.md R355, R372, R373, R380 to R382; 47_float_double.md R419, R420, R428 to R430. Which operand `fmin` and
`fmax` copy is said for the default of FP; their flags for every FP that does not keep them abstract (log entry 31). -/
def Obligations.MinMaxAndSignInjection : Prop :=
  ∀ (s : State) (rd rs1 rs2 : Reg) (e f nan a b : Nat) (box : Nat → Nat) (fmin fmax fsgnj fsgnjn fsgnjx : Instr),
    FloatOn s →
    (e = 8 ∧ f = 23 ∧ nan = 0x7FC00000 ∧ a = s.us rs1 ∧ b = s.us rs2 ∧ box = boxedSingle s.cfg ∧
        fmin = .fminS rd rs1 rs2 ∧ fmax = .fmaxS rd rs1 rs2 ∧ fsgnj = .fsgnjS rd rs1 rs2 ∧
        fsgnjn = .fsgnjnS rd rs1 rs2 ∧ fsgnjx = .fsgnjxS rd rs1 rs2) ∨
      (e = 11 ∧ f = 52 ∧ nan = 0x7FF8000000000000 ∧ s.cfg.extD = true ∧ a = s.uf rs1 ∧ b = s.uf rs2 ∧ box = id ∧
        fmin = .fminD rd rs1 rs2 ∧ fmax = .fmaxD rd rs1 rs2 ∧ fsgnj = .fsgnjD rd rs1 rs2 ∧
        fsgnjn = .fsgnjnD rd rs1 rs2 ∧ fsgnjx = .fsgnjxD rd rs1 rs2) →
    (∃ v raised, SetsF (exec fmin s) s 4 rd v raised ∧
      (FloatOp.min ∉ s.cfg.fp.uninterpreted →
        raised = if DatumIsSignaling e f a ∨ DatumIsSignaling e f b then 0x10 else 0)) ∧
    (∃ v raised, SetsF (exec fmax s) s 4 rd v raised ∧
      (FloatOp.max ∉ s.cfg.fp.uninterpreted →
        raised = if DatumIsSignaling e f a ∨ DatumIsSignaling e f b then 0x10 else 0)) ∧
    (s.cfg.fp = .standard → SetsF (exec fmin s) s 4 rd
      (box (if DatumIsNaN e f a then (if DatumIsNaN e f b then nan else b) else if DatumIsNaN e f b then a
        else if orderKey e f a < orderKey e f b ∨ (orderKey e f a = orderKey e f b ∧ 2 ^ (e + f) ≤ a) then a else b))
      (if DatumIsSignaling e f a ∨ DatumIsSignaling e f b then 0x10 else 0) ∧
      SetsF (exec fmax s) s 4 rd
      (box (if DatumIsNaN e f a then (if DatumIsNaN e f b then nan else b) else if DatumIsNaN e f b then a
        else if orderKey e f a < orderKey e f b ∨ (orderKey e f a = orderKey e f b ∧ 2 ^ (e + f) ≤ a) then b else a))
      (if DatumIsSignaling e f a ∨ DatumIsSignaling e f b then 0x10 else 0)) ∧
    SetsF (exec fsgnj s) s 4 rd (box (a % 2 ^ (e + f) + b / 2 ^ (e + f) * 2 ^ (e + f))) 0 ∧
    SetsF (exec fsgnjn s) s 4 rd (box (a % 2 ^ (e + f) + (1 - b / 2 ^ (e + f)) * 2 ^ (e + f))) 0 ∧
    SetsF (exec fsgnjx s) s 4 rd
      (box (a % 2 ^ (e + f) + (a / 2 ^ (e + f) + b / 2 ^ (e + f)) % 2 * 2 ^ (e + f))) 0

/-- 46_float_single.md R357, R376, R377; 47_float_double.md R402, R423, R424: moves copy bits, classes are one bit. -/
def Obligations.FloatMovesAndClasses : Prop :=
  ∀ (s : State) (rd rs1 : Reg), FloatOn s →
    SetsX (exec (.fclassS rd rs1) s) s 4 rd (2 ^ classOf 8 23 (s.us rs1)) ∧
    SetsX (exec (.fmvXW rd rs1) s) s 4 rd (modBits s.xlen (signedOf 32 (s.uf rs1 % 2 ^ 32))) ∧
    SetsF (exec (.fmvWX rd rs1) s) s 4 rd (boxedSingle s.cfg (s.ux rs1)) 0 ∧
    (s.cfg.extD = true →
      SetsX (exec (.fclassD rd rs1) s) s 4 rd (2 ^ classOf 11 52 (s.uf rs1)) ∧
      (s.cfg.xlen = .rv64 →
        SetsX (exec (.fmvXD rd rs1) s) s 4 rd (s.uf rs1) ∧ SetsF (exec (.fmvDX rd rs1) s) s 4 rd (s.ux rs1) 0))

/-- 46_float_single.md R370, R385; 47_float_double.md R415, R427; 48_compressed.md R464 to R471;
20_memory.md R101. As for the integer loads and stores, the record of the accesses made to devices, in program order (log
entries 8, 37), the record of what fetches may still see (log entry 12) and the free order of emulated bytes (log entry 15)
are the model's; so is it that the record shows an aligned `fld` or `fsd` of a device on RV32, compressed forms included, as
one access of 8 bytes (log entry 39). -/
def Obligations.FloatLoadsAndStores : Prop :=
  ∀ (s : State) (r b : Reg) (cr cb : CReg) (off : BitVec 12) (u5 : BitVec 5) (u6 : BitVec 6),
    Memory.wf s.mem = true → FloatOn s →
    (∀ a, a = s.effective b off.toInt →
      FloatLoadMeets (exec (.flw r b off) s) s 4 r a 4 (boxedSingle s.cfg (s.littleEndian a 4)) ∧
      StoreMeets (exec (.fsw r b off) s) s 4 a 4 (s.uf r) ∧
      (s.cfg.extD = true →
        FloatLoadMeets (exec (.fld r b off) s) s 4 r a 8 (s.littleEndian a 8) ∧
        StoreMeets (exec (.fsd r b off) s) s 4 a 8 (s.uf r))) ∧
    (∀ a, a = s.effective (shortReg cb) (4 * u5.toNat) →
      FloatLoadMeets (exec (.cFlw cr cb u5) s) s 2 (shortReg cr) a 4 (boxedSingle s.cfg (s.littleEndian a 4)) ∧
      StoreMeets (exec (.cFsw cr cb u5) s) s 2 a 4 (s.uf (shortReg cr))) ∧
    (∀ a, a = s.effective 2 (4 * u6.toNat) →
      FloatLoadMeets (exec (.cFlwsp r u6) s) s 2 r a 4 (boxedSingle s.cfg (s.littleEndian a 4)) ∧
      StoreMeets (exec (.cFswsp r u6) s) s 2 a 4 (s.uf r)) ∧
    (s.cfg.extD = true → ∀ a, a = s.effective (shortReg cb) (8 * u5.toNat) →
      FloatLoadMeets (exec (.cFld cr cb u5) s) s 2 (shortReg cr) a 8 (s.littleEndian a 8) ∧
      StoreMeets (exec (.cFsd cr cb u5) s) s 2 a 8 (s.uf (shortReg cr))) ∧
    (s.cfg.extD = true → ∀ a, a = s.effective 2 (8 * u6.toNat) →
      FloatLoadMeets (exec (.cFldsp r u6) s) s 2 r a 8 (s.littleEndian a 8) ∧
      StoreMeets (exec (.cFsdsp r u6) s) s 2 a 8 (s.uf r))

/-- 46_float_single.md R350 (f), R351: an invalid rounding mode, or FS Off where it is tracked, is an illegal instruction
and nothing is read or written; FS Off also for the floating-point instructions without a rounding mode. -/
def Obligations.IllegalRoundingModesTrap : Prop :=
  ∀ (s : State) (rd rs1 rs2 rs3 : Reg) (rm : BitVec 3) (i : Instr),
    i ∈ [Instr.faddS rd rs1 rs2 rm, .fsubS rd rs1 rs2 rm, .fmulS rd rs1 rs2 rm, .fdivS rd rs1 rs2 rm, .fsqrtS rd rs1 rm,
      .fmaddS rd rs1 rs2 rs3 rm, .fmsubS rd rs1 rs2 rs3 rm, .fnmaddS rd rs1 rs2 rs3 rm, .fnmsubS rd rs1 rs2 rs3 rm,
      .fcvtWS rd rs1 rm, .fcvtWuS rd rs1 rm, .fcvtLS rd rs1 rm, .fcvtLuS rd rs1 rm, .fcvtSW rd rs1 rm,
      .fcvtSWu rd rs1 rm, .fcvtSL rd rs1 rm, .fcvtSLu rd rs1 rm, .faddD rd rs1 rs2 rm, .fsubD rd rs1 rs2 rm,
      .fmulD rd rs1 rs2 rm, .fdivD rd rs1 rs2 rm, .fsqrtD rd rs1 rm, .fmaddD rd rs1 rs2 rs3 rm,
      .fmsubD rd rs1 rs2 rs3 rm, .fnmaddD rd rs1 rs2 rs3 rm, .fnmsubD rd rs1 rs2 rs3 rm, .fcvtWD rd rs1 rm,
      .fcvtWuD rd rs1 rm, .fcvtLD rd rs1 rm, .fcvtLuD rd rs1 rm, .fcvtDW rd rs1 rm, .fcvtDWu rd rs1 rm,
      .fcvtDL rd rs1 rm, .fcvtDLu rd rs1 rm, .fcvtSD rd rs1 rm, .fcvtDS rd rs1 rm] →
    ((¬∃ r, SelectsRounding s rm r) ∨ ¬FloatOn s → exec i s = raise .illegalInstruction i.bits s) ∧
    ((∃ r, SelectsRounding s rm r) ↔ rm.toNat < 5 ∨ (rm = 7#3 ∧ s.frm.toNat < 5)) ∧
    (¬FloatOn s → ∀ (off : BitVec 12) (cr cb : CReg) (u5 : BitVec 5) (u6 : BitVec 6) (j : Instr),
      j ∈ [Instr.flw rd rs1 off, .fsw rs2 rs1 off, .fld rd rs1 off, .fsd rs2 rs1 off, .cFlw cr cb u5, .cFsw cr cb u5,
        .cFld cr cb u5, .cFsd cr cb u5, .cFlwsp rd u6, .cFswsp rs2 u6, .cFldsp rd u6, .cFsdsp rs2 u6,
        .fminS rd rs1 rs2, .fmaxS rd rs1 rs2, .fminD rd rs1 rs2, .fmaxD rd rs1 rs2, .feqS rd rs1 rs2, .fltS rd rs1 rs2,
        .fleS rd rs1 rs2, .feqD rd rs1 rs2, .fltD rd rs1 rs2, .fleD rd rs1 rs2, .fsgnjS rd rs1 rs2,
        .fsgnjnS rd rs1 rs2, .fsgnjxS rd rs1 rs2, .fsgnjD rd rs1 rs2, .fsgnjnD rd rs1 rs2, .fsgnjxD rd rs1 rs2,
        .fclassS rd rs1, .fclassD rd rs1, .fmvXW rd rs1, .fmvWX rd rs1, .fmvXD rd rs1, .fmvDX rd rs1] →
      exec j s = raise .illegalInstruction j.bits s)

/-! ## Compressed instructions -/

/-- 48_compressed.md R453 to R460, R478, R479, R482, R483, R486 to R490, R493. -/
def Obligations.CompressedComputation : Prop :=
  ∀ (s : State) (rd rs2 : Reg) (d t : CReg) (imm : BitVec 6) (u8 : BitVec 8) (x y : Nat),
    x = s.ux (shortReg d) → y = s.ux (shortReg t) →
    SetsX (exec (.cAdd rd rs2) s) s 2 rd ((s.ux rd + s.ux rs2) % 2 ^ s.xlen) ∧
    SetsX (exec (.cMv rd rs2) s) s 2 rd (s.ux rs2) ∧
    SetsX (exec (.cAddi rd imm) s) s 2 rd (modBits s.xlen (s.ux rd + imm.toInt)) ∧
    SetsX (exec (.cLi rd imm) s) s 2 rd (modBits s.xlen imm.toInt) ∧
    SetsX (exec (.cLui rd imm) s) s 2 rd (modBits s.xlen (4096 * imm.toInt)) ∧
    SetsX (exec (.cAddi16sp imm) s) s 2 2 (modBits s.xlen (s.ux 2 + 16 * imm.toInt)) ∧
    SetsX (exec (.cAddi4spn d u8) s) s 2 (shortReg d) ((s.ux 2 + 4 * u8.toNat) % 2 ^ s.xlen) ∧
    SetsX (exec (.cAnd d t) s) s 2 (shortReg d) (x &&& y) ∧
    SetsX (exec (.cOr d t) s) s 2 (shortReg d) (x ||| y) ∧
    SetsX (exec (.cXor d t) s) s 2 (shortReg d) (x ^^^ y) ∧
    SetsX (exec (.cSub d t) s) s 2 (shortReg d) (modBits s.xlen ((x : Int) - y)) ∧
    SetsX (exec (.cAndi d imm) s) s 2 (shortReg d) (x &&& modBits s.xlen imm.toInt) ∧
    (imm.toNat < s.xlen →
      SetsX (exec (.cSlli rd imm) s) s 2 rd (s.ux rd * 2 ^ imm.toNat % 2 ^ s.xlen) ∧
      SetsX (exec (.cSrli d imm) s) s 2 (shortReg d) (x / 2 ^ imm.toNat) ∧
      SetsX (exec (.cSrai d imm) s) s 2 (shortReg d) (modBits s.xlen (signedOf s.xlen x / 2 ^ imm.toNat))) ∧
    (s.cfg.xlen = .rv64 →
      SetsX (exec (.cAddiw rd imm) s) s 2 rd (wordOf (s.ux rd + imm.toInt)) ∧
      SetsX (exec (.cAddw d t) s) s 2 (shortReg d) (wordOf (x + y)) ∧
      SetsX (exec (.cSubw d t) s) s 2 (shortReg d) (wordOf ((x : Int) - y)))

/-- 48_compressed.md R476, R477, R480, R481, R484, R485, R491, R492; 20_memory.md R101. As for the integer loads and
stores, the record of the accesses made to devices, in program order (log entries 8, 37), the record of what fetches may
still see (log entry 12) and the free order of emulated bytes (log entry 15) are the model's. -/
def Obligations.CompressedLoadsAndStores : Prop :=
  ∀ (s : State) (r : Reg) (cr cb : CReg) (u5 : BitVec 5) (u6 : BitVec 6), Memory.wf s.mem = true →
    (∀ a, a = s.effective (shortReg cb) (4 * u5.toNat) →
      LoadMeets (exec (.cLw cr cb u5) s) s 2 (shortReg cr) a 4 (modBits s.xlen (signedOf 32 (s.littleEndian a 4))) ∧
      StoreMeets (exec (.cSw cr cb u5) s) s 2 a 4 (s.ux (shortReg cr))) ∧
    (∀ a, a = s.effective 2 (4 * u6.toNat) →
      LoadMeets (exec (.cLwsp r u6) s) s 2 r a 4 (modBits s.xlen (signedOf 32 (s.littleEndian a 4))) ∧
      StoreMeets (exec (.cSwsp r u6) s) s 2 a 4 (s.ux r)) ∧
    (s.cfg.xlen = .rv64 → ∀ a, a = s.effective (shortReg cb) (8 * u5.toNat) →
      LoadMeets (exec (.cLd cr cb u5) s) s 2 (shortReg cr) a 8 (s.littleEndian a 8) ∧
      StoreMeets (exec (.cSd cr cb u5) s) s 2 a 8 (s.ux (shortReg cr))) ∧
    (s.cfg.xlen = .rv64 → ∀ a, a = s.effective 2 (8 * u6.toNat) →
      LoadMeets (exec (.cLdsp r u6) s) s 2 r a 8 (s.littleEndian a 8) ∧
      StoreMeets (exec (.cSdsp r u6) s) s 2 a 8 (s.ux r))

/-- 48_compressed.md R461, R462, R472 to R475: links are pc + 2. -/
def Obligations.CompressedControlTransfer : Prop :=
  ∀ (s : State) (rs1 : Reg) (r : CReg) (off : BitVec 8) (joff : BitVec 11),
    BranchMeets (exec (.cBeqz r off) s) s 2 (s.ux (shortReg r) = 0) (modBits s.xlen (s.pc.toNat + 2 * off.toInt)) ∧
    BranchMeets (exec (.cBnez r off) s) s 2 (s.ux (shortReg r) ≠ 0) (modBits s.xlen (s.pc.toNat + 2 * off.toInt)) ∧
    JumpMeets (exec (.cJ joff) s) s 2 0 (modBits s.xlen (s.pc.toNat + 2 * joff.toInt)) ∧
    JumpMeets (exec (.cJal joff) s) s 2 1 (modBits s.xlen (s.pc.toNat + 2 * joff.toInt)) ∧
    JumpMeets (exec (.cJr rs1) s) s 2 0 (s.ux rs1 / 2 * 2) ∧
    JumpMeets (exec (.cJalr rs1) s) s 2 1 (s.ux rs1 / 2 * 2)

/-! ## Pseudoinstructions -/

/-- 49_pseudoinstructions.md R521 to R526, R538 to R542, R550 to R554. -/
def Obligations.PseudoComputation : Prop :=
  ∀ (s : State) (rd rs : Reg),
    SetsX (exec .nop s) s 4 0 0 ∧
    SetsX (exec (.mv rd rs) s) s 4 rd (s.ux rs) ∧
    SetsX (exec (.not rd rs) s) s 4 rd (2 ^ s.xlen - 1 - s.ux rs) ∧
    SetsX (exec (.neg rd rs) s) s 4 rd (modBits s.xlen (-(s.ux rs : Int))) ∧
    SetsX (exec (.seqz rd rs) s) s 4 rd (if s.ux rs = 0 then 1 else 0) ∧
    SetsX (exec (.snez rd rs) s) s 4 rd (if s.ux rs ≠ 0 then 1 else 0) ∧
    SetsX (exec (.sltz rd rs) s) s 4 rd (if s.sx rs < 0 then 1 else 0) ∧
    SetsX (exec (.sgtz rd rs) s) s 4 rd (if 0 < s.sx rs then 1 else 0) ∧
    (s.cfg.xlen = .rv64 →
      SetsX (exec (.sextW rd rs) s) s 4 rd (wordOf (s.ux rs)) ∧
      SetsX (exec (.negw rd rs) s) s 4 rd (wordOf (-(s.ux rs : Int)))) ∧
    (FloatOn s →
      SetsF (exec (.fmvS rd rs) s) s 4 rd (boxedSingle s.cfg (s.us rs)) 0 ∧
      SetsF (exec (.fabsS rd rs) s) s 4 rd (boxedSingle s.cfg (s.us rs % 2 ^ 31)) 0 ∧
      SetsF (exec (.fnegS rd rs) s) s 4 rd (boxedSingle s.cfg ((s.us rs + 2 ^ 31) % 2 ^ 32)) 0 ∧
      (s.cfg.extD = true →
        SetsF (exec (.fmvD rd rs) s) s 4 rd (s.uf rs) 0 ∧
        SetsF (exec (.fabsD rd rs) s) s 4 rd (s.uf rs % 2 ^ 63) 0 ∧
        SetsF (exec (.fnegD rd rs) s) s 4 rd ((s.uf rs + 2 ^ 63) % 2 ^ 64) 0))

/-- 49_pseudoinstructions.md R502, R536: the expansion of `li` leaves the immediate in x[rd], whatever it is. That exec runs
the whole sequence, and that the sequence is R502's, on which k and the pc depend, is the model's choice (log entries 21
and 29). -/
def Obligations.LoadImmediateLoadsTheImmediate : Prop :=
  ∀ (s : State) (rd : Reg) (imm : Word) (k : Nat), k = (liOps s.cfg.xlen imm).length →
    1 ≤ k ∧ k ≤ 8 ∧ Arrives (exec (.li rd imm) s) s k ((s.pc.toNat + 4 * k) % 2 ^ s.xlen) rd (imm.toNat % 2 ^ s.xlen)

/-- 49_pseudoinstructions.md R501, R535, R537: for an offset d within the reach of the pair the address is pc + d; in
position independent code the word at that address is loaded, or the exceptions of a load raised (20_memory.md R85, R87).
With rd = x0 the high part is discarded. That exec runs the pair in one answer, two instructions retired, and answers the
state at the handler when the second traps is the model's choice (log entry 21); so is the record of the reads of devices
that an emulated load makes before it faults, in program order (log entries 8, 37), and the free order of its bytes (log
entry 15). -/
def Obligations.LoadAddressReachesTheSymbol : Prop :=
  ∀ (s : State) (rd : Reg) (delta : BitVec 32) (d : Int) (a n : Nat), PairReaches s delta d →
    a = (if rd = 0 then modBits s.xlen (offsetLo delta).toInt else modBits s.xlen (s.pc.toNat + d)) →
    n = s.xlen / 8 →
    Arrives (exec (.lla rd delta) s) s 2 ((s.pc.toNat + 8) % 2 ^ s.xlen) rd a ∧
    Arrives (exec (.la rd false delta) s) s 2 ((s.pc.toNat + 8) % 2 ^ s.xlen) rd a ∧
    (AlignmentOk s a n → BytesOk s .load a n → MainMemory s a n →
      Arrives (exec (.la rd true delta) s) s 2 ((s.pc.toNat + 8) % 2 ^ s.xlen) rd (s.littleEndian a n)) ∧
    (∃ t, SetsX (.next t) s 4 rd (modBits s.xlen (s.pc.toNat + 4096 * (offsetHi delta).toInt)) ∧
      LoadTraps (exec (.la rd true delta) s) t a n)

/-- 49_pseudoinstructions.md R503 to R513, R533, R534, R549, R555, and R501 for the offsets `call` and `tail` reach. That
exec runs the `auipc` and the `jalr` of `call` and `tail` in one answer, and answers the state at the handler when the
`jalr` traps for a misaligned target (20_memory.md R86), is the model's choice (log entry 21). -/
def Obligations.PseudoControlTransfer : Prop :=
  ∀ (s : State) (rd rs rt : Reg) (off : BitVec 12) (joff : BitVec 20) (delta : BitVec 32) (d : Int) (target : Nat),
    target = modBits s.xlen (s.pc.toNat + 2 * off.toInt) →
    BranchMeets (exec (.beqz rs off) s) s 4 (s.ux rs = 0) target ∧
    BranchMeets (exec (.bnez rs off) s) s 4 (s.ux rs ≠ 0) target ∧
    BranchMeets (exec (.blez rs off) s) s 4 (s.sx rs ≤ 0) target ∧
    BranchMeets (exec (.bgez rs off) s) s 4 (0 ≤ s.sx rs) target ∧
    BranchMeets (exec (.bltz rs off) s) s 4 (s.sx rs < 0) target ∧
    BranchMeets (exec (.bgtz rs off) s) s 4 (0 < s.sx rs) target ∧
    BranchMeets (exec (.bgt rs rt off) s) s 4 (s.sx rt < s.sx rs) target ∧
    BranchMeets (exec (.ble rs rt off) s) s 4 (s.sx rs ≤ s.sx rt) target ∧
    BranchMeets (exec (.bgtu rs rt off) s) s 4 (s.ux rt < s.ux rs) target ∧
    BranchMeets (exec (.bleu rs rt off) s) s 4 (s.ux rs ≤ s.ux rt) target ∧
    JumpMeets (exec (.j joff) s) s 4 0 (modBits s.xlen (s.pc.toNat + 2 * joff.toInt)) ∧
    JumpMeets (exec (.jr rs) s) s 4 0 (s.ux rs / 2 * 2) ∧
    JumpMeets (exec .ret s) s 4 0 (s.ux 1 / 2 * 2) ∧
    (PairReaches s delta d → ∀ high, high = modBits s.xlen (s.pc.toNat + 4096 * (offsetHi delta).toInt) →
      (∀ a, a = (if rd = 0 then modBits s.xlen (offsetLo delta).toInt else modBits s.xlen (s.pc.toNat + d)) / 2 * 2 →
        (a % s.ialign = 0 → Arrives (exec (.call rd delta) s) s 2 a rd ((s.pc.toNat + 8) % 2 ^ s.xlen)) ∧
        (a % s.ialign ≠ 0 → ∃ t, SetsX (.next t) s 4 rd high ∧
          exec (.call rd delta) s = raise .instructionAddressMisaligned (BitVec.ofNat 64 a) t)) ∧
      (∀ a, a = modBits s.xlen (s.pc.toNat + d) / 2 * 2 →
        (a % s.ialign = 0 → Arrives (exec (.tail delta) s) s 2 a 6 high) ∧
        (a % s.ialign ≠ 0 → ∃ t, SetsX (.next t) s 4 6 high ∧
          exec (.tail delta) s = raise .instructionAddressMisaligned (BitVec.ofNat 64 a) t)))

/-- 49_pseudoinstructions.md R514 to R520, R527 to R532, R543 to R548, with R281 of 43_system_csr_fence.md. As for the six
CSR instructions, three clauses at `CsrCompletes` are the model's choice: a write of `minstreth` is not followed by the
instruction's own increment (log entry 34), `csrs` and `csrc` and their immediate forms modify the value of `mip` with the
SEIP line in it (log entry 24), and the write forms with rd = x0 perform no read (log entry 27). -/
def Obligations.PseudoCsrAccess : Prop :=
  ∀ (s : State) (rd rs : Reg) (n : BitVec 12) (zimm : BitVec 5),
    CsrMeets (.csrr rd n) s rd n true false id ∧
    CsrMeets (.csrw n rs) s 0 n false true (fun _ => s.readX rs) ∧
    CsrMeets (.csrs n rs) s 0 n true (decide (rs ≠ 0)) (fun t => t ||| s.readX rs) ∧
    CsrMeets (.csrc n rs) s 0 n true (decide (rs ≠ 0)) (fun t => t &&& ~~~(s.readX rs)) ∧
    CsrMeets (.csrwi n zimm) s 0 n false true (fun _ => zimm.setWidth 64) ∧
    CsrMeets (.csrsi n zimm) s 0 n true (decide (zimm ≠ 0)) (fun t => t ||| zimm.setWidth 64) ∧
    CsrMeets (.csrci n zimm) s 0 n true (decide (zimm ≠ 0)) (fun t => t &&& ~~~(zimm.setWidth 64)) ∧
    CsrMeets (.frcsr rd) s rd 0x003#12 true false id ∧
    CsrMeets (.frflags rd) s rd 0x001#12 true false id ∧
    CsrMeets (.frrm rd) s rd 0x002#12 true false id ∧
    CsrMeets (.fscsr rd rs) s rd 0x003#12 (decide (rd ≠ 0)) true (fun _ => s.readX rs) ∧
    CsrMeets (.fsflags rd rs) s rd 0x001#12 (decide (rd ≠ 0)) true (fun _ => s.readX rs) ∧
    CsrMeets (.fsrm rd rs) s rd 0x002#12 (decide (rd ≠ 0)) true (fun _ => s.readX rs) ∧
    CsrMeets (.rdcycle rd) s rd 0xC00#12 true false id ∧
    CsrMeets (.rdtime rd) s rd 0xC01#12 true false id ∧
    CsrMeets (.rdinstret rd) s rd 0xC02#12 true false id ∧
    CsrMeets (.rdcycleh rd) s rd 0xC80#12 true false id ∧
    CsrMeets (.rdtimeh rd) s rd 0xC81#12 true false id ∧
    CsrMeets (.rdinstreth rd) s rd 0xC82#12 true false id

/-! ## The whole machine -/

/-- The reset state of every configuration R8 allows meets the invariant, and resetting a machine keeps it. -/
def Obligations.InvariantHoldsAtReset : Prop :=
  Inv State.reset ∧
  (∀ c : Config, Config.wf c = true → Inv (State.resetWith c)) ∧
  ∀ s : State, Inv s → Inv s.afterReset

/-- Every step of every state keeps the invariant (10_state.md R35, R47, R55, R56, R61, R63; 20_memory.md R86). -/
def Obligations.StepKeepsInvariant : Prop := ∀ s t : State, Inv s → step s = .next t → Inv t ∧ t.cfg = s.cfg

/-- 60_exceptions.md R641, R642; 43_system_csr_fence.md R282: a step in user mode changes no machine or supervisor control
register but those a trap entry writes, and leaves user mode only by a trap entry, made from a state with every register of
the one before. -/
def Obligations.UserModeIsConfined : Prop :=
  ∀ s t : State, s.priv = .user → step s = .next t →
    (t.mtvec = s.mtvec ∧ t.stvec = s.stvec ∧ t.medeleg = s.medeleg ∧ t.mideleg = s.mideleg ∧ t.mie = s.mie ∧
      t.mipSoft = s.mipSoft ∧ t.mscratch = s.mscratch ∧ t.sscratch = s.sscratch ∧ t.mcounteren = s.mcounteren ∧
      t.scounteren = s.scounteren ∧ t.cfg = s.cfg) ∧
    ((t.priv = .user ∧ t.mepc = s.mepc ∧ t.mcause = s.mcause ∧ t.mtval = s.mtval ∧ t.sepc = s.sepc ∧
        t.scause = s.scause ∧ t.stval = s.stval ∧ t.mstatus = { s.mstatus with fs := t.mstatus.fs }) ∨
     (∃ (u : State) (c : Cause) (info : Word), t = u.takeTrap c info ∧ SameHart s u))

/-- 60_exceptions.md R641: only `mret`, `sret` and trap entry change the privilege mode; a trap entry is made from a state
with every register of the one before. -/
def Obligations.OnlyTrapsAndReturnsChangeMode : Prop :=
  ∀ (s t : State), step s = .next t → t.priv ≠ s.priv →
    (∃ (u : State) (c : Cause) (info : Word), t = u.takeTrap c info ∧ SameHart s u) ∨
    (∃ p u, s.sample.fetch = .done p u ∧
      (decode s.cfg p = some .mret ∧ s.priv = .machine ∧ t.priv = s.mstatus.mpp ∨
       decode s.cfg p = some .sret ∧ s.priv ≠ .user ∧ t.priv = (if s.mstatus.spp then .supervisor else .user)))
end

