-- ==== Sys2Proof/Laws/Memory.lean ====
section
/-! SUPPORT. The laws of memory: a byte reads as last written, other bytes are left alone, and every operation keeps the
canonical form. -/

namespace Sys2Proof.Machine

open Sys2Proof

theorem Memory.read_cons (a : Nat) (v : Byte) (t : List Host.Cell) (b : Nat) (ht : Memory.read t a = unwritten) :
    Memory.read (Memory.cons a v t) b = if b = a then v else Memory.read t b := by
  unfold Memory.cons
  split
  · next h => split <;> simp_all
  · rfl

/-- Every address below the first entry reads as unwritten. -/
theorem Memory.read_of_lt : ∀ (t : List Host.Cell) (a : Nat), t.all (fun c => a < c.1) = true →
    Memory.read t a = unwritten
  | [], _, _ => rfl
  | (b, _) :: t, a, h => by
    simp only [List.all_cons, Bool.and_eq_true, decide_eq_true_eq] at h
    rw [Memory.read, if_neg (by omega)]
    exact Memory.read_of_lt t a h.2

theorem Memory.all_lt_of_lt {t : List Host.Cell} {a b : Nat} (h : a < b) (ht : t.all (fun c => b < c.1) = true) :
    t.all (fun c => a < c.1) = true := by
  simp only [List.all_eq_true, decide_eq_true_eq] at *
  exact fun c hc => h.trans (ht c hc)

theorem Memory.wf_cons_iff (a : Nat) (v : Byte) (t : List Host.Cell) : Memory.wf ((a, v) :: t) = true ↔
    v ≠ unwritten ∧ t.all (fun c => a < c.1) = true ∧ Memory.wf t = true := by
  simp [Memory.wf, and_assoc]

/-- The read after write law. -/
theorem Memory.read_write : ∀ (m : List Host.Cell) (a b : Nat) (v : Byte), Memory.wf m = true →
    Memory.read (Memory.write m a v) b = if b = a then v else Memory.read m b
  | [], a, b, v, _ => by rw [Memory.write, Memory.read_cons _ _ _ _ rfl]
  | (c, w) :: t, a, b, v, h => by
    obtain ⟨_, hlt, ht⟩ := (Memory.wf_cons_iff c w t).mp h
    have hc : Memory.read t c = unwritten := Memory.read_of_lt t c hlt
    unfold Memory.write
    split
    · next hac =>
      exact Memory.read_cons _ _ _ _ (by
        rw [Memory.read, if_neg (by omega)]
        exact Memory.read_of_lt t a (Memory.all_lt_of_lt hac hlt))
    · split
      · next _ hac =>
        subst hac
        rw [Memory.read_cons _ _ _ _ hc]
        split
        · rfl
        · next hb => rw [Memory.read, if_neg hb]
      · rw [Memory.read, Memory.read, Memory.read_write t a b v ht]
        split
        · next hb => rw [if_neg (by omega)]
        · rfl

theorem Memory.all_lt_write (x : Nat) : ∀ (m : List Host.Cell) (a : Nat) (v : Byte), x < a →
    m.all (fun c => x < c.1) = true → (Memory.write m a v).all (fun c => x < c.1) = true
  | [], a, v, hx, _ => by
    unfold Memory.write Memory.cons
    split <;> simp [hx]
  | (b, w) :: t, a, v, hx, h => by
    have ht : t.all (fun c => x < c.1) = true := by
      simp only [List.all_cons, Bool.and_eq_true] at h
      exact h.2
    unfold Memory.write Memory.cons
    split
    · split
      · exact h
      · simp only [List.all_cons, Bool.and_eq_true, decide_eq_true_eq] at *
        exact ⟨hx, h⟩
    · split
      · split
        · exact ht
        · simp only [List.all_cons, Bool.and_eq_true, decide_eq_true_eq]
          exact ⟨hx, ht⟩
      · simp only [List.all_cons, Bool.and_eq_true, decide_eq_true_eq] at *
        exact ⟨h.1, Memory.all_lt_write x t a v hx ht⟩

/-- A write keeps the canonical form. -/
theorem Memory.wf_write : ∀ (m : List Host.Cell) (a : Nat) (v : Byte), Memory.wf m = true →
    Memory.wf (Memory.write m a v) = true
  | [], a, v, _ => by
    unfold Memory.write Memory.cons
    split <;> simp [Memory.wf, *]
  | (b, w) :: t, a, v, h => by
    obtain ⟨hw, hlt, ht⟩ := (Memory.wf_cons_iff b w t).mp h
    unfold Memory.write Memory.cons
    split
    · next hab =>
      split
      · exact h
      · next hv =>
        refine (Memory.wf_cons_iff _ _ _).mpr ⟨hv, ?_, h⟩
        simp only [List.all_cons, Bool.and_eq_true, decide_eq_true_eq]
        exact ⟨hab, Memory.all_lt_of_lt hab hlt⟩
    · split
      · next _ hab =>
        subst hab
        split
        · exact ht
        · next hv => exact (Memory.wf_cons_iff _ _ _).mpr ⟨hv, hlt, ht⟩
      · exact (Memory.wf_cons_iff _ _ _).mpr
          ⟨hw, Memory.all_lt_write b t a v (by omega) hlt, Memory.wf_write t a v ht⟩

theorem Memory.wf_writeCells : ∀ (cells m : List Host.Cell), Memory.wf m = true →
    Memory.wf (Memory.writeCells m cells) = true
  | [], _, h => h
  | c :: cs, m, h => Memory.wf_writeCells cs (Memory.write m c.1 c.2) (Memory.wf_write m c.1 c.2 h)

/-- A byte that none of the cells names is left alone. -/
theorem Memory.read_writeCells_other : ∀ (cells m : List Host.Cell) (b : Nat), Memory.wf m = true →
    (∀ c ∈ cells, c.1 ≠ b) → Memory.read (Memory.writeCells m cells) b = Memory.read m b
  | [], _, _, _, _ => rfl
  | c :: cs, m, b, h, hb => by
    have hc : b ≠ c.1 := Ne.symm (hb c (List.mem_cons_self ..))
    have := Memory.read_writeCells_other cs (Memory.write m c.1 c.2) b (Memory.wf_write m c.1 c.2 h)
      (fun d hd => hb d (List.mem_cons_of_mem _ hd))
    rw [Memory.read_write m c.1 b c.2 h, if_neg hc] at this
    exact this

/-- A byte that exactly one of the cells names reads as that cell says. -/
theorem Memory.read_writeCells_same : ∀ (cells m : List Host.Cell) (c : Host.Cell), Memory.wf m = true →
    (cells.map Prod.fst).Nodup → c ∈ cells → Memory.read (Memory.writeCells m cells) c.1 = c.2
  | d :: cs, m, c, h, hn, hc => by
    have hw := Memory.wf_write m d.1 d.2 h
    rw [List.map_cons, List.nodup_cons] at hn
    by_cases hcd : c ∈ cs
    · exact Memory.read_writeCells_same cs (Memory.write m d.1 d.2) c hw hn.2 hcd
    · have he : c = d := (List.mem_cons.mp hc).resolve_right hcd
      subst he
      have := Memory.read_writeCells_other cs (Memory.write m c.1 c.2) c.1 hw
        (fun e he h' => hn.1 (List.mem_map.mpr ⟨e, he, h'⟩))
      rw [Memory.read_write m c.1 c.1 c.2 h, if_pos rfl] at this
      exact this

/-- A byte of the cells reads as some cell with its address says. -/
theorem Memory.read_writeCells_mem : ∀ (cells m : List Host.Cell) (b : Nat), Memory.wf m = true →
    (∃ c ∈ cells, c.1 = b ∧ Memory.read (Memory.writeCells m cells) b = c.2) ∨
    Memory.read (Memory.writeCells m cells) b = Memory.read m b
  | [], _, _, _ => .inr rfl
  | d :: cs, m, b, h => by
    rcases Memory.read_writeCells_mem cs (Memory.write m d.1 d.2) b (Memory.wf_write m d.1 d.2 h) with ⟨c, hc, hb, hr⟩ | hr
    · exact .inl ⟨c, List.mem_cons_of_mem _ hc, hb, hr⟩
    · rw [Memory.read_write m d.1 b d.2 h] at hr
      by_cases hbd : b = d.1
      · rw [if_pos hbd] at hr
        exact .inl ⟨d, List.mem_cons_self .., hbd.symm, hr⟩
      · rw [if_neg hbd] at hr
        exact .inr hr

/-! ## The state's operations keep the canonical form -/

theorem State.ownStore_mem' (s : State) (l : List Nat) : (s.ownStore l).mem = s.mem := by
  unfold State.ownStore
  split <;> (try split) <;> rfl

theorem State.putCells_mem (s : State) (cells : List Host.Cell) :
    (s.putCells cells).mem = Memory.writeCells s.mem cells := rfl

theorem State.putCells_wf (s : State) (cells : List Host.Cell) (h : Memory.wf s.mem = true) :
    Memory.wf (s.putCells cells).mem = true := Memory.wf_writeCells _ _ h

/-- A store writes memory with its cells outside I/O. -/
theorem State.writeMem_mem (s : State) (a : Word) (n : Nat) (v : Word) :
    (s.writeMem a n v).mem =
      Memory.writeCells s.mem ((cellsOf s.cfg.xlen a n v).filter (fun c => !isIo s.cfg c.1)) := by
  unfold State.writeMem
  rw [State.ownStore_mem', State.putCells_mem]
  unfold State.noteWrite
  split <;> rfl

theorem State.writeMem_wf (s : State) (a : Word) (n : Nat) (v : Word) (h : Memory.wf s.mem = true) :
    Memory.wf (s.writeMem a n v).mem = true := by
  rw [State.writeMem_mem]
  exact Memory.wf_writeCells _ _ h

theorem State.storeBytes_wf (s : State) (a : Word) (n : Nat) (v : Word) (h : Memory.wf s.mem = true) :
    Memory.wf (s.storeBytes a n v).mem = true := by
  unfold State.storeBytes
  generalize s.bytesMade .store a n = l
  have key : ∀ (l : List Nat) (t : State), Memory.wf t.mem = true →
      Memory.wf (l.foldl (State.storeByte a v) t).mem = true := by
    intro l
    induction l with
    | nil => exact fun _ h => h
    | cons j l ih => exact fun t h => ih _ (State.writeMem_wf _ _ _ _ h)
  exact key l _ h

theorem State.resetWith_wf (c : Config) : Memory.wf (State.resetWith c).mem = true := rfl

theorem State.afterReset_wf (s : State) (h : Memory.wf s.mem = true) : Memory.wf s.afterReset.mem = true := h

end Sys2Proof.Machine
end

