-- ==== Sys2Proof/Laws/State.lean ====
section
/-! SUPPORT. The frame of each update of the state: one lemma per field it leaves alone, so that no proof unfolds a record
update. -/

namespace Sys2Proof.Machine

open Sys2Proof

/-- What every step of a fold keeps, the fold keeps. -/
theorem foldl_keeps {α β γ : Type} (f : α → β → α) (p : α → γ) (h : ∀ a b, p (f a b) = p a) :
    ∀ (l : List β) (a : α), p (l.foldl f a) = p a
  | [], _ => rfl
  | b :: l, a => (foldl_keeps f p h l (f a b)).trans (h a b)

@[simp] theorem State.writeX_cfg (s : State) (r : Reg) (v : Word) : (s.writeX r v).cfg = s.cfg := by unfold State.writeX; split <;> rfl
@[simp] theorem State.writeX_pc (s : State) (r : Reg) (v : Word) : (s.writeX r v).pc = s.pc := by unfold State.writeX; split <;> rfl
@[simp] theorem State.writeX_f (s : State) (r : Reg) (v : Word) : (s.writeX r v).f = s.f := by unfold State.writeX; split <;> rfl
@[simp] theorem State.writeX_fflags (s : State) (r : Reg) (v : Word) : (s.writeX r v).fflags = s.fflags := by unfold State.writeX; split <;> rfl
@[simp] theorem State.writeX_frm (s : State) (r : Reg) (v : Word) : (s.writeX r v).frm = s.frm := by unfold State.writeX; split <;> rfl
@[simp] theorem State.writeX_priv (s : State) (r : Reg) (v : Word) : (s.writeX r v).priv = s.priv := by unfold State.writeX; split <;> rfl
@[simp] theorem State.writeX_mstatus (s : State) (r : Reg) (v : Word) : (s.writeX r v).mstatus = s.mstatus := by unfold State.writeX; split <;> rfl
@[simp] theorem State.writeX_mepc (s : State) (r : Reg) (v : Word) : (s.writeX r v).mepc = s.mepc := by unfold State.writeX; split <;> rfl
@[simp] theorem State.writeX_mtvec (s : State) (r : Reg) (v : Word) : (s.writeX r v).mtvec = s.mtvec := by unfold State.writeX; split <;> rfl
@[simp] theorem State.writeX_mcause (s : State) (r : Reg) (v : Word) : (s.writeX r v).mcause = s.mcause := by unfold State.writeX; split <;> rfl
@[simp] theorem State.writeX_mtval (s : State) (r : Reg) (v : Word) : (s.writeX r v).mtval = s.mtval := by unfold State.writeX; split <;> rfl
@[simp] theorem State.writeX_mscratch (s : State) (r : Reg) (v : Word) : (s.writeX r v).mscratch = s.mscratch := by unfold State.writeX; split <;> rfl
@[simp] theorem State.writeX_sepc (s : State) (r : Reg) (v : Word) : (s.writeX r v).sepc = s.sepc := by unfold State.writeX; split <;> rfl
@[simp] theorem State.writeX_stvec (s : State) (r : Reg) (v : Word) : (s.writeX r v).stvec = s.stvec := by unfold State.writeX; split <;> rfl
@[simp] theorem State.writeX_scause (s : State) (r : Reg) (v : Word) : (s.writeX r v).scause = s.scause := by unfold State.writeX; split <;> rfl
@[simp] theorem State.writeX_stval (s : State) (r : Reg) (v : Word) : (s.writeX r v).stval = s.stval := by unfold State.writeX; split <;> rfl
@[simp] theorem State.writeX_sscratch (s : State) (r : Reg) (v : Word) : (s.writeX r v).sscratch = s.sscratch := by unfold State.writeX; split <;> rfl
@[simp] theorem State.writeX_medeleg (s : State) (r : Reg) (v : Word) : (s.writeX r v).medeleg = s.medeleg := by unfold State.writeX; split <;> rfl
@[simp] theorem State.writeX_mideleg (s : State) (r : Reg) (v : Word) : (s.writeX r v).mideleg = s.mideleg := by unfold State.writeX; split <;> rfl
@[simp] theorem State.writeX_mie (s : State) (r : Reg) (v : Word) : (s.writeX r v).mie = s.mie := by unfold State.writeX; split <;> rfl
@[simp] theorem State.writeX_mipSoft (s : State) (r : Reg) (v : Word) : (s.writeX r v).mipSoft = s.mipSoft := by unfold State.writeX; split <;> rfl
@[simp] theorem State.writeX_mcounteren (s : State) (r : Reg) (v : Word) : (s.writeX r v).mcounteren = s.mcounteren := by unfold State.writeX; split <;> rfl
@[simp] theorem State.writeX_scounteren (s : State) (r : Reg) (v : Word) : (s.writeX r v).scounteren = s.scounteren := by unfold State.writeX; split <;> rfl
@[simp] theorem State.writeX_mcycle (s : State) (r : Reg) (v : Word) : (s.writeX r v).mcycle = s.mcycle := by unfold State.writeX; split <;> rfl
@[simp] theorem State.writeX_time (s : State) (r : Reg) (v : Word) : (s.writeX r v).time = s.time := by unfold State.writeX; split <;> rfl
@[simp] theorem State.writeX_minstret (s : State) (r : Reg) (v : Word) : (s.writeX r v).minstret = s.minstret := by unfold State.writeX; split <;> rfl
@[simp] theorem State.writeX_reservation (s : State) (r : Reg) (v : Word) : (s.writeX r v).reservation = s.reservation := by unfold State.writeX; split <;> rfl
@[simp] theorem State.writeX_mem (s : State) (r : Reg) (v : Word) : (s.writeX r v).mem = s.mem := by unfold State.writeX; split <;> rfl
@[simp] theorem State.writeX_storeLog (s : State) (r : Reg) (v : Word) : (s.writeX r v).storeLog = s.storeLog := by unfold State.writeX; split <;> rfl
@[simp] theorem State.writeX_lines (s : State) (r : Reg) (v : Word) : (s.writeX r v).lines = s.lines := by unfold State.writeX; split <;> rfl
@[simp] theorem State.writeX_inputs (s : State) (r : Reg) (v : Word) : (s.writeX r v).inputs = s.inputs := by unfold State.writeX; split <;> rfl
@[simp] theorem State.writeX_ioLog (s : State) (r : Reg) (v : Word) : (s.writeX r v).ioLog = s.ioLog := by unfold State.writeX; split <;> rfl
@[simp] theorem State.writeX_draws (s : State) (r : Reg) (v : Word) : (s.writeX r v).draws = s.draws := by unfold State.writeX; split <;> rfl

@[simp] theorem State.writeF_cfg (s : State) (r : Reg) (v : Word) : (s.writeF r v).cfg = s.cfg := rfl
@[simp] theorem State.writeF_x (s : State) (r : Reg) (v : Word) : (s.writeF r v).x = s.x := rfl
@[simp] theorem State.writeF_pc (s : State) (r : Reg) (v : Word) : (s.writeF r v).pc = s.pc := rfl
@[simp] theorem State.writeF_fflags (s : State) (r : Reg) (v : Word) : (s.writeF r v).fflags = s.fflags := rfl
@[simp] theorem State.writeF_frm (s : State) (r : Reg) (v : Word) : (s.writeF r v).frm = s.frm := rfl
@[simp] theorem State.writeF_priv (s : State) (r : Reg) (v : Word) : (s.writeF r v).priv = s.priv := rfl
@[simp] theorem State.writeF_mstatus (s : State) (r : Reg) (v : Word) : (s.writeF r v).mstatus = s.mstatus := rfl
@[simp] theorem State.writeF_mepc (s : State) (r : Reg) (v : Word) : (s.writeF r v).mepc = s.mepc := rfl
@[simp] theorem State.writeF_mtvec (s : State) (r : Reg) (v : Word) : (s.writeF r v).mtvec = s.mtvec := rfl
@[simp] theorem State.writeF_mcause (s : State) (r : Reg) (v : Word) : (s.writeF r v).mcause = s.mcause := rfl
@[simp] theorem State.writeF_mtval (s : State) (r : Reg) (v : Word) : (s.writeF r v).mtval = s.mtval := rfl
@[simp] theorem State.writeF_mscratch (s : State) (r : Reg) (v : Word) : (s.writeF r v).mscratch = s.mscratch := rfl
@[simp] theorem State.writeF_sepc (s : State) (r : Reg) (v : Word) : (s.writeF r v).sepc = s.sepc := rfl
@[simp] theorem State.writeF_stvec (s : State) (r : Reg) (v : Word) : (s.writeF r v).stvec = s.stvec := rfl
@[simp] theorem State.writeF_scause (s : State) (r : Reg) (v : Word) : (s.writeF r v).scause = s.scause := rfl
@[simp] theorem State.writeF_stval (s : State) (r : Reg) (v : Word) : (s.writeF r v).stval = s.stval := rfl
@[simp] theorem State.writeF_sscratch (s : State) (r : Reg) (v : Word) : (s.writeF r v).sscratch = s.sscratch := rfl
@[simp] theorem State.writeF_medeleg (s : State) (r : Reg) (v : Word) : (s.writeF r v).medeleg = s.medeleg := rfl
@[simp] theorem State.writeF_mideleg (s : State) (r : Reg) (v : Word) : (s.writeF r v).mideleg = s.mideleg := rfl
@[simp] theorem State.writeF_mie (s : State) (r : Reg) (v : Word) : (s.writeF r v).mie = s.mie := rfl
@[simp] theorem State.writeF_mipSoft (s : State) (r : Reg) (v : Word) : (s.writeF r v).mipSoft = s.mipSoft := rfl
@[simp] theorem State.writeF_mcounteren (s : State) (r : Reg) (v : Word) : (s.writeF r v).mcounteren = s.mcounteren := rfl
@[simp] theorem State.writeF_scounteren (s : State) (r : Reg) (v : Word) : (s.writeF r v).scounteren = s.scounteren := rfl
@[simp] theorem State.writeF_mcycle (s : State) (r : Reg) (v : Word) : (s.writeF r v).mcycle = s.mcycle := rfl
@[simp] theorem State.writeF_time (s : State) (r : Reg) (v : Word) : (s.writeF r v).time = s.time := rfl
@[simp] theorem State.writeF_minstret (s : State) (r : Reg) (v : Word) : (s.writeF r v).minstret = s.minstret := rfl
@[simp] theorem State.writeF_reservation (s : State) (r : Reg) (v : Word) : (s.writeF r v).reservation = s.reservation := rfl
@[simp] theorem State.writeF_mem (s : State) (r : Reg) (v : Word) : (s.writeF r v).mem = s.mem := rfl
@[simp] theorem State.writeF_storeLog (s : State) (r : Reg) (v : Word) : (s.writeF r v).storeLog = s.storeLog := rfl
@[simp] theorem State.writeF_lines (s : State) (r : Reg) (v : Word) : (s.writeF r v).lines = s.lines := rfl
@[simp] theorem State.writeF_inputs (s : State) (r : Reg) (v : Word) : (s.writeF r v).inputs = s.inputs := rfl
@[simp] theorem State.writeF_ioLog (s : State) (r : Reg) (v : Word) : (s.writeF r v).ioLog = s.ioLog := rfl
@[simp] theorem State.writeF_draws (s : State) (r : Reg) (v : Word) : (s.writeF r v).draws = s.draws := rfl

@[simp] theorem State.writeS_cfg (s : State) (r : Reg) (v : Word32) : (s.writeS r v).cfg = s.cfg := rfl
@[simp] theorem State.writeS_x (s : State) (r : Reg) (v : Word32) : (s.writeS r v).x = s.x := rfl
@[simp] theorem State.writeS_pc (s : State) (r : Reg) (v : Word32) : (s.writeS r v).pc = s.pc := rfl
@[simp] theorem State.writeS_fflags (s : State) (r : Reg) (v : Word32) : (s.writeS r v).fflags = s.fflags := rfl
@[simp] theorem State.writeS_frm (s : State) (r : Reg) (v : Word32) : (s.writeS r v).frm = s.frm := rfl
@[simp] theorem State.writeS_priv (s : State) (r : Reg) (v : Word32) : (s.writeS r v).priv = s.priv := rfl
@[simp] theorem State.writeS_mstatus (s : State) (r : Reg) (v : Word32) : (s.writeS r v).mstatus = s.mstatus := rfl
@[simp] theorem State.writeS_mepc (s : State) (r : Reg) (v : Word32) : (s.writeS r v).mepc = s.mepc := rfl
@[simp] theorem State.writeS_mtvec (s : State) (r : Reg) (v : Word32) : (s.writeS r v).mtvec = s.mtvec := rfl
@[simp] theorem State.writeS_mcause (s : State) (r : Reg) (v : Word32) : (s.writeS r v).mcause = s.mcause := rfl
@[simp] theorem State.writeS_mtval (s : State) (r : Reg) (v : Word32) : (s.writeS r v).mtval = s.mtval := rfl
@[simp] theorem State.writeS_mscratch (s : State) (r : Reg) (v : Word32) : (s.writeS r v).mscratch = s.mscratch := rfl
@[simp] theorem State.writeS_sepc (s : State) (r : Reg) (v : Word32) : (s.writeS r v).sepc = s.sepc := rfl
@[simp] theorem State.writeS_stvec (s : State) (r : Reg) (v : Word32) : (s.writeS r v).stvec = s.stvec := rfl
@[simp] theorem State.writeS_scause (s : State) (r : Reg) (v : Word32) : (s.writeS r v).scause = s.scause := rfl
@[simp] theorem State.writeS_stval (s : State) (r : Reg) (v : Word32) : (s.writeS r v).stval = s.stval := rfl
@[simp] theorem State.writeS_sscratch (s : State) (r : Reg) (v : Word32) : (s.writeS r v).sscratch = s.sscratch := rfl
@[simp] theorem State.writeS_medeleg (s : State) (r : Reg) (v : Word32) : (s.writeS r v).medeleg = s.medeleg := rfl
@[simp] theorem State.writeS_mideleg (s : State) (r : Reg) (v : Word32) : (s.writeS r v).mideleg = s.mideleg := rfl
@[simp] theorem State.writeS_mie (s : State) (r : Reg) (v : Word32) : (s.writeS r v).mie = s.mie := rfl
@[simp] theorem State.writeS_mipSoft (s : State) (r : Reg) (v : Word32) : (s.writeS r v).mipSoft = s.mipSoft := rfl
@[simp] theorem State.writeS_mcounteren (s : State) (r : Reg) (v : Word32) : (s.writeS r v).mcounteren = s.mcounteren := rfl
@[simp] theorem State.writeS_scounteren (s : State) (r : Reg) (v : Word32) : (s.writeS r v).scounteren = s.scounteren := rfl
@[simp] theorem State.writeS_mcycle (s : State) (r : Reg) (v : Word32) : (s.writeS r v).mcycle = s.mcycle := rfl
@[simp] theorem State.writeS_time (s : State) (r : Reg) (v : Word32) : (s.writeS r v).time = s.time := rfl
@[simp] theorem State.writeS_minstret (s : State) (r : Reg) (v : Word32) : (s.writeS r v).minstret = s.minstret := rfl
@[simp] theorem State.writeS_reservation (s : State) (r : Reg) (v : Word32) : (s.writeS r v).reservation = s.reservation := rfl
@[simp] theorem State.writeS_mem (s : State) (r : Reg) (v : Word32) : (s.writeS r v).mem = s.mem := rfl
@[simp] theorem State.writeS_storeLog (s : State) (r : Reg) (v : Word32) : (s.writeS r v).storeLog = s.storeLog := rfl
@[simp] theorem State.writeS_lines (s : State) (r : Reg) (v : Word32) : (s.writeS r v).lines = s.lines := rfl
@[simp] theorem State.writeS_inputs (s : State) (r : Reg) (v : Word32) : (s.writeS r v).inputs = s.inputs := rfl
@[simp] theorem State.writeS_ioLog (s : State) (r : Reg) (v : Word32) : (s.writeS r v).ioLog = s.ioLog := rfl
@[simp] theorem State.writeS_draws (s : State) (r : Reg) (v : Word32) : (s.writeS r v).draws = s.draws := rfl

@[simp] theorem State.accrue_cfg (s : State) (b : BitVec 5) : (s.accrue b).cfg = s.cfg := rfl
@[simp] theorem State.accrue_x (s : State) (b : BitVec 5) : (s.accrue b).x = s.x := rfl
@[simp] theorem State.accrue_pc (s : State) (b : BitVec 5) : (s.accrue b).pc = s.pc := rfl
@[simp] theorem State.accrue_f (s : State) (b : BitVec 5) : (s.accrue b).f = s.f := rfl
@[simp] theorem State.accrue_frm (s : State) (b : BitVec 5) : (s.accrue b).frm = s.frm := rfl
@[simp] theorem State.accrue_priv (s : State) (b : BitVec 5) : (s.accrue b).priv = s.priv := rfl
@[simp] theorem State.accrue_mstatus (s : State) (b : BitVec 5) : (s.accrue b).mstatus = s.mstatus := rfl
@[simp] theorem State.accrue_mepc (s : State) (b : BitVec 5) : (s.accrue b).mepc = s.mepc := rfl
@[simp] theorem State.accrue_mtvec (s : State) (b : BitVec 5) : (s.accrue b).mtvec = s.mtvec := rfl
@[simp] theorem State.accrue_mcause (s : State) (b : BitVec 5) : (s.accrue b).mcause = s.mcause := rfl
@[simp] theorem State.accrue_mtval (s : State) (b : BitVec 5) : (s.accrue b).mtval = s.mtval := rfl
@[simp] theorem State.accrue_mscratch (s : State) (b : BitVec 5) : (s.accrue b).mscratch = s.mscratch := rfl
@[simp] theorem State.accrue_sepc (s : State) (b : BitVec 5) : (s.accrue b).sepc = s.sepc := rfl
@[simp] theorem State.accrue_stvec (s : State) (b : BitVec 5) : (s.accrue b).stvec = s.stvec := rfl
@[simp] theorem State.accrue_scause (s : State) (b : BitVec 5) : (s.accrue b).scause = s.scause := rfl
@[simp] theorem State.accrue_stval (s : State) (b : BitVec 5) : (s.accrue b).stval = s.stval := rfl
@[simp] theorem State.accrue_sscratch (s : State) (b : BitVec 5) : (s.accrue b).sscratch = s.sscratch := rfl
@[simp] theorem State.accrue_medeleg (s : State) (b : BitVec 5) : (s.accrue b).medeleg = s.medeleg := rfl
@[simp] theorem State.accrue_mideleg (s : State) (b : BitVec 5) : (s.accrue b).mideleg = s.mideleg := rfl
@[simp] theorem State.accrue_mie (s : State) (b : BitVec 5) : (s.accrue b).mie = s.mie := rfl
@[simp] theorem State.accrue_mipSoft (s : State) (b : BitVec 5) : (s.accrue b).mipSoft = s.mipSoft := rfl
@[simp] theorem State.accrue_mcounteren (s : State) (b : BitVec 5) : (s.accrue b).mcounteren = s.mcounteren := rfl
@[simp] theorem State.accrue_scounteren (s : State) (b : BitVec 5) : (s.accrue b).scounteren = s.scounteren := rfl
@[simp] theorem State.accrue_mcycle (s : State) (b : BitVec 5) : (s.accrue b).mcycle = s.mcycle := rfl
@[simp] theorem State.accrue_time (s : State) (b : BitVec 5) : (s.accrue b).time = s.time := rfl
@[simp] theorem State.accrue_minstret (s : State) (b : BitVec 5) : (s.accrue b).minstret = s.minstret := rfl
@[simp] theorem State.accrue_reservation (s : State) (b : BitVec 5) : (s.accrue b).reservation = s.reservation := rfl
@[simp] theorem State.accrue_mem (s : State) (b : BitVec 5) : (s.accrue b).mem = s.mem := rfl
@[simp] theorem State.accrue_storeLog (s : State) (b : BitVec 5) : (s.accrue b).storeLog = s.storeLog := rfl
@[simp] theorem State.accrue_lines (s : State) (b : BitVec 5) : (s.accrue b).lines = s.lines := rfl
@[simp] theorem State.accrue_inputs (s : State) (b : BitVec 5) : (s.accrue b).inputs = s.inputs := rfl
@[simp] theorem State.accrue_ioLog (s : State) (b : BitVec 5) : (s.accrue b).ioLog = s.ioLog := rfl
@[simp] theorem State.accrue_draws (s : State) (b : BitVec 5) : (s.accrue b).draws = s.draws := rfl

@[simp] theorem State.fsDirty_cfg (s : State) : (s.fsDirty).cfg = s.cfg := by unfold State.fsDirty; split <;> rfl
@[simp] theorem State.fsDirty_x (s : State) : (s.fsDirty).x = s.x := by unfold State.fsDirty; split <;> rfl
@[simp] theorem State.fsDirty_pc (s : State) : (s.fsDirty).pc = s.pc := by unfold State.fsDirty; split <;> rfl
@[simp] theorem State.fsDirty_f (s : State) : (s.fsDirty).f = s.f := by unfold State.fsDirty; split <;> rfl
@[simp] theorem State.fsDirty_fflags (s : State) : (s.fsDirty).fflags = s.fflags := by unfold State.fsDirty; split <;> rfl
@[simp] theorem State.fsDirty_frm (s : State) : (s.fsDirty).frm = s.frm := by unfold State.fsDirty; split <;> rfl
@[simp] theorem State.fsDirty_priv (s : State) : (s.fsDirty).priv = s.priv := by unfold State.fsDirty; split <;> rfl
@[simp] theorem State.fsDirty_mepc (s : State) : (s.fsDirty).mepc = s.mepc := by unfold State.fsDirty; split <;> rfl
@[simp] theorem State.fsDirty_mtvec (s : State) : (s.fsDirty).mtvec = s.mtvec := by unfold State.fsDirty; split <;> rfl
@[simp] theorem State.fsDirty_mcause (s : State) : (s.fsDirty).mcause = s.mcause := by unfold State.fsDirty; split <;> rfl
@[simp] theorem State.fsDirty_mtval (s : State) : (s.fsDirty).mtval = s.mtval := by unfold State.fsDirty; split <;> rfl
@[simp] theorem State.fsDirty_mscratch (s : State) : (s.fsDirty).mscratch = s.mscratch := by unfold State.fsDirty; split <;> rfl
@[simp] theorem State.fsDirty_sepc (s : State) : (s.fsDirty).sepc = s.sepc := by unfold State.fsDirty; split <;> rfl
@[simp] theorem State.fsDirty_stvec (s : State) : (s.fsDirty).stvec = s.stvec := by unfold State.fsDirty; split <;> rfl
@[simp] theorem State.fsDirty_scause (s : State) : (s.fsDirty).scause = s.scause := by unfold State.fsDirty; split <;> rfl
@[simp] theorem State.fsDirty_stval (s : State) : (s.fsDirty).stval = s.stval := by unfold State.fsDirty; split <;> rfl
@[simp] theorem State.fsDirty_sscratch (s : State) : (s.fsDirty).sscratch = s.sscratch := by unfold State.fsDirty; split <;> rfl
@[simp] theorem State.fsDirty_medeleg (s : State) : (s.fsDirty).medeleg = s.medeleg := by unfold State.fsDirty; split <;> rfl
@[simp] theorem State.fsDirty_mideleg (s : State) : (s.fsDirty).mideleg = s.mideleg := by unfold State.fsDirty; split <;> rfl
@[simp] theorem State.fsDirty_mie (s : State) : (s.fsDirty).mie = s.mie := by unfold State.fsDirty; split <;> rfl
@[simp] theorem State.fsDirty_mipSoft (s : State) : (s.fsDirty).mipSoft = s.mipSoft := by unfold State.fsDirty; split <;> rfl
@[simp] theorem State.fsDirty_mcounteren (s : State) : (s.fsDirty).mcounteren = s.mcounteren := by unfold State.fsDirty; split <;> rfl
@[simp] theorem State.fsDirty_scounteren (s : State) : (s.fsDirty).scounteren = s.scounteren := by unfold State.fsDirty; split <;> rfl
@[simp] theorem State.fsDirty_mcycle (s : State) : (s.fsDirty).mcycle = s.mcycle := by unfold State.fsDirty; split <;> rfl
@[simp] theorem State.fsDirty_time (s : State) : (s.fsDirty).time = s.time := by unfold State.fsDirty; split <;> rfl
@[simp] theorem State.fsDirty_minstret (s : State) : (s.fsDirty).minstret = s.minstret := by unfold State.fsDirty; split <;> rfl
@[simp] theorem State.fsDirty_reservation (s : State) : (s.fsDirty).reservation = s.reservation := by unfold State.fsDirty; split <;> rfl
@[simp] theorem State.fsDirty_mem (s : State) : (s.fsDirty).mem = s.mem := by unfold State.fsDirty; split <;> rfl
@[simp] theorem State.fsDirty_storeLog (s : State) : (s.fsDirty).storeLog = s.storeLog := by unfold State.fsDirty; split <;> rfl
@[simp] theorem State.fsDirty_lines (s : State) : (s.fsDirty).lines = s.lines := by unfold State.fsDirty; split <;> rfl
@[simp] theorem State.fsDirty_inputs (s : State) : (s.fsDirty).inputs = s.inputs := by unfold State.fsDirty; split <;> rfl
@[simp] theorem State.fsDirty_ioLog (s : State) : (s.fsDirty).ioLog = s.ioLog := by unfold State.fsDirty; split <;> rfl
@[simp] theorem State.fsDirty_draws (s : State) : (s.fsDirty).draws = s.draws := by unfold State.fsDirty; split <;> rfl

@[simp] theorem State.retire_cfg (s : State) : (s.retire).cfg = s.cfg := rfl
@[simp] theorem State.retire_x (s : State) : (s.retire).x = s.x := rfl
@[simp] theorem State.retire_pc (s : State) : (s.retire).pc = s.pc := rfl
@[simp] theorem State.retire_f (s : State) : (s.retire).f = s.f := rfl
@[simp] theorem State.retire_fflags (s : State) : (s.retire).fflags = s.fflags := rfl
@[simp] theorem State.retire_frm (s : State) : (s.retire).frm = s.frm := rfl
@[simp] theorem State.retire_priv (s : State) : (s.retire).priv = s.priv := rfl
@[simp] theorem State.retire_mstatus (s : State) : (s.retire).mstatus = s.mstatus := rfl
@[simp] theorem State.retire_mepc (s : State) : (s.retire).mepc = s.mepc := rfl
@[simp] theorem State.retire_mtvec (s : State) : (s.retire).mtvec = s.mtvec := rfl
@[simp] theorem State.retire_mcause (s : State) : (s.retire).mcause = s.mcause := rfl
@[simp] theorem State.retire_mtval (s : State) : (s.retire).mtval = s.mtval := rfl
@[simp] theorem State.retire_mscratch (s : State) : (s.retire).mscratch = s.mscratch := rfl
@[simp] theorem State.retire_sepc (s : State) : (s.retire).sepc = s.sepc := rfl
@[simp] theorem State.retire_stvec (s : State) : (s.retire).stvec = s.stvec := rfl
@[simp] theorem State.retire_scause (s : State) : (s.retire).scause = s.scause := rfl
@[simp] theorem State.retire_stval (s : State) : (s.retire).stval = s.stval := rfl
@[simp] theorem State.retire_sscratch (s : State) : (s.retire).sscratch = s.sscratch := rfl
@[simp] theorem State.retire_medeleg (s : State) : (s.retire).medeleg = s.medeleg := rfl
@[simp] theorem State.retire_mideleg (s : State) : (s.retire).mideleg = s.mideleg := rfl
@[simp] theorem State.retire_mie (s : State) : (s.retire).mie = s.mie := rfl
@[simp] theorem State.retire_mipSoft (s : State) : (s.retire).mipSoft = s.mipSoft := rfl
@[simp] theorem State.retire_mcounteren (s : State) : (s.retire).mcounteren = s.mcounteren := rfl
@[simp] theorem State.retire_scounteren (s : State) : (s.retire).scounteren = s.scounteren := rfl
@[simp] theorem State.retire_mcycle (s : State) : (s.retire).mcycle = s.mcycle := rfl
@[simp] theorem State.retire_time (s : State) : (s.retire).time = s.time := rfl
@[simp] theorem State.retire_reservation (s : State) : (s.retire).reservation = s.reservation := rfl
@[simp] theorem State.retire_mem (s : State) : (s.retire).mem = s.mem := rfl
@[simp] theorem State.retire_storeLog (s : State) : (s.retire).storeLog = s.storeLog := rfl
@[simp] theorem State.retire_lines (s : State) : (s.retire).lines = s.lines := rfl
@[simp] theorem State.retire_inputs (s : State) : (s.retire).inputs = s.inputs := rfl
@[simp] theorem State.retire_ioLog (s : State) : (s.retire).ioLog = s.ioLog := rfl
@[simp] theorem State.retire_draws (s : State) : (s.retire).draws = s.draws := rfl

@[simp] theorem State.advance_cfg (s : State) (n : Nat) : (s.advance n).cfg = s.cfg := rfl
@[simp] theorem State.advance_x (s : State) (n : Nat) : (s.advance n).x = s.x := rfl
@[simp] theorem State.advance_f (s : State) (n : Nat) : (s.advance n).f = s.f := rfl
@[simp] theorem State.advance_fflags (s : State) (n : Nat) : (s.advance n).fflags = s.fflags := rfl
@[simp] theorem State.advance_frm (s : State) (n : Nat) : (s.advance n).frm = s.frm := rfl
@[simp] theorem State.advance_priv (s : State) (n : Nat) : (s.advance n).priv = s.priv := rfl
@[simp] theorem State.advance_mstatus (s : State) (n : Nat) : (s.advance n).mstatus = s.mstatus := rfl
@[simp] theorem State.advance_mepc (s : State) (n : Nat) : (s.advance n).mepc = s.mepc := rfl
@[simp] theorem State.advance_mtvec (s : State) (n : Nat) : (s.advance n).mtvec = s.mtvec := rfl
@[simp] theorem State.advance_mcause (s : State) (n : Nat) : (s.advance n).mcause = s.mcause := rfl
@[simp] theorem State.advance_mtval (s : State) (n : Nat) : (s.advance n).mtval = s.mtval := rfl
@[simp] theorem State.advance_mscratch (s : State) (n : Nat) : (s.advance n).mscratch = s.mscratch := rfl
@[simp] theorem State.advance_sepc (s : State) (n : Nat) : (s.advance n).sepc = s.sepc := rfl
@[simp] theorem State.advance_stvec (s : State) (n : Nat) : (s.advance n).stvec = s.stvec := rfl
@[simp] theorem State.advance_scause (s : State) (n : Nat) : (s.advance n).scause = s.scause := rfl
@[simp] theorem State.advance_stval (s : State) (n : Nat) : (s.advance n).stval = s.stval := rfl
@[simp] theorem State.advance_sscratch (s : State) (n : Nat) : (s.advance n).sscratch = s.sscratch := rfl
@[simp] theorem State.advance_medeleg (s : State) (n : Nat) : (s.advance n).medeleg = s.medeleg := rfl
@[simp] theorem State.advance_mideleg (s : State) (n : Nat) : (s.advance n).mideleg = s.mideleg := rfl
@[simp] theorem State.advance_mie (s : State) (n : Nat) : (s.advance n).mie = s.mie := rfl
@[simp] theorem State.advance_mipSoft (s : State) (n : Nat) : (s.advance n).mipSoft = s.mipSoft := rfl
@[simp] theorem State.advance_mcounteren (s : State) (n : Nat) : (s.advance n).mcounteren = s.mcounteren := rfl
@[simp] theorem State.advance_scounteren (s : State) (n : Nat) : (s.advance n).scounteren = s.scounteren := rfl
@[simp] theorem State.advance_mcycle (s : State) (n : Nat) : (s.advance n).mcycle = s.mcycle := rfl
@[simp] theorem State.advance_time (s : State) (n : Nat) : (s.advance n).time = s.time := rfl
@[simp] theorem State.advance_minstret (s : State) (n : Nat) : (s.advance n).minstret = s.minstret := rfl
@[simp] theorem State.advance_reservation (s : State) (n : Nat) : (s.advance n).reservation = s.reservation := rfl
@[simp] theorem State.advance_mem (s : State) (n : Nat) : (s.advance n).mem = s.mem := rfl
@[simp] theorem State.advance_storeLog (s : State) (n : Nat) : (s.advance n).storeLog = s.storeLog := rfl
@[simp] theorem State.advance_lines (s : State) (n : Nat) : (s.advance n).lines = s.lines := rfl
@[simp] theorem State.advance_inputs (s : State) (n : Nat) : (s.advance n).inputs = s.inputs := rfl
@[simp] theorem State.advance_ioLog (s : State) (n : Nat) : (s.advance n).ioLog = s.ioLog := rfl
@[simp] theorem State.advance_draws (s : State) (n : Nat) : (s.advance n).draws = s.draws := rfl

@[simp] theorem State.syncFetch_cfg (s : State) : (s.syncFetch).cfg = s.cfg := rfl
@[simp] theorem State.syncFetch_x (s : State) : (s.syncFetch).x = s.x := rfl
@[simp] theorem State.syncFetch_pc (s : State) : (s.syncFetch).pc = s.pc := rfl
@[simp] theorem State.syncFetch_f (s : State) : (s.syncFetch).f = s.f := rfl
@[simp] theorem State.syncFetch_fflags (s : State) : (s.syncFetch).fflags = s.fflags := rfl
@[simp] theorem State.syncFetch_frm (s : State) : (s.syncFetch).frm = s.frm := rfl
@[simp] theorem State.syncFetch_priv (s : State) : (s.syncFetch).priv = s.priv := rfl
@[simp] theorem State.syncFetch_mstatus (s : State) : (s.syncFetch).mstatus = s.mstatus := rfl
@[simp] theorem State.syncFetch_mepc (s : State) : (s.syncFetch).mepc = s.mepc := rfl
@[simp] theorem State.syncFetch_mtvec (s : State) : (s.syncFetch).mtvec = s.mtvec := rfl
@[simp] theorem State.syncFetch_mcause (s : State) : (s.syncFetch).mcause = s.mcause := rfl
@[simp] theorem State.syncFetch_mtval (s : State) : (s.syncFetch).mtval = s.mtval := rfl
@[simp] theorem State.syncFetch_mscratch (s : State) : (s.syncFetch).mscratch = s.mscratch := rfl
@[simp] theorem State.syncFetch_sepc (s : State) : (s.syncFetch).sepc = s.sepc := rfl
@[simp] theorem State.syncFetch_stvec (s : State) : (s.syncFetch).stvec = s.stvec := rfl
@[simp] theorem State.syncFetch_scause (s : State) : (s.syncFetch).scause = s.scause := rfl
@[simp] theorem State.syncFetch_stval (s : State) : (s.syncFetch).stval = s.stval := rfl
@[simp] theorem State.syncFetch_sscratch (s : State) : (s.syncFetch).sscratch = s.sscratch := rfl
@[simp] theorem State.syncFetch_medeleg (s : State) : (s.syncFetch).medeleg = s.medeleg := rfl
@[simp] theorem State.syncFetch_mideleg (s : State) : (s.syncFetch).mideleg = s.mideleg := rfl
@[simp] theorem State.syncFetch_mie (s : State) : (s.syncFetch).mie = s.mie := rfl
@[simp] theorem State.syncFetch_mipSoft (s : State) : (s.syncFetch).mipSoft = s.mipSoft := rfl
@[simp] theorem State.syncFetch_mcounteren (s : State) : (s.syncFetch).mcounteren = s.mcounteren := rfl
@[simp] theorem State.syncFetch_scounteren (s : State) : (s.syncFetch).scounteren = s.scounteren := rfl
@[simp] theorem State.syncFetch_mcycle (s : State) : (s.syncFetch).mcycle = s.mcycle := rfl
@[simp] theorem State.syncFetch_time (s : State) : (s.syncFetch).time = s.time := rfl
@[simp] theorem State.syncFetch_minstret (s : State) : (s.syncFetch).minstret = s.minstret := rfl
@[simp] theorem State.syncFetch_reservation (s : State) : (s.syncFetch).reservation = s.reservation := rfl
@[simp] theorem State.syncFetch_mem (s : State) : (s.syncFetch).mem = s.mem := rfl
@[simp] theorem State.syncFetch_lines (s : State) : (s.syncFetch).lines = s.lines := rfl
@[simp] theorem State.syncFetch_inputs (s : State) : (s.syncFetch).inputs = s.inputs := rfl
@[simp] theorem State.syncFetch_ioLog (s : State) : (s.syncFetch).ioLog = s.ioLog := rfl
@[simp] theorem State.syncFetch_draws (s : State) : (s.syncFetch).draws = s.draws := rfl

@[simp] theorem State.tickCycle_cfg (s : State) : (s.tickCycle).cfg = s.cfg := rfl
@[simp] theorem State.tickCycle_x (s : State) : (s.tickCycle).x = s.x := rfl
@[simp] theorem State.tickCycle_pc (s : State) : (s.tickCycle).pc = s.pc := rfl
@[simp] theorem State.tickCycle_f (s : State) : (s.tickCycle).f = s.f := rfl
@[simp] theorem State.tickCycle_fflags (s : State) : (s.tickCycle).fflags = s.fflags := rfl
@[simp] theorem State.tickCycle_frm (s : State) : (s.tickCycle).frm = s.frm := rfl
@[simp] theorem State.tickCycle_priv (s : State) : (s.tickCycle).priv = s.priv := rfl
@[simp] theorem State.tickCycle_mstatus (s : State) : (s.tickCycle).mstatus = s.mstatus := rfl
@[simp] theorem State.tickCycle_mepc (s : State) : (s.tickCycle).mepc = s.mepc := rfl
@[simp] theorem State.tickCycle_mtvec (s : State) : (s.tickCycle).mtvec = s.mtvec := rfl
@[simp] theorem State.tickCycle_mcause (s : State) : (s.tickCycle).mcause = s.mcause := rfl
@[simp] theorem State.tickCycle_mtval (s : State) : (s.tickCycle).mtval = s.mtval := rfl
@[simp] theorem State.tickCycle_mscratch (s : State) : (s.tickCycle).mscratch = s.mscratch := rfl
@[simp] theorem State.tickCycle_sepc (s : State) : (s.tickCycle).sepc = s.sepc := rfl
@[simp] theorem State.tickCycle_stvec (s : State) : (s.tickCycle).stvec = s.stvec := rfl
@[simp] theorem State.tickCycle_scause (s : State) : (s.tickCycle).scause = s.scause := rfl
@[simp] theorem State.tickCycle_stval (s : State) : (s.tickCycle).stval = s.stval := rfl
@[simp] theorem State.tickCycle_sscratch (s : State) : (s.tickCycle).sscratch = s.sscratch := rfl
@[simp] theorem State.tickCycle_medeleg (s : State) : (s.tickCycle).medeleg = s.medeleg := rfl
@[simp] theorem State.tickCycle_mideleg (s : State) : (s.tickCycle).mideleg = s.mideleg := rfl
@[simp] theorem State.tickCycle_mie (s : State) : (s.tickCycle).mie = s.mie := rfl
@[simp] theorem State.tickCycle_mipSoft (s : State) : (s.tickCycle).mipSoft = s.mipSoft := rfl
@[simp] theorem State.tickCycle_mcounteren (s : State) : (s.tickCycle).mcounteren = s.mcounteren := rfl
@[simp] theorem State.tickCycle_scounteren (s : State) : (s.tickCycle).scounteren = s.scounteren := rfl
@[simp] theorem State.tickCycle_time (s : State) : (s.tickCycle).time = s.time := rfl
@[simp] theorem State.tickCycle_minstret (s : State) : (s.tickCycle).minstret = s.minstret := rfl
@[simp] theorem State.tickCycle_reservation (s : State) : (s.tickCycle).reservation = s.reservation := rfl
@[simp] theorem State.tickCycle_mem (s : State) : (s.tickCycle).mem = s.mem := rfl
@[simp] theorem State.tickCycle_storeLog (s : State) : (s.tickCycle).storeLog = s.storeLog := rfl
@[simp] theorem State.tickCycle_lines (s : State) : (s.tickCycle).lines = s.lines := rfl
@[simp] theorem State.tickCycle_inputs (s : State) : (s.tickCycle).inputs = s.inputs := rfl
@[simp] theorem State.tickCycle_ioLog (s : State) : (s.tickCycle).ioLog = s.ioLog := rfl

@[simp] theorem State.tickTime_cfg (s : State) : (s.tickTime).cfg = s.cfg := rfl
@[simp] theorem State.tickTime_x (s : State) : (s.tickTime).x = s.x := rfl
@[simp] theorem State.tickTime_pc (s : State) : (s.tickTime).pc = s.pc := rfl
@[simp] theorem State.tickTime_f (s : State) : (s.tickTime).f = s.f := rfl
@[simp] theorem State.tickTime_fflags (s : State) : (s.tickTime).fflags = s.fflags := rfl
@[simp] theorem State.tickTime_frm (s : State) : (s.tickTime).frm = s.frm := rfl
@[simp] theorem State.tickTime_priv (s : State) : (s.tickTime).priv = s.priv := rfl
@[simp] theorem State.tickTime_mstatus (s : State) : (s.tickTime).mstatus = s.mstatus := rfl
@[simp] theorem State.tickTime_mepc (s : State) : (s.tickTime).mepc = s.mepc := rfl
@[simp] theorem State.tickTime_mtvec (s : State) : (s.tickTime).mtvec = s.mtvec := rfl
@[simp] theorem State.tickTime_mcause (s : State) : (s.tickTime).mcause = s.mcause := rfl
@[simp] theorem State.tickTime_mtval (s : State) : (s.tickTime).mtval = s.mtval := rfl
@[simp] theorem State.tickTime_mscratch (s : State) : (s.tickTime).mscratch = s.mscratch := rfl
@[simp] theorem State.tickTime_sepc (s : State) : (s.tickTime).sepc = s.sepc := rfl
@[simp] theorem State.tickTime_stvec (s : State) : (s.tickTime).stvec = s.stvec := rfl
@[simp] theorem State.tickTime_scause (s : State) : (s.tickTime).scause = s.scause := rfl
@[simp] theorem State.tickTime_stval (s : State) : (s.tickTime).stval = s.stval := rfl
@[simp] theorem State.tickTime_sscratch (s : State) : (s.tickTime).sscratch = s.sscratch := rfl
@[simp] theorem State.tickTime_medeleg (s : State) : (s.tickTime).medeleg = s.medeleg := rfl
@[simp] theorem State.tickTime_mideleg (s : State) : (s.tickTime).mideleg = s.mideleg := rfl
@[simp] theorem State.tickTime_mie (s : State) : (s.tickTime).mie = s.mie := rfl
@[simp] theorem State.tickTime_mipSoft (s : State) : (s.tickTime).mipSoft = s.mipSoft := rfl
@[simp] theorem State.tickTime_mcounteren (s : State) : (s.tickTime).mcounteren = s.mcounteren := rfl
@[simp] theorem State.tickTime_scounteren (s : State) : (s.tickTime).scounteren = s.scounteren := rfl
@[simp] theorem State.tickTime_mcycle (s : State) : (s.tickTime).mcycle = s.mcycle := rfl
@[simp] theorem State.tickTime_minstret (s : State) : (s.tickTime).minstret = s.minstret := rfl
@[simp] theorem State.tickTime_reservation (s : State) : (s.tickTime).reservation = s.reservation := rfl
@[simp] theorem State.tickTime_mem (s : State) : (s.tickTime).mem = s.mem := rfl
@[simp] theorem State.tickTime_storeLog (s : State) : (s.tickTime).storeLog = s.storeLog := rfl
@[simp] theorem State.tickTime_lines (s : State) : (s.tickTime).lines = s.lines := rfl
@[simp] theorem State.tickTime_inputs (s : State) : (s.tickTime).inputs = s.inputs := rfl
@[simp] theorem State.tickTime_ioLog (s : State) : (s.tickTime).ioLog = s.ioLog := rfl

@[simp] theorem State.ownStore_cfg (s : State) (l : List Nat) : (s.ownStore l).cfg = s.cfg := by unfold State.ownStore; split <;> (try split) <;> rfl
@[simp] theorem State.ownStore_x (s : State) (l : List Nat) : (s.ownStore l).x = s.x := by unfold State.ownStore; split <;> (try split) <;> rfl
@[simp] theorem State.ownStore_pc (s : State) (l : List Nat) : (s.ownStore l).pc = s.pc := by unfold State.ownStore; split <;> (try split) <;> rfl
@[simp] theorem State.ownStore_f (s : State) (l : List Nat) : (s.ownStore l).f = s.f := by unfold State.ownStore; split <;> (try split) <;> rfl
@[simp] theorem State.ownStore_fflags (s : State) (l : List Nat) : (s.ownStore l).fflags = s.fflags := by unfold State.ownStore; split <;> (try split) <;> rfl
@[simp] theorem State.ownStore_frm (s : State) (l : List Nat) : (s.ownStore l).frm = s.frm := by unfold State.ownStore; split <;> (try split) <;> rfl
@[simp] theorem State.ownStore_priv (s : State) (l : List Nat) : (s.ownStore l).priv = s.priv := by unfold State.ownStore; split <;> (try split) <;> rfl
@[simp] theorem State.ownStore_mstatus (s : State) (l : List Nat) : (s.ownStore l).mstatus = s.mstatus := by unfold State.ownStore; split <;> (try split) <;> rfl
@[simp] theorem State.ownStore_mepc (s : State) (l : List Nat) : (s.ownStore l).mepc = s.mepc := by unfold State.ownStore; split <;> (try split) <;> rfl
@[simp] theorem State.ownStore_mtvec (s : State) (l : List Nat) : (s.ownStore l).mtvec = s.mtvec := by unfold State.ownStore; split <;> (try split) <;> rfl
@[simp] theorem State.ownStore_mcause (s : State) (l : List Nat) : (s.ownStore l).mcause = s.mcause := by unfold State.ownStore; split <;> (try split) <;> rfl
@[simp] theorem State.ownStore_mtval (s : State) (l : List Nat) : (s.ownStore l).mtval = s.mtval := by unfold State.ownStore; split <;> (try split) <;> rfl
@[simp] theorem State.ownStore_mscratch (s : State) (l : List Nat) : (s.ownStore l).mscratch = s.mscratch := by unfold State.ownStore; split <;> (try split) <;> rfl
@[simp] theorem State.ownStore_sepc (s : State) (l : List Nat) : (s.ownStore l).sepc = s.sepc := by unfold State.ownStore; split <;> (try split) <;> rfl
@[simp] theorem State.ownStore_stvec (s : State) (l : List Nat) : (s.ownStore l).stvec = s.stvec := by unfold State.ownStore; split <;> (try split) <;> rfl
@[simp] theorem State.ownStore_scause (s : State) (l : List Nat) : (s.ownStore l).scause = s.scause := by unfold State.ownStore; split <;> (try split) <;> rfl
@[simp] theorem State.ownStore_stval (s : State) (l : List Nat) : (s.ownStore l).stval = s.stval := by unfold State.ownStore; split <;> (try split) <;> rfl
@[simp] theorem State.ownStore_sscratch (s : State) (l : List Nat) : (s.ownStore l).sscratch = s.sscratch := by unfold State.ownStore; split <;> (try split) <;> rfl
@[simp] theorem State.ownStore_medeleg (s : State) (l : List Nat) : (s.ownStore l).medeleg = s.medeleg := by unfold State.ownStore; split <;> (try split) <;> rfl
@[simp] theorem State.ownStore_mideleg (s : State) (l : List Nat) : (s.ownStore l).mideleg = s.mideleg := by unfold State.ownStore; split <;> (try split) <;> rfl
@[simp] theorem State.ownStore_mie (s : State) (l : List Nat) : (s.ownStore l).mie = s.mie := by unfold State.ownStore; split <;> (try split) <;> rfl
@[simp] theorem State.ownStore_mipSoft (s : State) (l : List Nat) : (s.ownStore l).mipSoft = s.mipSoft := by unfold State.ownStore; split <;> (try split) <;> rfl
@[simp] theorem State.ownStore_mcounteren (s : State) (l : List Nat) : (s.ownStore l).mcounteren = s.mcounteren := by unfold State.ownStore; split <;> (try split) <;> rfl
@[simp] theorem State.ownStore_scounteren (s : State) (l : List Nat) : (s.ownStore l).scounteren = s.scounteren := by unfold State.ownStore; split <;> (try split) <;> rfl
@[simp] theorem State.ownStore_mcycle (s : State) (l : List Nat) : (s.ownStore l).mcycle = s.mcycle := by unfold State.ownStore; split <;> (try split) <;> rfl
@[simp] theorem State.ownStore_time (s : State) (l : List Nat) : (s.ownStore l).time = s.time := by unfold State.ownStore; split <;> (try split) <;> rfl
@[simp] theorem State.ownStore_minstret (s : State) (l : List Nat) : (s.ownStore l).minstret = s.minstret := by unfold State.ownStore; split <;> (try split) <;> rfl
@[simp] theorem State.ownStore_mem (s : State) (l : List Nat) : (s.ownStore l).mem = s.mem := by unfold State.ownStore; split <;> (try split) <;> rfl
@[simp] theorem State.ownStore_storeLog (s : State) (l : List Nat) : (s.ownStore l).storeLog = s.storeLog := by unfold State.ownStore; split <;> (try split) <;> rfl
@[simp] theorem State.ownStore_lines (s : State) (l : List Nat) : (s.ownStore l).lines = s.lines := by unfold State.ownStore; split <;> (try split) <;> rfl
@[simp] theorem State.ownStore_inputs (s : State) (l : List Nat) : (s.ownStore l).inputs = s.inputs := by unfold State.ownStore; split <;> (try split) <;> rfl
@[simp] theorem State.ownStore_ioLog (s : State) (l : List Nat) : (s.ownStore l).ioLog = s.ioLog := by unfold State.ownStore; split <;> (try split) <;> rfl

@[simp] theorem State.putCells_cfg (s : State) (l : List Host.Cell) : (s.putCells l).cfg = s.cfg := rfl
@[simp] theorem State.putCells_x (s : State) (l : List Host.Cell) : (s.putCells l).x = s.x := rfl
@[simp] theorem State.putCells_pc (s : State) (l : List Host.Cell) : (s.putCells l).pc = s.pc := rfl
@[simp] theorem State.putCells_f (s : State) (l : List Host.Cell) : (s.putCells l).f = s.f := rfl
@[simp] theorem State.putCells_fflags (s : State) (l : List Host.Cell) : (s.putCells l).fflags = s.fflags := rfl
@[simp] theorem State.putCells_frm (s : State) (l : List Host.Cell) : (s.putCells l).frm = s.frm := rfl
@[simp] theorem State.putCells_priv (s : State) (l : List Host.Cell) : (s.putCells l).priv = s.priv := rfl
@[simp] theorem State.putCells_mstatus (s : State) (l : List Host.Cell) : (s.putCells l).mstatus = s.mstatus := rfl
@[simp] theorem State.putCells_mepc (s : State) (l : List Host.Cell) : (s.putCells l).mepc = s.mepc := rfl
@[simp] theorem State.putCells_mtvec (s : State) (l : List Host.Cell) : (s.putCells l).mtvec = s.mtvec := rfl
@[simp] theorem State.putCells_mcause (s : State) (l : List Host.Cell) : (s.putCells l).mcause = s.mcause := rfl
@[simp] theorem State.putCells_mtval (s : State) (l : List Host.Cell) : (s.putCells l).mtval = s.mtval := rfl
@[simp] theorem State.putCells_mscratch (s : State) (l : List Host.Cell) : (s.putCells l).mscratch = s.mscratch := rfl
@[simp] theorem State.putCells_sepc (s : State) (l : List Host.Cell) : (s.putCells l).sepc = s.sepc := rfl
@[simp] theorem State.putCells_stvec (s : State) (l : List Host.Cell) : (s.putCells l).stvec = s.stvec := rfl
@[simp] theorem State.putCells_scause (s : State) (l : List Host.Cell) : (s.putCells l).scause = s.scause := rfl
@[simp] theorem State.putCells_stval (s : State) (l : List Host.Cell) : (s.putCells l).stval = s.stval := rfl
@[simp] theorem State.putCells_sscratch (s : State) (l : List Host.Cell) : (s.putCells l).sscratch = s.sscratch := rfl
@[simp] theorem State.putCells_medeleg (s : State) (l : List Host.Cell) : (s.putCells l).medeleg = s.medeleg := rfl
@[simp] theorem State.putCells_mideleg (s : State) (l : List Host.Cell) : (s.putCells l).mideleg = s.mideleg := rfl
@[simp] theorem State.putCells_mie (s : State) (l : List Host.Cell) : (s.putCells l).mie = s.mie := rfl
@[simp] theorem State.putCells_mipSoft (s : State) (l : List Host.Cell) : (s.putCells l).mipSoft = s.mipSoft := rfl
@[simp] theorem State.putCells_mcounteren (s : State) (l : List Host.Cell) : (s.putCells l).mcounteren = s.mcounteren := rfl
@[simp] theorem State.putCells_scounteren (s : State) (l : List Host.Cell) : (s.putCells l).scounteren = s.scounteren := rfl
@[simp] theorem State.putCells_mcycle (s : State) (l : List Host.Cell) : (s.putCells l).mcycle = s.mcycle := rfl
@[simp] theorem State.putCells_time (s : State) (l : List Host.Cell) : (s.putCells l).time = s.time := rfl
@[simp] theorem State.putCells_minstret (s : State) (l : List Host.Cell) : (s.putCells l).minstret = s.minstret := rfl
@[simp] theorem State.putCells_reservation (s : State) (l : List Host.Cell) : (s.putCells l).reservation = s.reservation := rfl
@[simp] theorem State.putCells_lines (s : State) (l : List Host.Cell) : (s.putCells l).lines = s.lines := rfl
@[simp] theorem State.putCells_inputs (s : State) (l : List Host.Cell) : (s.putCells l).inputs = s.inputs := rfl
@[simp] theorem State.putCells_ioLog (s : State) (l : List Host.Cell) : (s.putCells l).ioLog = s.ioLog := rfl
@[simp] theorem State.putCells_draws (s : State) (l : List Host.Cell) : (s.putCells l).draws = s.draws := rfl

@[simp] theorem State.noteWrite_cfg (s : State) (a : Word) (n : Nat) (v : Word) : (s.noteWrite a n v).cfg = s.cfg := by unfold State.noteWrite; split <;> rfl
@[simp] theorem State.noteWrite_x (s : State) (a : Word) (n : Nat) (v : Word) : (s.noteWrite a n v).x = s.x := by unfold State.noteWrite; split <;> rfl
@[simp] theorem State.noteWrite_pc (s : State) (a : Word) (n : Nat) (v : Word) : (s.noteWrite a n v).pc = s.pc := by unfold State.noteWrite; split <;> rfl
@[simp] theorem State.noteWrite_f (s : State) (a : Word) (n : Nat) (v : Word) : (s.noteWrite a n v).f = s.f := by unfold State.noteWrite; split <;> rfl
@[simp] theorem State.noteWrite_fflags (s : State) (a : Word) (n : Nat) (v : Word) : (s.noteWrite a n v).fflags = s.fflags := by unfold State.noteWrite; split <;> rfl
@[simp] theorem State.noteWrite_frm (s : State) (a : Word) (n : Nat) (v : Word) : (s.noteWrite a n v).frm = s.frm := by unfold State.noteWrite; split <;> rfl
@[simp] theorem State.noteWrite_priv (s : State) (a : Word) (n : Nat) (v : Word) : (s.noteWrite a n v).priv = s.priv := by unfold State.noteWrite; split <;> rfl
@[simp] theorem State.noteWrite_mstatus (s : State) (a : Word) (n : Nat) (v : Word) : (s.noteWrite a n v).mstatus = s.mstatus := by unfold State.noteWrite; split <;> rfl
@[simp] theorem State.noteWrite_mepc (s : State) (a : Word) (n : Nat) (v : Word) : (s.noteWrite a n v).mepc = s.mepc := by unfold State.noteWrite; split <;> rfl
@[simp] theorem State.noteWrite_mtvec (s : State) (a : Word) (n : Nat) (v : Word) : (s.noteWrite a n v).mtvec = s.mtvec := by unfold State.noteWrite; split <;> rfl
@[simp] theorem State.noteWrite_mcause (s : State) (a : Word) (n : Nat) (v : Word) : (s.noteWrite a n v).mcause = s.mcause := by unfold State.noteWrite; split <;> rfl
@[simp] theorem State.noteWrite_mtval (s : State) (a : Word) (n : Nat) (v : Word) : (s.noteWrite a n v).mtval = s.mtval := by unfold State.noteWrite; split <;> rfl
@[simp] theorem State.noteWrite_mscratch (s : State) (a : Word) (n : Nat) (v : Word) : (s.noteWrite a n v).mscratch = s.mscratch := by unfold State.noteWrite; split <;> rfl
@[simp] theorem State.noteWrite_sepc (s : State) (a : Word) (n : Nat) (v : Word) : (s.noteWrite a n v).sepc = s.sepc := by unfold State.noteWrite; split <;> rfl
@[simp] theorem State.noteWrite_stvec (s : State) (a : Word) (n : Nat) (v : Word) : (s.noteWrite a n v).stvec = s.stvec := by unfold State.noteWrite; split <;> rfl
@[simp] theorem State.noteWrite_scause (s : State) (a : Word) (n : Nat) (v : Word) : (s.noteWrite a n v).scause = s.scause := by unfold State.noteWrite; split <;> rfl
@[simp] theorem State.noteWrite_stval (s : State) (a : Word) (n : Nat) (v : Word) : (s.noteWrite a n v).stval = s.stval := by unfold State.noteWrite; split <;> rfl
@[simp] theorem State.noteWrite_sscratch (s : State) (a : Word) (n : Nat) (v : Word) : (s.noteWrite a n v).sscratch = s.sscratch := by unfold State.noteWrite; split <;> rfl
@[simp] theorem State.noteWrite_medeleg (s : State) (a : Word) (n : Nat) (v : Word) : (s.noteWrite a n v).medeleg = s.medeleg := by unfold State.noteWrite; split <;> rfl
@[simp] theorem State.noteWrite_mideleg (s : State) (a : Word) (n : Nat) (v : Word) : (s.noteWrite a n v).mideleg = s.mideleg := by unfold State.noteWrite; split <;> rfl
@[simp] theorem State.noteWrite_mie (s : State) (a : Word) (n : Nat) (v : Word) : (s.noteWrite a n v).mie = s.mie := by unfold State.noteWrite; split <;> rfl
@[simp] theorem State.noteWrite_mipSoft (s : State) (a : Word) (n : Nat) (v : Word) : (s.noteWrite a n v).mipSoft = s.mipSoft := by unfold State.noteWrite; split <;> rfl
@[simp] theorem State.noteWrite_mcounteren (s : State) (a : Word) (n : Nat) (v : Word) : (s.noteWrite a n v).mcounteren = s.mcounteren := by unfold State.noteWrite; split <;> rfl
@[simp] theorem State.noteWrite_scounteren (s : State) (a : Word) (n : Nat) (v : Word) : (s.noteWrite a n v).scounteren = s.scounteren := by unfold State.noteWrite; split <;> rfl
@[simp] theorem State.noteWrite_mcycle (s : State) (a : Word) (n : Nat) (v : Word) : (s.noteWrite a n v).mcycle = s.mcycle := by unfold State.noteWrite; split <;> rfl
@[simp] theorem State.noteWrite_time (s : State) (a : Word) (n : Nat) (v : Word) : (s.noteWrite a n v).time = s.time := by unfold State.noteWrite; split <;> rfl
@[simp] theorem State.noteWrite_minstret (s : State) (a : Word) (n : Nat) (v : Word) : (s.noteWrite a n v).minstret = s.minstret := by unfold State.noteWrite; split <;> rfl
@[simp] theorem State.noteWrite_reservation (s : State) (a : Word) (n : Nat) (v : Word) : (s.noteWrite a n v).reservation = s.reservation := by unfold State.noteWrite; split <;> rfl
@[simp] theorem State.noteWrite_mem (s : State) (a : Word) (n : Nat) (v : Word) : (s.noteWrite a n v).mem = s.mem := by unfold State.noteWrite; split <;> rfl
@[simp] theorem State.noteWrite_storeLog (s : State) (a : Word) (n : Nat) (v : Word) : (s.noteWrite a n v).storeLog = s.storeLog := by unfold State.noteWrite; split <;> rfl
@[simp] theorem State.noteWrite_lines (s : State) (a : Word) (n : Nat) (v : Word) : (s.noteWrite a n v).lines = s.lines := by unfold State.noteWrite; split <;> rfl
@[simp] theorem State.noteWrite_inputs (s : State) (a : Word) (n : Nat) (v : Word) : (s.noteWrite a n v).inputs = s.inputs := by unfold State.noteWrite; split <;> rfl
@[simp] theorem State.noteWrite_draws (s : State) (a : Word) (n : Nat) (v : Word) : (s.noteWrite a n v).draws = s.draws := by unfold State.noteWrite; split <;> rfl

@[simp] theorem State.writeMem_cfg (s : State) (a : Word) (n : Nat) (v : Word) : (s.writeMem a n v).cfg = s.cfg := by simp [State.writeMem]
@[simp] theorem State.writeMem_x (s : State) (a : Word) (n : Nat) (v : Word) : (s.writeMem a n v).x = s.x := by simp [State.writeMem]
@[simp] theorem State.writeMem_pc (s : State) (a : Word) (n : Nat) (v : Word) : (s.writeMem a n v).pc = s.pc := by simp [State.writeMem]
@[simp] theorem State.writeMem_f (s : State) (a : Word) (n : Nat) (v : Word) : (s.writeMem a n v).f = s.f := by simp [State.writeMem]
@[simp] theorem State.writeMem_fflags (s : State) (a : Word) (n : Nat) (v : Word) : (s.writeMem a n v).fflags = s.fflags := by simp [State.writeMem]
@[simp] theorem State.writeMem_frm (s : State) (a : Word) (n : Nat) (v : Word) : (s.writeMem a n v).frm = s.frm := by simp [State.writeMem]
@[simp] theorem State.writeMem_priv (s : State) (a : Word) (n : Nat) (v : Word) : (s.writeMem a n v).priv = s.priv := by simp [State.writeMem]
@[simp] theorem State.writeMem_mstatus (s : State) (a : Word) (n : Nat) (v : Word) : (s.writeMem a n v).mstatus = s.mstatus := by simp [State.writeMem]
@[simp] theorem State.writeMem_mepc (s : State) (a : Word) (n : Nat) (v : Word) : (s.writeMem a n v).mepc = s.mepc := by simp [State.writeMem]
@[simp] theorem State.writeMem_mtvec (s : State) (a : Word) (n : Nat) (v : Word) : (s.writeMem a n v).mtvec = s.mtvec := by simp [State.writeMem]
@[simp] theorem State.writeMem_mcause (s : State) (a : Word) (n : Nat) (v : Word) : (s.writeMem a n v).mcause = s.mcause := by simp [State.writeMem]
@[simp] theorem State.writeMem_mtval (s : State) (a : Word) (n : Nat) (v : Word) : (s.writeMem a n v).mtval = s.mtval := by simp [State.writeMem]
@[simp] theorem State.writeMem_mscratch (s : State) (a : Word) (n : Nat) (v : Word) : (s.writeMem a n v).mscratch = s.mscratch := by simp [State.writeMem]
@[simp] theorem State.writeMem_sepc (s : State) (a : Word) (n : Nat) (v : Word) : (s.writeMem a n v).sepc = s.sepc := by simp [State.writeMem]
@[simp] theorem State.writeMem_stvec (s : State) (a : Word) (n : Nat) (v : Word) : (s.writeMem a n v).stvec = s.stvec := by simp [State.writeMem]
@[simp] theorem State.writeMem_scause (s : State) (a : Word) (n : Nat) (v : Word) : (s.writeMem a n v).scause = s.scause := by simp [State.writeMem]
@[simp] theorem State.writeMem_stval (s : State) (a : Word) (n : Nat) (v : Word) : (s.writeMem a n v).stval = s.stval := by simp [State.writeMem]
@[simp] theorem State.writeMem_sscratch (s : State) (a : Word) (n : Nat) (v : Word) : (s.writeMem a n v).sscratch = s.sscratch := by simp [State.writeMem]
@[simp] theorem State.writeMem_medeleg (s : State) (a : Word) (n : Nat) (v : Word) : (s.writeMem a n v).medeleg = s.medeleg := by simp [State.writeMem]
@[simp] theorem State.writeMem_mideleg (s : State) (a : Word) (n : Nat) (v : Word) : (s.writeMem a n v).mideleg = s.mideleg := by simp [State.writeMem]
@[simp] theorem State.writeMem_mie (s : State) (a : Word) (n : Nat) (v : Word) : (s.writeMem a n v).mie = s.mie := by simp [State.writeMem]
@[simp] theorem State.writeMem_mipSoft (s : State) (a : Word) (n : Nat) (v : Word) : (s.writeMem a n v).mipSoft = s.mipSoft := by simp [State.writeMem]
@[simp] theorem State.writeMem_mcounteren (s : State) (a : Word) (n : Nat) (v : Word) : (s.writeMem a n v).mcounteren = s.mcounteren := by simp [State.writeMem]
@[simp] theorem State.writeMem_scounteren (s : State) (a : Word) (n : Nat) (v : Word) : (s.writeMem a n v).scounteren = s.scounteren := by simp [State.writeMem]
@[simp] theorem State.writeMem_mcycle (s : State) (a : Word) (n : Nat) (v : Word) : (s.writeMem a n v).mcycle = s.mcycle := by simp [State.writeMem]
@[simp] theorem State.writeMem_time (s : State) (a : Word) (n : Nat) (v : Word) : (s.writeMem a n v).time = s.time := by simp [State.writeMem]
@[simp] theorem State.writeMem_minstret (s : State) (a : Word) (n : Nat) (v : Word) : (s.writeMem a n v).minstret = s.minstret := by simp [State.writeMem]
@[simp] theorem State.writeMem_lines (s : State) (a : Word) (n : Nat) (v : Word) : (s.writeMem a n v).lines = s.lines := by simp [State.writeMem]
@[simp] theorem State.writeMem_inputs (s : State) (a : Word) (n : Nat) (v : Word) : (s.writeMem a n v).inputs = s.inputs := by simp [State.writeMem]

@[simp] theorem State.readMem_cfg (s : State) (a : Word) (n : Nat) : (s.readMem a n).2.cfg = s.cfg := by unfold State.readMem; dsimp only; split <;> rfl
@[simp] theorem State.readMem_x (s : State) (a : Word) (n : Nat) : (s.readMem a n).2.x = s.x := by unfold State.readMem; dsimp only; split <;> rfl
@[simp] theorem State.readMem_pc (s : State) (a : Word) (n : Nat) : (s.readMem a n).2.pc = s.pc := by unfold State.readMem; dsimp only; split <;> rfl
@[simp] theorem State.readMem_f (s : State) (a : Word) (n : Nat) : (s.readMem a n).2.f = s.f := by unfold State.readMem; dsimp only; split <;> rfl
@[simp] theorem State.readMem_fflags (s : State) (a : Word) (n : Nat) : (s.readMem a n).2.fflags = s.fflags := by unfold State.readMem; dsimp only; split <;> rfl
@[simp] theorem State.readMem_frm (s : State) (a : Word) (n : Nat) : (s.readMem a n).2.frm = s.frm := by unfold State.readMem; dsimp only; split <;> rfl
@[simp] theorem State.readMem_priv (s : State) (a : Word) (n : Nat) : (s.readMem a n).2.priv = s.priv := by unfold State.readMem; dsimp only; split <;> rfl
@[simp] theorem State.readMem_mstatus (s : State) (a : Word) (n : Nat) : (s.readMem a n).2.mstatus = s.mstatus := by unfold State.readMem; dsimp only; split <;> rfl
@[simp] theorem State.readMem_mepc (s : State) (a : Word) (n : Nat) : (s.readMem a n).2.mepc = s.mepc := by unfold State.readMem; dsimp only; split <;> rfl
@[simp] theorem State.readMem_mtvec (s : State) (a : Word) (n : Nat) : (s.readMem a n).2.mtvec = s.mtvec := by unfold State.readMem; dsimp only; split <;> rfl
@[simp] theorem State.readMem_mcause (s : State) (a : Word) (n : Nat) : (s.readMem a n).2.mcause = s.mcause := by unfold State.readMem; dsimp only; split <;> rfl
@[simp] theorem State.readMem_mtval (s : State) (a : Word) (n : Nat) : (s.readMem a n).2.mtval = s.mtval := by unfold State.readMem; dsimp only; split <;> rfl
@[simp] theorem State.readMem_mscratch (s : State) (a : Word) (n : Nat) : (s.readMem a n).2.mscratch = s.mscratch := by unfold State.readMem; dsimp only; split <;> rfl
@[simp] theorem State.readMem_sepc (s : State) (a : Word) (n : Nat) : (s.readMem a n).2.sepc = s.sepc := by unfold State.readMem; dsimp only; split <;> rfl
@[simp] theorem State.readMem_stvec (s : State) (a : Word) (n : Nat) : (s.readMem a n).2.stvec = s.stvec := by unfold State.readMem; dsimp only; split <;> rfl
@[simp] theorem State.readMem_scause (s : State) (a : Word) (n : Nat) : (s.readMem a n).2.scause = s.scause := by unfold State.readMem; dsimp only; split <;> rfl
@[simp] theorem State.readMem_stval (s : State) (a : Word) (n : Nat) : (s.readMem a n).2.stval = s.stval := by unfold State.readMem; dsimp only; split <;> rfl
@[simp] theorem State.readMem_sscratch (s : State) (a : Word) (n : Nat) : (s.readMem a n).2.sscratch = s.sscratch := by unfold State.readMem; dsimp only; split <;> rfl
@[simp] theorem State.readMem_medeleg (s : State) (a : Word) (n : Nat) : (s.readMem a n).2.medeleg = s.medeleg := by unfold State.readMem; dsimp only; split <;> rfl
@[simp] theorem State.readMem_mideleg (s : State) (a : Word) (n : Nat) : (s.readMem a n).2.mideleg = s.mideleg := by unfold State.readMem; dsimp only; split <;> rfl
@[simp] theorem State.readMem_mie (s : State) (a : Word) (n : Nat) : (s.readMem a n).2.mie = s.mie := by unfold State.readMem; dsimp only; split <;> rfl
@[simp] theorem State.readMem_mipSoft (s : State) (a : Word) (n : Nat) : (s.readMem a n).2.mipSoft = s.mipSoft := by unfold State.readMem; dsimp only; split <;> rfl
@[simp] theorem State.readMem_mcounteren (s : State) (a : Word) (n : Nat) : (s.readMem a n).2.mcounteren = s.mcounteren := by unfold State.readMem; dsimp only; split <;> rfl
@[simp] theorem State.readMem_scounteren (s : State) (a : Word) (n : Nat) : (s.readMem a n).2.scounteren = s.scounteren := by unfold State.readMem; dsimp only; split <;> rfl
@[simp] theorem State.readMem_mcycle (s : State) (a : Word) (n : Nat) : (s.readMem a n).2.mcycle = s.mcycle := by unfold State.readMem; dsimp only; split <;> rfl
@[simp] theorem State.readMem_time (s : State) (a : Word) (n : Nat) : (s.readMem a n).2.time = s.time := by unfold State.readMem; dsimp only; split <;> rfl
@[simp] theorem State.readMem_minstret (s : State) (a : Word) (n : Nat) : (s.readMem a n).2.minstret = s.minstret := by unfold State.readMem; dsimp only; split <;> rfl
@[simp] theorem State.readMem_reservation (s : State) (a : Word) (n : Nat) : (s.readMem a n).2.reservation = s.reservation := by unfold State.readMem; dsimp only; split <;> rfl
@[simp] theorem State.readMem_mem (s : State) (a : Word) (n : Nat) : (s.readMem a n).2.mem = s.mem := by unfold State.readMem; dsimp only; split <;> rfl
@[simp] theorem State.readMem_storeLog (s : State) (a : Word) (n : Nat) : (s.readMem a n).2.storeLog = s.storeLog := by unfold State.readMem; dsimp only; split <;> rfl
@[simp] theorem State.readMem_lines (s : State) (a : Word) (n : Nat) : (s.readMem a n).2.lines = s.lines := by unfold State.readMem; dsimp only; split <;> rfl
@[simp] theorem State.readMem_inputs (s : State) (a : Word) (n : Nat) : (s.readMem a n).2.inputs = s.inputs := by unfold State.readMem; dsimp only; split <;> rfl

@[simp] theorem State.storeBytes_cfg (s : State) (a : Word) (n : Nat) (v : Word) : (s.storeBytes a n v).cfg = s.cfg := foldl_keeps _ (fun t => t.cfg) (fun t _ => State.writeMem_cfg t _ _ _) _ _
@[simp] theorem State.storeBytes_x (s : State) (a : Word) (n : Nat) (v : Word) : (s.storeBytes a n v).x = s.x := foldl_keeps _ (fun t => t.x) (fun t _ => State.writeMem_x t _ _ _) _ _
@[simp] theorem State.storeBytes_pc (s : State) (a : Word) (n : Nat) (v : Word) : (s.storeBytes a n v).pc = s.pc := foldl_keeps _ (fun t => t.pc) (fun t _ => State.writeMem_pc t _ _ _) _ _
@[simp] theorem State.storeBytes_f (s : State) (a : Word) (n : Nat) (v : Word) : (s.storeBytes a n v).f = s.f := foldl_keeps _ (fun t => t.f) (fun t _ => State.writeMem_f t _ _ _) _ _
@[simp] theorem State.storeBytes_fflags (s : State) (a : Word) (n : Nat) (v : Word) : (s.storeBytes a n v).fflags = s.fflags := foldl_keeps _ (fun t => t.fflags) (fun t _ => State.writeMem_fflags t _ _ _) _ _
@[simp] theorem State.storeBytes_frm (s : State) (a : Word) (n : Nat) (v : Word) : (s.storeBytes a n v).frm = s.frm := foldl_keeps _ (fun t => t.frm) (fun t _ => State.writeMem_frm t _ _ _) _ _
@[simp] theorem State.storeBytes_priv (s : State) (a : Word) (n : Nat) (v : Word) : (s.storeBytes a n v).priv = s.priv := foldl_keeps _ (fun t => t.priv) (fun t _ => State.writeMem_priv t _ _ _) _ _
@[simp] theorem State.storeBytes_mstatus (s : State) (a : Word) (n : Nat) (v : Word) : (s.storeBytes a n v).mstatus = s.mstatus := foldl_keeps _ (fun t => t.mstatus) (fun t _ => State.writeMem_mstatus t _ _ _) _ _
@[simp] theorem State.storeBytes_mepc (s : State) (a : Word) (n : Nat) (v : Word) : (s.storeBytes a n v).mepc = s.mepc := foldl_keeps _ (fun t => t.mepc) (fun t _ => State.writeMem_mepc t _ _ _) _ _
@[simp] theorem State.storeBytes_mtvec (s : State) (a : Word) (n : Nat) (v : Word) : (s.storeBytes a n v).mtvec = s.mtvec := foldl_keeps _ (fun t => t.mtvec) (fun t _ => State.writeMem_mtvec t _ _ _) _ _
@[simp] theorem State.storeBytes_mcause (s : State) (a : Word) (n : Nat) (v : Word) : (s.storeBytes a n v).mcause = s.mcause := foldl_keeps _ (fun t => t.mcause) (fun t _ => State.writeMem_mcause t _ _ _) _ _
@[simp] theorem State.storeBytes_mtval (s : State) (a : Word) (n : Nat) (v : Word) : (s.storeBytes a n v).mtval = s.mtval := foldl_keeps _ (fun t => t.mtval) (fun t _ => State.writeMem_mtval t _ _ _) _ _
@[simp] theorem State.storeBytes_mscratch (s : State) (a : Word) (n : Nat) (v : Word) : (s.storeBytes a n v).mscratch = s.mscratch := foldl_keeps _ (fun t => t.mscratch) (fun t _ => State.writeMem_mscratch t _ _ _) _ _
@[simp] theorem State.storeBytes_sepc (s : State) (a : Word) (n : Nat) (v : Word) : (s.storeBytes a n v).sepc = s.sepc := foldl_keeps _ (fun t => t.sepc) (fun t _ => State.writeMem_sepc t _ _ _) _ _
@[simp] theorem State.storeBytes_stvec (s : State) (a : Word) (n : Nat) (v : Word) : (s.storeBytes a n v).stvec = s.stvec := foldl_keeps _ (fun t => t.stvec) (fun t _ => State.writeMem_stvec t _ _ _) _ _
@[simp] theorem State.storeBytes_scause (s : State) (a : Word) (n : Nat) (v : Word) : (s.storeBytes a n v).scause = s.scause := foldl_keeps _ (fun t => t.scause) (fun t _ => State.writeMem_scause t _ _ _) _ _
@[simp] theorem State.storeBytes_stval (s : State) (a : Word) (n : Nat) (v : Word) : (s.storeBytes a n v).stval = s.stval := foldl_keeps _ (fun t => t.stval) (fun t _ => State.writeMem_stval t _ _ _) _ _
@[simp] theorem State.storeBytes_sscratch (s : State) (a : Word) (n : Nat) (v : Word) : (s.storeBytes a n v).sscratch = s.sscratch := foldl_keeps _ (fun t => t.sscratch) (fun t _ => State.writeMem_sscratch t _ _ _) _ _
@[simp] theorem State.storeBytes_medeleg (s : State) (a : Word) (n : Nat) (v : Word) : (s.storeBytes a n v).medeleg = s.medeleg := foldl_keeps _ (fun t => t.medeleg) (fun t _ => State.writeMem_medeleg t _ _ _) _ _
@[simp] theorem State.storeBytes_mideleg (s : State) (a : Word) (n : Nat) (v : Word) : (s.storeBytes a n v).mideleg = s.mideleg := foldl_keeps _ (fun t => t.mideleg) (fun t _ => State.writeMem_mideleg t _ _ _) _ _
@[simp] theorem State.storeBytes_mie (s : State) (a : Word) (n : Nat) (v : Word) : (s.storeBytes a n v).mie = s.mie := foldl_keeps _ (fun t => t.mie) (fun t _ => State.writeMem_mie t _ _ _) _ _
@[simp] theorem State.storeBytes_mipSoft (s : State) (a : Word) (n : Nat) (v : Word) : (s.storeBytes a n v).mipSoft = s.mipSoft := foldl_keeps _ (fun t => t.mipSoft) (fun t _ => State.writeMem_mipSoft t _ _ _) _ _
@[simp] theorem State.storeBytes_mcounteren (s : State) (a : Word) (n : Nat) (v : Word) : (s.storeBytes a n v).mcounteren = s.mcounteren := foldl_keeps _ (fun t => t.mcounteren) (fun t _ => State.writeMem_mcounteren t _ _ _) _ _
@[simp] theorem State.storeBytes_scounteren (s : State) (a : Word) (n : Nat) (v : Word) : (s.storeBytes a n v).scounteren = s.scounteren := foldl_keeps _ (fun t => t.scounteren) (fun t _ => State.writeMem_scounteren t _ _ _) _ _
@[simp] theorem State.storeBytes_mcycle (s : State) (a : Word) (n : Nat) (v : Word) : (s.storeBytes a n v).mcycle = s.mcycle := foldl_keeps _ (fun t => t.mcycle) (fun t _ => State.writeMem_mcycle t _ _ _) _ _
@[simp] theorem State.storeBytes_time (s : State) (a : Word) (n : Nat) (v : Word) : (s.storeBytes a n v).time = s.time := foldl_keeps _ (fun t => t.time) (fun t _ => State.writeMem_time t _ _ _) _ _
@[simp] theorem State.storeBytes_minstret (s : State) (a : Word) (n : Nat) (v : Word) : (s.storeBytes a n v).minstret = s.minstret := foldl_keeps _ (fun t => t.minstret) (fun t _ => State.writeMem_minstret t _ _ _) _ _
@[simp] theorem State.storeBytes_lines (s : State) (a : Word) (n : Nat) (v : Word) : (s.storeBytes a n v).lines = s.lines := foldl_keeps _ (fun t => t.lines) (fun t _ => State.writeMem_lines t _ _ _) _ _
@[simp] theorem State.storeBytes_inputs (s : State) (a : Word) (n : Nat) (v : Word) : (s.storeBytes a n v).inputs = s.inputs := foldl_keeps _ (fun t => t.inputs) (fun t _ => State.writeMem_inputs t _ _ _) _ _

@[simp] theorem State.loadBytes_cfg (s : State) (a : Word) (n : Nat) : (s.loadBytes a n).2.cfg = s.cfg := by unfold State.loadBytes; split; exact foldl_keeps _ (fun r : Nat × State => r.2.cfg) (fun (r : Nat × State) _ => State.readMem_cfg r.2 _ _) _ _; exact State.readMem_cfg s a n
@[simp] theorem State.loadBytes_x (s : State) (a : Word) (n : Nat) : (s.loadBytes a n).2.x = s.x := by unfold State.loadBytes; split; exact foldl_keeps _ (fun r : Nat × State => r.2.x) (fun (r : Nat × State) _ => State.readMem_x r.2 _ _) _ _; exact State.readMem_x s a n
@[simp] theorem State.loadBytes_pc (s : State) (a : Word) (n : Nat) : (s.loadBytes a n).2.pc = s.pc := by unfold State.loadBytes; split; exact foldl_keeps _ (fun r : Nat × State => r.2.pc) (fun (r : Nat × State) _ => State.readMem_pc r.2 _ _) _ _; exact State.readMem_pc s a n
@[simp] theorem State.loadBytes_f (s : State) (a : Word) (n : Nat) : (s.loadBytes a n).2.f = s.f := by unfold State.loadBytes; split; exact foldl_keeps _ (fun r : Nat × State => r.2.f) (fun (r : Nat × State) _ => State.readMem_f r.2 _ _) _ _; exact State.readMem_f s a n
@[simp] theorem State.loadBytes_fflags (s : State) (a : Word) (n : Nat) : (s.loadBytes a n).2.fflags = s.fflags := by unfold State.loadBytes; split; exact foldl_keeps _ (fun r : Nat × State => r.2.fflags) (fun (r : Nat × State) _ => State.readMem_fflags r.2 _ _) _ _; exact State.readMem_fflags s a n
@[simp] theorem State.loadBytes_frm (s : State) (a : Word) (n : Nat) : (s.loadBytes a n).2.frm = s.frm := by unfold State.loadBytes; split; exact foldl_keeps _ (fun r : Nat × State => r.2.frm) (fun (r : Nat × State) _ => State.readMem_frm r.2 _ _) _ _; exact State.readMem_frm s a n
@[simp] theorem State.loadBytes_priv (s : State) (a : Word) (n : Nat) : (s.loadBytes a n).2.priv = s.priv := by unfold State.loadBytes; split; exact foldl_keeps _ (fun r : Nat × State => r.2.priv) (fun (r : Nat × State) _ => State.readMem_priv r.2 _ _) _ _; exact State.readMem_priv s a n
@[simp] theorem State.loadBytes_mstatus (s : State) (a : Word) (n : Nat) : (s.loadBytes a n).2.mstatus = s.mstatus := by unfold State.loadBytes; split; exact foldl_keeps _ (fun r : Nat × State => r.2.mstatus) (fun (r : Nat × State) _ => State.readMem_mstatus r.2 _ _) _ _; exact State.readMem_mstatus s a n
@[simp] theorem State.loadBytes_mepc (s : State) (a : Word) (n : Nat) : (s.loadBytes a n).2.mepc = s.mepc := by unfold State.loadBytes; split; exact foldl_keeps _ (fun r : Nat × State => r.2.mepc) (fun (r : Nat × State) _ => State.readMem_mepc r.2 _ _) _ _; exact State.readMem_mepc s a n
@[simp] theorem State.loadBytes_mtvec (s : State) (a : Word) (n : Nat) : (s.loadBytes a n).2.mtvec = s.mtvec := by unfold State.loadBytes; split; exact foldl_keeps _ (fun r : Nat × State => r.2.mtvec) (fun (r : Nat × State) _ => State.readMem_mtvec r.2 _ _) _ _; exact State.readMem_mtvec s a n
@[simp] theorem State.loadBytes_mcause (s : State) (a : Word) (n : Nat) : (s.loadBytes a n).2.mcause = s.mcause := by unfold State.loadBytes; split; exact foldl_keeps _ (fun r : Nat × State => r.2.mcause) (fun (r : Nat × State) _ => State.readMem_mcause r.2 _ _) _ _; exact State.readMem_mcause s a n
@[simp] theorem State.loadBytes_mtval (s : State) (a : Word) (n : Nat) : (s.loadBytes a n).2.mtval = s.mtval := by unfold State.loadBytes; split; exact foldl_keeps _ (fun r : Nat × State => r.2.mtval) (fun (r : Nat × State) _ => State.readMem_mtval r.2 _ _) _ _; exact State.readMem_mtval s a n
@[simp] theorem State.loadBytes_mscratch (s : State) (a : Word) (n : Nat) : (s.loadBytes a n).2.mscratch = s.mscratch := by unfold State.loadBytes; split; exact foldl_keeps _ (fun r : Nat × State => r.2.mscratch) (fun (r : Nat × State) _ => State.readMem_mscratch r.2 _ _) _ _; exact State.readMem_mscratch s a n
@[simp] theorem State.loadBytes_sepc (s : State) (a : Word) (n : Nat) : (s.loadBytes a n).2.sepc = s.sepc := by unfold State.loadBytes; split; exact foldl_keeps _ (fun r : Nat × State => r.2.sepc) (fun (r : Nat × State) _ => State.readMem_sepc r.2 _ _) _ _; exact State.readMem_sepc s a n
@[simp] theorem State.loadBytes_stvec (s : State) (a : Word) (n : Nat) : (s.loadBytes a n).2.stvec = s.stvec := by unfold State.loadBytes; split; exact foldl_keeps _ (fun r : Nat × State => r.2.stvec) (fun (r : Nat × State) _ => State.readMem_stvec r.2 _ _) _ _; exact State.readMem_stvec s a n
@[simp] theorem State.loadBytes_scause (s : State) (a : Word) (n : Nat) : (s.loadBytes a n).2.scause = s.scause := by unfold State.loadBytes; split; exact foldl_keeps _ (fun r : Nat × State => r.2.scause) (fun (r : Nat × State) _ => State.readMem_scause r.2 _ _) _ _; exact State.readMem_scause s a n
@[simp] theorem State.loadBytes_stval (s : State) (a : Word) (n : Nat) : (s.loadBytes a n).2.stval = s.stval := by unfold State.loadBytes; split; exact foldl_keeps _ (fun r : Nat × State => r.2.stval) (fun (r : Nat × State) _ => State.readMem_stval r.2 _ _) _ _; exact State.readMem_stval s a n
@[simp] theorem State.loadBytes_sscratch (s : State) (a : Word) (n : Nat) : (s.loadBytes a n).2.sscratch = s.sscratch := by unfold State.loadBytes; split; exact foldl_keeps _ (fun r : Nat × State => r.2.sscratch) (fun (r : Nat × State) _ => State.readMem_sscratch r.2 _ _) _ _; exact State.readMem_sscratch s a n
@[simp] theorem State.loadBytes_medeleg (s : State) (a : Word) (n : Nat) : (s.loadBytes a n).2.medeleg = s.medeleg := by unfold State.loadBytes; split; exact foldl_keeps _ (fun r : Nat × State => r.2.medeleg) (fun (r : Nat × State) _ => State.readMem_medeleg r.2 _ _) _ _; exact State.readMem_medeleg s a n
@[simp] theorem State.loadBytes_mideleg (s : State) (a : Word) (n : Nat) : (s.loadBytes a n).2.mideleg = s.mideleg := by unfold State.loadBytes; split; exact foldl_keeps _ (fun r : Nat × State => r.2.mideleg) (fun (r : Nat × State) _ => State.readMem_mideleg r.2 _ _) _ _; exact State.readMem_mideleg s a n
@[simp] theorem State.loadBytes_mie (s : State) (a : Word) (n : Nat) : (s.loadBytes a n).2.mie = s.mie := by unfold State.loadBytes; split; exact foldl_keeps _ (fun r : Nat × State => r.2.mie) (fun (r : Nat × State) _ => State.readMem_mie r.2 _ _) _ _; exact State.readMem_mie s a n
@[simp] theorem State.loadBytes_mipSoft (s : State) (a : Word) (n : Nat) : (s.loadBytes a n).2.mipSoft = s.mipSoft := by unfold State.loadBytes; split; exact foldl_keeps _ (fun r : Nat × State => r.2.mipSoft) (fun (r : Nat × State) _ => State.readMem_mipSoft r.2 _ _) _ _; exact State.readMem_mipSoft s a n
@[simp] theorem State.loadBytes_mcounteren (s : State) (a : Word) (n : Nat) : (s.loadBytes a n).2.mcounteren = s.mcounteren := by unfold State.loadBytes; split; exact foldl_keeps _ (fun r : Nat × State => r.2.mcounteren) (fun (r : Nat × State) _ => State.readMem_mcounteren r.2 _ _) _ _; exact State.readMem_mcounteren s a n
@[simp] theorem State.loadBytes_scounteren (s : State) (a : Word) (n : Nat) : (s.loadBytes a n).2.scounteren = s.scounteren := by unfold State.loadBytes; split; exact foldl_keeps _ (fun r : Nat × State => r.2.scounteren) (fun (r : Nat × State) _ => State.readMem_scounteren r.2 _ _) _ _; exact State.readMem_scounteren s a n
@[simp] theorem State.loadBytes_mcycle (s : State) (a : Word) (n : Nat) : (s.loadBytes a n).2.mcycle = s.mcycle := by unfold State.loadBytes; split; exact foldl_keeps _ (fun r : Nat × State => r.2.mcycle) (fun (r : Nat × State) _ => State.readMem_mcycle r.2 _ _) _ _; exact State.readMem_mcycle s a n
@[simp] theorem State.loadBytes_time (s : State) (a : Word) (n : Nat) : (s.loadBytes a n).2.time = s.time := by unfold State.loadBytes; split; exact foldl_keeps _ (fun r : Nat × State => r.2.time) (fun (r : Nat × State) _ => State.readMem_time r.2 _ _) _ _; exact State.readMem_time s a n
@[simp] theorem State.loadBytes_minstret (s : State) (a : Word) (n : Nat) : (s.loadBytes a n).2.minstret = s.minstret := by unfold State.loadBytes; split; exact foldl_keeps _ (fun r : Nat × State => r.2.minstret) (fun (r : Nat × State) _ => State.readMem_minstret r.2 _ _) _ _; exact State.readMem_minstret s a n
@[simp] theorem State.loadBytes_reservation (s : State) (a : Word) (n : Nat) : (s.loadBytes a n).2.reservation = s.reservation := by unfold State.loadBytes; split; exact foldl_keeps _ (fun r : Nat × State => r.2.reservation) (fun (r : Nat × State) _ => State.readMem_reservation r.2 _ _) _ _; exact State.readMem_reservation s a n
@[simp] theorem State.loadBytes_mem (s : State) (a : Word) (n : Nat) : (s.loadBytes a n).2.mem = s.mem := by unfold State.loadBytes; split; exact foldl_keeps _ (fun r : Nat × State => r.2.mem) (fun (r : Nat × State) _ => State.readMem_mem r.2 _ _) _ _; exact State.readMem_mem s a n
@[simp] theorem State.loadBytes_storeLog (s : State) (a : Word) (n : Nat) : (s.loadBytes a n).2.storeLog = s.storeLog := by unfold State.loadBytes; split; exact foldl_keeps _ (fun r : Nat × State => r.2.storeLog) (fun (r : Nat × State) _ => State.readMem_storeLog r.2 _ _) _ _; exact State.readMem_storeLog s a n
@[simp] theorem State.loadBytes_lines (s : State) (a : Word) (n : Nat) : (s.loadBytes a n).2.lines = s.lines := by unfold State.loadBytes; split; exact foldl_keeps _ (fun r : Nat × State => r.2.lines) (fun (r : Nat × State) _ => State.readMem_lines r.2 _ _) _ _; exact State.readMem_lines s a n
@[simp] theorem State.loadBytes_inputs (s : State) (a : Word) (n : Nat) : (s.loadBytes a n).2.inputs = s.inputs := by unfold State.loadBytes; split; exact foldl_keeps _ (fun r : Nat × State => r.2.inputs) (fun (r : Nat × State) _ => State.readMem_inputs r.2 _ _) _ _; exact State.readMem_inputs s a n

@[simp] theorem State.enterM_cfg (s : State) (c : Cause) (v : Word) : (s.enterM c v).cfg = s.cfg := rfl
@[simp] theorem State.enterM_x (s : State) (c : Cause) (v : Word) : (s.enterM c v).x = s.x := rfl
@[simp] theorem State.enterM_f (s : State) (c : Cause) (v : Word) : (s.enterM c v).f = s.f := rfl
@[simp] theorem State.enterM_fflags (s : State) (c : Cause) (v : Word) : (s.enterM c v).fflags = s.fflags := rfl
@[simp] theorem State.enterM_frm (s : State) (c : Cause) (v : Word) : (s.enterM c v).frm = s.frm := rfl
@[simp] theorem State.enterM_mtvec (s : State) (c : Cause) (v : Word) : (s.enterM c v).mtvec = s.mtvec := rfl
@[simp] theorem State.enterM_mscratch (s : State) (c : Cause) (v : Word) : (s.enterM c v).mscratch = s.mscratch := rfl
@[simp] theorem State.enterM_sepc (s : State) (c : Cause) (v : Word) : (s.enterM c v).sepc = s.sepc := rfl
@[simp] theorem State.enterM_stvec (s : State) (c : Cause) (v : Word) : (s.enterM c v).stvec = s.stvec := rfl
@[simp] theorem State.enterM_scause (s : State) (c : Cause) (v : Word) : (s.enterM c v).scause = s.scause := rfl
@[simp] theorem State.enterM_stval (s : State) (c : Cause) (v : Word) : (s.enterM c v).stval = s.stval := rfl
@[simp] theorem State.enterM_sscratch (s : State) (c : Cause) (v : Word) : (s.enterM c v).sscratch = s.sscratch := rfl
@[simp] theorem State.enterM_medeleg (s : State) (c : Cause) (v : Word) : (s.enterM c v).medeleg = s.medeleg := rfl
@[simp] theorem State.enterM_mideleg (s : State) (c : Cause) (v : Word) : (s.enterM c v).mideleg = s.mideleg := rfl
@[simp] theorem State.enterM_mie (s : State) (c : Cause) (v : Word) : (s.enterM c v).mie = s.mie := rfl
@[simp] theorem State.enterM_mipSoft (s : State) (c : Cause) (v : Word) : (s.enterM c v).mipSoft = s.mipSoft := rfl
@[simp] theorem State.enterM_mcounteren (s : State) (c : Cause) (v : Word) : (s.enterM c v).mcounteren = s.mcounteren := rfl
@[simp] theorem State.enterM_scounteren (s : State) (c : Cause) (v : Word) : (s.enterM c v).scounteren = s.scounteren := rfl
@[simp] theorem State.enterM_mcycle (s : State) (c : Cause) (v : Word) : (s.enterM c v).mcycle = s.mcycle := rfl
@[simp] theorem State.enterM_time (s : State) (c : Cause) (v : Word) : (s.enterM c v).time = s.time := rfl
@[simp] theorem State.enterM_minstret (s : State) (c : Cause) (v : Word) : (s.enterM c v).minstret = s.minstret := rfl
@[simp] theorem State.enterM_mem (s : State) (c : Cause) (v : Word) : (s.enterM c v).mem = s.mem := rfl
@[simp] theorem State.enterM_storeLog (s : State) (c : Cause) (v : Word) : (s.enterM c v).storeLog = s.storeLog := rfl
@[simp] theorem State.enterM_lines (s : State) (c : Cause) (v : Word) : (s.enterM c v).lines = s.lines := rfl
@[simp] theorem State.enterM_inputs (s : State) (c : Cause) (v : Word) : (s.enterM c v).inputs = s.inputs := rfl
@[simp] theorem State.enterM_ioLog (s : State) (c : Cause) (v : Word) : (s.enterM c v).ioLog = s.ioLog := rfl
@[simp] theorem State.enterM_draws (s : State) (c : Cause) (v : Word) : (s.enterM c v).draws = s.draws := rfl

@[simp] theorem State.enterS_cfg (s : State) (c : Cause) (v : Word) : (s.enterS c v).cfg = s.cfg := rfl
@[simp] theorem State.enterS_x (s : State) (c : Cause) (v : Word) : (s.enterS c v).x = s.x := rfl
@[simp] theorem State.enterS_f (s : State) (c : Cause) (v : Word) : (s.enterS c v).f = s.f := rfl
@[simp] theorem State.enterS_fflags (s : State) (c : Cause) (v : Word) : (s.enterS c v).fflags = s.fflags := rfl
@[simp] theorem State.enterS_frm (s : State) (c : Cause) (v : Word) : (s.enterS c v).frm = s.frm := rfl
@[simp] theorem State.enterS_mepc (s : State) (c : Cause) (v : Word) : (s.enterS c v).mepc = s.mepc := rfl
@[simp] theorem State.enterS_mtvec (s : State) (c : Cause) (v : Word) : (s.enterS c v).mtvec = s.mtvec := rfl
@[simp] theorem State.enterS_mcause (s : State) (c : Cause) (v : Word) : (s.enterS c v).mcause = s.mcause := rfl
@[simp] theorem State.enterS_mtval (s : State) (c : Cause) (v : Word) : (s.enterS c v).mtval = s.mtval := rfl
@[simp] theorem State.enterS_mscratch (s : State) (c : Cause) (v : Word) : (s.enterS c v).mscratch = s.mscratch := rfl
@[simp] theorem State.enterS_stvec (s : State) (c : Cause) (v : Word) : (s.enterS c v).stvec = s.stvec := rfl
@[simp] theorem State.enterS_sscratch (s : State) (c : Cause) (v : Word) : (s.enterS c v).sscratch = s.sscratch := rfl
@[simp] theorem State.enterS_medeleg (s : State) (c : Cause) (v : Word) : (s.enterS c v).medeleg = s.medeleg := rfl
@[simp] theorem State.enterS_mideleg (s : State) (c : Cause) (v : Word) : (s.enterS c v).mideleg = s.mideleg := rfl
@[simp] theorem State.enterS_mie (s : State) (c : Cause) (v : Word) : (s.enterS c v).mie = s.mie := rfl
@[simp] theorem State.enterS_mipSoft (s : State) (c : Cause) (v : Word) : (s.enterS c v).mipSoft = s.mipSoft := rfl
@[simp] theorem State.enterS_mcounteren (s : State) (c : Cause) (v : Word) : (s.enterS c v).mcounteren = s.mcounteren := rfl
@[simp] theorem State.enterS_scounteren (s : State) (c : Cause) (v : Word) : (s.enterS c v).scounteren = s.scounteren := rfl
@[simp] theorem State.enterS_mcycle (s : State) (c : Cause) (v : Word) : (s.enterS c v).mcycle = s.mcycle := rfl
@[simp] theorem State.enterS_time (s : State) (c : Cause) (v : Word) : (s.enterS c v).time = s.time := rfl
@[simp] theorem State.enterS_minstret (s : State) (c : Cause) (v : Word) : (s.enterS c v).minstret = s.minstret := rfl
@[simp] theorem State.enterS_mem (s : State) (c : Cause) (v : Word) : (s.enterS c v).mem = s.mem := rfl
@[simp] theorem State.enterS_storeLog (s : State) (c : Cause) (v : Word) : (s.enterS c v).storeLog = s.storeLog := rfl
@[simp] theorem State.enterS_lines (s : State) (c : Cause) (v : Word) : (s.enterS c v).lines = s.lines := rfl
@[simp] theorem State.enterS_inputs (s : State) (c : Cause) (v : Word) : (s.enterS c v).inputs = s.inputs := rfl
@[simp] theorem State.enterS_ioLog (s : State) (c : Cause) (v : Word) : (s.enterS c v).ioLog = s.ioLog := rfl
@[simp] theorem State.enterS_draws (s : State) (c : Cause) (v : Word) : (s.enterS c v).draws = s.draws := rfl

@[simp] theorem State.takeTrap_cfg (s : State) (c : Cause) (v : Word) : (s.takeTrap c v).cfg = s.cfg := by unfold State.takeTrap; split <;> rfl
@[simp] theorem State.takeTrap_x (s : State) (c : Cause) (v : Word) : (s.takeTrap c v).x = s.x := by unfold State.takeTrap; split <;> rfl
@[simp] theorem State.takeTrap_f (s : State) (c : Cause) (v : Word) : (s.takeTrap c v).f = s.f := by unfold State.takeTrap; split <;> rfl
@[simp] theorem State.takeTrap_fflags (s : State) (c : Cause) (v : Word) : (s.takeTrap c v).fflags = s.fflags := by unfold State.takeTrap; split <;> rfl
@[simp] theorem State.takeTrap_frm (s : State) (c : Cause) (v : Word) : (s.takeTrap c v).frm = s.frm := by unfold State.takeTrap; split <;> rfl
@[simp] theorem State.takeTrap_mtvec (s : State) (c : Cause) (v : Word) : (s.takeTrap c v).mtvec = s.mtvec := by unfold State.takeTrap; split <;> rfl
@[simp] theorem State.takeTrap_mscratch (s : State) (c : Cause) (v : Word) : (s.takeTrap c v).mscratch = s.mscratch := by unfold State.takeTrap; split <;> rfl
@[simp] theorem State.takeTrap_stvec (s : State) (c : Cause) (v : Word) : (s.takeTrap c v).stvec = s.stvec := by unfold State.takeTrap; split <;> rfl
@[simp] theorem State.takeTrap_sscratch (s : State) (c : Cause) (v : Word) : (s.takeTrap c v).sscratch = s.sscratch := by unfold State.takeTrap; split <;> rfl
@[simp] theorem State.takeTrap_medeleg (s : State) (c : Cause) (v : Word) : (s.takeTrap c v).medeleg = s.medeleg := by unfold State.takeTrap; split <;> rfl
@[simp] theorem State.takeTrap_mideleg (s : State) (c : Cause) (v : Word) : (s.takeTrap c v).mideleg = s.mideleg := by unfold State.takeTrap; split <;> rfl
@[simp] theorem State.takeTrap_mie (s : State) (c : Cause) (v : Word) : (s.takeTrap c v).mie = s.mie := by unfold State.takeTrap; split <;> rfl
@[simp] theorem State.takeTrap_mipSoft (s : State) (c : Cause) (v : Word) : (s.takeTrap c v).mipSoft = s.mipSoft := by unfold State.takeTrap; split <;> rfl
@[simp] theorem State.takeTrap_mcounteren (s : State) (c : Cause) (v : Word) : (s.takeTrap c v).mcounteren = s.mcounteren := by unfold State.takeTrap; split <;> rfl
@[simp] theorem State.takeTrap_scounteren (s : State) (c : Cause) (v : Word) : (s.takeTrap c v).scounteren = s.scounteren := by unfold State.takeTrap; split <;> rfl
@[simp] theorem State.takeTrap_mcycle (s : State) (c : Cause) (v : Word) : (s.takeTrap c v).mcycle = s.mcycle := by unfold State.takeTrap; split <;> rfl
@[simp] theorem State.takeTrap_time (s : State) (c : Cause) (v : Word) : (s.takeTrap c v).time = s.time := by unfold State.takeTrap; split <;> rfl
@[simp] theorem State.takeTrap_minstret (s : State) (c : Cause) (v : Word) : (s.takeTrap c v).minstret = s.minstret := by unfold State.takeTrap; split <;> rfl
@[simp] theorem State.takeTrap_mem (s : State) (c : Cause) (v : Word) : (s.takeTrap c v).mem = s.mem := by unfold State.takeTrap; split <;> rfl
@[simp] theorem State.takeTrap_storeLog (s : State) (c : Cause) (v : Word) : (s.takeTrap c v).storeLog = s.storeLog := by unfold State.takeTrap; split <;> rfl
@[simp] theorem State.takeTrap_lines (s : State) (c : Cause) (v : Word) : (s.takeTrap c v).lines = s.lines := by unfold State.takeTrap; split <;> rfl
@[simp] theorem State.takeTrap_inputs (s : State) (c : Cause) (v : Word) : (s.takeTrap c v).inputs = s.inputs := by unfold State.takeTrap; split <;> rfl
@[simp] theorem State.takeTrap_ioLog (s : State) (c : Cause) (v : Word) : (s.takeTrap c v).ioLog = s.ioLog := by unfold State.takeTrap; split <;> rfl
@[simp] theorem State.takeTrap_draws (s : State) (c : Cause) (v : Word) : (s.takeTrap c v).draws = s.draws := by unfold State.takeTrap; split <;> rfl

@[simp] theorem State.returnM_cfg (s : State) : (s.returnM).cfg = s.cfg := rfl
@[simp] theorem State.returnM_x (s : State) : (s.returnM).x = s.x := rfl
@[simp] theorem State.returnM_f (s : State) : (s.returnM).f = s.f := rfl
@[simp] theorem State.returnM_fflags (s : State) : (s.returnM).fflags = s.fflags := rfl
@[simp] theorem State.returnM_frm (s : State) : (s.returnM).frm = s.frm := rfl
@[simp] theorem State.returnM_mepc (s : State) : (s.returnM).mepc = s.mepc := rfl
@[simp] theorem State.returnM_mtvec (s : State) : (s.returnM).mtvec = s.mtvec := rfl
@[simp] theorem State.returnM_mcause (s : State) : (s.returnM).mcause = s.mcause := rfl
@[simp] theorem State.returnM_mtval (s : State) : (s.returnM).mtval = s.mtval := rfl
@[simp] theorem State.returnM_mscratch (s : State) : (s.returnM).mscratch = s.mscratch := rfl
@[simp] theorem State.returnM_sepc (s : State) : (s.returnM).sepc = s.sepc := rfl
@[simp] theorem State.returnM_stvec (s : State) : (s.returnM).stvec = s.stvec := rfl
@[simp] theorem State.returnM_scause (s : State) : (s.returnM).scause = s.scause := rfl
@[simp] theorem State.returnM_stval (s : State) : (s.returnM).stval = s.stval := rfl
@[simp] theorem State.returnM_sscratch (s : State) : (s.returnM).sscratch = s.sscratch := rfl
@[simp] theorem State.returnM_medeleg (s : State) : (s.returnM).medeleg = s.medeleg := rfl
@[simp] theorem State.returnM_mideleg (s : State) : (s.returnM).mideleg = s.mideleg := rfl
@[simp] theorem State.returnM_mie (s : State) : (s.returnM).mie = s.mie := rfl
@[simp] theorem State.returnM_mipSoft (s : State) : (s.returnM).mipSoft = s.mipSoft := rfl
@[simp] theorem State.returnM_mcounteren (s : State) : (s.returnM).mcounteren = s.mcounteren := rfl
@[simp] theorem State.returnM_scounteren (s : State) : (s.returnM).scounteren = s.scounteren := rfl
@[simp] theorem State.returnM_mcycle (s : State) : (s.returnM).mcycle = s.mcycle := rfl
@[simp] theorem State.returnM_time (s : State) : (s.returnM).time = s.time := rfl
@[simp] theorem State.returnM_minstret (s : State) : (s.returnM).minstret = s.minstret := rfl
@[simp] theorem State.returnM_mem (s : State) : (s.returnM).mem = s.mem := rfl
@[simp] theorem State.returnM_storeLog (s : State) : (s.returnM).storeLog = s.storeLog := rfl
@[simp] theorem State.returnM_lines (s : State) : (s.returnM).lines = s.lines := rfl
@[simp] theorem State.returnM_inputs (s : State) : (s.returnM).inputs = s.inputs := rfl
@[simp] theorem State.returnM_ioLog (s : State) : (s.returnM).ioLog = s.ioLog := rfl
@[simp] theorem State.returnM_draws (s : State) : (s.returnM).draws = s.draws := rfl

@[simp] theorem State.returnS_cfg (s : State) : (s.returnS).cfg = s.cfg := rfl
@[simp] theorem State.returnS_x (s : State) : (s.returnS).x = s.x := rfl
@[simp] theorem State.returnS_f (s : State) : (s.returnS).f = s.f := rfl
@[simp] theorem State.returnS_fflags (s : State) : (s.returnS).fflags = s.fflags := rfl
@[simp] theorem State.returnS_frm (s : State) : (s.returnS).frm = s.frm := rfl
@[simp] theorem State.returnS_mepc (s : State) : (s.returnS).mepc = s.mepc := rfl
@[simp] theorem State.returnS_mtvec (s : State) : (s.returnS).mtvec = s.mtvec := rfl
@[simp] theorem State.returnS_mcause (s : State) : (s.returnS).mcause = s.mcause := rfl
@[simp] theorem State.returnS_mtval (s : State) : (s.returnS).mtval = s.mtval := rfl
@[simp] theorem State.returnS_mscratch (s : State) : (s.returnS).mscratch = s.mscratch := rfl
@[simp] theorem State.returnS_sepc (s : State) : (s.returnS).sepc = s.sepc := rfl
@[simp] theorem State.returnS_stvec (s : State) : (s.returnS).stvec = s.stvec := rfl
@[simp] theorem State.returnS_scause (s : State) : (s.returnS).scause = s.scause := rfl
@[simp] theorem State.returnS_stval (s : State) : (s.returnS).stval = s.stval := rfl
@[simp] theorem State.returnS_sscratch (s : State) : (s.returnS).sscratch = s.sscratch := rfl
@[simp] theorem State.returnS_medeleg (s : State) : (s.returnS).medeleg = s.medeleg := rfl
@[simp] theorem State.returnS_mideleg (s : State) : (s.returnS).mideleg = s.mideleg := rfl
@[simp] theorem State.returnS_mie (s : State) : (s.returnS).mie = s.mie := rfl
@[simp] theorem State.returnS_mipSoft (s : State) : (s.returnS).mipSoft = s.mipSoft := rfl
@[simp] theorem State.returnS_mcounteren (s : State) : (s.returnS).mcounteren = s.mcounteren := rfl
@[simp] theorem State.returnS_scounteren (s : State) : (s.returnS).scounteren = s.scounteren := rfl
@[simp] theorem State.returnS_mcycle (s : State) : (s.returnS).mcycle = s.mcycle := rfl
@[simp] theorem State.returnS_time (s : State) : (s.returnS).time = s.time := rfl
@[simp] theorem State.returnS_minstret (s : State) : (s.returnS).minstret = s.minstret := rfl
@[simp] theorem State.returnS_mem (s : State) : (s.returnS).mem = s.mem := rfl
@[simp] theorem State.returnS_storeLog (s : State) : (s.returnS).storeLog = s.storeLog := rfl
@[simp] theorem State.returnS_lines (s : State) : (s.returnS).lines = s.lines := rfl
@[simp] theorem State.returnS_inputs (s : State) : (s.returnS).inputs = s.inputs := rfl
@[simp] theorem State.returnS_ioLog (s : State) : (s.returnS).ioLog = s.ioLog := rfl
@[simp] theorem State.returnS_draws (s : State) : (s.returnS).draws = s.draws := rfl

@[simp] theorem State.sample_cfg (s : State) : (s.sample).cfg = s.cfg := by unfold State.sample; split <;> rfl
@[simp] theorem State.sample_x (s : State) : (s.sample).x = s.x := by unfold State.sample; split <;> rfl
@[simp] theorem State.sample_pc (s : State) : (s.sample).pc = s.pc := by unfold State.sample; split <;> rfl
@[simp] theorem State.sample_f (s : State) : (s.sample).f = s.f := by unfold State.sample; split <;> rfl
@[simp] theorem State.sample_fflags (s : State) : (s.sample).fflags = s.fflags := by unfold State.sample; split <;> rfl
@[simp] theorem State.sample_frm (s : State) : (s.sample).frm = s.frm := by unfold State.sample; split <;> rfl
@[simp] theorem State.sample_priv (s : State) : (s.sample).priv = s.priv := by unfold State.sample; split <;> rfl
@[simp] theorem State.sample_mstatus (s : State) : (s.sample).mstatus = s.mstatus := by unfold State.sample; split <;> rfl
@[simp] theorem State.sample_mepc (s : State) : (s.sample).mepc = s.mepc := by unfold State.sample; split <;> rfl
@[simp] theorem State.sample_mtvec (s : State) : (s.sample).mtvec = s.mtvec := by unfold State.sample; split <;> rfl
@[simp] theorem State.sample_mcause (s : State) : (s.sample).mcause = s.mcause := by unfold State.sample; split <;> rfl
@[simp] theorem State.sample_mtval (s : State) : (s.sample).mtval = s.mtval := by unfold State.sample; split <;> rfl
@[simp] theorem State.sample_mscratch (s : State) : (s.sample).mscratch = s.mscratch := by unfold State.sample; split <;> rfl
@[simp] theorem State.sample_sepc (s : State) : (s.sample).sepc = s.sepc := by unfold State.sample; split <;> rfl
@[simp] theorem State.sample_stvec (s : State) : (s.sample).stvec = s.stvec := by unfold State.sample; split <;> rfl
@[simp] theorem State.sample_scause (s : State) : (s.sample).scause = s.scause := by unfold State.sample; split <;> rfl
@[simp] theorem State.sample_stval (s : State) : (s.sample).stval = s.stval := by unfold State.sample; split <;> rfl
@[simp] theorem State.sample_sscratch (s : State) : (s.sample).sscratch = s.sscratch := by unfold State.sample; split <;> rfl
@[simp] theorem State.sample_medeleg (s : State) : (s.sample).medeleg = s.medeleg := by unfold State.sample; split <;> rfl
@[simp] theorem State.sample_mideleg (s : State) : (s.sample).mideleg = s.mideleg := by unfold State.sample; split <;> rfl
@[simp] theorem State.sample_mie (s : State) : (s.sample).mie = s.mie := by unfold State.sample; split <;> rfl
@[simp] theorem State.sample_mipSoft (s : State) : (s.sample).mipSoft = s.mipSoft := by unfold State.sample; split <;> rfl
@[simp] theorem State.sample_mcounteren (s : State) : (s.sample).mcounteren = s.mcounteren := by unfold State.sample; split <;> rfl
@[simp] theorem State.sample_scounteren (s : State) : (s.sample).scounteren = s.scounteren := by unfold State.sample; split <;> rfl
@[simp] theorem State.sample_mcycle (s : State) : (s.sample).mcycle = s.mcycle := by unfold State.sample; split <;> rfl
@[simp] theorem State.sample_time (s : State) : (s.sample).time = s.time := by unfold State.sample; split <;> rfl
@[simp] theorem State.sample_minstret (s : State) : (s.sample).minstret = s.minstret := by unfold State.sample; split <;> rfl
@[simp] theorem State.sample_reservation (s : State) : (s.sample).reservation = s.reservation := by unfold State.sample; split <;> rfl
@[simp] theorem State.sample_mem (s : State) : (s.sample).mem = s.mem := by unfold State.sample; split <;> rfl
@[simp] theorem State.sample_storeLog (s : State) : (s.sample).storeLog = s.storeLog := by unfold State.sample; split <;> rfl
@[simp] theorem State.sample_ioLog (s : State) : (s.sample).ioLog = s.ioLog := by unfold State.sample; split <;> rfl
@[simp] theorem State.sample_draws (s : State) : (s.sample).draws = s.draws := by unfold State.sample; split <;> rfl

@[simp] theorem State.afterReset_cfg (s : State) : (s.afterReset).cfg = s.cfg := rfl
@[simp] theorem State.afterReset_mem (s : State) : (s.afterReset).mem = s.mem := rfl
@[simp] theorem State.afterReset_lines (s : State) : (s.afterReset).lines = s.lines := rfl
@[simp] theorem State.afterReset_inputs (s : State) : (s.afterReset).inputs = s.inputs := rfl
@[simp] theorem State.afterReset_ioLog (s : State) : (s.afterReset).ioLog = s.ioLog := rfl
@[simp] theorem State.afterReset_draws (s : State) : (s.afterReset).draws = s.draws := rfl

@[simp] theorem State.resetWith_pc (c : Config) : (State.resetWith c).pc = Config.cut c c.resetVector := rfl
@[simp] theorem State.resetWith_priv (c : Config) : (State.resetWith c).priv = .machine := rfl
@[simp] theorem State.resetWith_mcause (c : Config) : (State.resetWith c).mcause = 0 := rfl
@[simp] theorem State.resetWith_reservation (c : Config) : (State.resetWith c).reservation = none := rfl
@[simp] theorem State.resetWith_storeLog (c : Config) : (State.resetWith c).storeLog = [] := rfl
@[simp] theorem State.resetWith_mie (c : Config) : (State.resetWith c).mie = 0 := rfl
@[simp] theorem State.resetWith_mtvec (c : Config) : (State.resetWith c).mtvec = Config.cut c (c.mtvecReset.getD 0) := rfl

@[simp] theorem State.afterReset_x (s : State) : s.afterReset.x = (State.resetWith s.cfg).x := rfl
@[simp] theorem State.afterReset_pc (s : State) : s.afterReset.pc = (State.resetWith s.cfg).pc := rfl
@[simp] theorem State.afterReset_f (s : State) : s.afterReset.f = (State.resetWith s.cfg).f := rfl
@[simp] theorem State.afterReset_fflags (s : State) : s.afterReset.fflags = (State.resetWith s.cfg).fflags := rfl
@[simp] theorem State.afterReset_frm (s : State) : s.afterReset.frm = (State.resetWith s.cfg).frm := rfl
@[simp] theorem State.afterReset_priv (s : State) : s.afterReset.priv = (State.resetWith s.cfg).priv := rfl
@[simp] theorem State.afterReset_mstatus (s : State) : s.afterReset.mstatus = (State.resetWith s.cfg).mstatus := rfl
@[simp] theorem State.afterReset_mepc (s : State) : s.afterReset.mepc = (State.resetWith s.cfg).mepc := rfl
@[simp] theorem State.afterReset_mtvec (s : State) : s.afterReset.mtvec = (State.resetWith s.cfg).mtvec := rfl
@[simp] theorem State.afterReset_mcause (s : State) : s.afterReset.mcause = (State.resetWith s.cfg).mcause := rfl
@[simp] theorem State.afterReset_mtval (s : State) : s.afterReset.mtval = (State.resetWith s.cfg).mtval := rfl
@[simp] theorem State.afterReset_mscratch (s : State) : s.afterReset.mscratch = (State.resetWith s.cfg).mscratch := rfl
@[simp] theorem State.afterReset_sepc (s : State) : s.afterReset.sepc = (State.resetWith s.cfg).sepc := rfl
@[simp] theorem State.afterReset_stvec (s : State) : s.afterReset.stvec = (State.resetWith s.cfg).stvec := rfl
@[simp] theorem State.afterReset_scause (s : State) : s.afterReset.scause = (State.resetWith s.cfg).scause := rfl
@[simp] theorem State.afterReset_stval (s : State) : s.afterReset.stval = (State.resetWith s.cfg).stval := rfl
@[simp] theorem State.afterReset_sscratch (s : State) : s.afterReset.sscratch = (State.resetWith s.cfg).sscratch := rfl
@[simp] theorem State.afterReset_medeleg (s : State) : s.afterReset.medeleg = (State.resetWith s.cfg).medeleg := rfl
@[simp] theorem State.afterReset_mideleg (s : State) : s.afterReset.mideleg = (State.resetWith s.cfg).mideleg := rfl
@[simp] theorem State.afterReset_mie (s : State) : s.afterReset.mie = (State.resetWith s.cfg).mie := rfl
@[simp] theorem State.afterReset_mipSoft (s : State) : s.afterReset.mipSoft = (State.resetWith s.cfg).mipSoft := rfl
@[simp] theorem State.afterReset_mcounteren (s : State) : s.afterReset.mcounteren = (State.resetWith s.cfg).mcounteren := rfl
@[simp] theorem State.afterReset_scounteren (s : State) : s.afterReset.scounteren = (State.resetWith s.cfg).scounteren := rfl
@[simp] theorem State.afterReset_mcycle (s : State) : s.afterReset.mcycle = (State.resetWith s.cfg).mcycle := rfl
@[simp] theorem State.afterReset_time (s : State) : s.afterReset.time = (State.resetWith s.cfg).time := rfl
@[simp] theorem State.afterReset_minstret (s : State) : s.afterReset.minstret = (State.resetWith s.cfg).minstret := rfl
@[simp] theorem State.afterReset_reservation (s : State) : s.afterReset.reservation = (State.resetWith s.cfg).reservation := rfl
@[simp] theorem State.afterReset_storeLog (s : State) : s.afterReset.storeLog = (State.resetWith s.cfg).storeLog := rfl

end Sys2Proof.Machine
end

