-- ==== Sys2Proof/Laws/Ops.lean ====
section
/-! SUPPORT. What each shared operation does, in numbers. -/

namespace Sys2Proof.Machine

open Sys2Proof

/-! ## Numbers -/

theorem State.xlen_eq (s : State) : s.xlen = 32 ∨ s.xlen = 64 := by
  unfold State.xlen
  cases s.cfg.xlen <;> simp [Xlen.bits]

theorem signedOf_toNat {w : Nat} (hw : 0 < w) (v : BitVec w) : signedOf w v.toNat = v.toInt := by
  obtain ⟨w, rfl⟩ : ∃ k, w = k + 1 := ⟨w - 1, by omega⟩
  rw [BitVec.toInt_eq_toNat_cond, signedOf]
  have : 2 ^ (w + 1) = 2 * 2 ^ w := by rw [Nat.pow_succ]; omega
  simp only [Nat.add_sub_cancel]
  split <;> split <;> first | rfl | omega

theorem modBits_lt (n : Nat) (v : Int) : modBits n v < 2 ^ n := by
  have h : (0 : Int) < 2 ^ n := by positivity
  have h1 := Int.emod_nonneg v h.ne'
  have h2 := Int.emod_lt_of_pos v h
  unfold modBits
  have : ((v % 2 ^ n).toNat : Int) < ((2 ^ n : Nat) : Int) := by
    rw [Int.toNat_of_nonneg h1]
    exact_mod_cast h2
  exact_mod_cast this

theorem modBits_natCast (n v : Nat) : modBits n (v : Int) = v % 2 ^ n := by
  unfold modBits
  have : ((v : Int) % 2 ^ n) = ((v % 2 ^ n : Nat) : Int) := by push_cast; rfl
  rw [this, Int.toNat_natCast]

theorem toNat_ofInt_eq (w : Nat) (v : Int) : (BitVec.ofInt w v).toNat = modBits w v := by
  rw [BitVec.toNat_ofInt]
  unfold modBits
  push_cast
  rfl

/-- Integers congruent modulo 2^n have the same n-bit number. -/
theorem modBits_congr {n : Nat} {a b : Int} (h : a % 2 ^ n = b % 2 ^ n) : modBits n a = modBits n b := by
  unfold modBits
  rw [h]

/-! ## XLEN -/

theorem Xlen.wrap_toNat (xl : Xlen) (v : Word) : (xl.wrap v).toNat = v.toNat % 2 ^ xl.bits := by
  cases xl
  · simp only [Xlen.wrap, Xlen.bits, BitVec.toNat_setWidth]
    omega
  · simp only [Xlen.wrap, Xlen.bits]
    omega

theorem Xlen.bits_le (xl : Xlen) : xl.bits ≤ 64 := by cases xl <;> simp [Xlen.bits]

theorem Xlen.wrap_wrap (xl : Xlen) (v : Word) : xl.wrap (xl.wrap v) = xl.wrap v := by
  apply BitVec.eq_of_toNat_eq
  simp only [Xlen.wrap_toNat, Nat.mod_mod]

theorem Xlen.wrap_of_lt (xl : Xlen) (v : Word) (h : v.toNat < 2 ^ xl.bits) : xl.wrap v = v := by
  apply BitVec.eq_of_toNat_eq
  rw [Xlen.wrap_toNat, Nat.mod_eq_of_lt h]

/-- The sum of a word and a sign-extended field, cut to XLEN bits, is the sum of the numbers modulo 2^XLEN. -/
theorem Xlen.wrap_add_signExtend (xl : Xlen) (a : Word) {w : Nat} (i : BitVec w) (hw : w ≤ 64) :
    (xl.wrap (a + i.signExtend 64)).toNat = modBits xl.bits (a.toNat + i.toInt) := by
  rw [Xlen.wrap_toNat, ← modBits_natCast]
  apply modBits_congr
  have hi : (i.signExtend 64).toInt = i.toInt := by
    rw [BitVec.toInt_signExtend]
    rw [Nat.min_eq_right (by omega)]
    exact BitVec.toInt_bmod_cancel i
  have hd : ((2 : Int) ^ xl.bits) ∣ 2 ^ 64 := pow_dvd_pow 2 (Xlen.bits_le xl)
  have h1 : ((i.signExtend 64).toNat : Int) % 2 ^ 64 = i.toInt % 2 ^ 64 := by
    rw [← hi, BitVec.toInt_eq_toNat_bmod]
    exact (Int.bmod_emod ..).symm
  have h2 : (((a + i.signExtend 64).toNat : Nat) : Int) % 2 ^ 64 = (a.toNat + i.toInt) % 2 ^ 64 := by
    rw [BitVec.toNat_add]
    push_cast
    norm_num only [Int.emod_emod_of_dvd] at *
    omega
  rw [← Int.emod_emod_of_dvd _ hd, h2, Int.emod_emod_of_dvd _ hd]

theorem Xlen.wrap_signExtend (xl : Xlen) {w : Nat} (i : BitVec w) (hw : w ≤ 64) :
    (xl.wrap (i.signExtend 64)).toNat = modBits xl.bits i.toInt := by
  have := Xlen.wrap_add_signExtend xl 0 i hw
  simpa using this

theorem Xlen.wrap_add (xl : Xlen) (a b : Word) : (xl.wrap (a + b)).toNat = (a.toNat + b.toNat) % 2 ^ xl.bits := by
  rw [Xlen.wrap_toNat, BitVec.toNat_add]
  exact Nat.mod_mod_of_dvd _ (pow_dvd_pow 2 (Xlen.bits_le xl))

/-! ## Registers -/

theorem State.readX_zero (s : State) : s.readX 0 = 0 := rfl

theorem State.ux_lt (s : State) (r : Reg) : s.ux r < 2 ^ s.xlen := by
  unfold State.ux State.readX
  split
  · exact Nat.pow_pos (by decide)
  · rw [Xlen.wrap_toNat]
    exact Nat.mod_lt _ (Nat.pow_pos (by decide))

/-- A sign-extended field modulo 2^XLEN. -/
theorem modBits_signExtend (s : State) {w : Nat} (i : BitVec w) (hw : w ≤ 64) :
    modBits s.xlen i.toInt = (i.signExtend 64).toNat % 2 ^ s.xlen := by
  rw [State.xlen, ← Xlen.wrap_signExtend s.cfg.xlen i hw, Xlen.wrap_toNat]

theorem State.wrap_readX (s : State) (r : Reg) : s.cfg.xlen.wrap (s.readX r) = s.readX r :=
  Xlen.wrap_of_lt _ _ (s.ux_lt r)

theorem State.toInt_readX (s : State) (r : Reg) : s.cfg.xlen.toInt (s.readX r) = s.sx r := by
  have hlt := s.ux_lt r
  unfold State.sx State.xlen State.ux at *
  cases h : s.cfg.xlen <;> simp only [h, Xlen.bits, Xlen.toInt] at *
  · rw [← signedOf_toNat (by decide), BitVec.toNat_setWidth, Nat.mod_eq_of_lt hlt]
  · rw [← signedOf_toNat (by decide)]

/-- x[r] depends on the register file and XLEN alone. -/
theorem State.readX_congr {s t : State} (hx : t.x = s.x) (hc : t.cfg = s.cfg) (r : Reg) : t.readX r = s.readX r := by
  unfold State.readX
  rw [hx, hc]

theorem State.readF_congr {s t : State} (hf : t.f = s.f) (hc : t.cfg = s.cfg) (r : Reg) : t.readF r = s.readF r := by
  unfold State.readF
  rw [hf, hc]

/-- What a register write does. -/
theorem State.readX_writeX (s : State) (rd q : Reg) (v : Word) :
    (s.writeX rd v).readX q = if q = 0 then 0 else if q = rd then s.cfg.xlen.wrap v else s.readX q := by
  by_cases hq : q = 0
  · rw [if_pos hq, hq]
    rfl
  · rw [if_neg hq]
    unfold State.writeX
    by_cases hr : rd = 0
    · rw [if_pos hr, if_neg (by rw [hr]; exact hq)]
    · rw [if_neg hr]
      unfold State.readX
      rw [if_neg hq, if_neg hq]
      by_cases hqr : q = rd
      · subst hqr
        rw [if_pos rfl]
        simp only [Vector.getElem_set_self, Xlen.wrap_wrap]
      · have : rd.toNat ≠ q.toNat := fun h => hqr (BitVec.eq_of_toNat_eq h.symm)
        rw [if_neg hqr]
        simp only [Vector.getElem_set_ne _ _ this]

/-- A state that differs from a register write in no x register. -/
theorem XWritten.of_writeX {s t : State} {rd : Reg} {v : Word} (h : ∀ q, t.readX q = (s.writeX rd v).readX q) :
    XWritten s t rd (v.toNat % 2 ^ s.xlen) := by
  intro q
  unfold State.ux
  rw [h q, State.readX_writeX]
  split
  · rfl
  · split
    · exact Xlen.wrap_toNat _ _
    · rfl

theorem State.flenWrap_idem (c : Config) (v : Word) :
    Config.flenWrap c (Config.flenWrap c v) = Config.flenWrap c v := by
  unfold Config.flenWrap
  split
  · rfl
  · apply BitVec.eq_of_toNat_eq
    simp only [BitVec.toNat_setWidth]
    omega

theorem State.readF_writeF (s : State) (rd q : Reg) (v : Word) :
    (s.writeF rd v).readF q = if q = rd then Config.flenWrap s.cfg v else s.readF q := by
  by_cases hqr : q = rd
  · subst hqr
    simp [State.readF, State.writeF, State.flenWrap_idem]
  · have : rd.toNat ≠ q.toNat := fun h => hqr (BitVec.eq_of_toNat_eq h.symm)
    simp [State.readF, State.writeF, hqr, this]

/-! ## The results of DIV and FP -/

@[simp] theorem DivResult.value_allOnes (c : DivCorner) {w : Nat} (a : BitVec w) :
    DivResult.value .allOnes c a = BitVec.allOnes w := rfl
@[simp] theorem DivResult.value_zero (c : DivCorner) {w : Nat} (a : BitVec w) : DivResult.value .zero c a = 0#w := rfl
@[simp] theorem DivResult.value_dividend (c : DivCorner) {w : Nat} (a : BitVec w) :
    DivResult.value .dividend c a = a := rfl

/-- Where FP.nan is canonical every NaN result is the canonical NaN. -/
theorem Fmt.nanOf_canonical {F : Fmt} (h : F.fp.nan = .canonical) (ops : List Nat) : F.nanOf ops = F.nan := by
  rw [Fmt.nanOf, h]

/-! ## Addresses -/

theorem State.address_toNat (s : State) (rs1 : Reg) {w : Nat} (i : BitVec w) (hw : w ≤ 64) :
    (s.address rs1 (i.signExtend 64)).toNat = s.effective rs1 i.toInt :=
  Xlen.wrap_add_signExtend _ _ _ hw

theorem State.pcPlus_toNat (s : State) {w : Nat} (i : BitVec w) (hw : w ≤ 64) :
    (s.pcPlus (i.signExtend 64)).toNat = modBits s.xlen (s.pc.toNat + i.toInt) :=
  Xlen.wrap_add_signExtend _ _ _ hw

theorem State.wrap_address (s : State) (rs1 : Reg) (o : Word) : s.cfg.xlen.wrap (s.address rs1 o) = s.address rs1 o :=
  Xlen.wrap_wrap _ _

theorem State.wrap_pcPlus (s : State) (o : Word) : s.cfg.xlen.wrap (s.pcPlus o) = s.pcPlus o := Xlen.wrap_wrap _ _

theorem targetAligned_iff (s : State) (t : Word) : targetAligned s.cfg t = true ↔ t.toNat % s.ialign = 0 := by
  unfold targetAligned State.ialign
  simp

end Sys2Proof.Machine
end

