-- ==== Sys2Proof/Laws/Access.lean ====
section
/-! SUPPORT. What reading memory and a load can do: checks, the value of main memory, the accesses a device sees. -/

namespace Sys2Proof.Machine

open Sys2Proof

/-! ## The checks -/

theorem isAligned_iff (a : Word) (n : Nat) : isAligned a n = true ↔ a.toNat % n = 0 := by
  unfold isAligned
  simp

theorem bytesOk_iff (s : State) (k : AccessKind) (a : Word) (n : Nat) :
    s.bytesValid k a n = true ↔ BytesOk s k a.toNat n := by
  unfold State.bytesValid BytesOk byteAddrs pieceSize State.byteAt State.xlen
  simp only [List.all_map, List.all_eq_true, List.mem_range, Function.comp_apply, isAligned_iff]

theorem touchesIo_iff (s : State) (a : Word) (n : Nat) :
    touchesIo s.cfg (byteAddrs s.cfg.xlen a n) = false ↔ MainMemory s a.toNat n := by
  unfold touchesIo byteAddrs MainMemory State.byteAt State.xlen
  simp only [List.any_map, List.any_eq_false, List.mem_range, Function.comp_apply, Bool.not_eq_true]

/-! ## Reading memory -/

theorem readBytes_eq_sum (m : List Host.Cell) (g : Nat → Nat) : ∀ n,
    Memory.readBytes m ((List.range n).map g) =
      ((List.range n).map (fun k => (Memory.read m (g k)).toNat * 256 ^ k)).sum
  | 0 => rfl
  | n + 1 => by
    have hsnoc : ∀ (l : List Nat) (b : Nat), Memory.readBytes m (l ++ [b]) =
        Memory.readBytes m l + (Memory.read m b).toNat * 256 ^ l.length := by
      intro l
      induction l with
      | nil => intro b; simp [Memory.readBytes]
      | cons c l ih =>
        intro b
        simp only [List.cons_append, Memory.readBytes, ih, List.length_cons, Nat.pow_succ]
        ring
    rw [List.range_succ, List.map_append, List.map_append, List.sum_append, List.map_singleton, hsnoc,
      readBytes_eq_sum m g n]
    simp

theorem readBytes_lt (m : List Host.Cell) : ∀ l : List Nat, Memory.readBytes m l < 256 ^ l.length
  | [] => by simp [Memory.readBytes]
  | a :: l => by
    have h1 := readBytes_lt m l
    have h2 := (Memory.read m a).isLt
    simp only [Memory.readBytes, List.length_cons, Nat.pow_succ]
    omega

theorem littleEndian_lt (s : State) (a n : Nat) : s.littleEndian a n < 256 ^ n := by
  have := readBytes_lt s.mem ((List.range n).map (s.byteAt a))
  rw [readBytes_eq_sum, List.length_map, List.length_range] at this
  exact this

/-- Reading main memory gives the little-endian number of its bytes and changes nothing. -/
theorem State.readMem_main (s : State) (a : Word) (n : Nat) (hn : n ≤ 8) (h : MainMemory s a.toNat n) :
    (s.readMem a n).1.toNat = s.littleEndian a.toNat n ∧ (s.readMem a n).2 = s := by
  have hio := (touchesIo_iff s a n).mpr h
  unfold State.readMem
  dsimp only
  rw [if_neg (by rw [hio]; exact Bool.false_ne_true)]
  refine ⟨?_, rfl⟩
  have hlt := littleEndian_lt s a.toNat n
  have hp : 256 ^ n ≤ 256 ^ 8 := Nat.pow_le_pow_right (by decide) hn
  rw [BitVec.toNat_ofNat, byteAddrs, readBytes_eq_sum]
  exact Nat.mod_eq_of_lt (by
    show s.littleEndian a.toNat n < 2 ^ 64
    omega)

/-- Reading memory changes at most the record of I/O accesses. -/
theorem State.readMem_shape (s : State) (a : Word) (n : Nat) :
    ∃ io d, (s.readMem a n).2 = { s with ioLog := io, draws := d } := by
  unfold State.readMem
  dsimp only
  split
  · exact ⟨_, _, rfl⟩
  · exact ⟨s.ioLog, s.draws, rfl⟩

theorem byteAddr_toNat (s : State) (a : Word) (j : Nat) : (byteAddr s.cfg.xlen a j).toNat = s.byteAt a.toNat j := by
  unfold byteAddr State.byteAt State.xlen
  rw [BitVec.toNat_ofNat]
  exact Nat.mod_eq_of_lt (Nat.lt_of_lt_of_le (Nat.mod_lt _ (Nat.pow_pos (by decide)))
    (Nat.pow_le_pow_right (by decide) (Xlen.bits_le _)))

theorem byteAddr_eq (s : State) (a : Word) (j : Nat) :
    byteAddr s.cfg.xlen a j = BitVec.ofNat 64 (s.byteAt a.toNat j) := rfl

theorem touchesIo_iff_ioBytesOf (s : State) (a : Word) (n : Nat) :
    touchesIo s.cfg (byteAddrs s.cfg.xlen a n) = true ↔ s.ioBytesOf a.toNat n ≠ [] := by
  rw [← Bool.not_eq_false, touchesIo_iff, State.ioBytesOf, ne_eq, List.filter_eq_nil_iff]
  simp only [List.mem_range, Bool.not_eq_true]
  rfl

theorem byteAt_zero (s : State) (a : Word) (j : Nat) : s.byteAt (byteAddr s.cfg.xlen a j).toNat 0 = s.byteAt a.toNat j := by
  rw [byteAddr_toNat]
  exact Nat.mod_mod _ _

/-- A one-byte access at byte j touches I/O where that byte is an I/O address. -/
theorem touchesIo_byte (s : State) (a : Word) (j : Nat) :
    touchesIo s.cfg (byteAddrs s.cfg.xlen (byteAddr s.cfg.xlen a j) 1) = isIo s.cfg (s.byteAt a.toNat j) := by
  have h : byteAddrs s.cfg.xlen (byteAddr s.cfg.xlen a j) 1 = [s.byteAt (byteAddr s.cfg.xlen a j).toNat 0] := rfl
  rw [h, byteAt_zero]
  simp [touchesIo]

/-- A device sees one read where the access touches I/O, else none. -/
theorem State.readMem_ioLog (s : State) (a : Word) (n : Nat) :
    (s.readMem a n).2.ioLog = (if touchesIo s.cfg (byteAddrs s.cfg.xlen a n) then [.read a n] else []) ++ s.ioLog := by
  unfold State.readMem
  dsimp only
  split <;> rfl

/-! ## The order of the bytes of an emulated access (20_memory.md R85) -/

/-- The order a number codes is an order of the list. -/
theorem inOrder_perm {α : Type} : ∀ (n code : Nat) (l : List α), l.length = n → (inOrder n code l).Perm l
  | 0, _, l, h => by
    rw [List.length_eq_zero_iff] at h
    rw [h]
    exact List.Perm.refl _
  | n + 1, code, l, h => by
    have hi : code % l.length < l.length := Nat.mod_lt _ (by omega)
    rw [inOrder, List.getElem?_eq_getElem hi]
    exact ((inOrder_perm n (code / l.length) _ (by rw [List.length_eraseIdx_of_lt hi]; omega)).cons _).trans
      (List.getElem_cons_eraseIdx_perm hi)

/-- Some number codes each order. -/
theorem inOrder_surjective {α : Type} : ∀ (n : Nat) (l m : List α), l.length = n → m.Perm l →
    ∃ code, inOrder n code l = m
  | 0, l, m, h, hp => by
    rw [List.length_eq_zero_iff] at h
    subst h
    exact ⟨0, (List.Perm.eq_nil hp).symm⟩
  | n + 1, l, [], h, hp => by
    have := hp.length_eq
    simp at this
    omega
  | n + 1, l, x :: m, h, hp => by
    obtain ⟨i, hi, hx⟩ := List.getElem_of_mem (hp.subset (List.mem_cons_self ..))
    have hm : m.Perm (l.eraseIdx i) := by
      have := hp.trans (List.getElem_cons_eraseIdx_perm hi).symm
      rw [hx] at this
      exact this.cons_inv
    obtain ⟨code, hc⟩ := inOrder_surjective n (l.eraseIdx i) m (by rw [List.length_eraseIdx_of_lt hi]; omega) hm
    refine ⟨i + l.length * code, ?_⟩
    have h1 : (i + l.length * code) % l.length = i := by
      rw [Nat.add_mul_mod_self_left, Nat.mod_eq_of_lt hi]
    have h2 : (i + l.length * code) / l.length = code := by
      rw [Nat.add_mul_div_left _ _ (by omega), Nat.div_eq_of_lt hi, Nat.zero_add]
    rw [inOrder, h1, h2, List.getElem?_eq_getElem hi]
    simp only [hx, hc]

/-- The bytes an emulated access reaches are some of its bytes, none twice. -/
theorem State.bytesMade_sublist (s : State) (k : AccessKind) (a : Word) (n : Nat) :
    ∃ l, (s.bytesMade k a n).Perm l ∧ l.Sublist (List.range n) := by
  obtain ⟨l, hp, hs⟩ := List.exists_perm_sublist (List.takeWhile_sublist
      (fun j => byteValid s.cfg k 1 (byteAddr s.cfg.xlen a j).toNat))
    (inOrder_perm n (Config.freeByteOrder s.draws) (List.range n) (List.length_range))
  exact ⟨l, hp.symm, hs⟩

/-- An emulated access reaches valid bytes alone. -/
theorem State.bytesMade_valid (s : State) (k : AccessKind) (a : Word) (n j : Nat) (h : j ∈ s.bytesMade k a n) :
    j < n ∧ byteValid s.cfg k 1 (s.byteAt a.toNat j) = true := by
  obtain ⟨l, hp, hs⟩ := s.bytesMade_sublist k a n
  refine ⟨List.mem_range.mp (hs.subset (hp.subset h)), ?_⟩
  rw [← byteAddr_toNat]
  exact List.mem_takeWhile_imp (p := fun j => byteValid s.cfg k 1 (byteAddr s.cfg.xlen a j).toNat) h

theorem State.bytesMade_nodup (s : State) (k : AccessKind) (a : Word) (n : Nat) : (s.bytesMade k a n).Nodup := by
  obtain ⟨l, hp, hs⟩ := s.bytesMade_sublist k a n
  exact hp.nodup_iff.mpr (List.Nodup.sublist hs List.nodup_range)

/-- An emulated access all of whose bytes are valid reaches them all. -/
theorem State.bytesMade_perm (s : State) (k : AccessKind) (a : Word) (n : Nat) (ha : a.toNat % n ≠ 0)
    (h : BytesOk s k a.toNat n) : (s.bytesMade k a n).Perm (List.range n) := by
  have hp := inOrder_perm n (Config.freeByteOrder s.draws) (List.range n) (List.length_range)
  unfold State.bytesMade
  rw [List.takeWhile_eq_self_iff.mpr]
  · exact hp
  · intro j hj
    have := h j (List.mem_range.mp (hp.subset hj))
    rw [if_neg ha] at this
    rw [byteAddr_toNat]
    exact this

/-! ## Loads -/

/-- The device sees the I/O bytes of an emulated load, one by one. -/
theorem foldl_loadByte (a : Word) : ∀ (l : List Nat) (r : Nat × State),
    ∃ io d, (l.foldl (loadByte a) r).2 = { r.2 with ioLog := io, draws := d } ∧
      io = ((l.filter (fun k => isIo r.2.cfg (r.2.byteAt a.toNat k))).map
        (fun k => IoEvent.read (BitVec.ofNat 64 (r.2.byteAt a.toNat k)) 1)).reverse ++ r.2.ioLog
  | [], r => ⟨_, _, rfl, rfl⟩
  | j :: l, r => by
    obtain ⟨io, d, h, hio⟩ := foldl_loadByte a l (loadByte a r j)
    obtain ⟨io', d', h'⟩ := State.readMem_shape r.2 (byteAddr r.2.cfg.xlen a j) 1
    have hs : (loadByte a r j).2 = (r.2.readMem (byteAddr r.2.cfg.xlen a j) 1).2 := rfl
    have hlog := State.readMem_ioLog r.2 (byteAddr r.2.cfg.xlen a j) 1
    rw [touchesIo_byte] at hlog
    refine ⟨io, d, ?_, ?_⟩
    · rw [List.foldl_cons, h, hs, h']
    · rw [hs, hlog] at hio
      rw [hio, h', List.filter_cons]
      cases isIo r.2.cfg (r.2.byteAt a.toNat j) <;> simp [State.byteAt, State.xlen, byteAddr_eq]

/-- The bytes of an emulated load, in numbers of accesses: what it leaves of the state. -/
theorem State.loadBytes_spec (s : State) (a : Word) (n : Nat) (ha : a.toNat % n ≠ 0) :
    (∃ io d, (s.loadBytes a n).2 = { s with ioLog := io, draws := d }) ∧
    IoPartlyLogged s (s.loadBytes a n).2 (s.ioReads a.toNat n) ∧
    (BytesOk s .load a.toNat n → IoLogged s (s.loadBytes a n).2 (s.ioReads a.toNat n)) := by
  have hev : s.ioReads a.toNat n = ((List.range n).filter (fun k => isIo s.cfg (s.byteAt a.toNat k))).map
      (fun k => IoEvent.read (BitVec.ofNat 64 (s.byteAt a.toNat k)) 1) := by
    rw [State.ioReads, if_neg ha]
    rfl
  unfold State.loadBytes
  split
  · obtain ⟨io, d, h, hio⟩ := foldl_loadByte a (s.bytesMade .load a n) (0, { s with draws := s.draws + 1 })
    dsimp only at h hio ⊢
    rw [h]
    refine ⟨⟨io, d, rfl⟩, ?_, fun hb => ?_⟩
    · obtain ⟨l, hp, hs⟩ := s.bytesMade_sublist .load a n
      refine ⟨(l.filter (fun k => isIo s.cfg (s.byteAt a.toNat k))).map
          (fun k => IoEvent.read (BitVec.ofNat 64 (s.byteAt a.toNat k)) 1), ⟨_, ?_, hio⟩, ?_⟩
      · exact (List.reverse_perm _).trans ((hp.filter _).map _)
      · rw [hev]
        exact (hs.filter _).map _
    · refine ⟨_, ?_, hio⟩
      rw [hev]
      exact (List.reverse_perm _).trans (((s.bytesMade_perm .load a n ha hb).filter _).map _)
  · next hio =>
    have hnil : s.ioBytesOf a.toNat n = [] := by
      by_contra h
      exact hio ((touchesIo_iff_ioBytesOf s a n).mpr h)
    have hlog := State.readMem_ioLog s a n
    rw [if_neg hio, List.nil_append] at hlog
    have hev' : s.ioReads a.toNat n = [] := by
      rw [State.ioReads, if_neg ha, hnil]
      rfl
    rw [hev']
    exact ⟨s.readMem_shape a n, ⟨[], ⟨[], List.Perm.refl _, hlog⟩, List.Sublist.refl _⟩, fun _ => ⟨[], List.Perm.refl _, hlog⟩⟩

/-- The accesses of a load that passes its checks: one when it is aligned, one a byte when it is emulated. -/
def State.loadAccesses (s : State) (a : Word) (n : Nat) : Word × State :=
  if isAligned a n then s.readMem a n else s.loadBytes a n

/-- What the accesses of a load do. -/
theorem State.loadAccesses_spec (s : State) (a : Word) (n : Nat) (hn : n ≤ 8) :
    (∃ io d, (s.loadAccesses a n).2 = { s with ioLog := io, draws := d }) ∧
    (BytesOk s .load a.toNat n → IoLogged s (s.loadAccesses a n).2 (s.ioReads a.toNat n)) ∧
    (MainMemory s a.toNat n →
      (s.loadAccesses a n).1.toNat = s.littleEndian a.toNat n ∧ (s.loadAccesses a n).2 = s) := by
  unfold State.loadAccesses
  by_cases ha : isAligned a n = true
  · rw [if_pos ha]
    refine ⟨s.readMem_shape a n, fun _ => ⟨_, ?_, s.readMem_ioLog a n⟩, s.readMem_main a n hn⟩
    rw [State.ioReads, if_pos ((isAligned_iff a n).mp ha)]
    by_cases hio : s.ioBytesOf a.toNat n = []
    · rw [if_pos hio, if_neg (fun h => (touchesIo_iff_ioBytesOf s a n).mp h hio)]
    · rw [if_neg hio, if_pos ((touchesIo_iff_ioBytesOf s a n).mpr hio), BitVec.ofNat_toNat, BitVec.setWidth_eq]
  · rw [if_neg ha]
    obtain ⟨h1, -, h3⟩ := s.loadBytes_spec a n (fun h => ha ((isAligned_iff a n).mpr h))
    refine ⟨h1, h3, fun hm => ?_⟩
    unfold State.loadBytes
    rw [if_neg (by rw [(touchesIo_iff s a n).mpr hm]; exact Bool.false_ne_true)]
    exact s.readMem_main a n hn hm

theorem alignmentOk_iff (s : State) (a : Word) (n : Nat) :
    (!isAligned a n && s.cfg.misaligned == .trap) = true ↔ ¬AlignmentOk s a.toNat n := by
  unfold AlignmentOk
  rw [Bool.and_eq_true, Bool.not_eq_true', ← Bool.not_eq_true, isAligned_iff]
  cases s.cfg.misaligned <;> simp

/-- The ways a load goes. -/
theorem State.load_spec (s : State) (a : Word) (n : Nat) :
    (¬AlignmentOk s a.toNat n → s.load a n = .trap .loadAddressMisaligned a s) ∧
    (AlignmentOk s a.toNat n → BytesOk s .load a.toNat n →
      s.load a n = .done (s.loadAccesses a n).1 (s.loadAccesses a n).2) ∧
    (AlignmentOk s a.toNat n → ¬BytesOk s .load a.toNat n → (a.toNat % n = 0 ∨ MainMemory s a.toNat n) →
      s.load a n = .trap .loadAccessFault a s) ∧
    (AlignmentOk s a.toNat n → ¬BytesOk s .load a.toNat n →
      ∃ t, s.load a n = .trap .loadAccessFault a t ∧ IoPartlyLogged s t (s.ioReads a.toNat n) ∧
        t = { s with ioLog := t.ioLog, draws := t.draws }) := by
  have hal := alignmentOk_iff s a n
  have hby := bytesOk_iff s .load a n
  unfold State.load State.loadAccesses
  refine ⟨fun h => ?_, fun h hb => ?_, fun h hb hm => ?_, fun h hb => ?_⟩
  · rw [if_pos (hal.mpr h)]
  · rw [if_neg (fun h' => hal.mp h' h), if_pos (hby.mpr hb), if_pos (hby.mpr hb)]
    split <;> rfl
  · rw [if_neg (fun h' => hal.mp h' h), if_neg (fun h' => hb (hby.mp h')), if_neg (fun h' => hb (hby.mp h'))]
    split
    · rfl
    · next ha =>
      have hm' := hm.resolve_left (fun h => ha ((isAligned_iff a n).mpr h))
      have hio := (touchesIo_iff s a n).mpr hm'
      rw [State.loadBytes, if_neg (by rw [hio]; exact Bool.false_ne_true)]
      unfold State.readMem
      dsimp only
      rw [if_neg (by rw [hio]; exact Bool.false_ne_true)]
  · rw [if_neg (fun h' => hal.mp h' h), if_neg (fun h' => hb (hby.mp h')), if_neg (fun h' => hb (hby.mp h'))]
    split
    · exact ⟨s, rfl, ⟨[], ⟨[], List.Perm.refl _, rfl⟩, List.nil_sublist _⟩, rfl⟩
    · next ha =>
      obtain ⟨⟨io, d, h1⟩, h2, -⟩ := s.loadBytes_spec a n (fun h => ha ((isAligned_iff a n).mpr h))
      exact ⟨_, rfl, h2, by rw [h1]⟩

end Sys2Proof.Machine
end

