-- ==== Sys2Proof/Laws/Csr.lean ====
section
/-! SUPPORT. What the procedure of the CSR instructions can do. -/

namespace Sys2Proof.Machine

open Sys2Proof

/-- A read of a CSR gives an XLEN-bit value and changes at most a counter that it ticks. -/
theorem State.readCsr_shape (s : State) (c : Csr) :
    ∃ cy tm d, (s.readCsr c).2 = { s with mcycle := cy, time := tm, draws := d } := by
  cases c <;> exact ⟨_, _, _, rfl⟩

theorem bitAt_lt (b : Bool) (k n : Nat) (hk : k < n) (hn : n ≤ 64) : (bitAt b k).toNat < 2 ^ n := by
  unfold bitAt
  split
  · rw [BitVec.toNat_shiftLeft, Nat.shiftLeft_eq]
    have h1 : 2 ^ k < 2 ^ n := Nat.pow_lt_pow_right (by decide) hk
    have h2 : 2 ^ n ≤ 2 ^ 64 := Nat.pow_le_pow_right (by decide) hn
    rw [show (1#64).toNat = 1 from rfl, Nat.one_mul, Nat.mod_eq_of_lt (by omega)]
    exact h1
  · exact Nat.pow_pos (by decide)

theorem misaBits_fits (c : Config) : (misaBits c).toNat < 2 ^ c.xlen.bits := by
  unfold misaBits
  cases c.xlen
  · simp only [BitVec.toNat_or, Xlen.bits]
    repeat' apply Nat.or_lt_two_pow
    all_goals first | exact bitAt_lt _ _ _ (by decide) (by decide) | decide
  · exact BitVec.isLt _

theorem setWidth_fits {w : Nat} (v : BitVec w) (s : State) (hw : w ≤ 32) : (v.setWidth 64).toNat < 2 ^ s.xlen := by
  have h1 := v.isLt
  have h2 : 2 ^ w ≤ 2 ^ s.xlen := by
    exact Nat.pow_le_pow_right (by decide) (by rcases s.xlen_eq with h | h <;> omega)
  rw [BitVec.toNat_setWidth]
  exact Nat.lt_of_le_of_lt (Nat.mod_le _ _) (by omega)

theorem wrap_fits (s : State) (v : Word) : (s.cfg.xlen.wrap v).toNat < 2 ^ s.xlen := by
  rw [Xlen.wrap_toNat]
  exact Nat.mod_lt _ (Nat.pow_pos (by decide))

theorem highHalf_fits (s : State) (v : Word) : (highHalf v).toNat < 2 ^ s.xlen := by
  have h := v.isLt
  have h2 : 2 ^ 32 ≤ 2 ^ s.xlen := by
    exact Nat.pow_le_pow_right (by decide) (by rcases s.xlen_eq with h | h <;> omega)
  rw [highHalf, BitVec.toNat_ushiftRight, Nat.shiftRight_eq_div_pow]
  omega

/-- What a read gives fits in XLEN bits. -/
theorem State.readCsr_fits (s : State) (c : Csr) : (s.readCsr c).1.toNat < 2 ^ s.xlen := by
  cases c <;> first
    | exact setWidth_fits _ s (by decide)
    | exact wrap_fits s _
    | exact highHalf_fits s _
    | exact misaBits_fits s.cfg
    | exact Nat.pow_pos (by decide)

/-- A platform without a rule and without read-only bits of its own changes nothing of a written value. -/
theorem csrLegalize_of_nil {c : Config} (h : c.csrReadOnly = []) (ho : c.csrOwnRule = []) (r : Csr) (old v : Word) :
    csrLegalize c r old v = v := by
  have hb : csrReadOnlyBits c r = 0#64 := by
    unfold csrReadOnlyBits
    rw [h]
    rfl
  have h1 : ~~~(0#64) = BitVec.allOnes 64 := rfl
  have hv : csrOwnValue c r old v = v := by
    rw [csrOwnValue, ho]
    rfl
  rw [csrLegalize, hv, hb, h1, BitVec.and_allOnes, BitVec.and_zero, BitVec.or_zero]

/-- On such a platform a write of a CSR stores the value. -/
theorem State.writeCsr_of_nil {s : State} (h : s.cfg.csrReadOnly = []) (ho : s.cfg.csrOwnRule = []) (c : Csr) (v : Word) :
    s.writeCsr c v = s.storeCsr c v := by
  rw [State.writeCsr, csrLegalize_of_nil h ho]

/-- A write of a CSR changes no x or f register, no memory, no pc and no mode. -/
theorem State.writeCsr_frame (s : State) (c : Csr) (v : Word) :
    (s.writeCsr c v).x = s.x ∧ (s.writeCsr c v).f = s.f ∧ (s.writeCsr c v).mem = s.mem ∧ (s.writeCsr c v).pc = s.pc ∧
    (s.writeCsr c v).cfg = s.cfg ∧ (s.writeCsr c v).priv = s.priv ∧ (s.writeCsr c v).reservation = s.reservation ∧
    (c.isInstret = false → (s.writeCsr c v).minstret = s.minstret) := by
  cases c <;> simp [State.writeCsr, State.storeCsr, Csr.isInstret]

theorem State.csrAccess_exists {s : State} {n : BitVec 12} {w : Bool} {c : Csr} (h : s.csrAccess n w = some c) :
    Csr.exists s.cfg c = true ∧ c.number = n := by
  unfold State.csrAccess at h
  split at h
  · cases h
  · next d hd =>
    split at h
    · cases h
      have := List.find?_some hd
      simp only [Bool.and_eq_true, beq_iff_eq] at this
      exact ⟨this.2, this.1⟩
    · cases h

/-- The state between the accesses to the CSR and the write of x[rd]. -/
theorem State.csrEffect_eq (s : State) (c : Csr) (u : CsrUse) (rd : Reg) (new : Word → Word) :
    ∃ w : State,
      w = (if u.writes then State.writeCsr (if u.reads then (s.readCsr c).2 else s) c
            (new (if u.reads then (s.readCsr c).1 else 0))
          else if u.reads then (s.readCsr c).2 else s) ∧
      s.csrEffect c u rd new = w.writeX rd (if u.reads then (s.readCsr c).1 else 0) ∧
      w.x = s.x ∧ w.f = s.f ∧ w.mem = s.mem ∧ w.pc = s.pc ∧ w.cfg = s.cfg := by
  refine ⟨_, rfl, ?_⟩
  obtain ⟨cy, tm, d, hr⟩ := s.readCsr_shape c
  obtain ⟨reads, writes⟩ := u
  unfold State.csrEffect
  cases reads <;> cases writes <;> simp only [Bool.false_eq_true, if_true, if_false, hr, true_and, and_true]
  · have h := State.writeCsr_frame s c (new 0)
    exact ⟨h.1, h.2.1, h.2.2.1, h.2.2.2.1, h.2.2.2.2.1⟩
  · have h := State.writeCsr_frame { s with mcycle := cy, time := tm, draws := d } c (new (s.readCsr c).1)
    exact ⟨h.1, h.2.1, h.2.2.1, h.2.2.2.1, h.2.2.2.2.1⟩

/-- The procedure of the CSR instructions: a legal access reads and writes as R281 says, any other is illegal. -/
theorem csrInstruction_spec (i : Instr) (rd : Reg) (n : BitVec 12) (u : CsrUse) (new : Word → Word) (s : State)
    (hrd : u.reads = false → rd = 0) (h : exec i s = csrInstruction i rd n u new s) :
    CsrMeets i s rd n u.reads u.writes new := by
  refine ⟨fun c hc => ?_, fun hc => ?_⟩
  · obtain ⟨w, hw, he, hx, hf, hm, hpc, hcfg⟩ := s.csrEffect_eq c u rd new
    have hpc4 : ∀ y : State, y.pc = s.pc → y.cfg = s.cfg →
        (y.advance 4).pc.toNat = (s.pc.toNat + 4) % 2 ^ s.xlen := by
      intro y h1 h2
      simp only [State.advance, Xlen.wrap_add, h1, h2, State.xlen]
      rfl
    have hxw : ∀ t : State, t.x = (w.writeX rd (if u.reads then (s.readCsr c).1 else 0)).x → t.cfg = s.cfg →
        XWritten s t rd (s.readCsr c).1.toNat := by
      intro t h1 h2 q
      unfold State.ux
      rw [State.readX_congr (s := w.writeX rd (if u.reads then (s.readCsr c).1 else 0)) h1
        (by rw [h2, State.writeX_cfg, hcfg]) q, State.readX_writeX, State.readX_congr hx hcfg, hcfg]
      by_cases hq : q = 0
      · rw [if_pos hq, if_pos hq]; rfl
      · rw [if_neg hq, if_neg hq]
        by_cases hqr : q = rd
        · rw [if_pos hqr, if_pos hqr]
          have hreads : u.reads = true := by
            rw [← Bool.not_eq_false]
            exact fun h => hq (hqr.trans (hrd h))
          rw [if_pos hreads, Xlen.wrap_of_lt _ _ (s.readCsr_fits c)]
        · rw [if_neg hqr, if_neg hqr]
    have hsame : ∀ t : State, t.mem = w.mem → SameMemory s t := fun t h a => by rw [h, hm]
    have hiff : (u.writes && c.isInstret) = true ↔ (u.writes = true ∧ (c = .minstret ∨ c = .minstreth)) := by
      rw [Bool.and_eq_true]
      cases c <;> simp [Csr.isInstret]
    unfold CsrCompletes
    rw [h]
    unfold csrInstruction
    rw [hc]
    dsimp only
    rw [he]
    by_cases hi : (u.writes && c.isInstret) = true
    · rw [if_pos hi]
      refine ⟨_, w, hw, rfl, hxw _ (by simp) (by simp [hcfg]), hpc4 _ (by simp [hpc]) (by simp [hcfg]), ?_,
        hsame _ (by simp), by simp [hf], ?_⟩
      · rw [if_pos (hiff.mp hi)]; simp
      · unfold State.writeX
        split <;> rfl
    · rw [if_neg hi]
      refine ⟨_, w, hw, rfl, hxw _ (by simp) (by simp [hcfg]), ?_, ?_, hsame _ (by simp), by simp [hf], ?_⟩
      · rw [State.retire_pc]
        exact hpc4 _ (by simp [hpc]) (by simp [hcfg])
      · rw [if_neg (fun h => hi (hiff.mpr h))]; simp [State.retire]
      · unfold State.writeX
        split <;> rfl
  · rw [h]
    unfold csrInstruction
    rw [hc]

end Sys2Proof.Machine
end

