-- ==== Sys2Proof/Laws/Decode.lean ====
section
/-! SUPPORT. The fields of the encoding formats: what `decode` reads from a word that a format wrote. -/

namespace Sys2Proof

/-- A slice above the low part of a concatenation lies in the high part. -/
theorem slice_hi {m n : Nat} (x : BitVec m) (y : BitVec n) (s l : Nat) (h : n ≤ s) :
    (x ++ y).extractLsb' s l = x.extractLsb' (s - n) l := BitVec.extractLsb'_append_eq_of_le h

/-- A slice inside the low part of a concatenation. -/
theorem slice_lo {m n : Nat} (x : BitVec m) (y : BitVec n) (s l : Nat) (h : s + l ≤ n) :
    (x ++ y).extractLsb' s l = y.extractLsb' s l := BitVec.extractLsb'_append_eq_of_add_le h

theorem bit_hi {m n : Nat} (x : BitVec m) (y : BitVec n) (i : Nat) (h : n ≤ i) :
    (x ++ y).getLsbD i = x.getLsbD (i - n) := by
  rw [BitVec.getLsbD_append, if_neg (Nat.not_lt.mpr h)]

theorem bit_lo {m n : Nat} (x : BitVec m) (y : BitVec n) (i : Nat) (h : i < n) :
    (x ++ y).getLsbD i = y.getLsbD i := by
  rw [BitVec.getLsbD_append, if_pos h]

/-- Two neighbouring slices are one. -/
theorem slice_join {w : Nat} (x : BitVec w) (s m n : Nat) :
    x.extractLsb' (s + n) m ++ x.extractLsb' s n = x.extractLsb' s (m + n) := by
  apply BitVec.eq_of_getLsbD_eq
  intro i hi
  rw [BitVec.getLsbD_append, BitVec.getLsbD_extractLsb', BitVec.getLsbD_extractLsb', BitVec.getLsbD_extractLsb']
  by_cases h : i < n
  · simp [h, hi]
  · have h1 : i - n < m := by omega
    have h2 : s + n + (i - n) = s + i := by omega
    simp [h, h1, h2, hi]

/-! ## rType -/

@[simp] theorem opcode_rType (f7 : BitVec 7) (rs2 rs1 : Reg) (f3 : BitVec 3) (rd : Reg) (op : BitVec 7) :
    opcode (rType f7 rs2 rs1 f3 rd op) = op :=
  (slice_lo _ (op) 0 7 (by decide)).trans BitVec.extractLsb'_eq_self

@[simp] theorem rdOf_rType (f7 : BitVec 7) (rs2 rs1 : Reg) (f3 : BitVec 3) (rd : Reg) (op : BitVec 7) :
    rdOf (rType f7 rs2 rs1 f3 rd op) = rd :=
  (slice_hi _ (op) 7 5 (by decide)).trans ((slice_lo _ (rd) 0 5 (by decide)).trans BitVec.extractLsb'_eq_self)

@[simp] theorem funct3_rType (f7 : BitVec 7) (rs2 rs1 : Reg) (f3 : BitVec 3) (rd : Reg) (op : BitVec 7) :
    funct3 (rType f7 rs2 rs1 f3 rd op) = f3 :=
  (slice_hi _ (op) 12 3 (by decide)).trans ((slice_hi _ (rd) 5 3 (by decide)).trans ((slice_lo _ (f3) 0 3 (by decide)).trans BitVec.extractLsb'_eq_self))

@[simp] theorem rs1Of_rType (f7 : BitVec 7) (rs2 rs1 : Reg) (f3 : BitVec 3) (rd : Reg) (op : BitVec 7) :
    rs1Of (rType f7 rs2 rs1 f3 rd op) = rs1 :=
  (slice_hi _ (op) 15 5 (by decide)).trans ((slice_hi _ (rd) 8 5 (by decide)).trans ((slice_hi _ (f3) 3 5 (by decide)).trans ((slice_lo _ (rs1) 0 5 (by decide)).trans BitVec.extractLsb'_eq_self)))

@[simp] theorem rs2Of_rType (f7 : BitVec 7) (rs2 rs1 : Reg) (f3 : BitVec 3) (rd : Reg) (op : BitVec 7) :
    rs2Of (rType f7 rs2 rs1 f3 rd op) = rs2 :=
  (slice_hi _ (op) 20 5 (by decide)).trans ((slice_hi _ (rd) 13 5 (by decide)).trans ((slice_hi _ (f3) 8 5 (by decide)).trans ((slice_hi _ (rs1) 5 5 (by decide)).trans ((slice_lo _ (rs2) 0 5 (by decide)).trans BitVec.extractLsb'_eq_self))))

@[simp] theorem funct7_rType (f7 : BitVec 7) (rs2 rs1 : Reg) (f3 : BitVec 3) (rd : Reg) (op : BitVec 7) :
    funct7 (rType f7 rs2 rs1 f3 rd op) = f7 :=
  (slice_hi _ (op) 25 7 (by decide)).trans ((slice_hi _ (rd) 18 7 (by decide)).trans ((slice_hi _ (f3) 13 7 (by decide)).trans ((slice_hi _ (rs1) 10 7 (by decide)).trans ((slice_hi _ (rs2) 5 7 (by decide)).trans BitVec.extractLsb'_eq_self))))

/-! ## iType -/

@[simp] theorem opcode_iType (imm : BitVec 12) (rs1 : Reg) (f3 : BitVec 3) (rd : Reg) (op : BitVec 7) :
    opcode (iType imm rs1 f3 rd op) = op :=
  (slice_lo _ (op) 0 7 (by decide)).trans BitVec.extractLsb'_eq_self

@[simp] theorem rdOf_iType (imm : BitVec 12) (rs1 : Reg) (f3 : BitVec 3) (rd : Reg) (op : BitVec 7) :
    rdOf (iType imm rs1 f3 rd op) = rd :=
  (slice_hi _ (op) 7 5 (by decide)).trans ((slice_lo _ (rd) 0 5 (by decide)).trans BitVec.extractLsb'_eq_self)

@[simp] theorem funct3_iType (imm : BitVec 12) (rs1 : Reg) (f3 : BitVec 3) (rd : Reg) (op : BitVec 7) :
    funct3 (iType imm rs1 f3 rd op) = f3 :=
  (slice_hi _ (op) 12 3 (by decide)).trans ((slice_hi _ (rd) 5 3 (by decide)).trans ((slice_lo _ (f3) 0 3 (by decide)).trans BitVec.extractLsb'_eq_self))

@[simp] theorem rs1Of_iType (imm : BitVec 12) (rs1 : Reg) (f3 : BitVec 3) (rd : Reg) (op : BitVec 7) :
    rs1Of (iType imm rs1 f3 rd op) = rs1 :=
  (slice_hi _ (op) 15 5 (by decide)).trans ((slice_hi _ (rd) 8 5 (by decide)).trans ((slice_hi _ (f3) 3 5 (by decide)).trans ((slice_lo _ (rs1) 0 5 (by decide)).trans BitVec.extractLsb'_eq_self)))

@[simp] theorem immI_iType (imm : BitVec 12) (rs1 : Reg) (f3 : BitVec 3) (rd : Reg) (op : BitVec 7) :
    immI (iType imm rs1 f3 rd op) = imm :=
  (slice_hi _ (op) 20 12 (by decide)).trans ((slice_hi _ (rd) 13 12 (by decide)).trans ((slice_hi _ (f3) 8 12 (by decide)).trans ((slice_hi _ (rs1) 5 12 (by decide)).trans BitVec.extractLsb'_eq_self)))

/-! ## shType -/

@[simp] theorem opcode_shType (f6 shamt : BitVec 6) (rs1 : Reg) (f3 : BitVec 3) (rd : Reg) (op : BitVec 7) :
    opcode (shType f6 shamt rs1 f3 rd op) = op :=
  (slice_lo _ (op) 0 7 (by decide)).trans BitVec.extractLsb'_eq_self

@[simp] theorem rdOf_shType (f6 shamt : BitVec 6) (rs1 : Reg) (f3 : BitVec 3) (rd : Reg) (op : BitVec 7) :
    rdOf (shType f6 shamt rs1 f3 rd op) = rd :=
  (slice_hi _ (op) 7 5 (by decide)).trans ((slice_lo _ (rd) 0 5 (by decide)).trans BitVec.extractLsb'_eq_self)

@[simp] theorem funct3_shType (f6 shamt : BitVec 6) (rs1 : Reg) (f3 : BitVec 3) (rd : Reg) (op : BitVec 7) :
    funct3 (shType f6 shamt rs1 f3 rd op) = f3 :=
  (slice_hi _ (op) 12 3 (by decide)).trans ((slice_hi _ (rd) 5 3 (by decide)).trans ((slice_lo _ (f3) 0 3 (by decide)).trans BitVec.extractLsb'_eq_self))

@[simp] theorem rs1Of_shType (f6 shamt : BitVec 6) (rs1 : Reg) (f3 : BitVec 3) (rd : Reg) (op : BitVec 7) :
    rs1Of (shType f6 shamt rs1 f3 rd op) = rs1 :=
  (slice_hi _ (op) 15 5 (by decide)).trans ((slice_hi _ (rd) 8 5 (by decide)).trans ((slice_hi _ (f3) 3 5 (by decide)).trans ((slice_lo _ (rs1) 0 5 (by decide)).trans BitVec.extractLsb'_eq_self)))

@[simp] theorem funct6_shType (f6 shamt : BitVec 6) (rs1 : Reg) (f3 : BitVec 3) (rd : Reg) (op : BitVec 7) :
    funct6 (shType f6 shamt rs1 f3 rd op) = f6 :=
  (slice_hi _ (op) 26 6 (by decide)).trans ((slice_hi _ (rd) 19 6 (by decide)).trans ((slice_hi _ (f3) 14 6 (by decide)).trans ((slice_hi _ (rs1) 11 6 (by decide)).trans ((slice_hi _ (shamt) 6 6 (by decide)).trans BitVec.extractLsb'_eq_self))))

@[simp] theorem shamt_shType (f6 shamt : BitVec 6) (rs1 : Reg) (f3 : BitVec 3) (rd : Reg) (op : BitVec 7) :
    (shType f6 shamt rs1 f3 rd op).extractLsb' 20 6 = shamt :=
  (slice_hi _ (op) 20 6 (by decide)).trans ((slice_hi _ (rd) 13 6 (by decide)).trans ((slice_hi _ (f3) 8 6 (by decide)).trans ((slice_hi _ (rs1) 5 6 (by decide)).trans ((slice_lo _ (shamt) 0 6 (by decide)).trans BitVec.extractLsb'_eq_self))))

/-! ## aType -/

@[simp] theorem opcode_aType (f5 : BitVec 5) (aq rl : Bool) (rs2 rs1 : Reg) (f3 : BitVec 3) (rd : Reg) (op : BitVec 7) :
    opcode (aType f5 aq rl rs2 rs1 f3 rd op) = op :=
  (slice_lo _ (op) 0 7 (by decide)).trans BitVec.extractLsb'_eq_self

@[simp] theorem rdOf_aType (f5 : BitVec 5) (aq rl : Bool) (rs2 rs1 : Reg) (f3 : BitVec 3) (rd : Reg) (op : BitVec 7) :
    rdOf (aType f5 aq rl rs2 rs1 f3 rd op) = rd :=
  (slice_hi _ (op) 7 5 (by decide)).trans ((slice_lo _ (rd) 0 5 (by decide)).trans BitVec.extractLsb'_eq_self)

@[simp] theorem funct3_aType (f5 : BitVec 5) (aq rl : Bool) (rs2 rs1 : Reg) (f3 : BitVec 3) (rd : Reg) (op : BitVec 7) :
    funct3 (aType f5 aq rl rs2 rs1 f3 rd op) = f3 :=
  (slice_hi _ (op) 12 3 (by decide)).trans ((slice_hi _ (rd) 5 3 (by decide)).trans ((slice_lo _ (f3) 0 3 (by decide)).trans BitVec.extractLsb'_eq_self))

@[simp] theorem rs1Of_aType (f5 : BitVec 5) (aq rl : Bool) (rs2 rs1 : Reg) (f3 : BitVec 3) (rd : Reg) (op : BitVec 7) :
    rs1Of (aType f5 aq rl rs2 rs1 f3 rd op) = rs1 :=
  (slice_hi _ (op) 15 5 (by decide)).trans ((slice_hi _ (rd) 8 5 (by decide)).trans ((slice_hi _ (f3) 3 5 (by decide)).trans ((slice_lo _ (rs1) 0 5 (by decide)).trans BitVec.extractLsb'_eq_self)))

@[simp] theorem rs2Of_aType (f5 : BitVec 5) (aq rl : Bool) (rs2 rs1 : Reg) (f3 : BitVec 3) (rd : Reg) (op : BitVec 7) :
    rs2Of (aType f5 aq rl rs2 rs1 f3 rd op) = rs2 :=
  (slice_hi _ (op) 20 5 (by decide)).trans ((slice_hi _ (rd) 13 5 (by decide)).trans ((slice_hi _ (f3) 8 5 (by decide)).trans ((slice_hi _ (rs1) 5 5 (by decide)).trans ((slice_lo _ (rs2) 0 5 (by decide)).trans BitVec.extractLsb'_eq_self))))

@[simp] theorem funct5_aType (f5 : BitVec 5) (aq rl : Bool) (rs2 rs1 : Reg) (f3 : BitVec 3) (rd : Reg) (op : BitVec 7) :
    funct5 (aType f5 aq rl rs2 rs1 f3 rd op) = f5 :=
  (slice_hi _ (op) 27 5 (by decide)).trans ((slice_hi _ (rd) 20 5 (by decide)).trans ((slice_hi _ (f3) 15 5 (by decide)).trans ((slice_hi _ (rs1) 12 5 (by decide)).trans ((slice_hi _ (rs2) 7 5 (by decide)).trans ((slice_hi _ (BitVec.ofBool rl) 2 5 (by decide)).trans ((slice_hi _ (BitVec.ofBool aq) 1 5 (by decide)).trans BitVec.extractLsb'_eq_self))))))

theorem rl_aType (f5 : BitVec 5) (aq rl : Bool) (rs2 rs1 : Reg) (f3 : BitVec 3) (rd : Reg) (op : BitVec 7) :
    (aType f5 aq rl rs2 rs1 f3 rd op).getLsbD 25 = rl := by
  refine (bit_hi _ op 25 (by decide)).trans ((bit_hi _ rd 18 (by decide)).trans ((bit_hi _ f3 13 (by decide)).trans ((bit_hi _ rs1 10 (by decide)).trans ((bit_hi _ rs2 5 (by decide)).trans ((bit_lo _ (BitVec.ofBool rl) 0 (by decide)).trans ?_)))))
  cases rl <;> rfl

theorem aq_aType (f5 : BitVec 5) (aq rl : Bool) (rs2 rs1 : Reg) (f3 : BitVec 3) (rd : Reg) (op : BitVec 7) :
    (aType f5 aq rl rs2 rs1 f3 rd op).getLsbD 26 = aq := by
  refine (bit_hi _ op 26 (by decide)).trans ((bit_hi _ rd 19 (by decide)).trans ((bit_hi _ f3 14 (by decide)).trans ((bit_hi _ rs1 11 (by decide)).trans ((bit_hi _ rs2 6 (by decide)).trans ((bit_hi _ (BitVec.ofBool rl) 1 (by decide)).trans ((bit_lo _ (BitVec.ofBool aq) 0 (by decide)).trans ?_))))))
  cases aq <;> rfl

@[simp] theorem rl_aType' (f5 : BitVec 5) (aq rl : Bool) (rs2 rs1 : Reg) (f3 : BitVec 3) (rd : Reg) (op : BitVec 7) :
    (aType f5 aq rl rs2 rs1 f3 rd op)[25] = rl := by
  rw [← BitVec.getLsbD_eq_getElem]
  exact rl_aType f5 aq rl rs2 rs1 f3 rd op

@[simp] theorem aq_aType' (f5 : BitVec 5) (aq rl : Bool) (rs2 rs1 : Reg) (f3 : BitVec 3) (rd : Reg) (op : BitVec 7) :
    (aType f5 aq rl rs2 rs1 f3 rd op)[26] = aq := by
  rw [← BitVec.getLsbD_eq_getElem]
  exact aq_aType f5 aq rl rs2 rs1 f3 rd op

/-! ## sType -/

@[simp] theorem opcode_sType (off : BitVec 12) (rs2 rs1 : Reg) (f3 : BitVec 3) (op : BitVec 7) :
    opcode (sType off rs2 rs1 f3 op) = op :=
  (slice_lo _ (op) 0 7 (by decide)).trans BitVec.extractLsb'_eq_self

@[simp] theorem funct3_sType (off : BitVec 12) (rs2 rs1 : Reg) (f3 : BitVec 3) (op : BitVec 7) :
    funct3 (sType off rs2 rs1 f3 op) = f3 :=
  (slice_hi _ (op) 12 3 (by decide)).trans ((slice_hi _ (off.extractLsb' 0 5) 5 3 (by decide)).trans ((slice_lo _ (f3) 0 3 (by decide)).trans BitVec.extractLsb'_eq_self))

@[simp] theorem rs1Of_sType (off : BitVec 12) (rs2 rs1 : Reg) (f3 : BitVec 3) (op : BitVec 7) :
    rs1Of (sType off rs2 rs1 f3 op) = rs1 :=
  (slice_hi _ (op) 15 5 (by decide)).trans ((slice_hi _ (off.extractLsb' 0 5) 8 5 (by decide)).trans ((slice_hi _ (f3) 3 5 (by decide)).trans ((slice_lo _ (rs1) 0 5 (by decide)).trans BitVec.extractLsb'_eq_self)))

@[simp] theorem rs2Of_sType (off : BitVec 12) (rs2 rs1 : Reg) (f3 : BitVec 3) (op : BitVec 7) :
    rs2Of (sType off rs2 rs1 f3 op) = rs2 :=
  (slice_hi _ (op) 20 5 (by decide)).trans ((slice_hi _ (off.extractLsb' 0 5) 13 5 (by decide)).trans ((slice_hi _ (f3) 8 5 (by decide)).trans ((slice_hi _ (rs1) 5 5 (by decide)).trans ((slice_lo _ (rs2) 0 5 (by decide)).trans BitVec.extractLsb'_eq_self))))

@[simp] theorem immS_sType (off : BitVec 12) (rs2 rs1 : Reg) (f3 : BitVec 3) (op : BitVec 7) :
    immS (sType off rs2 rs1 f3 op) = off := by
  have h1 : (sType off rs2 rs1 f3 op).extractLsb' 25 7 = off.extractLsb' 5 7 := (slice_hi _ (op) 25 7 (by decide)).trans ((slice_hi _ (off.extractLsb' 0 5) 18 7 (by decide)).trans ((slice_hi _ (f3) 13 7 (by decide)).trans ((slice_hi _ (rs1) 10 7 (by decide)).trans ((slice_hi _ (rs2) 5 7 (by decide)).trans BitVec.extractLsb'_eq_self))))
  have h2 : (sType off rs2 rs1 f3 op).extractLsb' 7 5 = off.extractLsb' 0 5 := (slice_hi _ (op) 7 5 (by decide)).trans ((slice_lo _ (off.extractLsb' 0 5) 0 5 (by decide)).trans BitVec.extractLsb'_eq_self)
  unfold immS
  rw [h1, h2]
  exact (slice_join off 0 7 5).trans BitVec.extractLsb'_eq_self

/-! ## bType -/

@[simp] theorem opcode_bType (off : BitVec 12) (rs2 rs1 : Reg) (f3 : BitVec 3) (op : BitVec 7) :
    opcode (bType off rs2 rs1 f3 op) = op :=
  (slice_lo _ (op) 0 7 (by decide)).trans BitVec.extractLsb'_eq_self

@[simp] theorem funct3_bType (off : BitVec 12) (rs2 rs1 : Reg) (f3 : BitVec 3) (op : BitVec 7) :
    funct3 (bType off rs2 rs1 f3 op) = f3 :=
  (slice_hi _ (op) 12 3 (by decide)).trans ((slice_hi _ (off.extractLsb' 10 1) 5 3 (by decide)).trans ((slice_hi _ (off.extractLsb' 0 4) 4 3 (by decide)).trans ((slice_lo _ (f3) 0 3 (by decide)).trans BitVec.extractLsb'_eq_self)))

@[simp] theorem rs1Of_bType (off : BitVec 12) (rs2 rs1 : Reg) (f3 : BitVec 3) (op : BitVec 7) :
    rs1Of (bType off rs2 rs1 f3 op) = rs1 :=
  (slice_hi _ (op) 15 5 (by decide)).trans ((slice_hi _ (off.extractLsb' 10 1) 8 5 (by decide)).trans ((slice_hi _ (off.extractLsb' 0 4) 7 5 (by decide)).trans ((slice_hi _ (f3) 3 5 (by decide)).trans ((slice_lo _ (rs1) 0 5 (by decide)).trans BitVec.extractLsb'_eq_self))))

@[simp] theorem rs2Of_bType (off : BitVec 12) (rs2 rs1 : Reg) (f3 : BitVec 3) (op : BitVec 7) :
    rs2Of (bType off rs2 rs1 f3 op) = rs2 :=
  (slice_hi _ (op) 20 5 (by decide)).trans ((slice_hi _ (off.extractLsb' 10 1) 13 5 (by decide)).trans ((slice_hi _ (off.extractLsb' 0 4) 12 5 (by decide)).trans ((slice_hi _ (f3) 8 5 (by decide)).trans ((slice_hi _ (rs1) 5 5 (by decide)).trans ((slice_lo _ (rs2) 0 5 (by decide)).trans BitVec.extractLsb'_eq_self)))))

@[simp] theorem offB_bType (off : BitVec 12) (rs2 rs1 : Reg) (f3 : BitVec 3) (op : BitVec 7) :
    offB (bType off rs2 rs1 f3 op) = off := by
  have h1 : (bType off rs2 rs1 f3 op).extractLsb' 31 1 = off.extractLsb' 11 1 := (slice_hi _ (op) 31 1 (by decide)).trans ((slice_hi _ (off.extractLsb' 10 1) 24 1 (by decide)).trans ((slice_hi _ (off.extractLsb' 0 4) 23 1 (by decide)).trans ((slice_hi _ (f3) 19 1 (by decide)).trans ((slice_hi _ (rs1) 16 1 (by decide)).trans ((slice_hi _ (rs2) 11 1 (by decide)).trans ((slice_hi _ (off.extractLsb' 4 6) 6 1 (by decide)).trans BitVec.extractLsb'_eq_self))))))
  have h2 : (bType off rs2 rs1 f3 op).extractLsb' 7 1 = off.extractLsb' 10 1 := (slice_hi _ (op) 7 1 (by decide)).trans ((slice_lo _ (off.extractLsb' 10 1) 0 1 (by decide)).trans BitVec.extractLsb'_eq_self)
  have h3 : (bType off rs2 rs1 f3 op).extractLsb' 25 6 = off.extractLsb' 4 6 := (slice_hi _ (op) 25 6 (by decide)).trans ((slice_hi _ (off.extractLsb' 10 1) 18 6 (by decide)).trans ((slice_hi _ (off.extractLsb' 0 4) 17 6 (by decide)).trans ((slice_hi _ (f3) 13 6 (by decide)).trans ((slice_hi _ (rs1) 10 6 (by decide)).trans ((slice_hi _ (rs2) 5 6 (by decide)).trans ((slice_lo _ (off.extractLsb' 4 6) 0 6 (by decide)).trans BitVec.extractLsb'_eq_self))))))
  have h4 : (bType off rs2 rs1 f3 op).extractLsb' 8 4 = off.extractLsb' 0 4 := (slice_hi _ (op) 8 4 (by decide)).trans ((slice_hi _ (off.extractLsb' 10 1) 1 4 (by decide)).trans ((slice_lo _ (off.extractLsb' 0 4) 0 4 (by decide)).trans BitVec.extractLsb'_eq_self))
  unfold offB
  rw [h1, h2, h3, h4]
  exact (congrArg (· ++ off.extractLsb' 0 4) ((congrArg (· ++ off.extractLsb' 4 6) (slice_join off 10 1 1)).trans
    (slice_join off 4 2 6))).trans ((slice_join off 0 8 4).trans BitVec.extractLsb'_eq_self)

/-! ## uType -/

@[simp] theorem opcode_uType (imm : BitVec 20) (rd : Reg) (op : BitVec 7) :
    opcode (uType imm rd op) = op :=
  (slice_lo _ (op) 0 7 (by decide)).trans BitVec.extractLsb'_eq_self

@[simp] theorem rdOf_uType (imm : BitVec 20) (rd : Reg) (op : BitVec 7) :
    rdOf (uType imm rd op) = rd :=
  (slice_hi _ (op) 7 5 (by decide)).trans ((slice_lo _ (rd) 0 5 (by decide)).trans BitVec.extractLsb'_eq_self)

@[simp] theorem immU_uType (imm : BitVec 20) (rd : Reg) (op : BitVec 7) :
    immU (uType imm rd op) = imm :=
  (slice_hi _ (op) 12 20 (by decide)).trans ((slice_hi _ (rd) 5 20 (by decide)).trans BitVec.extractLsb'_eq_self)

/-! ## jType -/

@[simp] theorem opcode_jType (off : BitVec 20) (rd : Reg) (op : BitVec 7) :
    opcode (jType off rd op) = op :=
  (slice_lo _ (op) 0 7 (by decide)).trans BitVec.extractLsb'_eq_self

@[simp] theorem rdOf_jType (off : BitVec 20) (rd : Reg) (op : BitVec 7) :
    rdOf (jType off rd op) = rd :=
  (slice_hi _ (op) 7 5 (by decide)).trans ((slice_lo _ (rd) 0 5 (by decide)).trans BitVec.extractLsb'_eq_self)

@[simp] theorem offJ_jType (off : BitVec 20) (rd : Reg) (op : BitVec 7) :
    offJ (jType off rd op) = off := by
  have h1 : (jType off rd op).extractLsb' 31 1 = off.extractLsb' 19 1 := (slice_hi _ (op) 31 1 (by decide)).trans ((slice_hi _ (rd) 24 1 (by decide)).trans ((slice_hi _ (off.extractLsb' 11 8) 19 1 (by decide)).trans ((slice_hi _ (off.extractLsb' 10 1) 11 1 (by decide)).trans ((slice_hi _ (off.extractLsb' 0 10) 10 1 (by decide)).trans BitVec.extractLsb'_eq_self))))
  have h2 : (jType off rd op).extractLsb' 12 8 = off.extractLsb' 11 8 := (slice_hi _ (op) 12 8 (by decide)).trans ((slice_hi _ (rd) 5 8 (by decide)).trans ((slice_lo _ (off.extractLsb' 11 8) 0 8 (by decide)).trans BitVec.extractLsb'_eq_self))
  have h3 : (jType off rd op).extractLsb' 20 1 = off.extractLsb' 10 1 := (slice_hi _ (op) 20 1 (by decide)).trans ((slice_hi _ (rd) 13 1 (by decide)).trans ((slice_hi _ (off.extractLsb' 11 8) 8 1 (by decide)).trans ((slice_lo _ (off.extractLsb' 10 1) 0 1 (by decide)).trans BitVec.extractLsb'_eq_self)))
  have h4 : (jType off rd op).extractLsb' 21 10 = off.extractLsb' 0 10 := (slice_hi _ (op) 21 10 (by decide)).trans ((slice_hi _ (rd) 14 10 (by decide)).trans ((slice_hi _ (off.extractLsb' 11 8) 9 10 (by decide)).trans ((slice_hi _ (off.extractLsb' 10 1) 1 10 (by decide)).trans ((slice_lo _ (off.extractLsb' 0 10) 0 10 (by decide)).trans BitVec.extractLsb'_eq_self))))
  unfold offJ
  rw [h1, h2, h3, h4]
  exact (congrArg (· ++ off.extractLsb' 0 10) ((congrArg (· ++ off.extractLsb' 10 1) (slice_join off 11 1 8)).trans
    (slice_join off 10 9 1))).trans ((slice_join off 0 10 10).trans BitVec.extractLsb'_eq_self)

/-! ## r4Type -/

@[simp] theorem opcode_r4Type (rs3 : Reg) (fmt : BitVec 2) (rs2 rs1 : Reg) (f3 : BitVec 3) (rd : Reg) (op : BitVec 7) :
    opcode (r4Type rs3 fmt rs2 rs1 f3 rd op) = op :=
  (slice_lo _ (op) 0 7 (by decide)).trans BitVec.extractLsb'_eq_self

@[simp] theorem rdOf_r4Type (rs3 : Reg) (fmt : BitVec 2) (rs2 rs1 : Reg) (f3 : BitVec 3) (rd : Reg) (op : BitVec 7) :
    rdOf (r4Type rs3 fmt rs2 rs1 f3 rd op) = rd :=
  (slice_hi _ (op) 7 5 (by decide)).trans ((slice_lo _ (rd) 0 5 (by decide)).trans BitVec.extractLsb'_eq_self)

@[simp] theorem funct3_r4Type (rs3 : Reg) (fmt : BitVec 2) (rs2 rs1 : Reg) (f3 : BitVec 3) (rd : Reg) (op : BitVec 7) :
    funct3 (r4Type rs3 fmt rs2 rs1 f3 rd op) = f3 :=
  (slice_hi _ (op) 12 3 (by decide)).trans ((slice_hi _ (rd) 5 3 (by decide)).trans ((slice_lo _ (f3) 0 3 (by decide)).trans BitVec.extractLsb'_eq_self))

@[simp] theorem rs1Of_r4Type (rs3 : Reg) (fmt : BitVec 2) (rs2 rs1 : Reg) (f3 : BitVec 3) (rd : Reg) (op : BitVec 7) :
    rs1Of (r4Type rs3 fmt rs2 rs1 f3 rd op) = rs1 :=
  (slice_hi _ (op) 15 5 (by decide)).trans ((slice_hi _ (rd) 8 5 (by decide)).trans ((slice_hi _ (f3) 3 5 (by decide)).trans ((slice_lo _ (rs1) 0 5 (by decide)).trans BitVec.extractLsb'_eq_self)))

@[simp] theorem rs2Of_r4Type (rs3 : Reg) (fmt : BitVec 2) (rs2 rs1 : Reg) (f3 : BitVec 3) (rd : Reg) (op : BitVec 7) :
    rs2Of (r4Type rs3 fmt rs2 rs1 f3 rd op) = rs2 :=
  (slice_hi _ (op) 20 5 (by decide)).trans ((slice_hi _ (rd) 13 5 (by decide)).trans ((slice_hi _ (f3) 8 5 (by decide)).trans ((slice_hi _ (rs1) 5 5 (by decide)).trans ((slice_lo _ (rs2) 0 5 (by decide)).trans BitVec.extractLsb'_eq_self))))

@[simp] theorem rs3Of_r4Type (rs3 : Reg) (fmt : BitVec 2) (rs2 rs1 : Reg) (f3 : BitVec 3) (rd : Reg) (op : BitVec 7) :
    rs3Of (r4Type rs3 fmt rs2 rs1 f3 rd op) = rs3 :=
  (slice_hi _ (op) 27 5 (by decide)).trans ((slice_hi _ (rd) 20 5 (by decide)).trans ((slice_hi _ (f3) 15 5 (by decide)).trans ((slice_hi _ (rs1) 12 5 (by decide)).trans ((slice_hi _ (rs2) 7 5 (by decide)).trans ((slice_hi _ (fmt) 2 5 (by decide)).trans BitVec.extractLsb'_eq_self)))))

@[simp] theorem fmtR4_r4Type (rs3 : Reg) (fmt : BitVec 2) (rs2 rs1 : Reg) (f3 : BitVec 3) (rd : Reg) (op : BitVec 7) :
    fmtR4 (r4Type rs3 fmt rs2 rs1 f3 rd op) = fmt :=
  (slice_hi _ (op) 25 2 (by decide)).trans ((slice_hi _ (rd) 18 2 (by decide)).trans ((slice_hi _ (f3) 13 2 (by decide)).trans ((slice_hi _ (rs1) 10 2 (by decide)).trans ((slice_hi _ (rs2) 5 2 (by decide)).trans ((slice_lo _ (fmt) 0 2 (by decide)).trans BitVec.extractLsb'_eq_self)))))

end Sys2Proof
end

