-- ==== Sys2Proof/Laws/Exec.lean ====
section
/-! SUPPORT. What the shared shapes of instructions can do: one lemma for each. -/

namespace Sys2Proof.Machine

open Sys2Proof

theorem Advanced.of_finish {s u : State} (len : Nat) (hc : u.cfg = s.cfg) (hp : u.pc = s.pc)
    (hm : u.minstret = s.minstret) (hl : len < 8) : Advanced s ((u.advance len).retire) len := by
  refine ⟨?_, ?_⟩
  · rw [State.retire_pc]
    simp only [State.advance, Xlen.wrap_add, hp, hc, State.xlen, BitVec.toNat_ofNat]
    rw [Nat.mod_eq_of_lt (show len < 2 ^ 64 by omega)]
  · simp only [Retired, State.retire, State.advance_minstret, hm, BitVec.toNat_add]
    rfl

/-! ## x registers -/

/-- `setX` completes: it writes one x register and moves on. -/
theorem setX_spec (len : Nat) (rd : Reg) (v : Word) (s : State) (hl : len < 8) :
    SetsX (setX len rd v s) s len rd (v.toNat % 2 ^ s.xlen) := by
  have ha := Advanced.of_finish (s := s) (u := s.writeX rd v) len (by simp) (by simp) (by simp) hl
  refine ⟨_, rfl, XWritten.of_writeX (fun q => State.readX_congr (by simp) (by simp) q), ha.1, ha.2,
    fun a => by simp, ?_⟩
  unfold State.writeX
  split <;> rfl

/-- `finishAt` after a register write completes at its target. -/
theorem finishAt_spec (rd : Reg) (v target : Word) (s : State) :
    Jumps (finishAt target (s.writeX rd v)) s (target.toNat % 2 ^ s.xlen) rd (v.toNat % 2 ^ s.xlen) := by
  refine ⟨_, rfl, XWritten.of_writeX (fun q => State.readX_congr (by rfl) (by rfl) q), ?_, ?_, fun a => ?_, ?_⟩
  · simp only [State.retire_pc, State.writeX_cfg, Xlen.wrap_toNat, State.xlen]
  · simp only [Retired, State.retire, State.writeX_minstret, BitVec.toNat_add]
    rfl
  · simp
  · unfold State.writeX
    split <;> rfl

theorem XWritten.zero {s t : State} {v w : Nat} (h : XWritten s t 0 v) : XWritten s t 0 w := by
  intro q
  rw [h q]
  split <;> rfl

theorem Arrives.zero {r : Result} {s : State} {k target v w : Nat} (h : Arrives r s k target 0 v) :
    Arrives r s k target 0 w := by
  obtain ⟨t, h1, h2, h3⟩ := h
  exact ⟨t, h1, h2.zero, h3⟩

theorem State.writeX_zero (s : State) (v : Word) : s.writeX 0 v = s := by
  unfold State.writeX
  rw [if_pos rfl]

/-- `finish` alone changes nothing but the pc and the count of retired instructions. -/
theorem finish_spec (len : Nat) (s : State) (hl : len < 8) : SetsX (finish len s) s len 0 0 := by
  have h := setX_spec len 0 0 s hl
  rw [setX, State.writeX_zero] at h
  exact Arrives.zero h

/-- A jump whose target is a multiple of IALIGN/8 completes, any other raises. -/
theorem jumpLink_spec (len : Nat) (rd : Reg) (target : Word) (s : State) (hl : len < 8)
    (ht : s.cfg.xlen.wrap target = target) : JumpMeets (jumpLink len rd target s) s len rd target.toNat := by
  unfold jumpLink
  refine ⟨fun h => ?_, fun h => ?_⟩
  · rw [if_pos ((targetAligned_iff s target).mpr h)]
    have hj := finishAt_spec rd (s.pcPlus (BitVec.ofNat 64 len)) target s
    have h1 : target.toNat % 2 ^ s.xlen = target.toNat := by
      rw [State.xlen, ← Xlen.wrap_toNat, ht]
    have h2 : (s.pcPlus (BitVec.ofNat 64 len)).toNat % 2 ^ s.xlen = (s.pc.toNat + len) % 2 ^ s.xlen := by
      rw [State.pcPlus, Xlen.wrap_add, State.xlen, Nat.mod_mod, BitVec.toNat_ofNat,
        Nat.mod_eq_of_lt (show len < 2 ^ 64 by omega)]
    rw [h1, h2] at hj
    exact hj
  · rw [if_neg (fun h' => h ((targetAligned_iff s target).mp h'))]
    simp

/-- A branch falls through, jumps or raises. -/
theorem branch_spec (len : Nat) (cond : Bool) (off : Word) (s : State) (hl : len < 8) :
    BranchMeets (branch len cond off s) s len (cond = true) (s.pcPlus off).toNat := by
  unfold branch
  refine ⟨fun h => ?_, fun h ha => ?_, fun h ha => ?_⟩
  · rw [if_neg h]
    exact finish_spec len s hl
  · rw [if_pos h, if_pos ((targetAligned_iff s _).mpr ha)]
    have hj := finishAt_spec 0 0 (s.pcPlus off) s
    rw [State.writeX_zero] at hj
    have h1 : (s.pcPlus off).toNat % 2 ^ s.xlen = (s.pcPlus off).toNat := by
      rw [State.xlen, ← Xlen.wrap_toNat, State.wrap_pcPlus]
    rw [h1] at hj
    exact Arrives.zero hj
  · rw [if_pos h, if_neg (fun h' => ha ((targetAligned_iff s _).mp h'))]
    simp

/-! ## Loads -/

/-- What a load reports when it does not complete, whatever goes on with its value. -/
theorem State.load_traps (s : State) (a : Word) (n : Nat) (k : Word → State → Result) :
    LoadTraps ((s.load a n).andThen k) s a.toNat n := by
  obtain ⟨h1, -, h3, h4⟩ := State.load_spec s a n
  refine ⟨fun ha => ?_, fun ha hb hm => ?_, fun ha hb => ?_⟩
  · rw [h1 ha]
    simp [Access.andThen]
  · rw [h3 ha hb hm]
    simp [Access.andThen]
  · obtain ⟨t, ht, hl⟩ := h4 ha hb
    rw [ht]
    exact ⟨t, by simp [Access.andThen], hl⟩

/-- A load into an x register completes with the number of the bytes, or raises. -/
theorem loadX_spec (len : Nat) (rd : Reg) (addr : Word) (n : Nat) (ext : Word → Word) (value : Nat) (s : State)
    (hl : len < 8) (hn : n ≤ 8)
    (hext : ∀ v : Word, v.toNat = s.littleEndian addr.toNat n → (ext v).toNat % 2 ^ s.xlen = value) :
    LoadMeets (loadX len rd addr n ext s) s len rd addr.toNat n value := by
  refine ⟨fun ha hb => ?_, State.load_traps s addr n _⟩
  unfold loadX
  rw [(State.load_spec s addr n).2.1 ha hb]
  obtain ⟨⟨io, d, h⟩, hlog, hmain⟩ := s.loadAccesses_spec addr n hn
  generalize hv : (s.loadAccesses addr n).1 = v at hmain ⊢
  generalize hu : (s.loadAccesses addr n).2 = u at h hlog hmain ⊢
  have hw : XWritten s ((u.writeX rd (ext v)).advance len).retire rd ((ext v).toNat % 2 ^ s.xlen) :=
    XWritten.of_writeX (fun q => by
      rw [State.readX_congr (s := u.writeX rd (ext v)) (by simp) (by simp) q, State.readX_writeX, State.readX_writeX,
        State.readX_congr (s := s) (t := u) (by rw [h]) (by rw [h]), h])
  refine ⟨_, rfl, Advanced.of_finish len (by rw [h]; simp) (by rw [h]; simp) (by rw [h]; simp) hl,
    fun a => by rw [h]; simp, ⟨_, hw⟩, ?_, ?_, fun hm => ?_⟩
  · simpa [IoLogged] using hlog hb
  · rw [h]
    unfold State.writeX
    split <;> rfl
  · obtain ⟨hval, hs⟩ := hmain hm
    rw [hs] at hw ⊢
    refine ⟨?_, by simp, by simp⟩
    rw [← hext _ hval]
    exact hw

end Sys2Proof.Machine
end

