-- ==== Sys2Proof/Laws/Fetch.lean ====
section
/-! SUPPORT. What fetching a halfword can do. -/

namespace Sys2Proof.Machine

open Sys2Proof

theorem foldl_before (a : Nat) : ∀ (l : List (List Host.Cell)) (now : Byte),
    l.foldl (fun v cells => match cells.find? (fun c => c.1 == a) with
      | some c => c.2
      | none => v) now =
    match l.reverse.flatten.find? (fun c => c.1 == a) with
    | some c => c.2
    | none => now
  | [], _ => rfl
  | x :: l, now => by
    rw [List.foldl_cons, foldl_before a l, List.reverse_cons, List.flatten_append, List.find?_append, List.flatten_cons,
      List.flatten_nil, List.append_nil]
    cases l.reverse.flatten.find? (fun c => c.1 == a) <;> simp

/-- The byte a fetch reads is what memory held before the k newest stores. -/
theorem byteBefore_eq (s : State) (k a : Nat) :
    byteBefore s.storeLog k a (Memory.read s.mem a) = s.heldBefore k a := foldl_before a _ _

theorem State.heldBefore_zero (s : State) (a : Nat) : s.heldBefore 0 a = Memory.read s.mem a := rfl

theorem storedSince_iff (s : State) (a : Word) (n : Nat) :
    storedSince s.storeLog (byteAddrs s.cfg.xlen a n) = true ↔ StoredTo s a.toNat n := by
  simp only [storedSince, StoredTo, byteAddrs, State.byteAt, State.xlen, List.any_eq_true, List.contains_iff_mem,
    List.mem_map, List.mem_range, @eq_comm Nat _ (Prod.fst _)]

theorem halfOf_toNat (b0 b1 : Byte) : (halfOf b0 b1).toNat = b0.toNat + 256 * b1.toNat := by
  have h := b0.isLt
  rw [halfOf, BitVec.toNat_append, ← Nat.shiftLeft_add_eq_or_of_lt h, Nat.shiftLeft_eq]
  omega

/-- A fetch of a halfword of main memory gives one of the values R101 allows, chosen by the next free value, of which it
uses at most that one; where no store since the last `fence.i` wrote to it, it gives what memory holds and uses none. -/
theorem State.fetchHalf_spec (s : State) (a : Word) (hm : MainMemory s a.toNat 2) :
    (∃ k, k ≤ s.storeLog.length ∧ (StoredTo s a.toNat 2 → k = Config.freeFetchView s.draws % (s.storeLog.length + 1)) ∧
      (s.fetchHalf a).1.toNat =
        (s.heldBefore k (s.byteAt a.toNat 0)).toNat + 256 * (s.heldBefore k (s.byteAt a.toNat 1)).toNat) ∧
    (∃ d, (d = s.draws ∨ d = s.draws + 1) ∧ (s.fetchHalf a).2 = { s with draws := d }) ∧
    (¬StoredTo s a.toNat 2 → (s.fetchHalf a).2 = s ∧ (s.fetchHalf a).1.toNat =
      (Memory.read s.mem (s.byteAt a.toNat 0)).toNat + 256 * (Memory.read s.mem (s.byteAt a.toNat 1)).toNat) := by
  have hio : touchesIo s.cfg (byteAddrs s.cfg.xlen a 2) = false := (touchesIo_iff s a 2).mpr hm
  have h0 : (byteAddrs s.cfg.xlen a 2).headD 0 = s.byteAt a.toNat 0 := rfl
  have h1 : (byteAddrs s.cfg.xlen a 2).getLastD 0 = s.byteAt a.toNat 1 := rfl
  unfold State.fetchHalf
  dsimp only
  rw [h0, h1, if_neg (by rw [hio]; decide)]
  by_cases hs : StoredTo s a.toNat 2
  · rw [if_pos ((storedSince_iff s a 2).mpr hs)]
    refine ⟨⟨_, Nat.le_of_lt_succ (Nat.mod_lt _ (Nat.succ_pos _)), fun _ => rfl, ?_⟩,
      ⟨_, .inr rfl, rfl⟩, fun h => absurd hs h⟩
    rw [halfOf_toNat, byteBefore_eq, byteBefore_eq]
  · rw [if_neg (fun h => hs ((storedSince_iff s a 2).mp h))]
    exact ⟨⟨0, Nat.zero_le _, fun h => absurd h hs, halfOf_toNat _ _⟩, ⟨_, .inl rfl, rfl⟩, fun _ => ⟨rfl, halfOf_toNat _ _⟩⟩

theorem State.fetchHalf_fetched (s : State) (a : Word) (hm : MainMemory s a.toNat 2) :
    HalfFetched s a.toNat (s.fetchHalf a).1 := by
  obtain ⟨⟨k, hk, hd, hv⟩, _⟩ := s.fetchHalf_spec a hm
  exact ⟨k, hk, fun h => ⟨_, .inl rfl, hd h⟩, hv⟩

end Sys2Proof.Machine
end

