-- ==== Sys2Proof/Laws/Stores.lean ====
section
/-! SUPPORT. What stores and atomic operations can do: one lemma for each shared operation. -/

namespace Sys2Proof.Machine

open Sys2Proof

/-! ## Writing memory -/

theorem State.byteAt_inj (s : State) (a j k : Nat) (hj : j < 8) (hk : k < 8) (h : s.byteAt a j = s.byteAt a k) :
    j = k := by
  unfold State.byteAt at h
  rcases s.xlen_eq with hx | hx <;> rw [hx] at h <;> omega

theorem cellsOf_fst (xl : Xlen) (a : Word) (n : Nat) (v : Word) : (cellsOf xl a n v).map Prod.fst = byteAddrs xl a n := by
  simp [cellsOf, byteAddrs, Function.comp_def]

theorem State.cells_nodup (s : State) (a : Word) (n : Nat) (v : Word) (hn : n ≤ 8) :
    ((cellsOf s.cfg.xlen a n v).map Prod.fst).Nodup := by
  rw [cellsOf_fst, byteAddrs]
  refine List.Nodup.map_on ?_ List.nodup_range
  intro j hj k hk h
  exact s.byteAt_inj a.toNat j k (by have := List.mem_range.mp hj; omega) (by have := List.mem_range.mp hk; omega) h

theorem mem_cellsOf (s : State) (a : Word) (n : Nat) (v : Word) (c : Host.Cell) :
    c ∈ cellsOf s.cfg.xlen a n v ↔ ∃ k, k < n ∧ c = (s.byteAt a.toNat k, byteOf v k) := by
  simp only [cellsOf, List.mem_map, List.mem_range, State.byteAt, State.xlen, eq_comm]

theorem byteOf_toNat (v : Word) (k : Nat) : (byteOf v k).toNat = v.toNat / 256 ^ k % 256 := by
  unfold byteOf
  rw [BitVec.extractLsb'_toNat, Nat.shiftRight_eq_div_pow, Nat.pow_mul]

/-- The bytes a store writes, and those it leaves alone. -/
theorem State.writeMem_bytes (s : State) (a : Word) (n : Nat) (v : Word) (hm : Memory.wf s.mem = true) (hn : n ≤ 8) :
    BytesWritten s (s.writeMem a n v) a.toNat n v.toNat := by
  unfold BytesWritten
  rw [State.writeMem_mem]
  refine ⟨fun k hk hio => ?_, fun p hp => ?_⟩
  · rw [← byteOf_toNat]
    refine congrArg BitVec.toNat (Memory.read_writeCells_same _ s.mem (s.byteAt a.toNat k, byteOf v k) hm ?_ ?_)
    · exact List.Nodup.sublist (List.Sublist.map _ List.filter_sublist) (s.cells_nodup a n v hn)
    · rw [List.mem_filter]
      exact ⟨(mem_cellsOf s a n v _).mpr ⟨k, hk, rfl⟩, by simp [hio]⟩
  · refine Memory.read_writeCells_other _ s.mem p hm (fun c hc h => ?_)
    obtain ⟨hc, hio⟩ := List.mem_filter.mp hc
    obtain ⟨k, hk, rfl⟩ := (mem_cellsOf s a n v c).mp hc
    exact hp k hk (by simpa using hio) h.symm

/-- What a store adds to the record of stores: the bytes of main memory it overwrites. -/
theorem State.writeMem_storeLog (s : State) (a : Word) (n : Nat) (v : Word) :
    (s.writeMem a n v).storeLog = s.overwritten a.toNat n :: s.storeLog := by
  have h : ((cellsOf s.cfg.xlen a n v).filter (fun c => !isIo s.cfg c.1)).map (fun c => (c.1, Memory.read s.mem c.1)) =
      s.overwritten a.toNat n := by
    unfold cellsOf State.overwritten
    rw [List.filter_map, List.map_map]
    rfl
  unfold State.writeMem
  rw [State.ownStore_storeLog, State.putCells, State.noteWrite_mem, State.noteWrite_storeLog, h]

/-- What a store of the hart does to the reservation. -/
theorem State.ownStore_shape (s : State) (l : List Nat) :
    ∃ r d, s.ownStore l = { s with reservation := r, draws := d } ∧ (r = s.reservation ∨ r = none) := by
  unfold State.ownStore
  split
  · exact ⟨_, _, rfl, .inl rfl⟩
  · next r hr =>
    split
    · refine ⟨_, _, rfl, ?_⟩
      split
      · exact .inl hr.symm
      · exact .inr rfl
    · exact ⟨_, _, rfl, .inl rfl⟩

/-- Of the state, a store changes memory, its own records and perhaps the reservation. -/
theorem State.writeMem_shape (s : State) (a : Word) (n : Nat) (v : Word) :
    ∃ m l io r d, s.writeMem a n v = { s with mem := m, storeLog := l, ioLog := io, reservation := r, draws := d } ∧
      (r = s.reservation ∨ r = none) := by
  unfold State.writeMem State.noteWrite
  split
  all_goals
    obtain ⟨r, d, h, hr⟩ := State.ownStore_shape (State.putCells _ ((cellsOf s.cfg.xlen a n v).filter
      (fun c => !isIo s.cfg c.1))) (byteAddrs s.cfg.xlen a n)
    exact ⟨_, _, _, r, d, h, hr⟩

/-- A device sees one write where the access touches I/O, else none. -/
theorem State.writeMem_ioLog (s : State) (a : Word) (n : Nat) (v : Word) :
    (s.writeMem a n v).ioLog =
      (if touchesIo s.cfg (byteAddrs s.cfg.xlen a n) then [.write a n (lowBytes n v)] else []) ++ s.ioLog := by
  unfold State.writeMem
  rw [State.ownStore_ioLog, State.putCells_ioLog]
  unfold State.noteWrite
  split <;> rfl

theorem lowBytes_eq (n : Nat) (v : Word) : lowBytes n v = BitVec.ofNat 64 (v.toNat % 256 ^ n) := by
  apply BitVec.eq_of_toNat_eq
  rw [lowBytes, BitVec.toNat_setWidth, BitVec.toNat_setWidth, BitVec.toNat_ofNat, Nat.pow_mul]

theorem lowBytes_one (v : Word) (j : Nat) : lowBytes 1 (v >>> (8 * j)) = BitVec.ofNat 64 (v.toNat / 256 ^ j % 256) := by
  rw [lowBytes_eq, BitVec.toNat_ushiftRight, Nat.shiftRight_eq_div_pow, Nat.pow_mul, Nat.pow_one]

/-- The device accesses of an aligned store, in the terms of the statements. -/
theorem State.writeMem_ioLogged (s : State) (a : Word) (n : Nat) (v : Word) (ha : a.toNat % n = 0) :
    IoLogged s (s.writeMem a n v) (s.ioWrites a.toNat n v.toNat) := by
  refine ⟨_, ?_, s.writeMem_ioLog a n v⟩
  rw [State.ioWrites, if_pos ha, ← lowBytes_eq]
  by_cases hio : s.ioBytesOf a.toNat n = []
  · rw [if_pos hio, if_neg (fun h => (touchesIo_iff_ioBytesOf s a n).mp h hio)]
  · rw [if_neg hio, if_pos ((touchesIo_iff_ioBytesOf s a n).mpr hio), BitVec.ofNat_toNat, BitVec.setWidth_eq]

theorem State.writeMem_storesLogged (s : State) (a : Word) (n : Nat) (v : Word) :
    StoresLogged s (s.writeMem a n v) (s.overwritten a.toNat n) :=
  ⟨[s.overwritten a.toNat n], s.writeMem_storeLog a n v, by rw [List.flatten_cons, List.flatten_nil, List.append_nil]⟩

/-! ## Stores made in bytes (20_memory.md R85) -/

/-- What a device sees of byte j of an emulated store. -/
def State.byteEvent (s : State) (a v : Word) (j : Nat) : IoEvent :=
  .write (BitVec.ofNat 64 (s.byteAt a.toNat j)) 1 (BitVec.ofNat 64 (v.toNat / 256 ^ j % 256))

/-- Byte j of an access, with what it holds. -/
def State.byteHeld (s : State) (a : Word) (j : Nat) : Host.Cell :=
  (s.byteAt a.toNat j, Memory.read s.mem (s.byteAt a.toNat j))

/-- The bytes an emulated store has made: those in main memory hold the value's, a device has seen the others, and no
other state has changed. -/
structure BytesStored (s t : State) (a v : Word) (l : List Nat) : Prop where
  same : ∀ j ∈ l, isIo s.cfg (s.byteAt a.toNat j) = false → Memory.read t.mem (s.byteAt a.toNat j) = byteOf v j
  other : ∀ p, (∀ j ∈ l, isIo s.cfg (s.byteAt a.toNat j) = false → p ≠ s.byteAt a.toNat j) →
    Memory.read t.mem p = Memory.read s.mem p
  log : t.ioLog = ((l.filter (fun j => isIo s.cfg (s.byteAt a.toNat j))).map (s.byteEvent a v)).reverse ++ s.ioLog
  stores : ∃ new, t.storeLog = new ++ s.storeLog ∧
    new.flatten.Perm ((l.filter (fun j => !isIo s.cfg (s.byteAt a.toNat j))).map (s.byteHeld a))
  shape : ∃ m c io r d, t = { s with mem := m, storeLog := c, ioLog := io, reservation := r, draws := d } ∧
    (r = s.reservation ∨ r = none)

theorem byteOf_shift (v : Word) (j : Nat) : byteOf (v >>> (8 * j)) 0 = byteOf v j := by
  apply BitVec.eq_of_toNat_eq
  rw [byteOf_toNat, byteOf_toNat, BitVec.toNat_ushiftRight, Nat.shiftRight_eq_div_pow, Nat.pow_mul, Nat.pow_zero,
    Nat.div_one]

theorem foldl_storeByte (a v : Word) : ∀ (l : List Nat) (s : State), Memory.wf s.mem = true → l.Nodup →
    (∀ j ∈ l, j < 8) → BytesStored s (l.foldl (State.storeByte a v) s) a v l
  | [], s, _, _, _ => ⟨fun _ h => (List.not_mem_nil h).elim, fun _ _ => rfl, rfl, ⟨[], rfl, .refl _⟩, ⟨_, _, _, _, _, rfl, .inl rfl⟩⟩
  | j :: l, s, hm, hnd, hl => by
    obtain ⟨hj, hnd⟩ := List.nodup_cons.mp hnd
    obtain ⟨m, c, io, r, d, hs, hr⟩ := s.writeMem_shape (byteAddr s.cfg.xlen a j) 1 (v >>> (8 * j))
    have hb := s.writeMem_bytes (byteAddr s.cfg.xlen a j) 1 (v >>> (8 * j)) hm (by decide)
    have hlog := s.writeMem_ioLog (byteAddr s.cfg.xlen a j) 1 (v >>> (8 * j))
    have hwf := s.writeMem_wf (byteAddr s.cfg.xlen a j) 1 (v >>> (8 * j)) hm
    rw [touchesIo_byte, lowBytes_one] at hlog
    have ih := foldl_storeByte a v l (s.storeByte a v j) hwf hnd (fun k hk => hl k (List.mem_cons_of_mem _ hk))
    have hcfg : (s.storeByte a v j).cfg = s.cfg := State.writeMem_cfg ..
    have hat : (s.storeByte a v j).byteAt a.toNat = s.byteAt a.toNat := by
      funext k
      simp only [State.byteAt, State.xlen, hcfg]
    have hev : (s.storeByte a v j).byteEvent a v = s.byteEvent a v := by
      funext k
      simp only [State.byteEvent, hat]
    obtain ⟨h1, h2, h3, ⟨new, hnew, hperm⟩, m', c', io', r', d', hs', hr'⟩ := ih
    rw [hcfg, hat] at h1 h2 h3 hperm
    rw [hev] at h3
    have hpt : ∀ p, (isIo s.cfg (s.byteAt a.toNat j) = false → p ≠ s.byteAt a.toNat j) →
        Memory.read (s.storeByte a v j).mem p = Memory.read s.mem p := by
      intro p hp
      refine hb.2 p (fun k hk => ?_)
      obtain rfl : k = 0 := by omega
      rw [byteAt_zero]
      exact hp
    have hheld : (l.filter (fun k => !isIo s.cfg (s.byteAt a.toNat k))).map ((s.storeByte a v j).byteHeld a) =
        (l.filter (fun k => !isIo s.cfg (s.byteAt a.toNat k))).map (s.byteHeld a) := by
      refine List.map_congr_left (fun k hk => ?_)
      have hk := (List.mem_filter.mp hk).1
      simp only [State.byteHeld, hat]
      rw [hpt _ (fun _ h => hj ((s.byteAt_inj a.toNat k j (hl k (List.mem_cons_of_mem _ hk))
        (hl j (List.mem_cons_self ..)) h) ▸ hk))]
    rw [hheld] at hperm
    refine ⟨fun k hk hio => ?_, fun p hp => ?_, ?_, ⟨new ++ [s.overwritten (byteAddr s.cfg.xlen a j).toNat 1], ?_, ?_⟩,
      ⟨m', c', io', r', d', ?_, ?_⟩⟩
    · rcases List.mem_cons.mp hk with rfl | hk
      · have hne : ∀ i ∈ l, isIo s.cfg (s.byteAt a.toNat i) = false → s.byteAt a.toNat k ≠ s.byteAt a.toNat i :=
          fun i hi _ h => hj ((s.byteAt_inj a.toNat k i (hl k (List.mem_cons_self ..))
            (hl i (List.mem_cons_of_mem _ hi)) h) ▸ hi)
        rw [List.foldl_cons, h2 _ hne]
        have := hb.1 0 (by decide) (by rw [byteAt_zero]; exact hio)
        rw [byteAt_zero, ← byteOf_toNat, byteOf_shift] at this
        exact BitVec.eq_of_toNat_eq this
      · exact h1 k hk hio
    · rw [List.foldl_cons, h2 p (fun i hi => hp i (List.mem_cons_of_mem _ hi)),
        hpt p (hp j (List.mem_cons_self ..))]
    · rw [List.foldl_cons, h3, State.storeByte, hlog, List.filter_cons]
      cases isIo s.cfg (s.byteAt a.toNat j) <;> simp [State.byteEvent, byteAddr_eq]
    · rw [List.foldl_cons, hnew, State.storeByte, State.writeMem_storeLog, List.append_assoc]
      rfl
    · have hover : s.overwritten (byteAddr s.cfg.xlen a j).toNat 1 =
          if isIo s.cfg (s.byteAt a.toNat j) then [] else [s.byteHeld a j] := by
        unfold State.overwritten
        rw [show List.range 1 = [0] from rfl, List.filter_cons, List.filter_nil, byteAt_zero]
        cases isIo s.cfg (s.byteAt a.toNat j) <;> simp [State.byteHeld, byteAt_zero]
      rw [List.flatten_append, List.flatten_cons, List.flatten_nil, List.append_nil, hover, List.filter_cons]
      refine (List.perm_append_comm).trans ?_
      cases isIo s.cfg (s.byteAt a.toNat j)
      · simpa using hperm
      · simpa using hperm
    · rw [List.foldl_cons, hs', State.storeByte, hs]
    · rw [State.storeByte, hs] at hr'
      exact hr'.elim (fun h => h ▸ hr) .inr

theorem State.storeBytes_stored (s : State) (a : Word) (n : Nat) (v : Word) (hm : Memory.wf s.mem = true) (hn : n ≤ 8) :
    BytesStored s (s.storeBytes a n v) a v (s.bytesMade .store a n) := by
  obtain ⟨h1, h2, h3, h4, h5⟩ := foldl_storeByte a v (s.bytesMade .store a n) { s with draws := s.draws + 1 } hm
    (s.bytesMade_nodup .store a n) (fun j hj => Nat.lt_of_lt_of_le (s.bytesMade_valid .store a n j hj).1 hn)
  exact ⟨h1, h2, h3, h4, h5⟩

/-- The accesses of a store that passes its checks: one when it is aligned, one a byte when it is emulated. -/
def State.storeAccesses (s : State) (a : Word) (n : Nat) (v : Word) : State :=
  if isAligned a n then s.writeMem a n v else s.storeBytes a n v

/-- What the accesses of a store do. -/
theorem State.storeAccesses_spec (s : State) (a : Word) (n : Nat) (v : Word) (hm : Memory.wf s.mem = true) (hn : n ≤ 8)
    (hb : BytesOk s .store a.toNat n) :
    BytesWritten s (s.storeAccesses a n v) a.toNat n v.toNat ∧
    IoLogged s (s.storeAccesses a n v) (s.ioWrites a.toNat n v.toNat) ∧
    StoresLogged s (s.storeAccesses a n v) (s.overwritten a.toNat n) ∧
    ∃ m l io r d, s.storeAccesses a n v = { s with mem := m, storeLog := l, ioLog := io, reservation := r, draws := d } ∧
      (r = s.reservation ∨ r = none) := by
  unfold State.storeAccesses
  by_cases ha : isAligned a n = true
  · rw [if_pos ha]
    exact ⟨s.writeMem_bytes a n v hm hn, s.writeMem_ioLogged a n v ((isAligned_iff a n).mp ha),
      s.writeMem_storesLogged a n v, s.writeMem_shape a n v⟩
  · rw [if_neg ha]
    have ha' := fun h => ha ((isAligned_iff a n).mpr h)
    have hp := s.bytesMade_perm .store a n ha' hb
    obtain ⟨h1, h2, h3, ⟨new, hnew, hperm⟩, h4⟩ := s.storeBytes_stored a n v hm hn
    refine ⟨⟨fun k hk hio => ?_, fun p hp' => h2 p (fun j hj => hp' j (List.mem_range.mp (hp.subset hj)))⟩,
      ⟨_, ?_, h3⟩, ⟨new, hnew, hperm.trans ((hp.filter _).map _)⟩, h4⟩
    · rw [h1 k (hp.symm.subset (List.mem_range.mpr hk)) hio, byteOf_toNat]
    · rw [State.ioWrites, if_neg ha']
      exact (List.reverse_perm _).trans ((hp.filter _).map _)

/-- What an emulated store that faults can have done. -/
theorem State.storeBytes_partly (s : State) (a : Word) (n : Nat) (v : Word) (hm : Memory.wf s.mem = true) (hn : n ≤ 8)
    (ha : a.toNat % n ≠ 0) :
    BytesPartlyWritten s (s.storeBytes a n v) a.toNat n v.toNat ∧
    IoPartlyLogged s (s.storeBytes a n v) (s.ioWrites a.toNat n v.toNat) ∧
    StoresPartlyLogged s (s.storeBytes a n v) (s.overwritten a.toNat n) ∧
    ∃ m l io r d, s.storeBytes a n v = { s with mem := m, storeLog := l, ioLog := io, reservation := r, draws := d } ∧
      (r = s.reservation ∨ r = none) := by
  obtain ⟨h1, h2, h3, ⟨new, hnew, hperm⟩, h4⟩ := s.storeBytes_stored a n v hm hn
  obtain ⟨l, hp, hs⟩ := s.bytesMade_sublist .store a n
  refine ⟨⟨fun k hk => ?_, fun p hp => ?_⟩, ?_,
    ⟨(l.filter (fun j => !isIo s.cfg (s.byteAt a.toNat j))).map (s.byteHeld a),
      ⟨new, hnew, hperm.trans ((hp.filter _).map _)⟩, (hs.filter _).map _⟩, h4⟩
  · by_cases hk' : k ∈ s.bytesMade .store a n ∧ isIo s.cfg (s.byteAt a.toNat k) = false
    · exact .inr (by rw [h1 k hk'.1 hk'.2, byteOf_toNat])
    · refine .inl (h2 _ (fun j hj hio h => hk' ?_))
      have hj8 := (s.bytesMade_valid .store a n j hj).1
      have := s.byteAt_inj a.toNat k j (by omega) (by omega) h
      subst this
      exact ⟨hj, hio⟩
  · refine h2 p (fun j hj hio => ?_)
    obtain ⟨hjn, hv⟩ := s.bytesMade_valid .store a n j hj
    exact hp j hjn hio hv
  · refine ⟨(l.filter (fun j => isIo s.cfg (s.byteAt a.toNat j))).map (s.byteEvent a v), ⟨_, ?_, h3⟩, ?_⟩
    · exact (List.reverse_perm _).trans ((hp.filter _).map _)
    · rw [State.ioWrites, if_neg ha]
      exact (hs.filter _).map _

/-- The four ways a store goes. -/
theorem State.store_spec (s : State) (a : Word) (n : Nat) (v : Word) :
    (¬AlignmentOk s a.toNat n → s.store a n v = .trap .storeAmoAddressMisaligned a s) ∧
    (AlignmentOk s a.toNat n → BytesOk s .store a.toNat n → s.store a n v = .done () (s.storeAccesses a n v)) ∧
    (a.toNat % n = 0 → ¬BytesOk s .store a.toNat n → s.store a n v = .trap .storeAmoAccessFault a s) ∧
    (a.toNat % n ≠ 0 → s.cfg.misaligned = .emulate → ¬BytesOk s .store a.toNat n →
      s.store a n v = .trap .storeAmoAccessFault a (s.storeBytes a n v)) := by
  have hal := alignmentOk_iff s a n
  have hby := bytesOk_iff s .store a n
  unfold State.store State.storeAccesses
  refine ⟨fun h => ?_, fun h hb => ?_, fun h hb => ?_, fun h he hb => ?_⟩
  · rw [if_pos (hal.mpr h)]
  · rw [if_neg (fun h' => hal.mp h' h), if_pos (hby.mpr hb), if_pos (hby.mpr hb)]
    split <;> rfl
  · rw [if_neg (fun h' => hal.mp h' (.inl h)), if_pos ((isAligned_iff a n).mpr h), if_neg (fun h' => hb (hby.mp h'))]
  · rw [if_neg (fun h' => hal.mp h' (.inr he)), if_neg (fun h' => h ((isAligned_iff a n).mp h')),
      if_neg (fun h' => hb (hby.mp h'))]

/-- A store of the low n bytes of a value completes or raises. -/
theorem storeOf_spec (len : Nat) (v addr : Word) (n : Nat) (s : State) (hl : len < 8) (hn : n ≤ 8)
    (hm : Memory.wf s.mem = true) :
    StoreMeets ((s.store addr n v).andThen (fun _ t => finish len t)) s len addr.toNat n v.toNat := by
  obtain ⟨h1, h2, h3, h4⟩ := State.store_spec s addr n v
  refine ⟨fun ha hb => ?_, fun ha => ?_, fun ha hb => ?_, fun ha he hb => ?_⟩
  · rw [h2 ha hb]
    obtain ⟨hbytes, hlog, hst, m, l, io, r, d, h, hr⟩ := s.storeAccesses_spec addr n v hm hn hb
    refine ⟨_, rfl, Advanced.of_finish len (by rw [h]) (by rw [h]) (by rw [h]) hl, ?_, ?_, ?_, ?_, ?_⟩
    · simpa [BytesWritten] using hbytes
    · rw [h]; exact hr
    · simpa [IoLogged] using hlog
    · simpa [StoresLogged] using hst
    · rw [h]; rfl
  · rw [h1 ha]; simp [Access.andThen]
  · rw [h3 ha hb]; simp [Access.andThen]
  · rw [h4 ha he hb]
    obtain ⟨hp, hlog, hst, m, l, io, r, d, h, hr⟩ := s.storeBytes_partly addr n v hm hn ha
    refine ⟨_, by simp [Access.andThen], hp, ?_, hlog, hst, ?_⟩
    · rw [h]; exact hr
    · rw [h]

/-- A store of the low n bytes of x[rs2] completes or raises. -/
theorem storeX_spec (len : Nat) (rs2 : Reg) (addr : Word) (n : Nat) (s : State) (hl : len < 8) (hn : n ≤ 8)
    (hm : Memory.wf s.mem = true) : StoreMeets (storeX len rs2 addr n s) s len addr.toNat n (s.ux rs2) :=
  storeOf_spec len (s.readX rs2) addr n s hl hn hm

/-! ## Atomic operations -/

/-- A store to main memory adds nothing to the record of I/O accesses. -/
theorem State.writeMem_ioLog_main (s : State) (a : Word) (n : Nat) (v : Word) (h : MainMemory s a.toNat n) :
    (s.writeMem a n v).ioLog = s.ioLog := by
  rw [State.writeMem_ioLog, (touchesIo_iff s a n).mpr h]
  rfl

theorem memValid_iff (s : State) (k : AccessKind) (a : Word) (n : Nat) (ha : a.toNat % n = 0) :
    memValid s.cfg k a n = true ↔ BytesOk s k a.toNat n := by
  rw [← bytesOk_iff, State.bytesValid, pieceSize, if_pos ((isAligned_iff a n).mpr ha)]
  rfl

theorem BytesWritten.congr {s t : State} {a n v w : Nat} (h : BytesWritten s t a n v)
    (hvw : v % 256 ^ n = w % 256 ^ n) : BytesWritten s t a n w := by
  refine ⟨fun k hk hio => ?_, h.2⟩
  have hpow : 256 ^ n = 256 ^ k * 256 * 256 ^ (n - k - 1) := by
    rw [← Nat.pow_succ, ← Nat.pow_add]
    congr 1
    omega
  have key : ∀ x : Nat, x / 256 ^ k % 256 = x % 256 ^ n / 256 ^ k % 256 := by
    intro x
    rw [hpow, Nat.mul_assoc, Nat.mod_mul, Nat.add_mul_div_left _ _ (Nat.pow_pos (by decide)),
      Nat.div_eq_of_lt (Nat.mod_lt _ (Nat.pow_pos (by decide))), Nat.zero_add, Nat.mod_mul_right_mod]
  rw [h.1 k hk hio, key v, key w, hvw]

/-- An atomic operation completes or raises: `new` is the function of numbers that f computes on n bytes. -/
theorem amo_spec (n : Nat) (f : Word → Word → Word) (ext : Word → Word) (new : Nat → Nat) (rd rs1 rs2 : Reg) (s : State)
    (hn : n ≤ 8) (hm : Memory.wf s.mem = true)
    (hf : ∀ t : Word, t.toNat < 256 ^ n → (f t (s.readX rs2)).toNat % 256 ^ n = new t.toNat % 256 ^ n)
    (hext : ∀ t : Word, t.toNat < 256 ^ n → (ext t).toNat % 2 ^ s.xlen = modBits s.xlen (signedOf (8 * n) t.toNat)) :
    AmoMeets (amo n f ext rd rs1 rs2 s) s rd (s.ux rs1) n new := by
  unfold amo State.ux
  dsimp only
  refine ⟨fun ha hl hs => ?_, fun ha => ?_, fun ha hb => ?_⟩
  · rw [if_neg (by simp [(isAligned_iff _ n).mpr ha]),
      if_pos (by rw [(memValid_iff s .load _ n ha).mpr hl, (memValid_iff s .store _ n ha).mpr hs]; rfl)]
    obtain ⟨io, d, hr⟩ := s.readMem_shape (s.readX rs1) n
    obtain ⟨m, l, io', r, d', hw, hres⟩ := State.writeMem_shape (s.readMem (s.readX rs1) n).2 (s.readX rs1) n
      (f (s.readMem (s.readX rs1) n).1 (s.readX rs2))
    have hbytes := State.writeMem_bytes (s.readMem (s.readX rs1) n).2 (s.readX rs1) n
      (f (s.readMem (s.readX rs1) n).1 (s.readX rs2)) (by rw [hr]; exact hm) hn
    have hxw : ∀ u : State, u.cfg = s.cfg → u.x = s.x → ∀ v : Word,
        XWritten s ((u.writeX rd v).advance 4).retire rd (v.toNat % 2 ^ s.xlen) := by
      intro u hc hx v
      refine XWritten.of_writeX (fun q => ?_)
      rw [State.readX_congr (s := u.writeX rd v) (by simp) (by simp) q, State.readX_writeX, State.readX_writeX, hc,
        State.readX_congr hx hc]
    have hcfg : ((s.readMem (s.readX rs1) n).2.writeMem (s.readX rs1) n
      (f (s.readMem (s.readX rs1) n).1 (s.readX rs2))).cfg = s.cfg := by rw [hw, hr]
    have hx : ((s.readMem (s.readX rs1) n).2.writeMem (s.readX rs1) n
      (f (s.readMem (s.readX rs1) n).1 (s.readX rs2))).x = s.x := by rw [hw, hr]
    have hb' : BytesWritten s ((((s.readMem (s.readX rs1) n).2.writeMem (s.readX rs1) n
        (f (s.readMem (s.readX rs1) n).1 (s.readX rs2))).writeX rd (ext (s.readMem (s.readX rs1) n).1)).advance 4).retire
        (s.readX rs1).toNat n (f (s.readMem (s.readX rs1) n).1 (s.readX rs2)).toNat := by
      unfold BytesWritten at *
      simp only [State.retire_mem, State.advance_mem, State.writeX_mem]
      rw [hr] at hbytes ⊢
      exact hbytes
    have hst := State.writeMem_storesLogged (s.readMem (s.readX rs1) n).2 (s.readX rs1) n
      (f (s.readMem (s.readX rs1) n).1 (s.readX rs2))
    refine ⟨_, rfl, Advanced.of_finish 4 ?_ ?_ ?_ (by decide), ⟨_, hxw _ hcfg hx _⟩, ⟨_, hb'⟩, ?_, ?_, ?_, fun hmain => ?_⟩
    · rw [State.writeX_cfg, hcfg]
    · rw [State.writeX_pc, hw, hr]
    · rw [State.writeX_minstret, hw, hr]
    · simp only [ReservationKeptOrLost, State.retire_reservation, State.advance_reservation, State.writeX_reservation]
      rw [hw]
      rw [hr] at hres
      exact hres
    · simp only [StoresLogged, State.retire_storeLog, State.advance_storeLog, State.writeX_storeLog]
      rw [hr] at hst ⊢
      exact hst
    · rw [hw, hr]
      unfold State.writeX
      split <;> rfl
    · obtain ⟨hv, hs'⟩ := s.readMem_main (s.readX rs1) n hn hmain
      have hlt := littleEndian_lt s (s.readX rs1).toNat n
      refine ⟨?_, ?_, ?_⟩
      · have := hxw _ hcfg hx (ext (s.readMem (s.readX rs1) n).1)
        rw [hext _ (by rw [hv]; exact hlt), hv] at this
        exact this
      · refine hb'.congr ?_
        rw [hf _ (by rw [hv]; exact hlt), hv]
      · simp only [State.retire_ioLog, State.advance_ioLog, State.writeX_ioLog]
        rw [State.writeMem_ioLog_main _ _ _ _ (by rw [hs']; exact hmain), hs']
  · rw [if_pos (by rw [Bool.not_eq_true', ← Bool.not_eq_true, isAligned_iff]; exact ha)]
    simp
  · rw [if_neg (by simp [(isAligned_iff _ n).mpr ha]), if_neg]
    · simp
    · rw [Bool.and_eq_true, memValid_iff s .load _ n ha, memValid_iff s .store _ n ha]
      exact hb

theorem signedBytes_toNat (n : Nat) (v : Word) (s : State) (hn : n = 1 ∨ n = 2 ∨ n = 4 ∨ n = 8)
    (hv : v.toNat < 256 ^ n) : (signedBytes n v).toNat % 2 ^ s.xlen = modBits s.xlen (signedOf (8 * n) v.toNat) := by
  have h8 : 256 ^ n = 2 ^ (8 * n) := by rw [Nat.pow_mul]
  rw [signedBytes, ← modBits_signExtend s (v.setWidth (8 * n)) (by omega), ← signedOf_toNat (by omega), BitVec.toNat_setWidth, Nat.mod_eq_of_lt (by omega)]

/-- What is left of the reservation and the registers once `lr` has read its bytes. -/
theorem loadReserved_spec (rd rs1 : Reg) (n : Nat) (s : State) :
    (s.ux rs1 % n ≠ 0 → loadReserved rd rs1 n s = raise .loadAddressMisaligned (s.readX rs1) s) ∧
    (s.ux rs1 % n = 0 → ¬BytesOk s .load (s.ux rs1) n →
      loadReserved rd rs1 n s = raise .loadAccessFault (s.readX rs1) s) ∧
    (s.ux rs1 % n = 0 → BytesOk s .load (s.ux rs1) n →
      loadReserved rd rs1 n s = finish 4 (State.writeX
        { (s.readMem (s.readX rs1) n).2 with reservation := some { addr := s.readX rs1, size := n } } rd
        (signedBytes n (s.readMem (s.readX rs1) n).1))) := by
  unfold loadReserved State.ux
  refine ⟨fun ha => ?_, fun ha hb => ?_, fun ha hb => ?_⟩
  · rw [if_pos (by rw [Bool.not_eq_true', ← Bool.not_eq_true, isAligned_iff]; exact ha)]
  · rw [if_neg (by simp [(isAligned_iff _ n).mpr ha]), if_neg (fun h => hb ((memValid_iff s .load _ n ha).mp h))]
  · rw [if_neg (by simp [(isAligned_iff _ n).mpr ha]), if_pos ((memValid_iff s .load _ n ha).mpr hb)]

/-- The code of a failing `sc` is an XLEN-bit number that is not zero. -/
theorem State.scFailCode_spec (s : State) : 0 < s.scFailCode.toNat ∧ s.scFailCode.toNat < 2 ^ s.xlen := by
  unfold State.scFailCode
  split
  · refine ⟨by decide, ?_⟩
    rcases s.xlen_eq with h | h <;> rw [h] <;> decide
  · next h =>
    refine ⟨Nat.pos_of_ne_zero (fun h' => h (BitVec.eq_of_toNat_eq h')), ?_⟩
    rw [Xlen.wrap_toNat]
    exact Nat.mod_lt _ (Nat.pow_pos (by decide))

/-- An `sc` may succeed only inside the reserved bytes. -/
theorem State.mayStoreConditionally_iff (s : State) (addr : Word) (n : Nat) :
    s.mayStoreConditionally addr n = true ↔ ∃ r, s.reservation = some r ∧
      ∀ k, k < n → ∃ j, j < r.size ∧ s.byteAt addr.toNat k = s.byteAt r.addr.toNat j := by
  unfold State.mayStoreConditionally byteAddrs State.byteAt State.xlen
  cases s.reservation with
  | none => simp
  | some r =>
    simp only [List.all_map, List.all_eq_true, List.mem_range, Function.comp_apply, List.contains_iff_mem, List.mem_map,
      Option.some.injEq, exists_eq_left']
    exact ⟨fun h k hk => (h k hk).imp (fun j hj => ⟨hj.1, hj.2.symm⟩),
      fun h k hk => (h k hk).imp (fun j hj => ⟨hj.1, hj.2.symm⟩)⟩

/-- `sc` raises, or succeeds exactly where it may and the free Boolean of this `sc` says so. -/
theorem storeConditional_spec (rd rs1 rs2 : Reg) (n : Nat) (s : State) :
    (s.ux rs1 % n ≠ 0 → storeConditional rd rs1 rs2 n s = raise .storeAmoAddressMisaligned (s.readX rs1) s) ∧
    (s.ux rs1 % n = 0 → ¬BytesOk s .store (s.ux rs1) n →
      storeConditional rd rs1 rs2 n s = raise .storeAmoAccessFault (s.readX rs1) s) ∧
    (s.ux rs1 % n = 0 → BytesOk s .store (s.ux rs1) n →
      storeConditional rd rs1 rs2 n s =
        if s.mayStoreConditionally (s.readX rs1) n = true ∧ Config.freeScSucceeds s.draws = true then
          finish 4 (State.writeX
            { State.writeMem { s with draws := s.draws + 1 } (s.readX rs1) n (s.readX rs2) with reservation := none } rd 0)
        else finish 4 (State.writeX { s with draws := s.draws + 1, reservation := none } rd s.scFailCode)) := by
  unfold storeConditional State.ux
  refine ⟨fun ha => ?_, fun ha hb => ?_, fun ha hb => ?_⟩
  · rw [if_pos (by rw [Bool.not_eq_true', ← Bool.not_eq_true, isAligned_iff]; exact ha)]
  · rw [if_neg (by simp [(isAligned_iff _ n).mpr ha]), if_pos]
    rw [Bool.not_eq_true', ← Bool.not_eq_true, memValid_iff s .store _ n ha]
    exact hb
  · rw [if_neg (by simp [(isAligned_iff _ n).mpr ha]), if_neg (by simp [(memValid_iff s .store _ n ha).mpr hb])]
    simp only [Bool.and_eq_true]

end Sys2Proof.Machine
end

