-- ==== Sys2Proof/Laws/Float.lean ====
section
/-! SUPPORT. What the shared shapes of floating-point instructions can do. -/

namespace Sys2Proof.Machine

open Sys2Proof

theorem fsOff_iff (s : State) : s.fsOff = true ↔ ¬FloatOn s := by
  unfold State.fsOff FloatOn
  rw [not_not, Bool.and_eq_true, beq_iff_eq]

theorem fpGuard_on (i : Instr) (s : State) (k : Result) (h : FloatOn s) : fpGuard i s k = k := by
  unfold fpGuard
  rw [if_neg (fun h' => (fsOff_iff s).mp h' h)]

theorem fpGuard_off (i : Instr) (s : State) (k : Result) (h : ¬FloatOn s) :
    fpGuard i s k = raise .illegalInstruction i.bits s := by
  unfold fpGuard
  rw [if_pos ((fsOff_iff s).mpr h)]

theorem ofBits_iff (m : BitVec 3) (r : Rounding) : Rounding.ofBits m = some r ↔
    ((m = 0#3 ∧ r = .rne) ∨ (m = 1#3 ∧ r = .rtz) ∨ (m = 2#3 ∧ r = .rdn) ∨ (m = 3#3 ∧ r = .rup) ∨
      (m = 4#3 ∧ r = .rmm)) := by
  revert m r
  intro m r
  revert m
  cases r <;> decide

theorem rounding_iff (s : State) (rm : BitVec 3) (r : Rounding) : s.rounding rm = some r ↔ SelectsRounding s rm r := by
  unfold SelectsRounding State.rounding
  constructor
  · intro h
    refine ⟨_, rfl, (ofBits_iff _ _).mp ?_⟩
    split at h
    · next hm => rw [if_pos hm]; exact h
    · next hm => rw [if_neg hm]; exact h
  · rintro ⟨m, rfl, h⟩
    have := (ofBits_iff _ _).mpr h
    split
    · next hm => rw [if_pos hm] at this; exact this
    · next hm => rw [if_neg hm] at this; exact this

/-- A rounded instruction goes on with the mode its field selects. -/
theorem fpRounded_spec (i : Instr) (rm : BitVec 3) (s : State) (k : Rounding → Result) (r : Rounding) (ho : FloatOn s)
    (h : SelectsRounding s rm r) : fpRounded i rm s k = k r := by
  unfold fpRounded
  rw [fpGuard_on i s _ ho, (rounding_iff s rm r).mpr h]

/-- A rounded instruction whose field selects no mode, or with floating point off, is illegal. -/
theorem fpRounded_illegal (i : Instr) (rm : BitVec 3) (s : State) (k : Rounding → Result)
    (h : (¬∃ r, SelectsRounding s rm r) ∨ ¬FloatOn s) : fpRounded i rm s k = raise .illegalInstruction i.bits s := by
  by_cases ho : FloatOn s
  · have hn : s.rounding rm = none := by
      cases hr : s.rounding rm with
      | none => rfl
      | some r => exact absurd ⟨r, (rounding_iff s rm r).mp hr⟩ (h.resolve_right (fun h' => h' ho))
    unfold fpRounded
    rw [fpGuard_on i s _ ho, hn]
  · exact fpGuard_off i s _ ho

/-! ## Operations that FP keeps abstract (log entry 31) -/

/-- An operation FP does not keep abstract is that of IEEE 754-2008. -/
theorem Fmt.numeric_eq {F : Fmt} {op : FloatOp} (h : op ∉ F.fp.uninterpreted) (rm : Rounding) (ops : List Nat)
    (r : Nat × BitVec 5) : F.numeric op rm ops r = r := by
  unfold Fmt.numeric
  rw [if_neg (fun h' => h (List.contains_iff_mem.mp h'))]

theorem Fmt.numericInt_eq {F : Fmt} (h : FloatOp.toInteger ∉ F.fp.uninterpreted) (rm : Rounding) (lo hi : Int) (a : Nat)
    (r : Int × BitVec 5) : F.numericInt rm lo hi a r = r := by
  unfold Fmt.numericInt
  rw [if_neg (fun h' => h (List.contains_iff_mem.mp h'))]

theorem Fmt.numericBit_eq {F : Fmt} {op : FloatOp} (h : op ∉ F.fp.uninterpreted) (a b : Nat) (r : Word × BitVec 5) :
    F.numericBit op a b r = r := by
  unfold Fmt.numericBit
  rw [if_neg (fun h' => h (List.contains_iff_mem.mp h'))]

/-- A comparison gives 0 or 1, abstract or not. -/
theorem Fmt.numericBit_le (F : Fmt) (op : FloatOp) (a b : Nat) (r : Word × BitVec 5) (h : r.1.toNat ≤ 1) :
    (F.numericBit op a b r).1.toNat ≤ 1 := by
  unfold Fmt.numericBit
  split
  · dsimp only
    split <;> decide
  · exact h

/-! ## Registers -/

/-- A single as an f register holds it. -/
theorem boxS_toNat (c : Config) (v : Word32) :
    (Config.flenWrap c (Config.boxS c v)).toNat = boxedSingle c v.toNat := by
  have h := v.isLt
  unfold Config.flenWrap Config.boxS boxedSingle
  cases c.extD
  · simp only [Bool.false_eq_true, if_false, BitVec.toNat_setWidth]
    omega
  · simp only [if_true]
    rw [BitVec.toNat_append, ← Nat.shiftLeft_add_eq_or_of_lt h, Nat.shiftLeft_eq, Nat.mod_eq_of_lt h]
    rfl

/-- The single an f register holds. -/
theorem readS_toNat (s : State) (r : Reg) : (s.readS r).toNat = s.us r := by
  unfold State.readS Config.unboxS State.us State.uf
  have h := (s.readF r).isLt
  have hhi : ((s.readF r).extractLsb' 32 32).toNat = (s.readF r).toNat / 2 ^ 32 := by
    rw [BitVec.extractLsb'_toNat, Nat.shiftRight_eq_div_pow]
    omega
  have hne : ((s.readF r).extractLsb' 32 32 != 0xFFFFFFFF#32) = true ↔ (s.readF r).toNat / 2 ^ 32 ≠ 2 ^ 32 - 1 := by
    rw [bne_iff_ne, ne_eq, ← BitVec.toNat_inj, hhi]
    rfl
  by_cases hc : s.cfg.extD = true ∧ (s.readF r).toNat / 2 ^ 32 ≠ 2 ^ 32 - 1
  · rw [if_pos hc, if_pos (by rw [Bool.and_eq_true]; exact ⟨hc.1, hne.mpr hc.2⟩)]
    rfl
  · rw [if_neg hc, if_neg (by rw [Bool.and_eq_true]; exact fun h => hc ⟨h.1, hne.mp h.2⟩)]
    rw [BitVec.extractLsb'_toNat, Nat.shiftRight_zero]

theorem State.fsDirty_mstatus_eq (s : State) : s.fsDirty.mstatus = s.dirtied := by
  unfold State.fsDirty State.dirtied
  split <;> rfl

/-- An instruction that writes f[rd] and accrues flags. -/
theorem finishF_spec (len : Nat) (rd : Reg) (v : Word) (fl : BitVec 5) (s : State) (hl : len < 8) :
    SetsF (finish len ((s.writeF rd v).accrue fl).fsDirty) s len rd (Config.flenWrap s.cfg v).toNat fl := by
  refine ⟨_, rfl, ?_, by simp [State.accrue], ?_, Advanced.of_finish len (by simp) (by simp) (by simp) hl,
    fun a => by simp, ?_⟩
  · intro q
    unfold State.uf
    rw [State.readF_congr (s := s.writeF rd v) (by simp) (by simp), State.readF_writeF]
    split <;> rfl
  · rw [State.retire_mstatus, State.advance_mstatus, State.fsDirty_mstatus_eq]
    rfl
  · unfold State.fsDirty
    split <;> rfl

/-- An instruction that writes x[rd] and accrues flags. -/
theorem finishXF_spec (rd : Reg) (v : Word) (fl : BitVec 5) (s : State) :
    SetsXWithFlags (finish 4 ((s.writeX rd v).accrue fl).fsDirty) s rd (v.toNat % 2 ^ s.xlen) fl := by
  refine ⟨_, rfl, XWritten.of_writeX (fun q => State.readX_congr (by simp) (by simp) q), by simp [State.accrue], ?_,
    Advanced.of_finish 4 (by simp) (by simp) (by simp) (by decide), fun a => by simp, ?_⟩
  · rw [State.retire_mstatus, State.advance_mstatus, State.fsDirty_mstatus_eq]
    unfold State.dirtied
    simp
  · unfold State.fsDirty State.writeX
    split <;> split <;> rfl

/-! ## Loads and stores -/

/-- A floating-point load completes with the bytes, boxed when they are a single, or raises. -/
theorem loadF_spec (i : Instr) (len : Nat) (rd : Reg) (addr : Word) (n : Nat) (s : State) (ho : FloatOn s) (hl : len < 8)
    (hn : n = 4 ∨ (n = 8 ∧ s.cfg.extD = true)) :
    FloatLoadMeets (loadF i len rd addr n s) s len rd addr.toNat n
      (if n = 4 then boxedSingle s.cfg (s.littleEndian addr.toNat n) else s.littleEndian addr.toNat n) := by
  have hw : ∀ (t : State) (v : Word), (if n = 4 then t.writeS rd (v.setWidth 32) else t.writeF rd v) =
      t.writeF rd (if n = 4 then Config.boxS t.cfg (v.setWidth 32) else v) := by
    intro t v
    split <;> rfl
  unfold loadF
  rw [fpGuard_on i s _ ho]
  refine ⟨fun ha hb => ?_, State.load_traps s addr n _⟩
  rw [(State.load_spec s addr n).2.1 ha hb]
  obtain ⟨⟨io, d, h⟩, hlog, hmain⟩ := s.loadAccesses_spec addr n (by omega)
  generalize hv : (s.loadAccesses addr n).1 = v at hmain ⊢
  generalize hu : (s.loadAccesses addr n).2 = u at h hlog hmain ⊢
  dsimp only [Access.andThen]
  rw [hw]
  have hf := finishF_spec len rd (if n = 4 then Config.boxS u.cfg (v.setWidth 32) else v) 0 u hl
  have hz : ∀ u : State, u.accrue 0 = u := fun u => by simp [State.accrue]
  rw [hz] at hf
  obtain ⟨t, ht, hfw, hfl, hms, hadv, hsm, heq⟩ := hf
  have hlog' : t.ioLog = u.ioLog := by rw [heq]
  have hfw' : FWritten s t rd
      (Config.flenWrap s.cfg (if n = 4 then Config.boxS s.cfg (v.setWidth 32) else v)).toNat := by
    rw [h] at hfw
    exact hfw
  refine ⟨t, ht, ?_, ?_, ?_, ⟨_, hfw'⟩, ?_, ?_, fun hm => ?_⟩
  · rw [h] at hadv; exact hadv
  · rw [h] at hsm; exact hsm
  · rw [h] at hms; exact hms
  · unfold IoLogged
    rw [hlog']
    exact hlog hb
  · rw [h] at heq hfl
    rw [heq]
    dsimp only at hfl ⊢
    rw [hfl]
    simp
  · obtain ⟨hval, hs⟩ := hmain hm
    refine ⟨?_, ?_, ?_⟩
    · convert hfw' using 1
      rcases hn with hn | ⟨hn, hd⟩
      · rw [if_pos hn, if_pos hn, boxS_toNat, BitVec.toNat_setWidth, hval]
        unfold boxedSingle
        rw [Nat.mod_mod]
      · rw [if_neg (by omega), if_neg (by omega), Config.flenWrap, if_pos hd, hval]
    · rw [hlog', hs]
    · rw [heq, hs]

/-- A floating-point store completes or raises. -/
theorem storeF_spec (i : Instr) (len : Nat) (rs2 : Reg) (addr : Word) (n : Nat) (s : State) (ho : FloatOn s)
    (hl : len < 8) (hn : n ≤ 8) (hm : Memory.wf s.mem = true) :
    StoreMeets (storeF i len rs2 addr n s) s len addr.toNat n (s.uf rs2) := by
  unfold storeF
  rw [fpGuard_on i s _ ho]
  exact storeOf_spec len (s.readF rs2) addr n s hl hn hm

end Sys2Proof.Machine
end

