-- ==== Sys2Proof/Laws/PerInstr.lean ====
section
/-! SUPPORT. The per-instruction family ParcelLength: the parcel of an instruction has the length the instruction has, and
its lowest two bits say so (spec 30_encoding.md R120, R121). -/

namespace Sys2Proof.Laws

open Sys2Proof

/-- A halfword for a compressed instruction, whose lowest bits are not 11; a word for any other, whose lowest bits
are 11. -/
def ParcelLength.Statement (i : Instr) : Prop :=
  match encodeOne i with
  | .half h => i.isCompressed = true ∧ i.len = 2 ∧ h.extractLsb' 0 2 ≠ 3#2
  | .word w => i.isCompressed = false ∧ i.len = 4 ∧ w.extractLsb' 0 2 = 3#2

/-- The lowest two bits of a word are those of its opcode. -/
theorem lowBits_word {w : Word32} (h : (opcode w).extractLsb' 0 2 = 3#2) : w.extractLsb' 0 2 = 3#2 := by
  rw [← h]
  unfold opcode
  apply BitVec.eq_of_getLsbD_eq
  intro i hi
  simp only [BitVec.getLsbD_extractLsb', hi, Nat.zero_add, decide_true, Bool.true_and]
  rw [show decide (i < 7) = true from decide_eq_true (by omega), Bool.true_and]

/-- The lowest two bits of a halfword written as a concatenation. -/
theorem lowBits_half {n m : Nat} (x : BitVec n) (q : BitVec m) (hm : 2 ≤ m) (hq : q.extractLsb' 0 2 ≠ 3#2) :
    (x ++ q).extractLsb' 0 2 ≠ 3#2 := by
  rw [slice_lo x q 0 2 (by omega)]
  exact hq

theorem LiOp.parcel_word (rd : Reg) (op : LiOp) : ∃ w, op.parcel rd = .word w ∧ w.extractLsb' 0 2 = 3#2 := by
  cases op <;> exact ⟨_, rfl, lowBits_word (by simp)⟩

theorem liExpand_ne_nil (xl : Xlen) (n : Nat) (v : Int) : liExpand xl (n + 1) v ≠ [] := by
  unfold liExpand
  dsimp only
  split
  · exact List.cons_ne_nil _ _
  · split
    · exact List.cons_ne_nil _ _
    · simp

theorem liOps_ne_nil (xl : Xlen) (imm : Word) : liOps xl imm ≠ [] := by
  unfold liOps
  cases xl <;> exact liExpand_ne_nil _ _ _

theorem ParcelLength.add (rd : Reg) (rs1 : Reg) (rs2 : Reg) : ParcelLength.Statement (.add rd rs1 rs2) :=
  ⟨rfl, rfl, lowBits_word (congrArg (BitVec.extractLsb' 0 2) (opcode_rType ..))⟩

theorem ParcelLength.addi (rd : Reg) (rs1 : Reg) (imm : BitVec 12) : ParcelLength.Statement (.addi rd rs1 imm) :=
  ⟨rfl, rfl, lowBits_word (congrArg (BitVec.extractLsb' 0 2) (opcode_iType ..))⟩

theorem ParcelLength.addiw (rd : Reg) (rs1 : Reg) (imm : BitVec 12) : ParcelLength.Statement (.addiw rd rs1 imm) :=
  ⟨rfl, rfl, lowBits_word (congrArg (BitVec.extractLsb' 0 2) (opcode_iType ..))⟩

theorem ParcelLength.addw (rd : Reg) (rs1 : Reg) (rs2 : Reg) : ParcelLength.Statement (.addw rd rs1 rs2) :=
  ⟨rfl, rfl, lowBits_word (congrArg (BitVec.extractLsb' 0 2) (opcode_rType ..))⟩

theorem ParcelLength.and (rd : Reg) (rs1 : Reg) (rs2 : Reg) : ParcelLength.Statement (.and rd rs1 rs2) :=
  ⟨rfl, rfl, lowBits_word (congrArg (BitVec.extractLsb' 0 2) (opcode_rType ..))⟩

theorem ParcelLength.andi (rd : Reg) (rs1 : Reg) (imm : BitVec 12) : ParcelLength.Statement (.andi rd rs1 imm) :=
  ⟨rfl, rfl, lowBits_word (congrArg (BitVec.extractLsb' 0 2) (opcode_iType ..))⟩

theorem ParcelLength.auipc (rd : Reg) (imm : BitVec 20) : ParcelLength.Statement (.auipc rd imm) :=
  ⟨rfl, rfl, lowBits_word (congrArg (BitVec.extractLsb' 0 2) (opcode_uType ..))⟩

theorem ParcelLength.lui (rd : Reg) (imm : BitVec 20) : ParcelLength.Statement (.lui rd imm) :=
  ⟨rfl, rfl, lowBits_word (congrArg (BitVec.extractLsb' 0 2) (opcode_uType ..))⟩

theorem ParcelLength.or (rd : Reg) (rs1 : Reg) (rs2 : Reg) : ParcelLength.Statement (.or rd rs1 rs2) :=
  ⟨rfl, rfl, lowBits_word (congrArg (BitVec.extractLsb' 0 2) (opcode_rType ..))⟩

theorem ParcelLength.ori (rd : Reg) (rs1 : Reg) (imm : BitVec 12) : ParcelLength.Statement (.ori rd rs1 imm) :=
  ⟨rfl, rfl, lowBits_word (congrArg (BitVec.extractLsb' 0 2) (opcode_iType ..))⟩

theorem ParcelLength.sll (rd : Reg) (rs1 : Reg) (rs2 : Reg) : ParcelLength.Statement (.sll rd rs1 rs2) :=
  ⟨rfl, rfl, lowBits_word (congrArg (BitVec.extractLsb' 0 2) (opcode_rType ..))⟩

theorem ParcelLength.slli (rd : Reg) (rs1 : Reg) (shamt : BitVec 6) : ParcelLength.Statement (.slli rd rs1 shamt) :=
  ⟨rfl, rfl, lowBits_word (congrArg (BitVec.extractLsb' 0 2) (opcode_shType ..))⟩

theorem ParcelLength.slliw (rd : Reg) (rs1 : Reg) (shamt : BitVec 6) : ParcelLength.Statement (.slliw rd rs1 shamt) :=
  ⟨rfl, rfl, lowBits_word (congrArg (BitVec.extractLsb' 0 2) (opcode_shType ..))⟩

theorem ParcelLength.sllw (rd : Reg) (rs1 : Reg) (rs2 : Reg) : ParcelLength.Statement (.sllw rd rs1 rs2) :=
  ⟨rfl, rfl, lowBits_word (congrArg (BitVec.extractLsb' 0 2) (opcode_rType ..))⟩

theorem ParcelLength.slt (rd : Reg) (rs1 : Reg) (rs2 : Reg) : ParcelLength.Statement (.slt rd rs1 rs2) :=
  ⟨rfl, rfl, lowBits_word (congrArg (BitVec.extractLsb' 0 2) (opcode_rType ..))⟩

theorem ParcelLength.slti (rd : Reg) (rs1 : Reg) (imm : BitVec 12) : ParcelLength.Statement (.slti rd rs1 imm) :=
  ⟨rfl, rfl, lowBits_word (congrArg (BitVec.extractLsb' 0 2) (opcode_iType ..))⟩

theorem ParcelLength.sltiu (rd : Reg) (rs1 : Reg) (imm : BitVec 12) : ParcelLength.Statement (.sltiu rd rs1 imm) :=
  ⟨rfl, rfl, lowBits_word (congrArg (BitVec.extractLsb' 0 2) (opcode_iType ..))⟩

theorem ParcelLength.sltu (rd : Reg) (rs1 : Reg) (rs2 : Reg) : ParcelLength.Statement (.sltu rd rs1 rs2) :=
  ⟨rfl, rfl, lowBits_word (congrArg (BitVec.extractLsb' 0 2) (opcode_rType ..))⟩

theorem ParcelLength.sra (rd : Reg) (rs1 : Reg) (rs2 : Reg) : ParcelLength.Statement (.sra rd rs1 rs2) :=
  ⟨rfl, rfl, lowBits_word (congrArg (BitVec.extractLsb' 0 2) (opcode_rType ..))⟩

theorem ParcelLength.srai (rd : Reg) (rs1 : Reg) (shamt : BitVec 6) : ParcelLength.Statement (.srai rd rs1 shamt) :=
  ⟨rfl, rfl, lowBits_word (congrArg (BitVec.extractLsb' 0 2) (opcode_shType ..))⟩

theorem ParcelLength.sraiw (rd : Reg) (rs1 : Reg) (shamt : BitVec 6) : ParcelLength.Statement (.sraiw rd rs1 shamt) :=
  ⟨rfl, rfl, lowBits_word (congrArg (BitVec.extractLsb' 0 2) (opcode_shType ..))⟩

theorem ParcelLength.sraw (rd : Reg) (rs1 : Reg) (rs2 : Reg) : ParcelLength.Statement (.sraw rd rs1 rs2) :=
  ⟨rfl, rfl, lowBits_word (congrArg (BitVec.extractLsb' 0 2) (opcode_rType ..))⟩

theorem ParcelLength.srl (rd : Reg) (rs1 : Reg) (rs2 : Reg) : ParcelLength.Statement (.srl rd rs1 rs2) :=
  ⟨rfl, rfl, lowBits_word (congrArg (BitVec.extractLsb' 0 2) (opcode_rType ..))⟩

theorem ParcelLength.srli (rd : Reg) (rs1 : Reg) (shamt : BitVec 6) : ParcelLength.Statement (.srli rd rs1 shamt) :=
  ⟨rfl, rfl, lowBits_word (congrArg (BitVec.extractLsb' 0 2) (opcode_shType ..))⟩

theorem ParcelLength.srliw (rd : Reg) (rs1 : Reg) (shamt : BitVec 6) : ParcelLength.Statement (.srliw rd rs1 shamt) :=
  ⟨rfl, rfl, lowBits_word (congrArg (BitVec.extractLsb' 0 2) (opcode_shType ..))⟩

theorem ParcelLength.srlw (rd : Reg) (rs1 : Reg) (rs2 : Reg) : ParcelLength.Statement (.srlw rd rs1 rs2) :=
  ⟨rfl, rfl, lowBits_word (congrArg (BitVec.extractLsb' 0 2) (opcode_rType ..))⟩

theorem ParcelLength.sub (rd : Reg) (rs1 : Reg) (rs2 : Reg) : ParcelLength.Statement (.sub rd rs1 rs2) :=
  ⟨rfl, rfl, lowBits_word (congrArg (BitVec.extractLsb' 0 2) (opcode_rType ..))⟩

theorem ParcelLength.subw (rd : Reg) (rs1 : Reg) (rs2 : Reg) : ParcelLength.Statement (.subw rd rs1 rs2) :=
  ⟨rfl, rfl, lowBits_word (congrArg (BitVec.extractLsb' 0 2) (opcode_rType ..))⟩

theorem ParcelLength.xor (rd : Reg) (rs1 : Reg) (rs2 : Reg) : ParcelLength.Statement (.xor rd rs1 rs2) :=
  ⟨rfl, rfl, lowBits_word (congrArg (BitVec.extractLsb' 0 2) (opcode_rType ..))⟩

theorem ParcelLength.xori (rd : Reg) (rs1 : Reg) (imm : BitVec 12) : ParcelLength.Statement (.xori rd rs1 imm) :=
  ⟨rfl, rfl, lowBits_word (congrArg (BitVec.extractLsb' 0 2) (opcode_iType ..))⟩

theorem ParcelLength.beq (rs1 : Reg) (rs2 : Reg) (off : BitVec 12) : ParcelLength.Statement (.beq rs1 rs2 off) :=
  ⟨rfl, rfl, lowBits_word (congrArg (BitVec.extractLsb' 0 2) (opcode_bType ..))⟩

theorem ParcelLength.bge (rs1 : Reg) (rs2 : Reg) (off : BitVec 12) : ParcelLength.Statement (.bge rs1 rs2 off) :=
  ⟨rfl, rfl, lowBits_word (congrArg (BitVec.extractLsb' 0 2) (opcode_bType ..))⟩

theorem ParcelLength.bgeu (rs1 : Reg) (rs2 : Reg) (off : BitVec 12) : ParcelLength.Statement (.bgeu rs1 rs2 off) :=
  ⟨rfl, rfl, lowBits_word (congrArg (BitVec.extractLsb' 0 2) (opcode_bType ..))⟩

theorem ParcelLength.blt (rs1 : Reg) (rs2 : Reg) (off : BitVec 12) : ParcelLength.Statement (.blt rs1 rs2 off) :=
  ⟨rfl, rfl, lowBits_word (congrArg (BitVec.extractLsb' 0 2) (opcode_bType ..))⟩

theorem ParcelLength.bltu (rs1 : Reg) (rs2 : Reg) (off : BitVec 12) : ParcelLength.Statement (.bltu rs1 rs2 off) :=
  ⟨rfl, rfl, lowBits_word (congrArg (BitVec.extractLsb' 0 2) (opcode_bType ..))⟩

theorem ParcelLength.bne (rs1 : Reg) (rs2 : Reg) (off : BitVec 12) : ParcelLength.Statement (.bne rs1 rs2 off) :=
  ⟨rfl, rfl, lowBits_word (congrArg (BitVec.extractLsb' 0 2) (opcode_bType ..))⟩

theorem ParcelLength.jal (rd : Reg) (off : BitVec 20) : ParcelLength.Statement (.jal rd off) :=
  ⟨rfl, rfl, lowBits_word (congrArg (BitVec.extractLsb' 0 2) (opcode_jType ..))⟩

theorem ParcelLength.jalr (rd : Reg) (rs1 : Reg) (off : BitVec 12) : ParcelLength.Statement (.jalr rd rs1 off) :=
  ⟨rfl, rfl, lowBits_word (congrArg (BitVec.extractLsb' 0 2) (opcode_iType ..))⟩

theorem ParcelLength.lb (rd : Reg) (rs1 : Reg) (off : BitVec 12) : ParcelLength.Statement (.lb rd rs1 off) :=
  ⟨rfl, rfl, lowBits_word (congrArg (BitVec.extractLsb' 0 2) (opcode_iType ..))⟩

theorem ParcelLength.lbu (rd : Reg) (rs1 : Reg) (off : BitVec 12) : ParcelLength.Statement (.lbu rd rs1 off) :=
  ⟨rfl, rfl, lowBits_word (congrArg (BitVec.extractLsb' 0 2) (opcode_iType ..))⟩

theorem ParcelLength.ld (rd : Reg) (rs1 : Reg) (off : BitVec 12) : ParcelLength.Statement (.ld rd rs1 off) :=
  ⟨rfl, rfl, lowBits_word (congrArg (BitVec.extractLsb' 0 2) (opcode_iType ..))⟩

theorem ParcelLength.lh (rd : Reg) (rs1 : Reg) (off : BitVec 12) : ParcelLength.Statement (.lh rd rs1 off) :=
  ⟨rfl, rfl, lowBits_word (congrArg (BitVec.extractLsb' 0 2) (opcode_iType ..))⟩

theorem ParcelLength.lhu (rd : Reg) (rs1 : Reg) (off : BitVec 12) : ParcelLength.Statement (.lhu rd rs1 off) :=
  ⟨rfl, rfl, lowBits_word (congrArg (BitVec.extractLsb' 0 2) (opcode_iType ..))⟩

theorem ParcelLength.lw (rd : Reg) (rs1 : Reg) (off : BitVec 12) : ParcelLength.Statement (.lw rd rs1 off) :=
  ⟨rfl, rfl, lowBits_word (congrArg (BitVec.extractLsb' 0 2) (opcode_iType ..))⟩

theorem ParcelLength.lwu (rd : Reg) (rs1 : Reg) (off : BitVec 12) : ParcelLength.Statement (.lwu rd rs1 off) :=
  ⟨rfl, rfl, lowBits_word (congrArg (BitVec.extractLsb' 0 2) (opcode_iType ..))⟩

theorem ParcelLength.sb (rs2 : Reg) (rs1 : Reg) (off : BitVec 12) : ParcelLength.Statement (.sb rs2 rs1 off) :=
  ⟨rfl, rfl, lowBits_word (congrArg (BitVec.extractLsb' 0 2) (opcode_sType ..))⟩

theorem ParcelLength.sd (rs2 : Reg) (rs1 : Reg) (off : BitVec 12) : ParcelLength.Statement (.sd rs2 rs1 off) :=
  ⟨rfl, rfl, lowBits_word (congrArg (BitVec.extractLsb' 0 2) (opcode_sType ..))⟩

theorem ParcelLength.sh (rs2 : Reg) (rs1 : Reg) (off : BitVec 12) : ParcelLength.Statement (.sh rs2 rs1 off) :=
  ⟨rfl, rfl, lowBits_word (congrArg (BitVec.extractLsb' 0 2) (opcode_sType ..))⟩

theorem ParcelLength.sw (rs2 : Reg) (rs1 : Reg) (off : BitVec 12) : ParcelLength.Statement (.sw rs2 rs1 off) :=
  ⟨rfl, rfl, lowBits_word (congrArg (BitVec.extractLsb' 0 2) (opcode_sType ..))⟩

theorem ParcelLength.csrrw (rd : Reg) (csr : BitVec 12) (rs1 : Reg) : ParcelLength.Statement (.csrrw rd csr rs1) :=
  ⟨rfl, rfl, lowBits_word (congrArg (BitVec.extractLsb' 0 2) (opcode_iType ..))⟩

theorem ParcelLength.csrrs (rd : Reg) (csr : BitVec 12) (rs1 : Reg) : ParcelLength.Statement (.csrrs rd csr rs1) :=
  ⟨rfl, rfl, lowBits_word (congrArg (BitVec.extractLsb' 0 2) (opcode_iType ..))⟩

theorem ParcelLength.csrrc (rd : Reg) (csr : BitVec 12) (rs1 : Reg) : ParcelLength.Statement (.csrrc rd csr rs1) :=
  ⟨rfl, rfl, lowBits_word (congrArg (BitVec.extractLsb' 0 2) (opcode_iType ..))⟩

theorem ParcelLength.csrrwi (rd : Reg) (csr : BitVec 12) (zimm : BitVec 5) : ParcelLength.Statement (.csrrwi rd csr zimm) :=
  ⟨rfl, rfl, lowBits_word (congrArg (BitVec.extractLsb' 0 2) (opcode_iType ..))⟩

theorem ParcelLength.csrrsi (rd : Reg) (csr : BitVec 12) (zimm : BitVec 5) : ParcelLength.Statement (.csrrsi rd csr zimm) :=
  ⟨rfl, rfl, lowBits_word (congrArg (BitVec.extractLsb' 0 2) (opcode_iType ..))⟩

theorem ParcelLength.csrrci (rd : Reg) (csr : BitVec 12) (zimm : BitVec 5) : ParcelLength.Statement (.csrrci rd csr zimm) :=
  ⟨rfl, rfl, lowBits_word (congrArg (BitVec.extractLsb' 0 2) (opcode_iType ..))⟩

theorem ParcelLength.fence (pred : BitVec 4) (succ : BitVec 4) : ParcelLength.Statement (.fence pred succ) :=
  ⟨rfl, rfl, lowBits_word (congrArg (BitVec.extractLsb' 0 2) (opcode_iType ..))⟩

theorem ParcelLength.fenceI : ParcelLength.Statement .fenceI :=
  ⟨rfl, rfl, lowBits_word (congrArg (BitVec.extractLsb' 0 2) (opcode_iType ..))⟩

theorem ParcelLength.ecall : ParcelLength.Statement .ecall :=
  ⟨rfl, rfl, lowBits_word (congrArg (BitVec.extractLsb' 0 2) (opcode_iType ..))⟩

theorem ParcelLength.ebreak : ParcelLength.Statement .ebreak :=
  ⟨rfl, rfl, lowBits_word (congrArg (BitVec.extractLsb' 0 2) (opcode_iType ..))⟩

theorem ParcelLength.mret : ParcelLength.Statement .mret :=
  ⟨rfl, rfl, lowBits_word (congrArg (BitVec.extractLsb' 0 2) (opcode_rType ..))⟩

theorem ParcelLength.sret : ParcelLength.Statement .sret :=
  ⟨rfl, rfl, lowBits_word (congrArg (BitVec.extractLsb' 0 2) (opcode_rType ..))⟩

theorem ParcelLength.wfi : ParcelLength.Statement .wfi :=
  ⟨rfl, rfl, lowBits_word (congrArg (BitVec.extractLsb' 0 2) (opcode_rType ..))⟩

theorem ParcelLength.sfenceVma (rs1 : Reg) (rs2 : Reg) : ParcelLength.Statement (.sfenceVma rs1 rs2) :=
  ⟨rfl, rfl, lowBits_word (congrArg (BitVec.extractLsb' 0 2) (opcode_rType ..))⟩

theorem ParcelLength.mul (rd : Reg) (rs1 : Reg) (rs2 : Reg) : ParcelLength.Statement (.mul rd rs1 rs2) :=
  ⟨rfl, rfl, lowBits_word (congrArg (BitVec.extractLsb' 0 2) (opcode_rType ..))⟩

theorem ParcelLength.mulh (rd : Reg) (rs1 : Reg) (rs2 : Reg) : ParcelLength.Statement (.mulh rd rs1 rs2) :=
  ⟨rfl, rfl, lowBits_word (congrArg (BitVec.extractLsb' 0 2) (opcode_rType ..))⟩

theorem ParcelLength.mulhsu (rd : Reg) (rs1 : Reg) (rs2 : Reg) : ParcelLength.Statement (.mulhsu rd rs1 rs2) :=
  ⟨rfl, rfl, lowBits_word (congrArg (BitVec.extractLsb' 0 2) (opcode_rType ..))⟩

theorem ParcelLength.mulhu (rd : Reg) (rs1 : Reg) (rs2 : Reg) : ParcelLength.Statement (.mulhu rd rs1 rs2) :=
  ⟨rfl, rfl, lowBits_word (congrArg (BitVec.extractLsb' 0 2) (opcode_rType ..))⟩

theorem ParcelLength.mulw (rd : Reg) (rs1 : Reg) (rs2 : Reg) : ParcelLength.Statement (.mulw rd rs1 rs2) :=
  ⟨rfl, rfl, lowBits_word (congrArg (BitVec.extractLsb' 0 2) (opcode_rType ..))⟩

theorem ParcelLength.div (rd : Reg) (rs1 : Reg) (rs2 : Reg) : ParcelLength.Statement (.div rd rs1 rs2) :=
  ⟨rfl, rfl, lowBits_word (congrArg (BitVec.extractLsb' 0 2) (opcode_rType ..))⟩

theorem ParcelLength.divu (rd : Reg) (rs1 : Reg) (rs2 : Reg) : ParcelLength.Statement (.divu rd rs1 rs2) :=
  ⟨rfl, rfl, lowBits_word (congrArg (BitVec.extractLsb' 0 2) (opcode_rType ..))⟩

theorem ParcelLength.divw (rd : Reg) (rs1 : Reg) (rs2 : Reg) : ParcelLength.Statement (.divw rd rs1 rs2) :=
  ⟨rfl, rfl, lowBits_word (congrArg (BitVec.extractLsb' 0 2) (opcode_rType ..))⟩

theorem ParcelLength.divuw (rd : Reg) (rs1 : Reg) (rs2 : Reg) : ParcelLength.Statement (.divuw rd rs1 rs2) :=
  ⟨rfl, rfl, lowBits_word (congrArg (BitVec.extractLsb' 0 2) (opcode_rType ..))⟩

theorem ParcelLength.rem (rd : Reg) (rs1 : Reg) (rs2 : Reg) : ParcelLength.Statement (.rem rd rs1 rs2) :=
  ⟨rfl, rfl, lowBits_word (congrArg (BitVec.extractLsb' 0 2) (opcode_rType ..))⟩

theorem ParcelLength.remu (rd : Reg) (rs1 : Reg) (rs2 : Reg) : ParcelLength.Statement (.remu rd rs1 rs2) :=
  ⟨rfl, rfl, lowBits_word (congrArg (BitVec.extractLsb' 0 2) (opcode_rType ..))⟩

theorem ParcelLength.remw (rd : Reg) (rs1 : Reg) (rs2 : Reg) : ParcelLength.Statement (.remw rd rs1 rs2) :=
  ⟨rfl, rfl, lowBits_word (congrArg (BitVec.extractLsb' 0 2) (opcode_rType ..))⟩

theorem ParcelLength.remuw (rd : Reg) (rs1 : Reg) (rs2 : Reg) : ParcelLength.Statement (.remuw rd rs1 rs2) :=
  ⟨rfl, rfl, lowBits_word (congrArg (BitVec.extractLsb' 0 2) (opcode_rType ..))⟩

theorem ParcelLength.amoaddD (rd : Reg) (rs1 : Reg) (rs2 : Reg) (aq : Bool) (rl : Bool) : ParcelLength.Statement (.amoaddD rd rs1 rs2 aq rl) :=
  ⟨rfl, rfl, lowBits_word (congrArg (BitVec.extractLsb' 0 2) (opcode_aType ..))⟩

theorem ParcelLength.amoaddW (rd : Reg) (rs1 : Reg) (rs2 : Reg) (aq : Bool) (rl : Bool) : ParcelLength.Statement (.amoaddW rd rs1 rs2 aq rl) :=
  ⟨rfl, rfl, lowBits_word (congrArg (BitVec.extractLsb' 0 2) (opcode_aType ..))⟩

theorem ParcelLength.amoandD (rd : Reg) (rs1 : Reg) (rs2 : Reg) (aq : Bool) (rl : Bool) : ParcelLength.Statement (.amoandD rd rs1 rs2 aq rl) :=
  ⟨rfl, rfl, lowBits_word (congrArg (BitVec.extractLsb' 0 2) (opcode_aType ..))⟩

theorem ParcelLength.amoandW (rd : Reg) (rs1 : Reg) (rs2 : Reg) (aq : Bool) (rl : Bool) : ParcelLength.Statement (.amoandW rd rs1 rs2 aq rl) :=
  ⟨rfl, rfl, lowBits_word (congrArg (BitVec.extractLsb' 0 2) (opcode_aType ..))⟩

theorem ParcelLength.amomaxD (rd : Reg) (rs1 : Reg) (rs2 : Reg) (aq : Bool) (rl : Bool) : ParcelLength.Statement (.amomaxD rd rs1 rs2 aq rl) :=
  ⟨rfl, rfl, lowBits_word (congrArg (BitVec.extractLsb' 0 2) (opcode_aType ..))⟩

theorem ParcelLength.amomaxW (rd : Reg) (rs1 : Reg) (rs2 : Reg) (aq : Bool) (rl : Bool) : ParcelLength.Statement (.amomaxW rd rs1 rs2 aq rl) :=
  ⟨rfl, rfl, lowBits_word (congrArg (BitVec.extractLsb' 0 2) (opcode_aType ..))⟩

theorem ParcelLength.amomaxuD (rd : Reg) (rs1 : Reg) (rs2 : Reg) (aq : Bool) (rl : Bool) : ParcelLength.Statement (.amomaxuD rd rs1 rs2 aq rl) :=
  ⟨rfl, rfl, lowBits_word (congrArg (BitVec.extractLsb' 0 2) (opcode_aType ..))⟩

theorem ParcelLength.amomaxuW (rd : Reg) (rs1 : Reg) (rs2 : Reg) (aq : Bool) (rl : Bool) : ParcelLength.Statement (.amomaxuW rd rs1 rs2 aq rl) :=
  ⟨rfl, rfl, lowBits_word (congrArg (BitVec.extractLsb' 0 2) (opcode_aType ..))⟩

theorem ParcelLength.amominD (rd : Reg) (rs1 : Reg) (rs2 : Reg) (aq : Bool) (rl : Bool) : ParcelLength.Statement (.amominD rd rs1 rs2 aq rl) :=
  ⟨rfl, rfl, lowBits_word (congrArg (BitVec.extractLsb' 0 2) (opcode_aType ..))⟩

theorem ParcelLength.amominW (rd : Reg) (rs1 : Reg) (rs2 : Reg) (aq : Bool) (rl : Bool) : ParcelLength.Statement (.amominW rd rs1 rs2 aq rl) :=
  ⟨rfl, rfl, lowBits_word (congrArg (BitVec.extractLsb' 0 2) (opcode_aType ..))⟩

theorem ParcelLength.amominuD (rd : Reg) (rs1 : Reg) (rs2 : Reg) (aq : Bool) (rl : Bool) : ParcelLength.Statement (.amominuD rd rs1 rs2 aq rl) :=
  ⟨rfl, rfl, lowBits_word (congrArg (BitVec.extractLsb' 0 2) (opcode_aType ..))⟩

theorem ParcelLength.amominuW (rd : Reg) (rs1 : Reg) (rs2 : Reg) (aq : Bool) (rl : Bool) : ParcelLength.Statement (.amominuW rd rs1 rs2 aq rl) :=
  ⟨rfl, rfl, lowBits_word (congrArg (BitVec.extractLsb' 0 2) (opcode_aType ..))⟩

theorem ParcelLength.amoorD (rd : Reg) (rs1 : Reg) (rs2 : Reg) (aq : Bool) (rl : Bool) : ParcelLength.Statement (.amoorD rd rs1 rs2 aq rl) :=
  ⟨rfl, rfl, lowBits_word (congrArg (BitVec.extractLsb' 0 2) (opcode_aType ..))⟩

theorem ParcelLength.amoorW (rd : Reg) (rs1 : Reg) (rs2 : Reg) (aq : Bool) (rl : Bool) : ParcelLength.Statement (.amoorW rd rs1 rs2 aq rl) :=
  ⟨rfl, rfl, lowBits_word (congrArg (BitVec.extractLsb' 0 2) (opcode_aType ..))⟩

theorem ParcelLength.amoswapD (rd : Reg) (rs1 : Reg) (rs2 : Reg) (aq : Bool) (rl : Bool) : ParcelLength.Statement (.amoswapD rd rs1 rs2 aq rl) :=
  ⟨rfl, rfl, lowBits_word (congrArg (BitVec.extractLsb' 0 2) (opcode_aType ..))⟩

theorem ParcelLength.amoswapW (rd : Reg) (rs1 : Reg) (rs2 : Reg) (aq : Bool) (rl : Bool) : ParcelLength.Statement (.amoswapW rd rs1 rs2 aq rl) :=
  ⟨rfl, rfl, lowBits_word (congrArg (BitVec.extractLsb' 0 2) (opcode_aType ..))⟩

theorem ParcelLength.amoxorD (rd : Reg) (rs1 : Reg) (rs2 : Reg) (aq : Bool) (rl : Bool) : ParcelLength.Statement (.amoxorD rd rs1 rs2 aq rl) :=
  ⟨rfl, rfl, lowBits_word (congrArg (BitVec.extractLsb' 0 2) (opcode_aType ..))⟩

theorem ParcelLength.amoxorW (rd : Reg) (rs1 : Reg) (rs2 : Reg) (aq : Bool) (rl : Bool) : ParcelLength.Statement (.amoxorW rd rs1 rs2 aq rl) :=
  ⟨rfl, rfl, lowBits_word (congrArg (BitVec.extractLsb' 0 2) (opcode_aType ..))⟩

theorem ParcelLength.lrD (rd : Reg) (rs1 : Reg) (aq : Bool) (rl : Bool) : ParcelLength.Statement (.lrD rd rs1 aq rl) :=
  ⟨rfl, rfl, lowBits_word (congrArg (BitVec.extractLsb' 0 2) (opcode_aType ..))⟩

theorem ParcelLength.lrW (rd : Reg) (rs1 : Reg) (aq : Bool) (rl : Bool) : ParcelLength.Statement (.lrW rd rs1 aq rl) :=
  ⟨rfl, rfl, lowBits_word (congrArg (BitVec.extractLsb' 0 2) (opcode_aType ..))⟩

theorem ParcelLength.scD (rd : Reg) (rs1 : Reg) (rs2 : Reg) (aq : Bool) (rl : Bool) : ParcelLength.Statement (.scD rd rs1 rs2 aq rl) :=
  ⟨rfl, rfl, lowBits_word (congrArg (BitVec.extractLsb' 0 2) (opcode_aType ..))⟩

theorem ParcelLength.scW (rd : Reg) (rs1 : Reg) (rs2 : Reg) (aq : Bool) (rl : Bool) : ParcelLength.Statement (.scW rd rs1 rs2 aq rl) :=
  ⟨rfl, rfl, lowBits_word (congrArg (BitVec.extractLsb' 0 2) (opcode_aType ..))⟩

theorem ParcelLength.faddS (rd : Reg) (rs1 : Reg) (rs2 : Reg) (rm : BitVec 3) : ParcelLength.Statement (.faddS rd rs1 rs2 rm) :=
  ⟨rfl, rfl, lowBits_word (congrArg (BitVec.extractLsb' 0 2) (opcode_rType ..))⟩

theorem ParcelLength.fclassS (rd : Reg) (rs1 : Reg) : ParcelLength.Statement (.fclassS rd rs1) :=
  ⟨rfl, rfl, lowBits_word (congrArg (BitVec.extractLsb' 0 2) (opcode_rType ..))⟩

theorem ParcelLength.fcvtLS (rd : Reg) (rs1 : Reg) (rm : BitVec 3) : ParcelLength.Statement (.fcvtLS rd rs1 rm) :=
  ⟨rfl, rfl, lowBits_word (congrArg (BitVec.extractLsb' 0 2) (opcode_rType ..))⟩

theorem ParcelLength.fcvtLuS (rd : Reg) (rs1 : Reg) (rm : BitVec 3) : ParcelLength.Statement (.fcvtLuS rd rs1 rm) :=
  ⟨rfl, rfl, lowBits_word (congrArg (BitVec.extractLsb' 0 2) (opcode_rType ..))⟩

theorem ParcelLength.fcvtSL (rd : Reg) (rs1 : Reg) (rm : BitVec 3) : ParcelLength.Statement (.fcvtSL rd rs1 rm) :=
  ⟨rfl, rfl, lowBits_word (congrArg (BitVec.extractLsb' 0 2) (opcode_rType ..))⟩

theorem ParcelLength.fcvtSLu (rd : Reg) (rs1 : Reg) (rm : BitVec 3) : ParcelLength.Statement (.fcvtSLu rd rs1 rm) :=
  ⟨rfl, rfl, lowBits_word (congrArg (BitVec.extractLsb' 0 2) (opcode_rType ..))⟩

theorem ParcelLength.fcvtSW (rd : Reg) (rs1 : Reg) (rm : BitVec 3) : ParcelLength.Statement (.fcvtSW rd rs1 rm) :=
  ⟨rfl, rfl, lowBits_word (congrArg (BitVec.extractLsb' 0 2) (opcode_rType ..))⟩

theorem ParcelLength.fcvtSWu (rd : Reg) (rs1 : Reg) (rm : BitVec 3) : ParcelLength.Statement (.fcvtSWu rd rs1 rm) :=
  ⟨rfl, rfl, lowBits_word (congrArg (BitVec.extractLsb' 0 2) (opcode_rType ..))⟩

theorem ParcelLength.fcvtWS (rd : Reg) (rs1 : Reg) (rm : BitVec 3) : ParcelLength.Statement (.fcvtWS rd rs1 rm) :=
  ⟨rfl, rfl, lowBits_word (congrArg (BitVec.extractLsb' 0 2) (opcode_rType ..))⟩

theorem ParcelLength.fcvtWuS (rd : Reg) (rs1 : Reg) (rm : BitVec 3) : ParcelLength.Statement (.fcvtWuS rd rs1 rm) :=
  ⟨rfl, rfl, lowBits_word (congrArg (BitVec.extractLsb' 0 2) (opcode_rType ..))⟩

theorem ParcelLength.fdivS (rd : Reg) (rs1 : Reg) (rs2 : Reg) (rm : BitVec 3) : ParcelLength.Statement (.fdivS rd rs1 rs2 rm) :=
  ⟨rfl, rfl, lowBits_word (congrArg (BitVec.extractLsb' 0 2) (opcode_rType ..))⟩

theorem ParcelLength.feqS (rd : Reg) (rs1 : Reg) (rs2 : Reg) : ParcelLength.Statement (.feqS rd rs1 rs2) :=
  ⟨rfl, rfl, lowBits_word (congrArg (BitVec.extractLsb' 0 2) (opcode_rType ..))⟩

theorem ParcelLength.fleS (rd : Reg) (rs1 : Reg) (rs2 : Reg) : ParcelLength.Statement (.fleS rd rs1 rs2) :=
  ⟨rfl, rfl, lowBits_word (congrArg (BitVec.extractLsb' 0 2) (opcode_rType ..))⟩

theorem ParcelLength.fltS (rd : Reg) (rs1 : Reg) (rs2 : Reg) : ParcelLength.Statement (.fltS rd rs1 rs2) :=
  ⟨rfl, rfl, lowBits_word (congrArg (BitVec.extractLsb' 0 2) (opcode_rType ..))⟩

theorem ParcelLength.flw (rd : Reg) (rs1 : Reg) (off : BitVec 12) : ParcelLength.Statement (.flw rd rs1 off) :=
  ⟨rfl, rfl, lowBits_word (congrArg (BitVec.extractLsb' 0 2) (opcode_iType ..))⟩

theorem ParcelLength.fmaddS (rd : Reg) (rs1 : Reg) (rs2 : Reg) (rs3 : Reg) (rm : BitVec 3) : ParcelLength.Statement (.fmaddS rd rs1 rs2 rs3 rm) :=
  ⟨rfl, rfl, lowBits_word (congrArg (BitVec.extractLsb' 0 2) (opcode_r4Type ..))⟩

theorem ParcelLength.fmaxS (rd : Reg) (rs1 : Reg) (rs2 : Reg) : ParcelLength.Statement (.fmaxS rd rs1 rs2) :=
  ⟨rfl, rfl, lowBits_word (congrArg (BitVec.extractLsb' 0 2) (opcode_rType ..))⟩

theorem ParcelLength.fminS (rd : Reg) (rs1 : Reg) (rs2 : Reg) : ParcelLength.Statement (.fminS rd rs1 rs2) :=
  ⟨rfl, rfl, lowBits_word (congrArg (BitVec.extractLsb' 0 2) (opcode_rType ..))⟩

theorem ParcelLength.fmsubS (rd : Reg) (rs1 : Reg) (rs2 : Reg) (rs3 : Reg) (rm : BitVec 3) : ParcelLength.Statement (.fmsubS rd rs1 rs2 rs3 rm) :=
  ⟨rfl, rfl, lowBits_word (congrArg (BitVec.extractLsb' 0 2) (opcode_r4Type ..))⟩

theorem ParcelLength.fmulS (rd : Reg) (rs1 : Reg) (rs2 : Reg) (rm : BitVec 3) : ParcelLength.Statement (.fmulS rd rs1 rs2 rm) :=
  ⟨rfl, rfl, lowBits_word (congrArg (BitVec.extractLsb' 0 2) (opcode_rType ..))⟩

theorem ParcelLength.fmvWX (rd : Reg) (rs1 : Reg) : ParcelLength.Statement (.fmvWX rd rs1) :=
  ⟨rfl, rfl, lowBits_word (congrArg (BitVec.extractLsb' 0 2) (opcode_rType ..))⟩

theorem ParcelLength.fmvXW (rd : Reg) (rs1 : Reg) : ParcelLength.Statement (.fmvXW rd rs1) :=
  ⟨rfl, rfl, lowBits_word (congrArg (BitVec.extractLsb' 0 2) (opcode_rType ..))⟩

theorem ParcelLength.fnmaddS (rd : Reg) (rs1 : Reg) (rs2 : Reg) (rs3 : Reg) (rm : BitVec 3) : ParcelLength.Statement (.fnmaddS rd rs1 rs2 rs3 rm) :=
  ⟨rfl, rfl, lowBits_word (congrArg (BitVec.extractLsb' 0 2) (opcode_r4Type ..))⟩

theorem ParcelLength.fnmsubS (rd : Reg) (rs1 : Reg) (rs2 : Reg) (rs3 : Reg) (rm : BitVec 3) : ParcelLength.Statement (.fnmsubS rd rs1 rs2 rs3 rm) :=
  ⟨rfl, rfl, lowBits_word (congrArg (BitVec.extractLsb' 0 2) (opcode_r4Type ..))⟩

theorem ParcelLength.fsgnjS (rd : Reg) (rs1 : Reg) (rs2 : Reg) : ParcelLength.Statement (.fsgnjS rd rs1 rs2) :=
  ⟨rfl, rfl, lowBits_word (congrArg (BitVec.extractLsb' 0 2) (opcode_rType ..))⟩

theorem ParcelLength.fsgnjnS (rd : Reg) (rs1 : Reg) (rs2 : Reg) : ParcelLength.Statement (.fsgnjnS rd rs1 rs2) :=
  ⟨rfl, rfl, lowBits_word (congrArg (BitVec.extractLsb' 0 2) (opcode_rType ..))⟩

theorem ParcelLength.fsgnjxS (rd : Reg) (rs1 : Reg) (rs2 : Reg) : ParcelLength.Statement (.fsgnjxS rd rs1 rs2) :=
  ⟨rfl, rfl, lowBits_word (congrArg (BitVec.extractLsb' 0 2) (opcode_rType ..))⟩

theorem ParcelLength.fsqrtS (rd : Reg) (rs1 : Reg) (rm : BitVec 3) : ParcelLength.Statement (.fsqrtS rd rs1 rm) :=
  ⟨rfl, rfl, lowBits_word (congrArg (BitVec.extractLsb' 0 2) (opcode_rType ..))⟩

theorem ParcelLength.fsubS (rd : Reg) (rs1 : Reg) (rs2 : Reg) (rm : BitVec 3) : ParcelLength.Statement (.fsubS rd rs1 rs2 rm) :=
  ⟨rfl, rfl, lowBits_word (congrArg (BitVec.extractLsb' 0 2) (opcode_rType ..))⟩

theorem ParcelLength.fsw (rs2 : Reg) (rs1 : Reg) (off : BitVec 12) : ParcelLength.Statement (.fsw rs2 rs1 off) :=
  ⟨rfl, rfl, lowBits_word (congrArg (BitVec.extractLsb' 0 2) (opcode_sType ..))⟩

theorem ParcelLength.faddD (rd : Reg) (rs1 : Reg) (rs2 : Reg) (rm : BitVec 3) : ParcelLength.Statement (.faddD rd rs1 rs2 rm) :=
  ⟨rfl, rfl, lowBits_word (congrArg (BitVec.extractLsb' 0 2) (opcode_rType ..))⟩

theorem ParcelLength.fclassD (rd : Reg) (rs1 : Reg) : ParcelLength.Statement (.fclassD rd rs1) :=
  ⟨rfl, rfl, lowBits_word (congrArg (BitVec.extractLsb' 0 2) (opcode_rType ..))⟩

theorem ParcelLength.fcvtDL (rd : Reg) (rs1 : Reg) (rm : BitVec 3) : ParcelLength.Statement (.fcvtDL rd rs1 rm) :=
  ⟨rfl, rfl, lowBits_word (congrArg (BitVec.extractLsb' 0 2) (opcode_rType ..))⟩

theorem ParcelLength.fcvtDLu (rd : Reg) (rs1 : Reg) (rm : BitVec 3) : ParcelLength.Statement (.fcvtDLu rd rs1 rm) :=
  ⟨rfl, rfl, lowBits_word (congrArg (BitVec.extractLsb' 0 2) (opcode_rType ..))⟩

theorem ParcelLength.fcvtDS (rd : Reg) (rs1 : Reg) (rm : BitVec 3) : ParcelLength.Statement (.fcvtDS rd rs1 rm) :=
  ⟨rfl, rfl, lowBits_word (congrArg (BitVec.extractLsb' 0 2) (opcode_rType ..))⟩

theorem ParcelLength.fcvtDW (rd : Reg) (rs1 : Reg) (rm : BitVec 3) : ParcelLength.Statement (.fcvtDW rd rs1 rm) :=
  ⟨rfl, rfl, lowBits_word (congrArg (BitVec.extractLsb' 0 2) (opcode_rType ..))⟩

theorem ParcelLength.fcvtDWu (rd : Reg) (rs1 : Reg) (rm : BitVec 3) : ParcelLength.Statement (.fcvtDWu rd rs1 rm) :=
  ⟨rfl, rfl, lowBits_word (congrArg (BitVec.extractLsb' 0 2) (opcode_rType ..))⟩

theorem ParcelLength.fcvtLD (rd : Reg) (rs1 : Reg) (rm : BitVec 3) : ParcelLength.Statement (.fcvtLD rd rs1 rm) :=
  ⟨rfl, rfl, lowBits_word (congrArg (BitVec.extractLsb' 0 2) (opcode_rType ..))⟩

theorem ParcelLength.fcvtLuD (rd : Reg) (rs1 : Reg) (rm : BitVec 3) : ParcelLength.Statement (.fcvtLuD rd rs1 rm) :=
  ⟨rfl, rfl, lowBits_word (congrArg (BitVec.extractLsb' 0 2) (opcode_rType ..))⟩

theorem ParcelLength.fcvtSD (rd : Reg) (rs1 : Reg) (rm : BitVec 3) : ParcelLength.Statement (.fcvtSD rd rs1 rm) :=
  ⟨rfl, rfl, lowBits_word (congrArg (BitVec.extractLsb' 0 2) (opcode_rType ..))⟩

theorem ParcelLength.fcvtWD (rd : Reg) (rs1 : Reg) (rm : BitVec 3) : ParcelLength.Statement (.fcvtWD rd rs1 rm) :=
  ⟨rfl, rfl, lowBits_word (congrArg (BitVec.extractLsb' 0 2) (opcode_rType ..))⟩

theorem ParcelLength.fcvtWuD (rd : Reg) (rs1 : Reg) (rm : BitVec 3) : ParcelLength.Statement (.fcvtWuD rd rs1 rm) :=
  ⟨rfl, rfl, lowBits_word (congrArg (BitVec.extractLsb' 0 2) (opcode_rType ..))⟩

theorem ParcelLength.fdivD (rd : Reg) (rs1 : Reg) (rs2 : Reg) (rm : BitVec 3) : ParcelLength.Statement (.fdivD rd rs1 rs2 rm) :=
  ⟨rfl, rfl, lowBits_word (congrArg (BitVec.extractLsb' 0 2) (opcode_rType ..))⟩

theorem ParcelLength.feqD (rd : Reg) (rs1 : Reg) (rs2 : Reg) : ParcelLength.Statement (.feqD rd rs1 rs2) :=
  ⟨rfl, rfl, lowBits_word (congrArg (BitVec.extractLsb' 0 2) (opcode_rType ..))⟩

theorem ParcelLength.fld (rd : Reg) (rs1 : Reg) (off : BitVec 12) : ParcelLength.Statement (.fld rd rs1 off) :=
  ⟨rfl, rfl, lowBits_word (congrArg (BitVec.extractLsb' 0 2) (opcode_iType ..))⟩

theorem ParcelLength.fleD (rd : Reg) (rs1 : Reg) (rs2 : Reg) : ParcelLength.Statement (.fleD rd rs1 rs2) :=
  ⟨rfl, rfl, lowBits_word (congrArg (BitVec.extractLsb' 0 2) (opcode_rType ..))⟩

theorem ParcelLength.fltD (rd : Reg) (rs1 : Reg) (rs2 : Reg) : ParcelLength.Statement (.fltD rd rs1 rs2) :=
  ⟨rfl, rfl, lowBits_word (congrArg (BitVec.extractLsb' 0 2) (opcode_rType ..))⟩

theorem ParcelLength.fmaddD (rd : Reg) (rs1 : Reg) (rs2 : Reg) (rs3 : Reg) (rm : BitVec 3) : ParcelLength.Statement (.fmaddD rd rs1 rs2 rs3 rm) :=
  ⟨rfl, rfl, lowBits_word (congrArg (BitVec.extractLsb' 0 2) (opcode_r4Type ..))⟩

theorem ParcelLength.fmaxD (rd : Reg) (rs1 : Reg) (rs2 : Reg) : ParcelLength.Statement (.fmaxD rd rs1 rs2) :=
  ⟨rfl, rfl, lowBits_word (congrArg (BitVec.extractLsb' 0 2) (opcode_rType ..))⟩

theorem ParcelLength.fminD (rd : Reg) (rs1 : Reg) (rs2 : Reg) : ParcelLength.Statement (.fminD rd rs1 rs2) :=
  ⟨rfl, rfl, lowBits_word (congrArg (BitVec.extractLsb' 0 2) (opcode_rType ..))⟩

theorem ParcelLength.fmsubD (rd : Reg) (rs1 : Reg) (rs2 : Reg) (rs3 : Reg) (rm : BitVec 3) : ParcelLength.Statement (.fmsubD rd rs1 rs2 rs3 rm) :=
  ⟨rfl, rfl, lowBits_word (congrArg (BitVec.extractLsb' 0 2) (opcode_r4Type ..))⟩

theorem ParcelLength.fmulD (rd : Reg) (rs1 : Reg) (rs2 : Reg) (rm : BitVec 3) : ParcelLength.Statement (.fmulD rd rs1 rs2 rm) :=
  ⟨rfl, rfl, lowBits_word (congrArg (BitVec.extractLsb' 0 2) (opcode_rType ..))⟩

theorem ParcelLength.fmvDX (rd : Reg) (rs1 : Reg) : ParcelLength.Statement (.fmvDX rd rs1) :=
  ⟨rfl, rfl, lowBits_word (congrArg (BitVec.extractLsb' 0 2) (opcode_rType ..))⟩

theorem ParcelLength.fmvXD (rd : Reg) (rs1 : Reg) : ParcelLength.Statement (.fmvXD rd rs1) :=
  ⟨rfl, rfl, lowBits_word (congrArg (BitVec.extractLsb' 0 2) (opcode_rType ..))⟩

theorem ParcelLength.fnmaddD (rd : Reg) (rs1 : Reg) (rs2 : Reg) (rs3 : Reg) (rm : BitVec 3) : ParcelLength.Statement (.fnmaddD rd rs1 rs2 rs3 rm) :=
  ⟨rfl, rfl, lowBits_word (congrArg (BitVec.extractLsb' 0 2) (opcode_r4Type ..))⟩

theorem ParcelLength.fnmsubD (rd : Reg) (rs1 : Reg) (rs2 : Reg) (rs3 : Reg) (rm : BitVec 3) : ParcelLength.Statement (.fnmsubD rd rs1 rs2 rs3 rm) :=
  ⟨rfl, rfl, lowBits_word (congrArg (BitVec.extractLsb' 0 2) (opcode_r4Type ..))⟩

theorem ParcelLength.fsd (rs2 : Reg) (rs1 : Reg) (off : BitVec 12) : ParcelLength.Statement (.fsd rs2 rs1 off) :=
  ⟨rfl, rfl, lowBits_word (congrArg (BitVec.extractLsb' 0 2) (opcode_sType ..))⟩

theorem ParcelLength.fsgnjD (rd : Reg) (rs1 : Reg) (rs2 : Reg) : ParcelLength.Statement (.fsgnjD rd rs1 rs2) :=
  ⟨rfl, rfl, lowBits_word (congrArg (BitVec.extractLsb' 0 2) (opcode_rType ..))⟩

theorem ParcelLength.fsgnjnD (rd : Reg) (rs1 : Reg) (rs2 : Reg) : ParcelLength.Statement (.fsgnjnD rd rs1 rs2) :=
  ⟨rfl, rfl, lowBits_word (congrArg (BitVec.extractLsb' 0 2) (opcode_rType ..))⟩

theorem ParcelLength.fsgnjxD (rd : Reg) (rs1 : Reg) (rs2 : Reg) : ParcelLength.Statement (.fsgnjxD rd rs1 rs2) :=
  ⟨rfl, rfl, lowBits_word (congrArg (BitVec.extractLsb' 0 2) (opcode_rType ..))⟩

theorem ParcelLength.fsqrtD (rd : Reg) (rs1 : Reg) (rm : BitVec 3) : ParcelLength.Statement (.fsqrtD rd rs1 rm) :=
  ⟨rfl, rfl, lowBits_word (congrArg (BitVec.extractLsb' 0 2) (opcode_rType ..))⟩

theorem ParcelLength.fsubD (rd : Reg) (rs1 : Reg) (rs2 : Reg) (rm : BitVec 3) : ParcelLength.Statement (.fsubD rd rs1 rs2 rm) :=
  ⟨rfl, rfl, lowBits_word (congrArg (BitVec.extractLsb' 0 2) (opcode_rType ..))⟩

theorem ParcelLength.cAdd (rd : Reg) (rs2 : Reg) : ParcelLength.Statement (.cAdd rd rs2) :=
  ⟨rfl, rfl, lowBits_half _ _ (by decide) (by decide)⟩

theorem ParcelLength.cAddi (rd : Reg) (imm : BitVec 6) : ParcelLength.Statement (.cAddi rd imm) :=
  ⟨rfl, rfl, lowBits_half _ _ (by decide) (by decide)⟩

theorem ParcelLength.cAddi16sp (imm : BitVec 6) : ParcelLength.Statement (.cAddi16sp imm) :=
  ⟨rfl, rfl, lowBits_half _ _ (by decide) (by decide)⟩

theorem ParcelLength.cAddi4spn (rd : CReg) (uimm : BitVec 8) : ParcelLength.Statement (.cAddi4spn rd uimm) :=
  ⟨rfl, rfl, lowBits_half _ _ (by decide) (by decide)⟩

theorem ParcelLength.cAddiw (rd : Reg) (imm : BitVec 6) : ParcelLength.Statement (.cAddiw rd imm) :=
  ⟨rfl, rfl, lowBits_half _ _ (by decide) (by decide)⟩

theorem ParcelLength.cAnd (rd : CReg) (rs2 : CReg) : ParcelLength.Statement (.cAnd rd rs2) :=
  ⟨rfl, rfl, lowBits_half _ _ (by decide) (by decide)⟩

theorem ParcelLength.cAddw (rd : CReg) (rs2 : CReg) : ParcelLength.Statement (.cAddw rd rs2) :=
  ⟨rfl, rfl, lowBits_half _ _ (by decide) (by decide)⟩

theorem ParcelLength.cAndi (rd : CReg) (imm : BitVec 6) : ParcelLength.Statement (.cAndi rd imm) :=
  ⟨rfl, rfl, lowBits_half _ _ (by decide) (by decide)⟩

theorem ParcelLength.cBeqz (rs1 : CReg) (off : BitVec 8) : ParcelLength.Statement (.cBeqz rs1 off) :=
  ⟨rfl, rfl, lowBits_half _ _ (by decide) (by decide)⟩

theorem ParcelLength.cBnez (rs1 : CReg) (off : BitVec 8) : ParcelLength.Statement (.cBnez rs1 off) :=
  ⟨rfl, rfl, lowBits_half _ _ (by decide) (by decide)⟩

theorem ParcelLength.cEbreak : ParcelLength.Statement .cEbreak :=
  ⟨rfl, rfl, by decide⟩

theorem ParcelLength.cFld (rd : CReg) (rs1 : CReg) (uimm : BitVec 5) : ParcelLength.Statement (.cFld rd rs1 uimm) :=
  ⟨rfl, rfl, lowBits_half _ _ (by decide) (by decide)⟩

theorem ParcelLength.cFldsp (rd : Reg) (uimm : BitVec 6) : ParcelLength.Statement (.cFldsp rd uimm) :=
  ⟨rfl, rfl, lowBits_half _ _ (by decide) (by decide)⟩

theorem ParcelLength.cFlw (rd : CReg) (rs1 : CReg) (uimm : BitVec 5) : ParcelLength.Statement (.cFlw rd rs1 uimm) :=
  ⟨rfl, rfl, lowBits_half _ _ (by decide) (by decide)⟩

theorem ParcelLength.cFlwsp (rd : Reg) (uimm : BitVec 6) : ParcelLength.Statement (.cFlwsp rd uimm) :=
  ⟨rfl, rfl, lowBits_half _ _ (by decide) (by decide)⟩

theorem ParcelLength.cFsd (rs2 : CReg) (rs1 : CReg) (uimm : BitVec 5) : ParcelLength.Statement (.cFsd rs2 rs1 uimm) :=
  ⟨rfl, rfl, lowBits_half _ _ (by decide) (by decide)⟩

theorem ParcelLength.cFsdsp (rs2 : Reg) (uimm : BitVec 6) : ParcelLength.Statement (.cFsdsp rs2 uimm) :=
  ⟨rfl, rfl, lowBits_half _ _ (by decide) (by decide)⟩

theorem ParcelLength.cFsw (rs2 : CReg) (rs1 : CReg) (uimm : BitVec 5) : ParcelLength.Statement (.cFsw rs2 rs1 uimm) :=
  ⟨rfl, rfl, lowBits_half _ _ (by decide) (by decide)⟩

theorem ParcelLength.cFswsp (rs2 : Reg) (uimm : BitVec 6) : ParcelLength.Statement (.cFswsp rs2 uimm) :=
  ⟨rfl, rfl, lowBits_half _ _ (by decide) (by decide)⟩

theorem ParcelLength.cJ (off : BitVec 11) : ParcelLength.Statement (.cJ off) :=
  ⟨rfl, rfl, lowBits_half _ _ (by decide) (by decide)⟩

theorem ParcelLength.cJal (off : BitVec 11) : ParcelLength.Statement (.cJal off) :=
  ⟨rfl, rfl, lowBits_half _ _ (by decide) (by decide)⟩

theorem ParcelLength.cJalr (rs1 : Reg) : ParcelLength.Statement (.cJalr rs1) :=
  ⟨rfl, rfl, lowBits_half _ _ (by decide) (by decide)⟩

theorem ParcelLength.cJr (rs1 : Reg) : ParcelLength.Statement (.cJr rs1) :=
  ⟨rfl, rfl, lowBits_half _ _ (by decide) (by decide)⟩

theorem ParcelLength.cLd (rd : CReg) (rs1 : CReg) (uimm : BitVec 5) : ParcelLength.Statement (.cLd rd rs1 uimm) :=
  ⟨rfl, rfl, lowBits_half _ _ (by decide) (by decide)⟩

theorem ParcelLength.cLdsp (rd : Reg) (uimm : BitVec 6) : ParcelLength.Statement (.cLdsp rd uimm) :=
  ⟨rfl, rfl, lowBits_half _ _ (by decide) (by decide)⟩

theorem ParcelLength.cLi (rd : Reg) (imm : BitVec 6) : ParcelLength.Statement (.cLi rd imm) :=
  ⟨rfl, rfl, lowBits_half _ _ (by decide) (by decide)⟩

theorem ParcelLength.cLui (rd : Reg) (imm : BitVec 6) : ParcelLength.Statement (.cLui rd imm) :=
  ⟨rfl, rfl, lowBits_half _ _ (by decide) (by decide)⟩

theorem ParcelLength.cLw (rd : CReg) (rs1 : CReg) (uimm : BitVec 5) : ParcelLength.Statement (.cLw rd rs1 uimm) :=
  ⟨rfl, rfl, lowBits_half _ _ (by decide) (by decide)⟩

theorem ParcelLength.cLwsp (rd : Reg) (uimm : BitVec 6) : ParcelLength.Statement (.cLwsp rd uimm) :=
  ⟨rfl, rfl, lowBits_half _ _ (by decide) (by decide)⟩

theorem ParcelLength.cMv (rd : Reg) (rs2 : Reg) : ParcelLength.Statement (.cMv rd rs2) :=
  ⟨rfl, rfl, lowBits_half _ _ (by decide) (by decide)⟩

theorem ParcelLength.cOr (rd : CReg) (rs2 : CReg) : ParcelLength.Statement (.cOr rd rs2) :=
  ⟨rfl, rfl, lowBits_half _ _ (by decide) (by decide)⟩

theorem ParcelLength.cSd (rs2 : CReg) (rs1 : CReg) (uimm : BitVec 5) : ParcelLength.Statement (.cSd rs2 rs1 uimm) :=
  ⟨rfl, rfl, lowBits_half _ _ (by decide) (by decide)⟩

theorem ParcelLength.cSdsp (rs2 : Reg) (uimm : BitVec 6) : ParcelLength.Statement (.cSdsp rs2 uimm) :=
  ⟨rfl, rfl, lowBits_half _ _ (by decide) (by decide)⟩

theorem ParcelLength.cSlli (rd : Reg) (shamt : BitVec 6) : ParcelLength.Statement (.cSlli rd shamt) :=
  ⟨rfl, rfl, lowBits_half _ _ (by decide) (by decide)⟩

theorem ParcelLength.cSrai (rd : CReg) (shamt : BitVec 6) : ParcelLength.Statement (.cSrai rd shamt) :=
  ⟨rfl, rfl, lowBits_half _ _ (by decide) (by decide)⟩

theorem ParcelLength.cSrli (rd : CReg) (shamt : BitVec 6) : ParcelLength.Statement (.cSrli rd shamt) :=
  ⟨rfl, rfl, lowBits_half _ _ (by decide) (by decide)⟩

theorem ParcelLength.cSub (rd : CReg) (rs2 : CReg) : ParcelLength.Statement (.cSub rd rs2) :=
  ⟨rfl, rfl, lowBits_half _ _ (by decide) (by decide)⟩

theorem ParcelLength.cSubw (rd : CReg) (rs2 : CReg) : ParcelLength.Statement (.cSubw rd rs2) :=
  ⟨rfl, rfl, lowBits_half _ _ (by decide) (by decide)⟩

theorem ParcelLength.cSw (rs2 : CReg) (rs1 : CReg) (uimm : BitVec 5) : ParcelLength.Statement (.cSw rs2 rs1 uimm) :=
  ⟨rfl, rfl, lowBits_half _ _ (by decide) (by decide)⟩

theorem ParcelLength.cSwsp (rs2 : Reg) (uimm : BitVec 6) : ParcelLength.Statement (.cSwsp rs2 uimm) :=
  ⟨rfl, rfl, lowBits_half _ _ (by decide) (by decide)⟩

theorem ParcelLength.cXor (rd : CReg) (rs2 : CReg) : ParcelLength.Statement (.cXor rd rs2) :=
  ⟨rfl, rfl, lowBits_half _ _ (by decide) (by decide)⟩

theorem ParcelLength.beqz (rs1 : Reg) (off : BitVec 12) : ParcelLength.Statement (.beqz rs1 off) :=
  ⟨rfl, rfl, lowBits_word (congrArg (BitVec.extractLsb' 0 2) (opcode_bType ..))⟩

theorem ParcelLength.bgez (rs1 : Reg) (off : BitVec 12) : ParcelLength.Statement (.bgez rs1 off) :=
  ⟨rfl, rfl, lowBits_word (congrArg (BitVec.extractLsb' 0 2) (opcode_bType ..))⟩

theorem ParcelLength.bgt (rs1 : Reg) (rs2 : Reg) (off : BitVec 12) : ParcelLength.Statement (.bgt rs1 rs2 off) :=
  ⟨rfl, rfl, lowBits_word (congrArg (BitVec.extractLsb' 0 2) (opcode_bType ..))⟩

theorem ParcelLength.bgtu (rs1 : Reg) (rs2 : Reg) (off : BitVec 12) : ParcelLength.Statement (.bgtu rs1 rs2 off) :=
  ⟨rfl, rfl, lowBits_word (congrArg (BitVec.extractLsb' 0 2) (opcode_bType ..))⟩

theorem ParcelLength.bgtz (rs2 : Reg) (off : BitVec 12) : ParcelLength.Statement (.bgtz rs2 off) :=
  ⟨rfl, rfl, lowBits_word (congrArg (BitVec.extractLsb' 0 2) (opcode_bType ..))⟩

theorem ParcelLength.ble (rs1 : Reg) (rs2 : Reg) (off : BitVec 12) : ParcelLength.Statement (.ble rs1 rs2 off) :=
  ⟨rfl, rfl, lowBits_word (congrArg (BitVec.extractLsb' 0 2) (opcode_bType ..))⟩

theorem ParcelLength.bleu (rs1 : Reg) (rs2 : Reg) (off : BitVec 12) : ParcelLength.Statement (.bleu rs1 rs2 off) :=
  ⟨rfl, rfl, lowBits_word (congrArg (BitVec.extractLsb' 0 2) (opcode_bType ..))⟩

theorem ParcelLength.blez (rs2 : Reg) (off : BitVec 12) : ParcelLength.Statement (.blez rs2 off) :=
  ⟨rfl, rfl, lowBits_word (congrArg (BitVec.extractLsb' 0 2) (opcode_bType ..))⟩

theorem ParcelLength.bltz (rs1 : Reg) (off : BitVec 12) : ParcelLength.Statement (.bltz rs1 off) :=
  ⟨rfl, rfl, lowBits_word (congrArg (BitVec.extractLsb' 0 2) (opcode_bType ..))⟩

theorem ParcelLength.bnez (rs1 : Reg) (off : BitVec 12) : ParcelLength.Statement (.bnez rs1 off) :=
  ⟨rfl, rfl, lowBits_word (congrArg (BitVec.extractLsb' 0 2) (opcode_bType ..))⟩

theorem ParcelLength.call (rd : Reg) (delta : BitVec 32) : ParcelLength.Statement (.call rd delta) :=
  ⟨rfl, rfl, lowBits_word (congrArg (BitVec.extractLsb' 0 2) (opcode_uType ..))⟩

theorem ParcelLength.csrr (rd : Reg) (csr : BitVec 12) : ParcelLength.Statement (.csrr rd csr) :=
  ⟨rfl, rfl, lowBits_word (congrArg (BitVec.extractLsb' 0 2) (opcode_iType ..))⟩

theorem ParcelLength.csrc (csr : BitVec 12) (rs1 : Reg) : ParcelLength.Statement (.csrc csr rs1) :=
  ⟨rfl, rfl, lowBits_word (congrArg (BitVec.extractLsb' 0 2) (opcode_iType ..))⟩

theorem ParcelLength.csrci (csr : BitVec 12) (zimm : BitVec 5) : ParcelLength.Statement (.csrci csr zimm) :=
  ⟨rfl, rfl, lowBits_word (congrArg (BitVec.extractLsb' 0 2) (opcode_iType ..))⟩

theorem ParcelLength.csrs (csr : BitVec 12) (rs1 : Reg) : ParcelLength.Statement (.csrs csr rs1) :=
  ⟨rfl, rfl, lowBits_word (congrArg (BitVec.extractLsb' 0 2) (opcode_iType ..))⟩

theorem ParcelLength.csrsi (csr : BitVec 12) (zimm : BitVec 5) : ParcelLength.Statement (.csrsi csr zimm) :=
  ⟨rfl, rfl, lowBits_word (congrArg (BitVec.extractLsb' 0 2) (opcode_iType ..))⟩

theorem ParcelLength.csrw (csr : BitVec 12) (rs1 : Reg) : ParcelLength.Statement (.csrw csr rs1) :=
  ⟨rfl, rfl, lowBits_word (congrArg (BitVec.extractLsb' 0 2) (opcode_iType ..))⟩

theorem ParcelLength.csrwi (csr : BitVec 12) (zimm : BitVec 5) : ParcelLength.Statement (.csrwi csr zimm) :=
  ⟨rfl, rfl, lowBits_word (congrArg (BitVec.extractLsb' 0 2) (opcode_iType ..))⟩

theorem ParcelLength.fabsD (rd : Reg) (rs1 : Reg) : ParcelLength.Statement (.fabsD rd rs1) :=
  ⟨rfl, rfl, lowBits_word (congrArg (BitVec.extractLsb' 0 2) (opcode_rType ..))⟩

theorem ParcelLength.fabsS (rd : Reg) (rs1 : Reg) : ParcelLength.Statement (.fabsS rd rs1) :=
  ⟨rfl, rfl, lowBits_word (congrArg (BitVec.extractLsb' 0 2) (opcode_rType ..))⟩

theorem ParcelLength.fmvD (rd : Reg) (rs1 : Reg) : ParcelLength.Statement (.fmvD rd rs1) :=
  ⟨rfl, rfl, lowBits_word (congrArg (BitVec.extractLsb' 0 2) (opcode_rType ..))⟩

theorem ParcelLength.fmvS (rd : Reg) (rs1 : Reg) : ParcelLength.Statement (.fmvS rd rs1) :=
  ⟨rfl, rfl, lowBits_word (congrArg (BitVec.extractLsb' 0 2) (opcode_rType ..))⟩

theorem ParcelLength.fnegD (rd : Reg) (rs1 : Reg) : ParcelLength.Statement (.fnegD rd rs1) :=
  ⟨rfl, rfl, lowBits_word (congrArg (BitVec.extractLsb' 0 2) (opcode_rType ..))⟩

theorem ParcelLength.fnegS (rd : Reg) (rs1 : Reg) : ParcelLength.Statement (.fnegS rd rs1) :=
  ⟨rfl, rfl, lowBits_word (congrArg (BitVec.extractLsb' 0 2) (opcode_rType ..))⟩

theorem ParcelLength.frcsr (rd : Reg) : ParcelLength.Statement (.frcsr rd) :=
  ⟨rfl, rfl, lowBits_word (congrArg (BitVec.extractLsb' 0 2) (opcode_iType ..))⟩

theorem ParcelLength.frflags (rd : Reg) : ParcelLength.Statement (.frflags rd) :=
  ⟨rfl, rfl, lowBits_word (congrArg (BitVec.extractLsb' 0 2) (opcode_iType ..))⟩

theorem ParcelLength.frrm (rd : Reg) : ParcelLength.Statement (.frrm rd) :=
  ⟨rfl, rfl, lowBits_word (congrArg (BitVec.extractLsb' 0 2) (opcode_iType ..))⟩

theorem ParcelLength.fscsr (rd : Reg) (rs1 : Reg) : ParcelLength.Statement (.fscsr rd rs1) :=
  ⟨rfl, rfl, lowBits_word (congrArg (BitVec.extractLsb' 0 2) (opcode_iType ..))⟩

theorem ParcelLength.fsflags (rd : Reg) (rs1 : Reg) : ParcelLength.Statement (.fsflags rd rs1) :=
  ⟨rfl, rfl, lowBits_word (congrArg (BitVec.extractLsb' 0 2) (opcode_iType ..))⟩

theorem ParcelLength.fsrm (rd : Reg) (rs1 : Reg) : ParcelLength.Statement (.fsrm rd rs1) :=
  ⟨rfl, rfl, lowBits_word (congrArg (BitVec.extractLsb' 0 2) (opcode_iType ..))⟩

theorem ParcelLength.j (off : BitVec 20) : ParcelLength.Statement (.j off) :=
  ⟨rfl, rfl, lowBits_word (congrArg (BitVec.extractLsb' 0 2) (opcode_jType ..))⟩

theorem ParcelLength.jr (rs1 : Reg) : ParcelLength.Statement (.jr rs1) :=
  ⟨rfl, rfl, lowBits_word (congrArg (BitVec.extractLsb' 0 2) (opcode_iType ..))⟩

theorem ParcelLength.la (rd : Reg) (pic : Bool) (delta : BitVec 32) : ParcelLength.Statement (.la rd pic delta) :=
  ⟨rfl, rfl, lowBits_word (congrArg (BitVec.extractLsb' 0 2) (opcode_uType ..))⟩

theorem ParcelLength.li (rd : Reg) (imm : Word) : ParcelLength.Statement (.li rd imm) := by
  obtain ⟨op, l, h⟩ := List.exists_cons_of_ne_nil (liOps_ne_nil .rv64 imm)
  obtain ⟨w, hw, hb⟩ := LiOp.parcel_word rd op
  have he : encodeOne (.li rd imm) = .word w := by
    show ((liOps .rv64 imm).head?.elim (.half 0) (fun op => op.parcel rd)) = .word w
    rw [h]
    exact hw
  unfold ParcelLength.Statement
  rw [he]
  exact ⟨rfl, rfl, hb⟩

theorem ParcelLength.lla (rd : Reg) (delta : BitVec 32) : ParcelLength.Statement (.lla rd delta) :=
  ⟨rfl, rfl, lowBits_word (congrArg (BitVec.extractLsb' 0 2) (opcode_uType ..))⟩

theorem ParcelLength.mv (rd : Reg) (rs1 : Reg) : ParcelLength.Statement (.mv rd rs1) :=
  ⟨rfl, rfl, lowBits_word (congrArg (BitVec.extractLsb' 0 2) (opcode_iType ..))⟩

theorem ParcelLength.neg (rd : Reg) (rs2 : Reg) : ParcelLength.Statement (.neg rd rs2) :=
  ⟨rfl, rfl, lowBits_word (congrArg (BitVec.extractLsb' 0 2) (opcode_rType ..))⟩

theorem ParcelLength.negw (rd : Reg) (rs2 : Reg) : ParcelLength.Statement (.negw rd rs2) :=
  ⟨rfl, rfl, lowBits_word (congrArg (BitVec.extractLsb' 0 2) (opcode_rType ..))⟩

theorem ParcelLength.nop : ParcelLength.Statement .nop :=
  ⟨rfl, rfl, lowBits_word (congrArg (BitVec.extractLsb' 0 2) (opcode_iType ..))⟩

theorem ParcelLength.not (rd : Reg) (rs1 : Reg) : ParcelLength.Statement (.not rd rs1) :=
  ⟨rfl, rfl, lowBits_word (congrArg (BitVec.extractLsb' 0 2) (opcode_iType ..))⟩

theorem ParcelLength.rdcycle (rd : Reg) : ParcelLength.Statement (.rdcycle rd) :=
  ⟨rfl, rfl, lowBits_word (congrArg (BitVec.extractLsb' 0 2) (opcode_iType ..))⟩

theorem ParcelLength.rdcycleh (rd : Reg) : ParcelLength.Statement (.rdcycleh rd) :=
  ⟨rfl, rfl, lowBits_word (congrArg (BitVec.extractLsb' 0 2) (opcode_iType ..))⟩

theorem ParcelLength.rdinstret (rd : Reg) : ParcelLength.Statement (.rdinstret rd) :=
  ⟨rfl, rfl, lowBits_word (congrArg (BitVec.extractLsb' 0 2) (opcode_iType ..))⟩

theorem ParcelLength.rdinstreth (rd : Reg) : ParcelLength.Statement (.rdinstreth rd) :=
  ⟨rfl, rfl, lowBits_word (congrArg (BitVec.extractLsb' 0 2) (opcode_iType ..))⟩

theorem ParcelLength.rdtime (rd : Reg) : ParcelLength.Statement (.rdtime rd) :=
  ⟨rfl, rfl, lowBits_word (congrArg (BitVec.extractLsb' 0 2) (opcode_iType ..))⟩

theorem ParcelLength.rdtimeh (rd : Reg) : ParcelLength.Statement (.rdtimeh rd) :=
  ⟨rfl, rfl, lowBits_word (congrArg (BitVec.extractLsb' 0 2) (opcode_iType ..))⟩

theorem ParcelLength.ret : ParcelLength.Statement .ret :=
  ⟨rfl, rfl, lowBits_word (congrArg (BitVec.extractLsb' 0 2) (opcode_iType ..))⟩

theorem ParcelLength.seqz (rd : Reg) (rs1 : Reg) : ParcelLength.Statement (.seqz rd rs1) :=
  ⟨rfl, rfl, lowBits_word (congrArg (BitVec.extractLsb' 0 2) (opcode_iType ..))⟩

theorem ParcelLength.sextW (rd : Reg) (rs1 : Reg) : ParcelLength.Statement (.sextW rd rs1) :=
  ⟨rfl, rfl, lowBits_word (congrArg (BitVec.extractLsb' 0 2) (opcode_iType ..))⟩

theorem ParcelLength.sgtz (rd : Reg) (rs2 : Reg) : ParcelLength.Statement (.sgtz rd rs2) :=
  ⟨rfl, rfl, lowBits_word (congrArg (BitVec.extractLsb' 0 2) (opcode_rType ..))⟩

theorem ParcelLength.sltz (rd : Reg) (rs1 : Reg) : ParcelLength.Statement (.sltz rd rs1) :=
  ⟨rfl, rfl, lowBits_word (congrArg (BitVec.extractLsb' 0 2) (opcode_rType ..))⟩

theorem ParcelLength.snez (rd : Reg) (rs2 : Reg) : ParcelLength.Statement (.snez rd rs2) :=
  ⟨rfl, rfl, lowBits_word (congrArg (BitVec.extractLsb' 0 2) (opcode_rType ..))⟩

theorem ParcelLength.tail (delta : BitVec 32) : ParcelLength.Statement (.tail delta) :=
  ⟨rfl, rfl, lowBits_word (congrArg (BitVec.extractLsb' 0 2) (opcode_uType ..))⟩

end Sys2Proof.Laws
end

