-- ==== Sys2Proof/Tests/Slice0.lean ====
section
/-! SUPPORT. Tests: terms that are no instruction, words written from the encoding lines of the spec, one step on small
states with the results the spec's worked examples give, and a witness of the hypotheses of each statement. -/

namespace Sys2Proof.Machine

/-- The state with n bytes of a value in memory. -/
def State.poke (s : State) (a : Word) (n : Nat) (v : Word) : State :=
  { s with mem := Memory.writeCells s.mem (cellsOf s.cfg.xlen a n v) }

/-- The state in another mode. -/
def State.inMode (s : State) (p : Priv) : State := { s with priv := p }

end Sys2Proof.Machine

namespace Sys2Proof.Tests

open Sys2Proof Sys2Proof.Machine

/-! ## Small states -/

/-- Reset in the given XLEN with an instruction of n bytes at pc and mtvec = 0x8000. -/
def start (xl : Xlen) (pc : Word) (n : Nat) (w : Word) : State :=
  { State.reset with
    cfg := { resetConfig with xlen := xl }
    pc := pc
    mtvec := 0x8000
    mem := Memory.writeCells [] (cellsOf xl pc n w) }

/-- The next step gives a state of which p holds. -/
def gives (s : State) (p : State → Bool) : Bool :=
  match step s with
  | .next t => p t
  | _ => false

/-! ## Terms that are no instruction (30_encoding.md R151, R152) -/

theorem test_illformed_compressed_zero_register :
    (Instr.wf (.cAdd 0 1) || Instr.wf (.cAdd 1 0) || Instr.wf (.cAddiw 0 1) || Instr.wf (.cJalr 0) || Instr.wf (.cJr 0) ||
      Instr.wf (.cLdsp 0 1) || Instr.wf (.cLwsp 0 1) || Instr.wf (.cMv 1 0)) = false := by decide

theorem test_illformed_compressed_immediate :
    (Instr.wf (.cAddi16sp 0) || Instr.wf (.cAddi4spn 1 0) || Instr.wf (.cLui 3 0) || Instr.wf (.cLui 2 1)) = false := by
  decide

theorem test_illformed_word_shift :
    (Instr.wf (.slliw 1 1 32) || Instr.wf (.srliw 1 1 32) || Instr.wf (.sraiw 1 1 63)) = false := by decide

theorem test_wellformed_boundaries :
    (Instr.wf (.slliw 1 1 31) && Instr.wf (.cAddi4spn 1 1) && Instr.wf (.cLui 31 63) && Instr.wf (.cAddi16sp 32) &&
      Instr.wf (.cAdd 31 31)) = true := by decide

/-! ## Words from the encoding lines of the spec -/

theorem test_decode_integer_1 :
    decodeTableWord 32 0x00ea83b3 = some (.add 7 21 14) ∧
    decodeTableWord 32 0xa35a8393 = some (.addi 7 21 0xa35#12) ∧
    decodeTableWord 32 0xa35a839b = some (.addiw 7 21 0xa35#12) ∧
    decodeTableWord 32 0x00ea83bb = some (.addw 7 21 14) ∧
    decodeTableWord 32 0x00eaf3b3 = some (.and 7 21 14) ∧
    decodeTableWord 32 0xa35af393 = some (.andi 7 21 0xa35#12) ∧
    decodeTableWord 32 0x9c3a7397 = some (.auipc 7 0x9c3a7#20) ∧
    decodeTableWord 32 0x9c3a73b7 = some (.lui 7 0x9c3a7#20) := by
  decide

theorem test_decode_integer_2 :
    decodeTableWord 32 0x00eae3b3 = some (.or 7 21 14) ∧
    decodeTableWord 32 0xa35ae393 = some (.ori 7 21 0xa35#12) ∧
    decodeTableWord 32 0x00ea93b3 = some (.sll 7 21 14) ∧
    decodeTableWord 32 0x02da9393 = some (.slli 7 21 0x2d#6) ∧
    decodeTableWord 32 0x01aa939b = some (.slliw 7 21 0x1a#6) ∧
    decodeTableWord 32 0x00ea93bb = some (.sllw 7 21 14) ∧
    decodeTableWord 32 0x00eaa3b3 = some (.slt 7 21 14) ∧
    decodeTableWord 32 0xa35aa393 = some (.slti 7 21 0xa35#12) := by
  decide

theorem test_decode_integer_3 :
    decodeTableWord 32 0xa35ab393 = some (.sltiu 7 21 0xa35#12) ∧
    decodeTableWord 32 0x00eab3b3 = some (.sltu 7 21 14) ∧
    decodeTableWord 32 0x40ead3b3 = some (.sra 7 21 14) ∧
    decodeTableWord 32 0x42dad393 = some (.srai 7 21 0x2d#6) ∧
    decodeTableWord 32 0x41aad39b = some (.sraiw 7 21 0x1a#6) ∧
    decodeTableWord 32 0x40ead3bb = some (.sraw 7 21 14) ∧
    decodeTableWord 32 0x00ead3b3 = some (.srl 7 21 14) ∧
    decodeTableWord 32 0x02dad393 = some (.srli 7 21 0x2d#6) := by
  decide

theorem test_decode_integer_4 :
    decodeTableWord 32 0x01aad39b = some (.srliw 7 21 0x1a#6) ∧
    decodeTableWord 32 0x00ead3bb = some (.srlw 7 21 14) ∧
    decodeTableWord 32 0x40ea83b3 = some (.sub 7 21 14) ∧
    decodeTableWord 32 0x40ea83bb = some (.subw 7 21 14) ∧
    decodeTableWord 32 0x00eac3b3 = some (.xor 7 21 14) ∧
    decodeTableWord 32 0xa35ac393 = some (.xori 7 21 0xa35#12) := by
  decide

theorem test_decode_control_1 :
    decodeTableWord 32 0xc6ea8563 = some (.beq 21 14 0xa35#12) ∧
    decodeTableWord 32 0xc6ead563 = some (.bge 21 14 0xa35#12) ∧
    decodeTableWord 32 0xc6eaf563 = some (.bgeu 21 14 0xa35#12) ∧
    decodeTableWord 32 0xc6eac563 = some (.blt 21 14 0xa35#12) ∧
    decodeTableWord 32 0xc6eae563 = some (.bltu 21 14 0xa35#12) ∧
    decodeTableWord 32 0xc6ea9563 = some (.bne 21 14 0xa35#12) ∧
    decodeTableWord 32 0xf4e383ef = some (.jal 7 0x9c3a7#20) ∧
    decodeTableWord 32 0xa35a83e7 = some (.jalr 7 21 0xa35#12) := by
  decide

theorem test_decode_load_store_1 :
    decodeTableWord 32 0xa35a8383 = some (.lb 7 21 0xa35#12) ∧
    decodeTableWord 32 0xa35ac383 = some (.lbu 7 21 0xa35#12) ∧
    decodeTableWord 32 0xa35ab383 = some (.ld 7 21 0xa35#12) ∧
    decodeTableWord 32 0xa35a9383 = some (.lh 7 21 0xa35#12) ∧
    decodeTableWord 32 0xa35ad383 = some (.lhu 7 21 0xa35#12) ∧
    decodeTableWord 32 0xa35aa383 = some (.lw 7 21 0xa35#12) ∧
    decodeTableWord 32 0xa35ae383 = some (.lwu 7 21 0xa35#12) ∧
    decodeTableWord 32 0xa2ea8aa3 = some (.sb 14 21 0xa35#12) := by
  decide

theorem test_decode_load_store_2 :
    decodeTableWord 32 0xa2eabaa3 = some (.sd 14 21 0xa35#12) ∧
    decodeTableWord 32 0xa2ea9aa3 = some (.sh 14 21 0xa35#12) ∧
    decodeTableWord 32 0xa2eaaaa3 = some (.sw 14 21 0xa35#12) := by
  decide

theorem test_decode_system_1 :
    decodeTableWord 32 0x345a93f3 = some (.csrrw 7 0x345#12 21) ∧
    decodeTableWord 32 0x345aa3f3 = some (.csrrs 7 0x345#12 21) ∧
    decodeTableWord 32 0x345ab3f3 = some (.csrrc 7 0x345#12 21) ∧
    decodeTableWord 32 0x345b53f3 = some (.csrrwi 7 0x345#12 0x16#5) ∧
    decodeTableWord 32 0x345b63f3 = some (.csrrsi 7 0x345#12 0x16#5) ∧
    decodeTableWord 32 0x345b73f3 = some (.csrrci 7 0x345#12 0x16#5) ∧
    decodeTableWord 32 0x0b60000f = some (.fence 0xb#4 0x6#4) ∧
    decodeTableWord 32 0x0000100f = some .fenceI := by
  decide

theorem test_decode_system_2 :
    decodeTableWord 32 0x00000073 = some .ecall ∧
    decodeTableWord 32 0x00100073 = some .ebreak ∧
    decodeTableWord 32 0x30200073 = some .mret ∧
    decodeTableWord 32 0x10200073 = some .sret ∧
    decodeTableWord 32 0x10500073 = some .wfi ∧
    decodeTableWord 32 0x12ea8073 = some (.sfenceVma 21 14) := by
  decide

theorem test_decode_muldiv_1 :
    decodeTableWord 32 0x02ea83b3 = some (.mul 7 21 14) ∧
    decodeTableWord 32 0x02ea93b3 = some (.mulh 7 21 14) ∧
    decodeTableWord 32 0x02eaa3b3 = some (.mulhsu 7 21 14) ∧
    decodeTableWord 32 0x02eab3b3 = some (.mulhu 7 21 14) ∧
    decodeTableWord 32 0x02ea83bb = some (.mulw 7 21 14) ∧
    decodeTableWord 32 0x02eac3b3 = some (.div 7 21 14) ∧
    decodeTableWord 32 0x02ead3b3 = some (.divu 7 21 14) ∧
    decodeTableWord 32 0x02eac3bb = some (.divw 7 21 14) := by
  decide

theorem test_decode_muldiv_2 :
    decodeTableWord 32 0x02ead3bb = some (.divuw 7 21 14) ∧
    decodeTableWord 32 0x02eae3b3 = some (.rem 7 21 14) ∧
    decodeTableWord 32 0x02eaf3b3 = some (.remu 7 21 14) ∧
    decodeTableWord 32 0x02eae3bb = some (.remw 7 21 14) ∧
    decodeTableWord 32 0x02eaf3bb = some (.remuw 7 21 14) := by
  decide

theorem test_decode_atomic_1 :
    decodeTableWord 32 0x04eab3af = some (.amoaddD 7 21 14 true false) ∧
    decodeTableWord 32 0x04eaa3af = some (.amoaddW 7 21 14 true false) ∧
    decodeTableWord 32 0x64eab3af = some (.amoandD 7 21 14 true false) ∧
    decodeTableWord 32 0x64eaa3af = some (.amoandW 7 21 14 true false) ∧
    decodeTableWord 32 0xa4eab3af = some (.amomaxD 7 21 14 true false) ∧
    decodeTableWord 32 0xa4eaa3af = some (.amomaxW 7 21 14 true false) ∧
    decodeTableWord 32 0xe4eab3af = some (.amomaxuD 7 21 14 true false) ∧
    decodeTableWord 32 0xe4eaa3af = some (.amomaxuW 7 21 14 true false) := by
  decide

theorem test_decode_atomic_2 :
    decodeTableWord 32 0x84eab3af = some (.amominD 7 21 14 true false) ∧
    decodeTableWord 32 0x84eaa3af = some (.amominW 7 21 14 true false) ∧
    decodeTableWord 32 0xc4eab3af = some (.amominuD 7 21 14 true false) ∧
    decodeTableWord 32 0xc4eaa3af = some (.amominuW 7 21 14 true false) ∧
    decodeTableWord 32 0x44eab3af = some (.amoorD 7 21 14 true false) ∧
    decodeTableWord 32 0x44eaa3af = some (.amoorW 7 21 14 true false) ∧
    decodeTableWord 32 0x0ceab3af = some (.amoswapD 7 21 14 true false) ∧
    decodeTableWord 32 0x0ceaa3af = some (.amoswapW 7 21 14 true false) := by
  decide

theorem test_decode_atomic_3 :
    decodeTableWord 32 0x24eab3af = some (.amoxorD 7 21 14 true false) ∧
    decodeTableWord 32 0x24eaa3af = some (.amoxorW 7 21 14 true false) ∧
    decodeTableWord 32 0x140ab3af = some (.lrD 7 21 true false) ∧
    decodeTableWord 32 0x140aa3af = some (.lrW 7 21 true false) ∧
    decodeTableWord 32 0x1ceab3af = some (.scD 7 21 14 true false) ∧
    decodeTableWord 32 0x1ceaa3af = some (.scW 7 21 14 true false) := by
  decide

theorem test_decode_float_single_1 :
    decodeTableWord 32 0x00eaa3d3 = some (.faddS 7 21 14 0x2#3) ∧
    decodeTableWord 32 0xe00a93d3 = some (.fclassS 7 21) ∧
    decodeTableWord 32 0xc02aa3d3 = some (.fcvtLS 7 21 0x2#3) ∧
    decodeTableWord 32 0xc03aa3d3 = some (.fcvtLuS 7 21 0x2#3) ∧
    decodeTableWord 32 0xd02aa3d3 = some (.fcvtSL 7 21 0x2#3) ∧
    decodeTableWord 32 0xd03aa3d3 = some (.fcvtSLu 7 21 0x2#3) ∧
    decodeTableWord 32 0xd00aa3d3 = some (.fcvtSW 7 21 0x2#3) ∧
    decodeTableWord 32 0xd01aa3d3 = some (.fcvtSWu 7 21 0x2#3) := by
  decide

theorem test_decode_float_single_2 :
    decodeTableWord 32 0xc00aa3d3 = some (.fcvtWS 7 21 0x2#3) ∧
    decodeTableWord 32 0xc01aa3d3 = some (.fcvtWuS 7 21 0x2#3) ∧
    decodeTableWord 32 0x18eaa3d3 = some (.fdivS 7 21 14 0x2#3) ∧
    decodeTableWord 32 0xa0eaa3d3 = some (.feqS 7 21 14) ∧
    decodeTableWord 32 0xa0ea83d3 = some (.fleS 7 21 14) ∧
    decodeTableWord 32 0xa0ea93d3 = some (.fltS 7 21 14) ∧
    decodeTableWord 32 0xa35aa387 = some (.flw 7 21 0xa35#12) ∧
    decodeTableWord 32 0xd8eaa3c3 = some (.fmaddS 7 21 14 27 0x2#3) := by
  decide

theorem test_decode_float_single_3 :
    decodeTableWord 32 0x28ea93d3 = some (.fmaxS 7 21 14) ∧
    decodeTableWord 32 0x28ea83d3 = some (.fminS 7 21 14) ∧
    decodeTableWord 32 0xd8eaa3c7 = some (.fmsubS 7 21 14 27 0x2#3) ∧
    decodeTableWord 32 0x10eaa3d3 = some (.fmulS 7 21 14 0x2#3) ∧
    decodeTableWord 32 0xf00a83d3 = some (.fmvWX 7 21) ∧
    decodeTableWord 32 0xe00a83d3 = some (.fmvXW 7 21) ∧
    decodeTableWord 32 0xd8eaa3cf = some (.fnmaddS 7 21 14 27 0x2#3) ∧
    decodeTableWord 32 0xd8eaa3cb = some (.fnmsubS 7 21 14 27 0x2#3) := by
  decide

theorem test_decode_float_single_4 :
    decodeTableWord 32 0x20ea83d3 = some (.fsgnjS 7 21 14) ∧
    decodeTableWord 32 0x20ea93d3 = some (.fsgnjnS 7 21 14) ∧
    decodeTableWord 32 0x20eaa3d3 = some (.fsgnjxS 7 21 14) ∧
    decodeTableWord 32 0x580aa3d3 = some (.fsqrtS 7 21 0x2#3) ∧
    decodeTableWord 32 0x08eaa3d3 = some (.fsubS 7 21 14 0x2#3) ∧
    decodeTableWord 32 0xa2eaaaa7 = some (.fsw 14 21 0xa35#12) := by
  decide

theorem test_decode_float_double_1 :
    decodeTableWord 32 0x02eaa3d3 = some (.faddD 7 21 14 0x2#3) ∧
    decodeTableWord 32 0xe20a93d3 = some (.fclassD 7 21) ∧
    decodeTableWord 32 0xd22aa3d3 = some (.fcvtDL 7 21 0x2#3) ∧
    decodeTableWord 32 0xd23aa3d3 = some (.fcvtDLu 7 21 0x2#3) ∧
    decodeTableWord 32 0x420aa3d3 = some (.fcvtDS 7 21 0x2#3) ∧
    decodeTableWord 32 0xd20aa3d3 = some (.fcvtDW 7 21 0x2#3) ∧
    decodeTableWord 32 0xd21aa3d3 = some (.fcvtDWu 7 21 0x2#3) ∧
    decodeTableWord 32 0xc22aa3d3 = some (.fcvtLD 7 21 0x2#3) := by
  decide

theorem test_decode_float_double_2 :
    decodeTableWord 32 0xc23aa3d3 = some (.fcvtLuD 7 21 0x2#3) ∧
    decodeTableWord 32 0x401aa3d3 = some (.fcvtSD 7 21 0x2#3) ∧
    decodeTableWord 32 0xc20aa3d3 = some (.fcvtWD 7 21 0x2#3) ∧
    decodeTableWord 32 0xc21aa3d3 = some (.fcvtWuD 7 21 0x2#3) ∧
    decodeTableWord 32 0x1aeaa3d3 = some (.fdivD 7 21 14 0x2#3) ∧
    decodeTableWord 32 0xa2eaa3d3 = some (.feqD 7 21 14) ∧
    decodeTableWord 32 0xa35ab387 = some (.fld 7 21 0xa35#12) ∧
    decodeTableWord 32 0xa2ea83d3 = some (.fleD 7 21 14) := by
  decide

theorem test_decode_float_double_3 :
    decodeTableWord 32 0xa2ea93d3 = some (.fltD 7 21 14) ∧
    decodeTableWord 32 0xdaeaa3c3 = some (.fmaddD 7 21 14 27 0x2#3) ∧
    decodeTableWord 32 0x2aea93d3 = some (.fmaxD 7 21 14) ∧
    decodeTableWord 32 0x2aea83d3 = some (.fminD 7 21 14) ∧
    decodeTableWord 32 0xdaeaa3c7 = some (.fmsubD 7 21 14 27 0x2#3) ∧
    decodeTableWord 32 0x12eaa3d3 = some (.fmulD 7 21 14 0x2#3) ∧
    decodeTableWord 32 0xf20a83d3 = some (.fmvDX 7 21) ∧
    decodeTableWord 32 0xe20a83d3 = some (.fmvXD 7 21) := by
  decide

theorem test_decode_float_double_4 :
    decodeTableWord 32 0xdaeaa3cf = some (.fnmaddD 7 21 14 27 0x2#3) ∧
    decodeTableWord 32 0xdaeaa3cb = some (.fnmsubD 7 21 14 27 0x2#3) ∧
    decodeTableWord 32 0xa2eabaa7 = some (.fsd 14 21 0xa35#12) ∧
    decodeTableWord 32 0x22ea83d3 = some (.fsgnjD 7 21 14) ∧
    decodeTableWord 32 0x22ea93d3 = some (.fsgnjnD 7 21 14) ∧
    decodeTableWord 32 0x22eaa3d3 = some (.fsgnjxD 7 21 14) ∧
    decodeTableWord 32 0x5a0aa3d3 = some (.fsqrtD 7 21 0x2#3) ∧
    decodeTableWord 32 0x0aeaa3d3 = some (.fsubD 7 21 14 0x2#3) := by
  decide

theorem test_decode_compressed_1 :
    decodeTableWord 16 0x93ba = some (.cAdd 7 14) ∧
    decodeTableWord 16 0x13b5 = some (.cAddi 7 0x2d#6) ∧
    decodeTableWord 16 0x7169 = some (.cAddi16sp 0x2d#6) ∧
    decodeTableWord 16 0x05a8 = some (.cAddi4spn 2 0xb2#8) ∧
    decodeTableWord 16 0x33b5 = some (.cAddiw 7 0x2d#6) ∧
    decodeTableWord 16 0x8d6d = some (.cAnd 2 3) ∧
    decodeTableWord 16 0x9d2d = some (.cAddw 2 3) ∧
    decodeTableWord 16 0x9935 = some (.cAndi 2 0x2d#6) := by
  decide

theorem test_decode_compressed_2 :
    decodeTableWord 16 0xd2b5 = some (.cBeqz 5 0xb2#8) ∧
    decodeTableWord 16 0xf2b5 = some (.cBnez 5 0xb2#8) ∧
    decodeTableWord 16 0x9002 = some .cEbreak ∧
    decodeTableWord 16 0x3ac8 = some (.cFld 2 5 0x16#5) ∧
    decodeTableWord 16 0x33b6 = some (.cFldsp 7 0x2d#6) ∧
    decode (Config.full .rv32) (.half 0x6ea8#16) = some (.cFlw 2 5 0x16#5) ∧
    decode (Config.full .rv32) (.half 0x73da#16) = some (.cFlwsp 7 0x2d#6) ∧
    decodeTableWord 16 0xbacc = some (.cFsd 3 5 0x16#5) := by
  decide

theorem test_decode_compressed_3 :
    decodeTableWord 16 0xb6ba = some (.cFsdsp 14 0x2d#6) ∧
    decode (Config.full .rv32) (.half 0xeeac#16) = some (.cFsw 3 5 0x16#5) ∧
    decode (Config.full .rv32) (.half 0xfb3a#16) = some (.cFswsp 14 0x2d#6) ∧
    decodeTableWord 16 0xb699 = some (.cJ 0x5a3#11) ∧
    decode (Config.full .rv32) (.half 0x3699#16) = some (.cJal 0x5a3#11) ∧
    decodeTableWord 16 0x9a82 = some (.cJalr 21) ∧
    decodeTableWord 16 0x8a82 = some (.cJr 21) ∧
    decodeTableWord 16 0x7ac8 = some (.cLd 2 5 0x16#5) := by
  decide

theorem test_decode_compressed_4 :
    decodeTableWord 16 0x73b6 = some (.cLdsp 7 0x2d#6) ∧
    decodeTableWord 16 0x53b5 = some (.cLi 7 0x2d#6) ∧
    decodeTableWord 16 0x73b5 = some (.cLui 7 0x2d#6) ∧
    decodeTableWord 16 0x4ea8 = some (.cLw 2 5 0x16#5) ∧
    decodeTableWord 16 0x53da = some (.cLwsp 7 0x2d#6) ∧
    decodeTableWord 16 0x83ba = some (.cMv 7 14) ∧
    decodeTableWord 16 0x8d4d = some (.cOr 2 3) ∧
    decodeTableWord 16 0xfacc = some (.cSd 3 5 0x16#5) := by
  decide

theorem test_decode_compressed_5 :
    decodeTableWord 16 0xf6ba = some (.cSdsp 14 0x2d#6) ∧
    decodeTableWord 16 0x13b6 = some (.cSlli 7 0x2d#6) ∧
    decodeTableWord 16 0x9535 = some (.cSrai 2 0x2d#6) ∧
    decodeTableWord 16 0x9135 = some (.cSrli 2 0x2d#6) ∧
    decodeTableWord 16 0x8d0d = some (.cSub 2 3) ∧
    decodeTableWord 16 0x9d0d = some (.cSubw 2 3) ∧
    decodeTableWord 16 0xceac = some (.cSw 3 5 0x16#5) ∧
    decodeTableWord 16 0xdb3a = some (.cSwsp 14 0x2d#6) := by
  decide

theorem test_decode_compressed_6 :
    decodeTableWord 16 0x8d2d = some (.cXor 2 3) := by
  decide

/-- 30_encoding.md R150, R151: reserved words and halfwords are no instruction. -/
theorem test_decode_reserved :
    decodeTableWord 32 0 = none ∧ decodeTableWord 32 0xFFFFFFFF = none ∧ decodeTableWord 16 0 = none ∧
    decodeTableWord 16 0x6101 = none ∧ decodeTableWord 16 0x8002 = none ∧
    decode (Config.full .rv32) (.word 0x02031293#32) = none ∧ decode (Config.full .rv64) (.word 0x0203129B#32) = none := by
  decide

/-- 49_pseudoinstructions.md: the words of some expansions. -/
theorem test_encode_pseudo :
    encode .rv32 .nop = [.word 0x00000013] ∧ encode .rv32 .ret = [.word 0x00008067] ∧
    encode .rv64 (.mv 7 5) = [.word 0x00028393] ∧ encode .rv32 (.csrw 0x340 5) = [.word 0x34029073] ∧
    encode .rv64 (.li 5 0x12345678) = [.word 0x123452B7, .word 0x6782829B] ∧
    encode .rv32 (.call 1 0x1000) = [.word 0x00001097, .word 0x000080E7] := by
  decide

/-! ## One step: the worked examples of the spec -/

/-- R201: `add x7, x5, x6`. -/
theorem test_step_add :
    gives (((start .rv64 0x1000 4 0x006283B3).writeX 5 0xFFFFFFFFFFFFFFFF).writeX 6 0x0000000000000001)
      (fun t => t.readX 7 == 0x0000000000000000 && t.pc == 0x0000000000001004) = true := by decide

/-- R202: `addi x5, x5, 2047`. -/
theorem test_step_addi :
    gives ((start .rv64 0x1000 4 0x7FF28293).writeX 5 0x7FFFFFFFFFFFFFFF)
      (fun t => t.readX 5 == 0x80000000000007FE && t.pc == 0x0000000000001004) = true := by decide

/-- R203: `addiw x5, x6, 0`. -/
theorem test_step_addiw :
    gives ((start .rv64 0x1000 4 0x0003029B).writeX 6 0x12345678FFFFFFFF)
      (fun t => t.readX 5 == 0xFFFFFFFFFFFFFFFF && t.pc == 0x0000000000001004) = true := by decide

/-- R228: `subw x7, x5, x6`. -/
theorem test_step_subw :
    gives (((start .rv64 0x1000 4 0x406283BB).writeX 5 0x0000000000000000).writeX 6 0x0000000000000001)
      (fun t => t.readX 7 == 0xFFFFFFFFFFFFFFFF && t.pc == 0x0000000000001004) = true := by decide

/-- R211: `sll x7, x5, x6`. -/
theorem test_step_sll :
    gives (((start .rv64 0x1000 4 0x006293B3).writeX 5 0x0000000000000001).writeX 6 0xFFFFFFFFFFFFFFFF)
      (fun t => t.readX 7 == 0x8000000000000000 && t.pc == 0x0000000000001004) = true := by decide

/-- R223: `srl x7, x5, x6`. -/
theorem test_step_srl :
    gives (((start .rv64 0x1000 4 0x0062D3B3).writeX 5 0x8000000000000000).writeX 6 0x000000000000003F)
      (fun t => t.readX 7 == 0x0000000000000001 && t.pc == 0x0000000000001004) = true := by decide

/-- R219: `sra x7, x5, x6`. -/
theorem test_step_sra :
    gives (((start .rv64 0x1000 4 0x4062D3B3).writeX 5 0x8000000000000000).writeX 6 0x0000000000000044)
      (fun t => t.readX 7 == 0xF800000000000000 && t.pc == 0x0000000000001004) = true := by decide

/-- R221: `sraiw x5, x6, 0`. -/
theorem test_step_sraiw :
    gives ((start .rv64 0x1000 4 0x4003529B).writeX 6 0xFFFFFFFF7FFFFFFF)
      (fun t => t.readX 5 == 0x000000007FFFFFFF && t.pc == 0x0000000000001004) = true := by decide

/-- R226: `srlw x7, x5, x6`. -/
theorem test_step_srlw :
    gives (((start .rv64 0x1000 4 0x0062D3BB).writeX 5 0x0000000080000000).writeX 6 0x0000000000000020)
      (fun t => t.readX 7 == 0xFFFFFFFF80000000 && t.pc == 0x0000000000001004) = true := by decide

/-- R215: `slt x7, x5, x6`. -/
theorem test_step_slt :
    gives (((start .rv32 0x1000 4 0x0062A3B3).writeX 5 0x00000001).writeX 6 0x80000000)
      (fun t => t.readX 7 == 0x00000000 && t.pc == 0x00001004) = true := by decide

/-- R217: `sltiu x5, x6, -1`. -/
theorem test_step_sltiu :
    gives ((start .rv64 0x1000 4 0xFFF33293).writeX 6 0xFFFFFFFFFFFFFFFF)
      (fun t => t.readX 5 == 0x0000000000000000 && t.pc == 0x0000000000001004) = true := by decide

/-- R208: `lui x5, 0x80000`. -/
theorem test_step_lui :
    gives (start .rv64 0x1000 4 0x800002B7)
      (fun t => t.readX 5 == 0xFFFFFFFF80000000 && t.pc == 0x0000000000001004) = true := by decide

/-- R207: `auipc x5, 0xFFFFF`. -/
theorem test_step_auipc :
    gives (start .rv64 0x80000000 4 0xFFFFF297)
      (fun t => t.readX 5 == 0x000000007FFFF000 && t.pc == 0x0000000080000004) = true := by decide

/-- R205: `and x7, x5, x6`. -/
theorem test_step_and :
    gives (((start .rv32 0x1000 4 0x0062F3B3).writeX 5 0xF0F0F0F0).writeX 6 0xFF00FF00)
      (fun t => t.readX 7 == 0xF000F000 && t.pc == 0x00001004) = true := by decide

/-- R230: `xori x5, x6, 0x555`. -/
theorem test_step_xori :
    gives ((start .rv64 0x1000 4 0x55534293).writeX 6 0x0000000000000000)
      (fun t => t.readX 5 == 0x0000000000000555 && t.pc == 0x0000000000001004) = true := by decide

/-- R241: `beq x5, x6, -4`. -/
theorem test_step_beq :
    gives (((start .rv64 0x1000 4 0xFE628EE3).writeX 5 0x0000000100000001).writeX 6 0x0000000000000001)
      (fun t => t.pc == 0x0000000000001004) = true := by decide

/-- R242: `bge x5, x6, 8`. -/
theorem test_step_bge :
    gives (((start .rv32 0x1000 4 0x0062D463).writeX 5 0x80000000).writeX 6 0x00000000)
      (fun t => t.pc == 0x00001004) = true := by decide

/-- R245: `bltu x5, x6, -4096`. -/
theorem test_step_bltu :
    gives (((start .rv64 0x2000 4 0x8062E063).writeX 5 0x0000000000000000).writeX 6 0xFFFFFFFFFFFFFFFF)
      (fun t => t.pc == 0x0000000000001000) = true := by decide

/-- R247: `jal x0, 2`. -/
theorem test_step_jal :
    gives (start .rv32 0x1000 4 0x0020006F)
      (fun t => t.pc == 0x00001002) = true := by decide

/-- R248: `jalr x0, -4(x1)`. -/
theorem test_step_jalr :
    gives ((start .rv64 0x1000 4 0xFFC08067).writeX 1 0x0000000080000010)
      (fun t => t.pc == 0x000000008000000C) = true := by decide

/-- R261: `lb x5, -1(x6)`. -/
theorem test_step_lb :
    gives (((start .rv64 0x1000 4 0xFFF30283).writeX 6 0x0000000000002002).poke 0x0000000000002001 1 0x7F)
      (fun t => t.readX 5 == 0x000000000000007F && t.pc == 0x0000000000001004) = true := by decide

/-- R262: `lbu x5, 3(x6)`. -/
theorem test_step_lbu :
    gives (((start .rv32 0x1000 4 0x00334283).writeX 6 0x00002000).poke 0x00002000 4 0xDEADBEEF)
      (fun t => t.readX 5 == 0x000000DE && t.pc == 0x00001004) = true := by decide

/-- R264: `lh x5, 2(x6)`. -/
theorem test_step_lh :
    gives ((((start .rv32 0x1000 4 0x00231283).writeX 6 0x00002000).poke 0x00002002 1 0x34).poke 0x00002003 1 0x92)
      (fun t => t.readX 5 == 0xFFFF9234 && t.pc == 0x00001004) = true := by decide

/-- R266: `lw x5, 0(x6)`. -/
theorem test_step_lw :
    gives (((start .rv64 0x1000 4 0x00032283).writeX 6 0x0000000000002000).poke 0x0000000000002000 4 0x80000000)
      (fun t => t.readX 5 == 0xFFFFFFFF80000000 && t.pc == 0x0000000000001004) = true := by decide

/-- R267: `lwu x5, 0(x6)`. -/
theorem test_step_lwu :
    gives (((start .rv64 0x1000 4 0x00036283).writeX 6 0x0000000000002000).poke 0x0000000000002000 4 0x80000000)
      (fun t => t.readX 5 == 0x0000000080000000 && t.pc == 0x0000000000001004) = true := by decide

/-- R263: `ld x5, 8(x6)`. -/
theorem test_step_ld :
    gives (((start .rv64 0x1000 4 0x00833283).writeX 6 0x0000000000002000).poke 0x0000000000002008 8 0x1122334455667788)
      (fun t => t.readX 5 == 0x1122334455667788 && t.pc == 0x0000000000001004) = true := by decide

/-- R268: `sb x5, 1(x6)`. -/
theorem test_step_sb :
    gives ((((start .rv32 0x1000 4 0x005300A3).writeX 5 0x12345678).writeX 6 0x00002000).poke 0x00002000 4 0xAAAAAAAA)
      (fun t => (Memory.read t.mem 8192).setWidth 64 == 0xAA && (Memory.read t.mem 8193).setWidth 64 == 0x78 && (Memory.read t.mem 8194).setWidth 64 == 0xAA && (Memory.read t.mem 8195).setWidth 64 == 0xAA && t.pc == 0x00001004) = true := by decide

/-- R270: `sh x5, 2(x6)`. -/
theorem test_step_sh :
    gives ((((start .rv32 0x1000 4 0x00531123).writeX 5 0x12345678).writeX 6 0x00002000).poke 0x00002000 4 0xAAAAAAAA)
      (fun t => (Memory.read t.mem 8192).setWidth 64 == 0xAA && (Memory.read t.mem 8193).setWidth 64 == 0xAA && (Memory.read t.mem 8194).setWidth 64 == 0x78 && (Memory.read t.mem 8195).setWidth 64 == 0x56 && t.pc == 0x00001004) = true := by decide

/-- R271: `sw x5, 12(x2)`. -/
theorem test_step_sw :
    gives (((start .rv32 0x1000 4 0x00512623).writeX 5 0xDEADBEEF).writeX 2 0x00003000)
      (fun t => (Memory.read t.mem 12300).setWidth 64 == 0xEF && (Memory.read t.mem 12301).setWidth 64 == 0xBE && (Memory.read t.mem 12302).setWidth 64 == 0xAD && (Memory.read t.mem 12303).setWidth 64 == 0xDE && t.pc == 0x00001004) = true := by decide

/-- R269: `sd x5, -8(x6)`. -/
theorem test_step_sd :
    gives (((start .rv64 0x1000 4 0xFE533C23).writeX 5 0x0102030405060708).writeX 6 0x0000000000002008)
      (fun t => (Memory.read t.mem 8192).setWidth 64 == 0x08 && (Memory.read t.mem 8193).setWidth 64 == 0x07 && (Memory.read t.mem 8194).setWidth 64 == 0x06 && (Memory.read t.mem 8195).setWidth 64 == 0x05 && (Memory.read t.mem 8196).setWidth 64 == 0x04 && (Memory.read t.mem 8197).setWidth 64 == 0x03 && (Memory.read t.mem 8198).setWidth 64 == 0x02 && (Memory.read t.mem 8199).setWidth 64 == 0x01 && t.pc == 0x0000000000001004) = true := by decide

/-- R283: `csrrw x5, mscratch, x5`. -/
theorem test_step_csrrw :
    gives (((start .rv64 0x1000 4 0x340292F3).writeX 5 0x0000000000000001).writeCsr .mscratch 0xFFFFFFFFFFFFFFFF)
      (fun t => t.readX 5 == 0xFFFFFFFFFFFFFFFF && (t.readCsr .mscratch).1 == 0x0000000000000001 && t.pc == 0x0000000000001004) = true := by decide

/-- R284: `csrrs x5, instret, x0`. -/
theorem test_step_csrrs :
    gives (start .rv32 0x1000 4 0xC02022F3)
      (fun t => t.readX 5 == 0x00000000 && t.pc == 0x00001004) = true := by decide

/-- R285: `csrrc x5, mstatus, x6`. -/
theorem test_step_csrrc :
    gives (((start .rv32 0x1000 4 0x300332F3).writeX 6 0x00000008).writeCsr .mstatus 0x00001888)
      (fun t => t.readX 5 == 0x00001888 && (t.readCsr .mstatus).1 == 0x00001880 && t.pc == 0x00001004) = true := by decide

/-- R286: `csrrwi x5, frm, 1`. -/
theorem test_step_csrrwi :
    gives ((start .rv32 0x1000 4 0x0020D2F3).writeCsr .frm 0x00000000)
      (fun t => t.readX 5 == 0x00000000 && (t.readCsr .frm).1 == 0x00000001 && t.pc == 0x00001004) = true := by decide

/-- R287: `csrrsi x0, mstatus, 8`. -/
theorem test_step_csrrsi :
    gives ((start .rv32 0x1000 4 0x30046073).writeCsr .mstatus 0x00001800)
      (fun t => (t.readCsr .mstatus).1 == 0x00001808 && t.pc == 0x00001004) = true := by decide

/-- R288: `csrrci x5, fflags, 31`. -/
theorem test_step_csrrci :
    gives ((start .rv32 0x1000 4 0x001FF2F3).writeCsr .fflags 0x0000001F)
      (fun t => t.readX 5 == 0x0000001F && (t.readCsr .fflags).1 == 0x00000000 && t.pc == 0x00001004) = true := by decide

/-- R293: `mret`. -/
theorem test_step_mret :
    gives ((((start .rv32 0x1000 4 0x30200073).writeCsr .mstatus 0x00001800).writeCsr .mepc 0x00002000).inMode .machine)
      (fun t => (t.readCsr .mstatus).1 == 0x00000080 && BitVec.ofNat 64 (Priv.level t.priv) == 3 && t.pc == 0x00002000) = true := by decide

/-- R294: `sret`. -/
theorem test_step_sret :
    gives ((((start .rv32 0x1000 4 0x10200073).inMode .supervisor).writeCsr .sepc 0x00003000).writeCsr .mstatus 0x00000120)
      (fun t => (t.readCsr .mstatus).1 == 0x00000022 && BitVec.ofNat 64 (Priv.level t.priv) == 1 && t.pc == 0x00003000) = true := by decide

/-- R295: `wfi`. -/
theorem test_step_wfi :
    gives ((start .rv32 0x1000 4 0x10500073).inMode .machine)
      (fun t => t.pc == 0x00001004) = true := by decide

/-- R296: `sfence.vma x0, x0`. -/
theorem test_step_sfence_vma :
    gives ((start .rv64 0x1000 4 0x12000073).inMode .supervisor)
      (fun t => t.pc == 0x0000000000001004) = true := by decide

/-- R290: `fence.i`. -/
theorem test_step_fence_i :
    gives (start .rv32 0x1000 4 0x0000100F)
      (fun t => t.pc == 0x00001004) = true := by decide

/-- R302: `mul x7, x5, x6`. -/
theorem test_step_mul :
    gives (((start .rv64 0x1000 4 0x026283B3).writeX 5 0x0000000100000000).writeX 6 0x0000000000000007)
      (fun t => t.readX 7 == 0x0000000700000000 && t.pc == 0x0000000000001004) = true := by decide

/-- R303: `mulh x7, x5, x6`. -/
theorem test_step_mulh :
    gives (((start .rv64 0x1000 4 0x026293B3).writeX 5 0x7FFFFFFFFFFFFFFF).writeX 6 0x7FFFFFFFFFFFFFFF)
      (fun t => t.readX 7 == 0x3FFFFFFFFFFFFFFF && t.pc == 0x0000000000001004) = true := by decide

/-- R304: `mulhsu x7, x5, x6`. -/
theorem test_step_mulhsu :
    gives (((start .rv32 0x1000 4 0x0262A3B3).writeX 5 0x7FFFFFFF).writeX 6 0xFFFFFFFF)
      (fun t => t.readX 7 == 0x7FFFFFFE && t.pc == 0x00001004) = true := by decide

/-- R305: `mulhu x7, x5, x6`. -/
theorem test_step_mulhu :
    gives (((start .rv64 0x1000 4 0x0262B3B3).writeX 5 0xFFFFFFFFFFFFFFFF).writeX 6 0x0000000000000002)
      (fun t => t.readX 7 == 0x0000000000000001 && t.pc == 0x0000000000001004) = true := by decide

/-- R306: `mulw x7, x5, x6`. -/
theorem test_step_mulw :
    gives (((start .rv64 0x1000 4 0x026283BB).writeX 5 0xFFFFFFFF00000003).writeX 6 0x0000000000000005)
      (fun t => t.readX 7 == 0x000000000000000F && t.pc == 0x0000000000001004) = true := by decide

/-- R307: `div x7, x5, x6`. -/
theorem test_step_div :
    gives (((start .rv64 0x1000 4 0x0262C3B3).writeX 5 0x8000000000000000).writeX 6 0xFFFFFFFFFFFFFFFF)
      (fun t => t.readX 7 == 0x8000000000000000 && t.pc == 0x0000000000001004) = true := by decide

/-- R308: `divu x7, x5, x6`. -/
theorem test_step_divu :
    gives (((start .rv32 0x1000 4 0x0262D3B3).writeX 5 0x00000005).writeX 6 0x00000000)
      (fun t => t.readX 7 == 0xFFFFFFFF && t.pc == 0x00001004) = true := by decide

/-- R311: `rem x7, x5, x6`. -/
theorem test_step_rem :
    gives (((start .rv32 0x1000 4 0x0262E3B3).writeX 5 0x80000000).writeX 6 0xFFFFFFFF)
      (fun t => t.readX 7 == 0x00000000 && t.pc == 0x00001004) = true := by decide

/-- R312: `remu x7, x5, x6`. -/
theorem test_step_remu :
    gives (((start .rv32 0x1000 4 0x0262F3B3).writeX 5 0xFFFFFFF9).writeX 6 0x00000000)
      (fun t => t.readX 7 == 0xFFFFFFF9 && t.pc == 0x00001004) = true := by decide

/-- R309: `divw x7, x5, x6`. -/
theorem test_step_divw :
    gives (((start .rv64 0x1000 4 0x0262C3BB).writeX 5 0x0000000080000000).writeX 6 0x00000000FFFFFFFF)
      (fun t => t.readX 7 == 0xFFFFFFFF80000000 && t.pc == 0x0000000000001004) = true := by decide

/-- R314: `remuw x7, x5, x6`. -/
theorem test_step_remuw :
    gives (((start .rv64 0x1000 4 0x0262F3BB).writeX 5 0x00000000FFFFFFF9).writeX 6 0x0000000000000000)
      (fun t => t.readX 7 == 0xFFFFFFFFFFFFFFF9 && t.pc == 0x0000000000001004) = true := by decide

/-- R322: `amoadd.w x7, x6, (x5)`. -/
theorem test_step_amoadd_w :
    gives ((((start .rv64 0x1000 4 0x0062A3AF).writeX 5 0x0000000000002000).writeX 6 0xABCDEF0000000001).poke 0x0000000000002000 4 0x7FFFFFFF)
      (fun t => t.readX 7 == 0x000000007FFFFFFF && (Memory.read t.mem 8192).setWidth 64 == 0x00 && (Memory.read t.mem 8193).setWidth 64 == 0x00 && (Memory.read t.mem 8194).setWidth 64 == 0x00 && (Memory.read t.mem 8195).setWidth 64 == 0x80 && t.pc == 0x0000000000001004) = true := by decide

/-- R326: `amomax.w x7, x6, (x5)`. -/
theorem test_step_amomax_w :
    gives ((((start .rv64 0x1000 4 0xA062A3AF).writeX 5 0x0000000000002000).writeX 6 0xABCDEF0000000001).poke 0x0000000000002000 4 0xFFFFFFFF)
      (fun t => t.readX 7 == 0xFFFFFFFFFFFFFFFF && (Memory.read t.mem 8192).setWidth 64 == 0x01 && (Memory.read t.mem 8193).setWidth 64 == 0x00 && (Memory.read t.mem 8194).setWidth 64 == 0x00 && (Memory.read t.mem 8195).setWidth 64 == 0x00 && t.pc == 0x0000000000001004) = true := by decide

/-- R332: `amominu.w x7, x6, (x5)`. -/
theorem test_step_amominu_w :
    gives ((((start .rv64 0x1000 4 0xC062A3AF).writeX 5 0x0000000000002000).writeX 6 0xABCDEF0000000001).poke 0x0000000000002000 4 0xFFFFFFFF)
      (fun t => t.readX 7 == 0xFFFFFFFFFFFFFFFF && (Memory.read t.mem 8192).setWidth 64 == 0x01 && (Memory.read t.mem 8193).setWidth 64 == 0x00 && (Memory.read t.mem 8194).setWidth 64 == 0x00 && (Memory.read t.mem 8195).setWidth 64 == 0x00 && t.pc == 0x0000000000001004) = true := by decide

/-- R335: `amoswap.d x7, x6, (x5)`. -/
theorem test_step_amoswap_d :
    gives ((((start .rv64 0x1000 4 0x0862B3AF).writeX 5 0x0000000000002000).writeX 6 0x2222222222222222).poke 0x0000000000002000 8 0x1111111111111111)
      (fun t => t.readX 7 == 0x1111111111111111 && (Memory.read t.mem 8192).setWidth 64 == 0x22 && (Memory.read t.mem 8193).setWidth 64 == 0x22 && (Memory.read t.mem 8194).setWidth 64 == 0x22 && (Memory.read t.mem 8195).setWidth 64 == 0x22 && (Memory.read t.mem 8196).setWidth 64 == 0x22 && (Memory.read t.mem 8197).setWidth 64 == 0x22 && (Memory.read t.mem 8198).setWidth 64 == 0x22 && (Memory.read t.mem 8199).setWidth 64 == 0x22 && t.pc == 0x0000000000001004) = true := by decide

/-- R356: `fadd.s f3, f1, f2`. -/
theorem test_step_fadd_s :
    gives (((((start .rv32 0x1000 4 0x0020F1D3).writeF 1 0x000000003F800000).writeF 2 0xFFFFFFFF3F800000).writeCsr .frm 0).writeCsr .fflags 0x00)
      (fun t => t.readF 3 == 0xFFFFFFFF7FC00000 && (t.readCsr .fflags).1 == 0x00 && t.pc == 0x00001004) = true := by decide

/-- R384: `fsub.s f3, f1, f2, rtz`. -/
theorem test_step_fsub_s :
    gives (((((start .rv32 0x1000 4 0x082091D3).writeF 1 0xFFFFFFFF3F800000).writeF 2 0xFFFFFFFF33800000).writeCsr .frm 0).writeCsr .fflags 0x00)
      (fun t => t.readF 3 == 0xFFFFFFFF3F7FFFFF && (t.readCsr .fflags).1 == 0x00 && t.pc == 0x00001004) = true := by decide

/-- R375: `fmul.s f3, f1, f2`. -/
theorem test_step_fmul_s :
    gives (((((start .rv32 0x1000 4 0x1020F1D3).writeF 1 0xFFFFFFFF80000000).writeF 2 0xFFFFFFFF7F800000).writeCsr .frm 0).writeCsr .fflags 0x00)
      (fun t => t.readF 3 == 0xFFFFFFFF7FC00000 && (t.readCsr .fflags).1 == 0x10 && t.pc == 0x00001004) = true := by decide

/-- R366: `fdiv.s f3, f1, f2`. -/
theorem test_step_fdiv_s :
    gives (((((start .rv32 0x1000 4 0x1820F1D3).writeF 1 0xFFFFFFFF40400000).writeF 2 0xFFFFFFFF40000000).writeCsr .frm 0).writeCsr .fflags 0x00)
      (fun t => t.readF 3 == 0xFFFFFFFF3FC00000 && (t.readCsr .fflags).1 == 0x00 && t.pc == 0x00001004) = true := by decide

/-- R383: `fsqrt.s f3, f1`. -/
theorem test_step_fsqrt_s :
    gives ((((start .rv32 0x1000 4 0x5800F1D3).writeF 1 0xFFFFFFFF80000000).writeCsr .frm 0).writeCsr .fflags 0x00)
      (fun t => t.readF 3 == 0xFFFFFFFF80000000 && (t.readCsr .fflags).1 == 0x00 && t.pc == 0x00001004) = true := by decide

/-- R371: `fmadd.s f4, f1, f2, f3`. -/
theorem test_step_fmadd_s :
    gives ((((((start .rv32 0x1000 4 0x1820F243).writeF 1 0xFFFFFFFF7F800000).writeF 2 0xFFFFFFFF80000000).writeF 3 0xFFFFFFFF7FC00000).writeCsr .frm 0).writeCsr .fflags 0x00)
      (fun t => t.readF 4 == 0xFFFFFFFF7FC00000 && (t.readCsr .fflags).1 == 0x10 && t.pc == 0x00001004) = true := by decide

/-- R379: `fnmsub.s f4, f1, f2, f3`. -/
theorem test_step_fnmsub_s :
    gives ((((((start .rv32 0x1000 4 0x1820A24B).writeF 1 0xFFFFFFFF3F800000).writeF 2 0xFFFFFFFF3F800000).writeF 3 0xFFFFFFFF3F800000).writeCsr .frm 0).writeCsr .fflags 0x00)
      (fun t => t.readF 4 == 0xFFFFFFFF80000000 && (t.readCsr .fflags).1 == 0x00 && t.pc == 0x00001004) = true := by decide

/-- R373: `fmin.s f3, f1, f2`. -/
theorem test_step_fmin_s :
    gives (((((start .rv32 0x1000 4 0x282081D3).writeF 1 0xFFFFFFFF7FC00000).writeF 2 0xFFFFFFFFFFC00123).writeCsr .frm 0).writeCsr .fflags 0x00)
      (fun t => t.readF 3 == 0xFFFFFFFF7FC00000 && (t.readCsr .fflags).1 == 0x00 && t.pc == 0x00001004) = true := by decide

/-- R372: `fmax.s f3, f1, f2`. -/
theorem test_step_fmax_s :
    gives (((((start .rv32 0x1000 4 0x282091D3).writeF 1 0xFFFFFFFFFF800000).writeF 2 0xFFFFFFFF7F7FFFFF).writeCsr .frm 0).writeCsr .fflags 0x00)
      (fun t => t.readF 3 == 0xFFFFFFFF7F7FFFFF && (t.readCsr .fflags).1 == 0x00 && t.pc == 0x00001004) = true := by decide

/-- R381: `fsgnjn.s f3, f1, f2`. -/
theorem test_step_fsgnjn_s :
    gives (((((start .rv32 0x1000 4 0x202091D3).writeF 1 0xFFFFFFFFBFC00000).writeF 2 0xFFFFFFFF3F800000).writeCsr .frm 0).writeCsr .fflags 0x00)
      (fun t => t.readF 3 == 0xFFFFFFFFBFC00000 && (t.readCsr .fflags).1 == 0x00 && t.pc == 0x00001004) = true := by decide

/-- R367: `feq.s x5, f1, f2`. -/
theorem test_step_feq_s :
    gives (((((start .rv32 0x1000 4 0xA020A2D3).writeF 1 0xFFFFFFFF7FA00000).writeF 2 0xFFFFFFFF3F800000).writeCsr .frm 0).writeCsr .fflags 0x00)
      (fun t => t.readX 5 == 0x00000000 && (t.readCsr .fflags).1 == 0x10 && t.pc == 0x00001004) = true := by decide

/-- R369: `flt.s x5, f1, f2`. -/
theorem test_step_flt_s :
    gives (((((start .rv32 0x1000 4 0xA02092D3).writeF 1 0xFFFFFFFFFF800000).writeF 2 0xFFFFFFFF7F800000).writeCsr .frm 0).writeCsr .fflags 0x00)
      (fun t => t.readX 5 == 0x00000001 && (t.readCsr .fflags).1 == 0x00 && t.pc == 0x00001004) = true := by decide

/-- R368: `fle.s x5, f1, f2`. -/
theorem test_step_fle_s :
    gives (((((start .rv32 0x1000 4 0xA02082D3).writeF 1 0xFFFFFFFF7FC00000).writeF 2 0xFFFFFFFF3F800000).writeCsr .frm 0).writeCsr .fflags 0x00)
      (fun t => t.readX 5 == 0x00000000 && (t.readCsr .fflags).1 == 0x10 && t.pc == 0x00001004) = true := by decide

/-- R357: `fclass.s x5, f1`. -/
theorem test_step_fclass_s :
    gives ((((start .rv32 0x1000 4 0xE00092D3).writeF 1 0xFFFFFFFF7FC00000).writeCsr .frm 0).writeCsr .fflags 0x00)
      (fun t => t.readX 5 == 0x00000200 && (t.readCsr .fflags).1 == 0x00 && t.pc == 0x00001004) = true := by decide

/-- R364: `fcvt.w.s x5, f1`. -/
theorem test_step_fcvt_w_s :
    gives ((((start .rv64 0x1000 4 0xC000F2D3).writeF 1 0xFFFFFFFFFF800000).writeCsr .frm 0).writeCsr .fflags 0x00)
      (fun t => t.readX 5 == 0xFFFFFFFF80000000 && (t.readCsr .fflags).1 == 0x10 && t.pc == 0x0000000000001004) = true := by decide

/-- R365: `fcvt.wu.s x5, f1`. -/
theorem test_step_fcvt_wu_s :
    gives ((((start .rv64 0x1000 4 0xC010F2D3).writeF 1 0xFFFFFFFF7F800000).writeCsr .frm 0).writeCsr .fflags 0x00)
      (fun t => t.readX 5 == 0xFFFFFFFFFFFFFFFF && (t.readCsr .fflags).1 == 0x10 && t.pc == 0x0000000000001004) = true := by decide

/-- R362: `fcvt.s.w f3, x5`. -/
theorem test_step_fcvt_s_w :
    gives ((((start .rv64 0x1000 4 0xD002F1D3).writeX 5 0x0000000180000000).writeCsr .frm 0).writeCsr .fflags 0x00)
      (fun t => t.readF 3 == 0xFFFFFFFFCF000000 && (t.readCsr .fflags).1 == 0x00 && t.pc == 0x0000000000001004) = true := by decide

/-- R370: `flw f3, -8(x5)`. -/
theorem test_step_flw :
    gives (((start .rv64 0x1000 4 0xFF82A187).writeX 5 0x0000000000002010).poke 0x0000000000002008 4 0x7FA00000)
      (fun t => t.readF 3 == 0xFFFFFFFF7FA00000 && t.pc == 0x0000000000001004) = true := by decide

/-- R385: `fsw f2, 0(x5)`. -/
theorem test_step_fsw :
    gives (((start .rv64 0x1000 4 0x0022A027).writeX 5 0x0000000000002000).writeF 2 0x3FF0000012345678)
      (fun t => (Memory.read t.mem 8192).setWidth 64 == 0x78 && (Memory.read t.mem 8193).setWidth 64 == 0x56 && (Memory.read t.mem 8194).setWidth 64 == 0x34 && (Memory.read t.mem 8195).setWidth 64 == 0x12 && t.pc == 0x0000000000001004) = true := by decide

/-- R377: `fmv.x.w x5, f1`. -/
theorem test_step_fmv_x_w :
    gives ((((start .rv64 0x1000 4 0xE00082D3).writeF 1 0x3FF0000012345678).writeCsr .frm 0).writeCsr .fflags 0x00)
      (fun t => t.readX 5 == 0x0000000012345678 && (t.readCsr .fflags).1 == 0x00 && t.pc == 0x0000000000001004) = true := by decide

/-- R376: `fmv.w.x f3, x5`. -/
theorem test_step_fmv_w_x :
    gives ((((start .rv64 0x1000 4 0xF00281D3).writeX 5 0x123456787FA00001).writeCsr .frm 0).writeCsr .fflags 0x00)
      (fun t => t.readF 3 == 0xFFFFFFFF7FA00001 && (t.readCsr .fflags).1 == 0x00 && t.pc == 0x0000000000001004) = true := by decide

/-- R401: `fadd.d f3, f1, f2, rdn`. -/
theorem test_step_fadd_d :
    gives (((((start .rv32 0x1000 4 0x0220A1D3).writeF 1 0x3FF0000000000000).writeF 2 0xBFF0000000000000).writeCsr .frm 0).writeCsr .fflags 0x00)
      (fun t => t.readF 3 == 0x8000000000000000 && (t.readCsr .fflags).1 == 0x00 && t.pc == 0x00001004) = true := by decide

/-- R410: `fcvt.s.d f3, f1`. -/
theorem test_step_fcvt_s_d :
    gives ((((start .rv32 0x1000 4 0x4010F1D3).writeF 1 0x380FFFFFF0000000).writeCsr .frm 0).writeCsr .fflags 0x00)
      (fun t => t.readF 3 == 0xFFFFFFFF00800000 && (t.readCsr .fflags).1 == 0x01 && t.pc == 0x00001004) = true := by decide

/-- R405: `fcvt.d.s f3, f1`. -/
theorem test_step_fcvt_d_s :
    gives ((((start .rv32 0x1000 4 0x420081D3).writeF 1 0xFFFFFFFFFF800000).writeCsr .frm 0).writeCsr .fflags 0x00)
      (fun t => t.readF 3 == 0xFFF0000000000000 && (t.readCsr .fflags).1 == 0x00 && t.pc == 0x00001004) = true := by decide

/-- R408: `fcvt.l.d x5, f1`. -/
theorem test_step_fcvt_l_d :
    gives ((((start .rv64 0x1000 4 0xC220F2D3).writeF 1 0x7FF4000000000000).writeCsr .frm 0).writeCsr .fflags 0x00)
      (fun t => t.readX 5 == 0x7FFFFFFFFFFFFFFF && (t.readCsr .fflags).1 == 0x10 && t.pc == 0x0000000000001004) = true := by decide

/-- R418: `fmadd.d f4, f1, f2, f3`. -/
theorem test_step_fmadd_d :
    gives ((((((start .rv32 0x1000 4 0x1A20F243).writeF 1 0x7FF0000000000000).writeF 2 0x8000000000000000).writeF 3 0x7FF8000000000000).writeCsr .frm 0).writeCsr .fflags 0x00)
      (fun t => t.readF 4 == 0x7FF8000000000000 && (t.readCsr .fflags).1 == 0x10 && t.pc == 0x00001004) = true := by decide

/-- R413: `fdiv.d f3, f1, f2`. -/
theorem test_step_fdiv_d :
    gives (((((start .rv32 0x1000 4 0x1A20F1D3).writeF 1 0x4008000000000000).writeF 2 0x4000000000000000).writeCsr .frm 0).writeCsr .fflags 0x00)
      (fun t => t.readF 3 == 0x3FF8000000000000 && (t.readCsr .fflags).1 == 0x00 && t.pc == 0x00001004) = true := by decide

/-- R415: `fld f3, -8(x5)`. -/
theorem test_step_fld :
    gives (((start .rv64 0x1000 4 0xFF82B187).writeX 5 0x0000000000002010).poke 0x0000000000002008 8 0x7FF4000000000000)
      (fun t => t.readF 3 == 0x7FF4000000000000 && t.pc == 0x0000000000001004) = true := by decide

/-- R427: `fsd f2, 8(x5)`. -/
theorem test_step_fsd :
    gives (((start .rv32 0x1000 4 0x0022B427).writeX 5 0x00002000).writeF 2 0xBFF8000000000000)
      (fun t => (Memory.read t.mem 8200).setWidth 64 == 0x00 && (Memory.read t.mem 8201).setWidth 64 == 0x00 && (Memory.read t.mem 8202).setWidth 64 == 0x00 && (Memory.read t.mem 8203).setWidth 64 == 0x00 && (Memory.read t.mem 8204).setWidth 64 == 0x00 && (Memory.read t.mem 8205).setWidth 64 == 0x00 && (Memory.read t.mem 8206).setWidth 64 == 0xF8 && (Memory.read t.mem 8207).setWidth 64 == 0xBF && t.pc == 0x00001004) = true := by decide

/-- R455: `c.addi16sp 496`. -/
theorem test_step_c_addi16sp :
    gives ((start .rv64 0x1000 2 0x617D).writeX 2 0x0000000000008000)
      (fun t => t.readX 2 == 0x00000000000081F0 && t.pc == 0x0000000000001002) = true := by decide

/-- R479: `c.lui x5, 0xfffff`. -/
theorem test_step_c_lui :
    gives (start .rv64 0x1000 2 0x72FD)
      (fun t => t.readX 5 == 0xFFFFFFFFFFFFF000 && t.pc == 0x0000000000001002) = true := by decide

/-- R480: `c.lw x8, 124(x8)`. -/
theorem test_step_c_lw :
    gives (((start .rv32 0x1000 2 0x5C60).writeX 8 0x00002000).poke 0x0000207C 4 0x11223344)
      (fun t => t.readX 8 == 0x11223344 && t.pc == 0x00001002) = true := by decide

/-- R492: `c.swsp x1, 12(x2)`. -/
theorem test_step_c_swsp :
    gives (((start .rv32 0x1000 2 0xC606).writeX 1 0x00001004).writeX 2 0x00008000)
      (fun t => (Memory.read t.mem 32780).setWidth 64 == 0x04 && (Memory.read t.mem 32781).setWidth 64 == 0x10 && (Memory.read t.mem 32782).setWidth 64 == 0x00 && (Memory.read t.mem 32783).setWidth 64 == 0x00 && t.pc == 0x00001002) = true := by decide

/-- R473: `c.jal -2`. -/
theorem test_step_c_jal :
    gives (start .rv32 0x1000 2 0x3FFD)
      (fun t => t.readX 1 == 0x00001002 && t.pc == 0x00000FFE) = true := by decide

/-- R474: `c.jalr x1`. -/
theorem test_step_c_jalr :
    gives ((start .rv64 0x1000 2 0x9082).writeX 1 0x0000000000003000)
      (fun t => t.readX 1 == 0x0000000000001002 && t.pc == 0x0000000000003000) = true := by decide

/-- R461: `c.beqz x8, 254`. -/
theorem test_step_c_beqz :
    gives ((start .rv64 0x1000 2 0xCC7D).writeX 8 0x0000000000000001)
      (fun t => t.pc == 0x0000000000001002) = true := by decide

/-- R487: `c.srai x8, 63`. -/
theorem test_step_c_srai :
    gives ((start .rv64 0x1000 2 0x947D).writeX 8 0x8000000000000000)
      (fun t => t.readX 8 == 0xFFFFFFFFFFFFFFFF && t.pc == 0x0000000000001002) = true := by decide

/-- R456: `c.addi4spn x15, 1020`. -/
theorem test_step_c_addi4spn :
    gives ((start .rv32 0x1000 2 0x1FFC).writeX 2 0xFFFFFFF0)
      (fun t => t.readX 15 == 0x000003EC && t.pc == 0x00001002) = true := by decide

/-- R482: `c.mv x10, x11`. -/
theorem test_step_c_mv :
    gives (((start .rv32 0x1000 2 0x852E).writeX 10 0x00000001).writeX 11 0xDEADBEEF)
      (fun t => t.readX 10 == 0xDEADBEEF && t.pc == 0x00001002) = true := by decide

/-- R485: `c.sdsp x1, 8(x2)`. -/
theorem test_step_c_sdsp :
    gives (((start .rv64 0x1000 2 0xE406).writeX 1 0x0000000080001004).writeX 2 0x0000000000008000)
      (fun t => (Memory.read t.mem 32776).setWidth 64 == 0x04 && (Memory.read t.mem 32777).setWidth 64 == 0x10 && (Memory.read t.mem 32778).setWidth 64 == 0x00 && (Memory.read t.mem 32779).setWidth 64 == 0x80 && (Memory.read t.mem 32780).setWidth 64 == 0x00 && (Memory.read t.mem 32781).setWidth 64 == 0x00 && (Memory.read t.mem 32782).setWidth 64 == 0x00 && (Memory.read t.mem 32783).setWidth 64 == 0x00 && t.pc == 0x0000000000001002) = true := by decide

/-! ## Traps, interrupts, reservations: one step each -/

/-- 60_exceptions.md R610: `ecall` in user mode enters machine mode. -/
theorem test_trap_ecall_user :
    gives ({ (start .rv32 0x1000 4 0x00000073).inMode .user with mtvec := 0x100 }.writeCsr .mstatus 0x00000008)
      (fun t => (t.readCsr .mstatus).1 == 0x00000080 && t.mepc == 0x1000 && t.mcause == 8 && t.mtval == 0 &&
        t.priv == .machine && t.pc == 0x100 && t.minstret == 0) = true := by decide

/-- 60_exceptions.md R611: a delegated exception of user mode enters supervisor mode. -/
theorem test_trap_delegated :
    gives { (start .rv64 0x1000 4 0x00000073).inMode .user with medeleg := 0x100, stvec := 0x200 }
      (fun t => t.sepc == 0x1000 && t.scause == 8 && t.priv == .supervisor && t.pc == 0x200 && !t.mstatus.spp) = true := by
  decide

/-- 60_exceptions.md R630, R610 (9): a machine timer interrupt in vectored mode. -/
theorem test_interrupt_vectored :
    gives { (start .rv64 0x1000 4 0x00000013) with
            mtvec := 0x8001, mie := 0x080
            mstatus := { State.reset.mstatus with mie := true }
            inputs := [{ meip := false, mtip := true, msip := false, seip := false }] }
      (fun t => t.mcause == 0x8000000000000007 && t.pc == 0x801C && t.mepc == 0x1000 && t.mstatus.mpie &&
        !t.mstatus.mie && t.mstatus.mpp == .machine) = true := by decide

/-- 60_exceptions.md R630: an interrupt that is not enabled in machine mode is not taken. -/
theorem test_interrupt_disabled :
    gives { (start .rv64 0x1000 4 0x00000013) with
            mie := 0x080, lines := { meip := false, mtip := true, msip := false, seip := false } }
      (fun t => t.pc == 0x1004 && t.mcause == 0) = true := by decide

/-- 20_memory.md R85: a misaligned load raises and leaves the registers. -/
theorem test_trap_misaligned_load :
    gives ((start .rv32 0x1000 4 0x00032283).writeX 6 0x2001)
      (fun t => t.mcause == 4 && t.mtval == 0x2001 && t.readX 5 == 0 && t.pc == 0x8000) = true := by decide

/-- 20_memory.md R85, R81: an emulated misaligned load of main memory. -/
theorem test_step_emulated_load :
    gives { ((start .rv64 0x1000 4 0x00032283).writeX 6 0x2001).poke 0x2001 4 0x80000001 with
            cfg := { resetConfig with misaligned := .emulate } }
      (fun t => t.readX 5 == 0xFFFFFFFF80000001 && t.pc == 0x1004) = true := by decide

/-- 42_loads_stores.md R268, R272; 20_memory.md R90: a device sees the byte stored and no more, and memory does not. -/
theorem test_step_store_to_io :
    gives { ((start .rv64 0x1000 4 0x00530023).writeX 5 0x12345678).writeX 6 0x2000 with
            cfg := { resetConfig with memMap := [{ wholeMemory with size := 0x2000 },
              { wholeMemory with base := 0x2000, size := 8, io := true }] } }
      (fun t => t.ioLog == [.write 0x2000 1 0x78] && Memory.read t.mem 0x2000 == 0 && t.pc == 0x1004) = true := by decide

/-- 00_scope.md R8, 43_system_csr_fence.md R281 (4): bits the platform makes read-only keep their value. -/
theorem test_step_csr_read_only_bits :
    gives { ((start .rv64 0x1000 4 0x340292F3).writeX 5 0xFFFF) with
            mscratch := 0x0120, cfg := { resetConfig with csrReadOnly := [(0x340, 0x0FF0)] } }
      (fun t => t.mscratch == 0xF12F && t.readX 5 == 0x0120) = true := by decide

/-- 30_encoding.md R150: the bits of an illegal instruction are reported. -/
theorem test_trap_illegal :
    gives (start .rv64 0x1000 4 0xFFFFFFFF) (fun t => t.mcause == 2 && t.mtval == 0xFFFFFFFF && t.mepc == 0x1000) = true := by
  decide

/-- 60_exceptions.md R643: `mret` in user mode is illegal. -/
theorem test_trap_mret_user :
    gives ((start .rv32 0x1000 4 0x30200073).inMode .user)
      (fun t => t.mcause == 2 && t.mtval == 0x30200073 && t.priv == .machine) = true := by decide

/-- 43_system_csr_fence.md R282: a user-mode access to a machine CSR is illegal. -/
theorem test_trap_csr_user :
    gives ((start .rv64 0x1000 4 0x340312F3).inMode .user) (fun t => t.mcause == 2 && t.mscratch == 0) = true := by decide

/-- 43_system_csr_fence.md R292: `ebreak` reports its own address. -/
theorem test_trap_ebreak :
    gives (start .rv64 0x1000 4 0x00100073) (fun t => t.mcause == 3 && t.mtval == 0x1000 && t.mepc == 0x1000) = true := by
  decide

/-- 45_atomics.md R340: `lr.w` registers its word. -/
theorem test_step_lr_w :
    gives ((start .rv32 0x1000 4 0x1002A3AF).writeX 5 0x2000)
      (fun t => t.reservation == some { addr := 0x2000, size := 4 } && t.pc == 0x1004) = true := by decide

/-- 20_memory.md R98: without a reservation `sc.w` stores nothing. -/
theorem test_step_sc_w_without_reservation :
    gives (((start .rv32 0x1000 4 0x1862A3AF).writeX 5 0x2000).writeX 6 0x55)
      (fun t => Memory.read t.mem 0x2000 == 0 && t.reservation == none && t.pc == 0x1004) = true := by decide

/-- 20_memory.md R98, and T45.7 of 96_test_vectors_more.md: an `sc.w` may succeed in either half of the bytes an `lr.d`
reserved, and not on a word beside the one an `lr.w` reserved; an `sc.d` not where an `lr.w` reserved its first half. -/
theorem test_sc_may_succeed :
    { State.reset with reservation := some { addr := 0x2000, size := 8 } }.mayStoreConditionally 0x2004 4 = true ∧
    { State.reset with reservation := some { addr := 0x2000, size := 4 } }.mayStoreConditionally 0x2004 4 = false ∧
    { State.reset with reservation := some { addr := 0x2000, size := 4 } }.mayStoreConditionally 0x2000 8 = false := by
  decide

/-- 70_reset_and_hazards.md R701: a reset clears the cause and the reservation, and not memory. -/
theorem test_reset_keeps_memory :
    (Memory.read (State.afterReset { State.reset.poke 0x2000 1 0xAB with mcause := 7, pc := 0x4000 }).mem 0x2000,
      (State.afterReset { State.reset with mcause := 7 }).mcause,
      (State.afterReset { State.reset with pc := 0x4000 }).pc) = (0xAB, 0, 0x1000) := by decide

/-- 60_exceptions.md R613: with TRAP_MODEL = environment an exception is handed over. -/
theorem test_environment_hands_over :
    step { start .rv64 0x1000 4 0x00000073 with cfg := { resetConfig with trapModel := .environment } } =
      .fault (.trapped .environmentCallFromU 0 0x1000) := by rfl

/-! ## Witnesses: for every statement with hypotheses, a state and operands that meet them -/

/-- A machine with the given map, misaligned accesses trapped. -/
def mapped (l : List Region) : State := { State.reset with cfg := { resetConfig with memMap := l } }

/-- A machine that emulates misaligned accesses. -/
def emulating (l : List Region) : State :=
  { State.reset with cfg := { resetConfig with misaligned := .emulate, memMap := l } }

/-- The eight bytes at 0x2000 and no others. -/
def eightBytes : Region := { wholeMemory with base := 0x2000, size := 8 }

/-- A machine without compressed instructions. -/
def noCompressed : State := { State.reset with cfg := { resetConfig with extC := false } }

/-- RV32 at reset. -/
def reset32 : State := { State.reset with cfg := { resetConfig with xlen := .rv32 } }

/-- FS is tracked and Initial. -/
def fsInitial : State :=
  { State.reset with
    cfg := { resetConfig with fsTracking := true }
    mstatus := { State.reset.mstatus with fs := 1#2 } }

/-- A machine with machine mode alone. -/
def bare : State := State.resetWith { resetConfig with privS := false, privU := false }

/-- A hart of the environment. -/
def hosted : State := { State.reset with cfg := { resetConfig with trapModel := .environment } }

/-- Platforms with and without a fixed initial `mtvec`; a machine whose memory holds a byte. -/
theorem witness_ResetLeavesSpecifiedValues : Config.wf resetConfig = true ∧
    (State.reset.poke 0x2000 1 0xAB).cfg = resetConfig ∧
    Config.wf { resetConfig with resGranule := 64, privS := false, privU := false } = true ∧
    Config.wf { resetConfig with xlen := .rv32, mtvecReset := some 0xFFFFFFFD } = true ∧
    Config.wf { resetConfig with mtvecReset := some 2 } = false ∧
    Config.wf { resetConfig with xlen := .rv32, resetVector := 0x100000000 } = false := by decide

theorem witness_RegisterZeroReadsZero : (31 : Reg) ≠ 0 ∧ (0 : Reg) ≠ 31 := by decide

theorem witness_MemoryWriteThenRead : Memory.wf [] = true ∧ Memory.wf [(0, 1), (0xFFFFFFFFFFFFFFFF, 255)] = true := by
  decide

theorem witness_MemoriesThatReadAlikeAreEqual : Memory.wf [(5, 1#8)] = true ∧
    ∀ a, Memory.read [(5, 1#8)] a = Memory.read [(5, 1#8)] a := ⟨by decide, fun _ => rfl⟩

/-- At the top of the address space the bytes wrap. -/
theorem witness_StoredBytesAreLoadedLittleEndian : Memory.wf State.reset.mem = true ∧
    MainMemory State.reset (0xFFFFFFFFFFFFFFFC#64).toNat 8 := by
  unfold MainMemory
  decide

theorem witness_WordEncodingRoundTrip : (Instr.slli 31 0 63).isPseudo = false ∧ (Instr.slli 31 0 63).isCompressed = false ∧
    (Instr.slli 31 0 63).wf = true ∧ (Instr.slli 31 0 63).available resetConfig = true := by decide

theorem witness_CompressedEncodingRoundTrip : (Instr.cLui 31 63).isCompressed = true ∧ (Instr.cLui 31 63).wf = true ∧
    (Instr.cLui 31 63).available resetConfig = true := by decide

theorem witness_PseudoinstructionsDecodeToExpansion : (Instr.li 31 0xFFFFFFFFFFFFFFFF).isPseudo = true ∧
    (Instr.li 31 0xFFFFFFFFFFFFFFFF).available resetConfig = true ∧ offsetHi 0x12345FFF#32 = 0x12346#20 ∧
    offsetLo 0x12345FFF#32 = 0xFFF#12 := by decide

theorem witness_DecodedParcelIsItsEncoding :
    decode resetConfig (.half 0x9082#16) = some (.cJalr 1) ∧ decode resetConfig (.word 0x006283B3#32) = some (.add 7 5 6) := by
  decide

/-- The timer interrupt is pending and enabled. -/
def interrupted : State :=
  { State.reset with
    mie := 0x080, mstatus := { State.reset.mstatus with mie := true }
    lines := { meip := false, mtip := true, msip := false, seip := false } }

theorem witness_StepRunsDecodedInstruction_interrupt : interrupted.sample.interrupt = some 7 := by decide

theorem witness_StepRunsDecodedInstruction_instruction :
    (start .rv64 0x1000 4 0x006283B3).sample.interrupt = none ∧
    (start .rv64 0x1000 4 0x006283B3).sample.fetch = .done (.word 0x006283B3#32) (start .rv64 0x1000 4 0x006283B3) ∧
    decode (start .rv64 0x1000 4 0x006283B3).cfg (.word 0x006283B3#32) = some (.add 7 5 6) :=
  ⟨by decide, by rfl, by decide⟩

theorem witness_StepRunsDecodedInstruction_illegal :
    State.reset.sample.interrupt = none ∧ State.reset.sample.fetch = .done (.half 0#16) State.reset ∧
    decode State.reset.cfg (.half 0#16) = none := ⟨by decide, by rfl, by decide⟩

theorem witness_StepRunsDecodedInstruction_fault :
    (mapped []).sample.interrupt = none ∧
    (mapped []).sample.fetch = .trap .instructionAccessFault 0x1000 (mapped []) := ⟨by decide, by rfl⟩

/-- The pc is misaligned: possible with no run, since EXT_C is absent and pc = 2. -/
theorem witness_FetchReadsTheParcelAtPc_misaligned :
    { noCompressed with pc := 2 }.pc.toNat < 2 ^ { noCompressed with pc := 2 }.xlen ∧
    { noCompressed with pc := 2 }.pc.toNat % { noCompressed with pc := 2 }.ialign ≠ 0 := by decide

theorem witness_FetchReadsTheParcelAtPc_invalid : (mapped []).pc.toNat < 2 ^ (mapped []).xlen ∧ (mapped []).pc.toNat % (mapped []).ialign = 0 ∧
    ¬(∀ j, j < 2 → byteValid (mapped []).cfg .fetch 2 ((mapped []).byteAt (mapped []).pc.toNat j) = true) := by decide

theorem witness_FetchReadsTheParcelAtPc_half : State.reset.pc.toNat % State.reset.ialign = 0 ∧
    (∀ j, j < 2 → byteValid State.reset.cfg .fetch 2 (State.reset.byteAt State.reset.pc.toNat j) = true) ∧
    MainMemory State.reset State.reset.pc.toNat 4 ∧ ¬StoredTo State.reset State.reset.pc.toNat 4 ∧
    State.reset.littleEndian State.reset.pc.toNat 2 % 4 ≠ 3 := by
  unfold MainMemory StoredTo
  decide

/-- Two stores since the last `fence.i` to the second byte of the parcel, the later of them to the first byte too; both
bytes were zero before. -/
def patched : State :=
  { State.reset with mem := [(0x1000, 0x13), (0x1001, 0x05)], storeLog := [[(0x1000, 0), (0x1001, 0x04)], [(0x1001, 0)]] }

/-- 20_memory.md R101: what a fetch of the halfword can give, and of a halfword that no store wrote to. -/
theorem witness_FetchReadsTheParcelAtPc_stored : patched.pc.toNat % patched.ialign = 0 ∧
    (∀ j, j < 2 → byteValid patched.cfg .fetch 2 (patched.byteAt patched.pc.toNat j) = true) ∧
    MainMemory patched patched.pc.toNat 4 ∧ StoredTo patched patched.pc.toNat 2 ∧
    ¬StoredTo patched (patched.pc.toNat + 2) 2 ∧
    (List.range 3).map (fun k => [patched.heldBefore k 0x1000, patched.heldBefore k 0x1001]) =
      [[0x13, 0x05], [0, 0x04], [0, 0]] := by
  unfold MainMemory StoredTo
  decide

theorem witness_FetchReadsTheParcelAtPc_word :
    (start .rv64 0xFFFFFFFFFFFFFFFE 4 0x006283B3).littleEndian 0xFFFFFFFFFFFFFFFE 2 % 4 = 3 ∧
    (∀ j, j < 4 → byteValid resetConfig .fetch 2
      ((start .rv64 0xFFFFFFFFFFFFFFFE 4 0x006283B3).byteAt 0xFFFFFFFFFFFFFFFE j) = true) := by decide

/-- The second halfword of the instruction does not exist. -/
theorem witness_FetchReadsTheParcelAtPc_cut :
    { start .rv64 0x2006 4 0x006283B3 with cfg := { resetConfig with memMap := [eightBytes] } }.littleEndian 0x2006 2 % 4 = 3 ∧
    (∀ j, j < 2 → byteValid { resetConfig with memMap := [eightBytes] } .fetch 2 (0x2006 + j) = true) ∧
    ¬(∀ j, j < 4 → byteValid { resetConfig with memMap := [eightBytes] } .fetch 2 (0x2006 + j) = true) := by decide

/-- A delegated supervisor timer interrupt in user mode. -/
def interruptedS : State := { State.reset with mideleg := 0x020, mie := 0x0A0, mipSoft := 0x020, priv := .user }

theorem witness_InterruptTakenHasHighestPriority :
    interrupted.interrupt = some 7 ∧ interruptedS.interrupt = some 5 := by decide

theorem witness_TrapEntryToMachineMode : ¬(State.reset.cfg.privS = true ∧ State.reset.priv ≠ .machine ∧
    State.reset.medeleg.getLsbD Exc.illegalInstruction.code = true) := by decide

/-- User mode with every delegable trap delegated. -/
def delegating : State := { State.reset with priv := .user, medeleg := 0xB7FF, mideleg := 0x222 }

theorem witness_TrapEntryToSupervisorMode : delegating.cfg.privS = true ∧ delegating.priv ≠ .machine ∧
    delegating.medeleg.getLsbD Exc.instructionAddressMisaligned.code = true ∧ delegating.mideleg.getLsbD 9 = true := by
  decide

theorem witness_RaiseEntersTrapOrHandsOver : State.reset.cfg.trapModel = .machine ∧ hosted.cfg.trapModel = .environment := by
  decide

/-- The invariant holds of the reset state and in user mode with delegation. -/
theorem inv_of_checks (s : State) (h : (Config.wf s.cfg && Memory.wf s.mem && targetAligned s.cfg s.pc &&
    s.cfg.xlen.wrap s.pc == s.pc && Config.hasMode s.cfg s.priv && Config.hasMode s.cfg s.mstatus.mpp &&
    s.mie &&& ~~~interruptBits s.cfg == 0 && !s.medeleg.getLsbD 11 && s.mideleg &&& 0x888#64 == 0) = true) : Inv s := by
  simp only [Bool.and_eq_true, beq_iff_eq, Bool.not_eq_true'] at h
  obtain ⟨⟨⟨⟨⟨⟨⟨⟨h1, h2⟩, h3⟩, h4⟩, h5⟩, h6⟩, h7⟩, h8⟩, h9⟩ := h
  exact ⟨h1, h2, h3, h4, ⟨h5, h6⟩, h7, h8, h9⟩

theorem witness_TrapThenReturnRestores : Inv State.reset ∧ State.reset.cfg.trapModel = .machine ∧
    State.reset.trapsToS (.exc .breakpoint) = false ∧
    Inv { delegating with medeleg := 0x3FF } ∧ { delegating with medeleg := 0x3FF }.trapsToS (.exc .breakpoint) = true :=
  ⟨inv_of_checks _ (by decide), by decide, by decide, inv_of_checks _ (by decide), by decide⟩

theorem witness_IntegerImmediateResults : (63 : BitVec 6).toNat < State.reset.xlen ∧ (31 : BitVec 6).toNat < reset32.xlen := by
  decide

theorem witness_IntegerWordResults : State.reset.cfg.xlen = .rv64 ∧ (31 : BitVec 6).toNat < 32 := by decide

theorem witness_MultiplyResults : State.reset.cfg.xlen = .rv64 := by decide

/-- x[6] = -1. -/
def minusOne : State := State.reset.writeX 6 0xFFFFFFFFFFFFFFFF

theorem witness_DivideResults : minusOne.ux 6 ≠ 0 ∧ minusOne.cfg.xlen = .rv64 ∧ minusOne.ux 6 % 2 ^ 32 ≠ 0 ∧
    minusOne.cfg.div = .standard ∧ minusOne.sx 5 ≠ -2 ^ (minusOne.xlen - 1) ∧ minusOne.sx 6 = -1 ∧
    minusOne.ux 5 % 2 ^ 32 ≠ 2 ^ 31 := by decide

theorem witness_DivisionCornerCases_zero : State.reset.cfg.div = .standard ∧ State.reset.ux 6 = 0 ∧
    State.reset.cfg.xlen = .rv64 ∧ State.reset.ux 6 % 2 ^ 32 = 0 := by decide

theorem witness_DivisionCornerCases_overflow : (minusOne.writeX 5 0x8000000000000000).cfg.div = .standard ∧
    (minusOne.writeX 5 0x8000000000000000).ux 5 = 2 ^ (minusOne.xlen - 1) ∧
    (minusOne.writeX 5 0x8000000000000000).ux 6 = 2 ^ minusOne.xlen - 1 := by decide

theorem witness_DivisionCornerCases_word : (minusOne.writeX 5 0x80000000).ux 5 % 2 ^ 32 = 2 ^ 31 ∧
    (minusOne.writeX 5 0x80000000).ux 6 % 2 ^ 32 = 2 ^ 32 - 1 ∧ (minusOne.writeX 5 0x80000000).cfg.xlen = .rv64 := by
  decide

/-- The farthest branch back, with an aligned target; `beq x0, x0` is taken and `bne x0, x0` is not. -/
theorem witness_BranchesFollowTheirCondition_aligned :
    modBits State.reset.xlen (State.reset.pc.toNat + 2 * (0x800#12).toInt) % State.reset.ialign = 0 ∧
    State.reset.ux 0 = State.reset.ux 0 ∧ ¬(State.reset.ux 0 ≠ State.reset.ux 0) := by decide

/-- Without EXT_C an offset of 2 gives a misaligned target. -/
theorem witness_BranchesFollowTheirCondition_misaligned :
    modBits noCompressed.xlen (noCompressed.pc.toNat + 2 * (1#12).toInt) % noCompressed.ialign ≠ 0 ∧
    noCompressed.ux 0 = noCompressed.ux 0 := by decide

theorem witness_JumpsLinkAndTransfer :
    modBits State.reset.xlen (State.reset.pc.toNat + 2 * (0x80000#20).toInt) % State.reset.ialign = 0 ∧
    State.reset.effective 0 (0x7FF#12).toInt / 2 * 2 % State.reset.ialign = 0 ∧
    modBits noCompressed.xlen (noCompressed.pc.toNat + 2 * (1#20).toInt) % noCompressed.ialign ≠ 0 ∧
    noCompressed.effective 0 (2#12).toInt / 2 * 2 % noCompressed.ialign ≠ 0 := by decide

/-- Loads and stores that complete: the last doubleword of the address space. -/
theorem witness_IntegerLoadsReadMemory_completes : State.reset.cfg.xlen = .rv64 ∧
    AlignmentOk State.reset (State.reset.effective 0 (0xFF8#12).toInt) 8 ∧
    BytesOk State.reset .load (State.reset.effective 0 (0xFF8#12).toInt) 8 ∧
    MainMemory State.reset (State.reset.effective 0 (0xFF8#12).toInt) 8 := by
  unfold AlignmentOk BytesOk MainMemory
  decide

theorem witness_IntegerLoadsReadMemory_traps :
    ¬AlignmentOk State.reset (State.reset.effective 0 (0x7FF#12).toInt) 2 ∧
    AlignmentOk (mapped []) ((mapped []).effective 0 (0x7F8#12).toInt) 8 ∧
    ¬BytesOk (mapped []) .load ((mapped []).effective 0 (0x7F8#12).toInt) 8 := by
  unfold AlignmentOk BytesOk
  decide

theorem witness_IntegerStoresWriteMemory : Memory.wf State.reset.mem = true ∧ State.reset.cfg.xlen = .rv64 ∧
    AlignmentOk State.reset (State.reset.effective 0 (0xFF8#12).toInt) 8 ∧
    BytesOk State.reset .store (State.reset.effective 0 (0xFF8#12).toInt) 8 ∧
    ¬AlignmentOk State.reset (State.reset.effective 0 (0x7FF#12).toInt) 2 ∧
    (mapped []).effective 0 (0x7F8#12).toInt % 8 = 0 ∧
    ¬BytesOk (mapped []) .store ((mapped []).effective 0 (0x7F8#12).toInt) 8 := by
  unfold AlignmentOk BytesOk
  decide

/-- An emulated store of four bytes whose last byte does not exist. -/
theorem witness_IntegerStoresWriteMemory_emulated : Memory.wf (emulating [eightBytes]).mem = true ∧
    ((emulating [eightBytes]).writeX 5 0x2005).effective 5 (0#12).toInt % 4 ≠ 0 ∧
    (emulating [eightBytes]).cfg.misaligned = .emulate ∧
    ¬BytesOk (emulating [eightBytes]) .store (((emulating [eightBytes]).writeX 5 0x2005).effective 5 (0#12).toInt) 4 := by
  unfold BytesOk
  decide

theorem witness_AtomicOperationsUpdateMemory : Memory.wf State.reset.mem = true ∧ State.reset.cfg.xlen = .rv64 ∧
    State.reset.ux 0 % 8 = 0 ∧ BytesOk State.reset .load (State.reset.ux 0) 8 ∧
    BytesOk State.reset .store (State.reset.ux 0) 8 ∧ MainMemory State.reset (State.reset.ux 0) 8 ∧
    minusOne.ux 6 % 4 ≠ 0 ∧ (mapped []).ux 0 % 4 = 0 ∧
    ¬(BytesOk (mapped []) .load ((mapped []).ux 0) 4 ∧ BytesOk (mapped []) .store ((mapped []).ux 0) 4) := by
  unfold BytesOk MainMemory
  decide

theorem witness_LoadReservedRegistersReservation : State.reset.cfg.xlen = .rv64 ∧ minusOne.ux 6 % 8 ≠ 0 ∧
    (mapped []).ux 0 % 8 = 0 ∧ ¬BytesOk (mapped []) .load ((mapped []).ux 0) 8 ∧
    BytesOk State.reset .load (State.reset.ux 0) 8 ∧ MainMemory State.reset (State.reset.ux 0) 8 := by
  unfold BytesOk MainMemory
  decide

theorem witness_StoreConditionalSucceedsOrFails : Memory.wf State.reset.mem = true ∧ State.reset.cfg.xlen = .rv64 ∧
    minusOne.ux 6 % 8 ≠ 0 ∧ (mapped []).ux 0 % 8 = 0 ∧ ¬BytesOk (mapped []) .store ((mapped []).ux 0) 8 ∧
    State.reset.ux 0 % 8 = 0 ∧ BytesOk State.reset .store (State.reset.ux 0) 8 := by
  unfold BytesOk
  decide

/-- A reservation of eight bytes, of which an `sc.w` at 4 stores the upper half. -/
theorem witness_StoreConditionalSucceedsOrFails_covered :
    ∀ k, k < 4 → ∃ j, j < 8 ∧ State.reset.byteAt 4 k = State.reset.byteAt (0 : Word).toNat j := by decide

/-- `mscratch` is accessible in machine mode and not in user mode; `cycle` is never writable. -/
theorem witness_CsrInstructionsSwapAndModify : State.reset.csrAccess 0x340#12 true = some .mscratch ∧
    (State.reset.inMode .user).csrAccess 0x340#12 true = none ∧ State.reset.csrAccess 0xC00#12 true = none ∧
    State.reset.csrAccess 0xC00#12 false = some .cycle := by decide

/-- No platform bits; both modes of a vector register and a reserved one; both widths; with and without supervisor mode;
FS tracked and not; MPP of an existing mode, and 10. -/
theorem witness_CsrReadsWhatItCanHold : State.reset.cfg.csrReadOnly = [] ∧ State.reset.cfg.csrOwnRule = [] ∧ (0xFFFFFFFFFFFFFFFD : Word).toNat % 4 < 2 ∧
    2 ≤ (0xFFFFFFFFFFFFFFFE : Word).toNat % 4 ∧ State.reset.cfg.xlen = .rv64 ∧ reset32.cfg.xlen = .rv32 ∧
    State.reset.cfg.privS = true ∧ bare.cfg.privS = false ∧ bare.cfg.csrReadOnly = [] ∧ bare.cfg.csrOwnRule = [] ∧
    (fsInitial.cfg.fsTracking = true ∧ fsInitial.cfg.extF = true) ∧
    ¬(State.reset.cfg.fsTracking = true ∧ State.reset.cfg.extF = true) ∧
    Config.hasMode State.reset.cfg .supervisor = true ∧
    (0x0800 : Word).toNat / 2 ^ 11 % 4 = modeNumber .supervisor ∧
    ∀ p, Config.hasMode State.reset.cfg p = true → (0x1000 : Word).toNat / 2 ^ 11 % 4 ≠ modeNumber p := by
  refine ⟨by decide, by decide, by decide, by decide, by decide, by decide, by decide, by decide, by decide, by decide,
    by decide, by decide, by decide, by decide, fun p => ?_⟩
  cases p <;> decide

theorem witness_FencesAndWaitsAdvance :
    (State.reset.cfg.trapModel = .machine ∧ State.reset.cfg.privS = true ∧ State.reset.priv ≠ .user) ∧
    ¬((State.reset.inMode .user).cfg.trapModel = .machine ∧ (State.reset.inMode .user).priv ≠ .user) ∧
    ¬(hosted.cfg.trapModel = .machine ∧ hosted.priv ≠ .user) := by decide

theorem witness_EnvironmentCallsAndBreakpointsTrap : State.reset.cfg.trapModel = .machine ∧
    State.reset.priv = .machine ∧ (State.reset.inMode .supervisor).priv = .supervisor ∧
    (State.reset.inMode .user).priv = .user := by decide

theorem witness_TrapReturnsRestoreTheMode : (State.reset.cfg.trapModel = .machine ∧ State.reset.priv = .machine) ∧
    ¬((State.reset.inMode .supervisor).cfg.trapModel = .machine ∧ (State.reset.inMode .supervisor).priv = .machine) ∧
    (State.reset.cfg.trapModel = .machine ∧ State.reset.cfg.privS = true ∧ State.reset.priv ≠ .user) ∧
    ¬((State.reset.inMode .user).cfg.trapModel = .machine ∧ (State.reset.inMode .user).cfg.privS = true ∧
      (State.reset.inMode .user).priv ≠ .user) := by decide

/-- A static mode and the dynamic one, with FS tracked and not. -/
theorem witness_SingleArithmeticCompletes : FloatOn State.reset ∧ FloatOn fsInitial ∧
    SelectsRounding State.reset 4#3 .rmm ∧ SelectsRounding State.reset 7#3 .rne ∧ State.reset.cfg.xlen = .rv64 ∧
    State.reset.cfg.extD = true := by
  refine ⟨?_, ?_, ⟨_, rfl, by decide⟩, ⟨_, rfl, by decide⟩, by decide, by decide⟩
  · unfold FloatOn; decide
  · unfold FloatOn; decide

theorem witness_DoubleArithmeticCompletes : State.reset.cfg.extD = true ∧ State.reset.cfg.xlen = .rv64 ∧
    FloatOn fsInitial ∧ SelectsRounding fsInitial 0#3 .rne := by
  refine ⟨by decide, by decide, ?_, ⟨_, rfl, by decide⟩⟩
  unfold FloatOn
  decide

theorem witness_FloatToIntegerCompletes : FloatOn State.reset ∧ SelectsRounding State.reset 1#3 .rtz ∧
    State.reset.cfg.extD = true ∧ State.reset.cfg.xlen = .rv64 := by
  refine ⟨?_, ⟨_, rfl, by decide⟩, by decide, by decide⟩
  unfold FloatOn
  decide

/-- Zero, one and the largest single, and a double to convert; a divisor that is not zero, the square root of -0, and the
bounds of the integers. -/
theorem witness_ArithmeticIsCorrectlyRounded : FpRecord.standard.uninterpreted = [] ∧
    IsFinite 8 23 0x80000000 ∧ IsFinite 8 23 0x3F800000 ∧ IsFinite 8 23 0x7F7FFFFF ∧ IsFinite 11 52 0x3FF0000000000001 ∧
    ¬DatumIsZero 8 23 0x3F800000 ∧ 0 ≤ realOf 8 23 0x80000000 ∧ (-2 ^ 63 : Int) ≤ 2 ^ 64 - 1 ∧
    (-2 ^ 63 : Int) < 2 ^ 64 := by
  refine ⟨rfl, by unfold IsFinite; decide, by unfold IsFinite; decide, by unfold IsFinite; decide,
    by unfold IsFinite; decide, by decide, ?_, by decide, by decide⟩
  unfold realOf
  norm_num

/-- The other order of the formats. -/
theorem witness_ArithmeticIsCorrectlyRounded_double :
    IsFinite 11 52 0x8000000000000000 ∧ IsFinite 11 52 0xFFEFFFFFFFFFFFFF ∧ IsFinite 8 23 0x00000001 ∧
    ¬DatumIsZero 11 52 0xFFEFFFFFFFFFFFFF := by
  refine ⟨by unfold IsFinite; decide, by unfold IsFinite; decide, by unfold IsFinite; decide, by decide⟩

/-- 46_float_single.md R352 (e), R353: the sign of an exact zero, overflow, and underflow, for both kinds of tininess. -/
theorem test_rounding_corners :
    fAdd (Fmt.single .standard) .rdn true 0x3F800000 0x3F800000 = (0x80000000, 0) ∧
    fMul (Fmt.single .standard) .rup 0xFF7FFFFF 0x40000000 = (0xFF7FFFFF, 0x05) ∧
    fMul (Fmt.single .standard) .rne 0x00000001 0x3F000000 = (0x00000000, 0x03) ∧
    fConvert (Fmt.double .standard) (Fmt.single .standard) .rne 0x380FFFFFF0000000 = (0x00800000, 0x01) ∧
    fConvert (Fmt.double .standard) (Fmt.single { FpRecord.standard with tininess := .beforeRounding }) .rne
      0x380FFFFFF0000000 = (0x00800000, 0x03) := by decide

/-- A NaN, both infinities, and finite data whose rounding is inside and above the range. -/
theorem witness_FloatToIntegerRoundsOrSaturates : FloatOp.toInteger ∉ FpRecord.standard.uninterpreted ∧ IsFinite 8 23 0x3FC00000 ∧ IsFinite 8 23 0x7F7FFFFF ∧
    DatumIsNaN 8 23 0x7F800001 ∧ DatumIsInfinite 8 23 0x7F800000 ∧ DatumIsInfinite 8 23 0xFF800000 ∧
    DatumIsNegative 8 23 0xFF800000 ∧ 0xFF800000 < 2 ^ (1 + 8 + 23) ∧ (-2 ^ 31 : Int) ≤ 2 ^ 31 - 1 ∧
    fToInt (Fmt.single .standard) .rne (-2 ^ 31) (2 ^ 31 - 1) 0x3FC00000 = (2, flagNX) ∧
    fToInt (Fmt.single .standard) .rne (-2 ^ 31) (2 ^ 31 - 1) 0x7F7FFFFF = (2 ^ 31 - 1, flagNV) := by
  refine ⟨by decide, by unfold IsFinite; decide, by unfold IsFinite; decide, by decide, by decide, by decide, by decide,
    by decide, by decide, by decide, by decide⟩

/-- A signaling NaN, both infinities, a zero, a number and negative numbers, in single precision; fused signs that differ
and agree. -/
theorem witness_NaNsAndInvalidOperations : FpRecord.standard.nan = .canonical ∧ FpRecord.standard.uninterpreted = [] ∧
    0x7F800001 < 2 ^ (1 + 8 + 23) ∧ DatumIsNaN 8 23 0x7F800001 ∧ DatumIsSignaling 8 23 0x7F800001 ∧
    DatumIsInfinite 8 23 0x7F800000 ∧ DatumIsInfinite 8 23 0xFF800000 ∧ ¬DatumIsNegative 8 23 0x7F800000 ∧
    DatumIsZero 8 23 0x80000000 ∧ ¬DatumIsNaN 8 23 0x3F800000 ∧ ¬DatumIsZero 8 23 0x3F800000 ∧
    ¬DatumIsInfinite 8 23 0x3F800000 ∧ IsFinite 8 23 0x3F800000 ∧ IsFinite 8 23 0x80000000 ∧
    (DatumIsNegative 8 23 0xFF800000 ∧ ¬DatumIsZero 8 23 0xFF800000 ∧ ¬DatumIsNaN 8 23 0xFF800000) ∧
    (DatumIsNegative 8 23 0x80000001 ∧ ¬DatumIsZero 8 23 0x80000001 ∧ ¬DatumIsNaN 8 23 0x80000001) ∧
    (negativeOf 8 23 0x7F800000 ^^ negativeOf 8 23 0x3F800000) ≠ negativeOf 8 23 0xFF800000 ∧
    DatumIsNaN 11 52 0x7FF0000000000001 ∧ DatumIsInfinite 11 52 0xFFF0000000000000 := by
  unfold IsFinite
  decide

theorem witness_FloatComparisonsOrderData : FloatOn State.reset ∧ State.reset.cfg.extD = true ∧
    (∀ op ∈ [FloatOp.eq, .lt, .le], op ∉ State.reset.cfg.fp.uninterpreted) ∧
    (Instr.feqS 1 2 3 = .feqS 1 2 3 ∧ Instr.fltS 1 2 3 = .fltS 1 2 3 ∧ Instr.fleS 1 2 3 = .fleS 1 2 3) ∧
    (Instr.feqD 1 2 3 = .feqD 1 2 3 ∧ Instr.fltD 1 2 3 = .fltD 1 2 3 ∧ Instr.fleD 1 2 3 = .fleD 1 2 3) := by
  refine ⟨?_, by decide, by decide, ⟨rfl, rfl, rfl⟩, ⟨rfl, rfl, rfl⟩⟩
  unfold FloatOn
  decide

theorem witness_MinMaxAndSignInjection : FloatOn fsInitial ∧ fsInitial.cfg.extD = true ∧ fsInitial.cfg.fp = .standard ∧
    (∀ op ∈ [FloatOp.min, .max], op ∉ fsInitial.cfg.fp.uninterpreted) ∧
    (Instr.fminS 1 2 3 = .fminS 1 2 3 ∧ boxedSingle fsInitial.cfg = boxedSingle fsInitial.cfg) ∧
    Instr.fminD 1 2 3 = .fminD 1 2 3 := by
  refine ⟨?_, by decide, by decide, by decide, ⟨rfl, rfl⟩, rfl⟩
  unfold FloatOn
  decide

theorem witness_FloatMovesAndClasses : FloatOn State.reset ∧ State.reset.cfg.extD = true ∧ State.reset.cfg.xlen = .rv64 := by
  unfold FloatOn
  decide

theorem witness_FloatLoadsAndStores : Memory.wf fsInitial.mem = true ∧ FloatOn fsInitial ∧ fsInitial.cfg.extD = true ∧
    AlignmentOk fsInitial (fsInitial.effective 2 (8 * (63#6).toNat)) 8 ∧
    BytesOk fsInitial .load (fsInitial.effective 2 (8 * (63#6).toNat)) 8 ∧
    BytesOk fsInitial .store (fsInitial.effective 2 (8 * (63#6).toNat)) 8 ∧
    MainMemory fsInitial (fsInitial.effective 2 (8 * (63#6).toNat)) 8 ∧
    ¬AlignmentOk fsInitial (fsInitial.effective 0 (0x7FE#12).toInt) 4 := by
  unfold FloatOn AlignmentOk BytesOk MainMemory
  decide

/-- A reserved static mode, a reserved dynamic one, and FS Off. -/
theorem witness_IllegalRoundingModesTrap :
    (¬∃ r, SelectsRounding State.reset 5#3 r) ∧ (¬∃ r, SelectsRounding { State.reset with frm := 5#3 } 7#3 r) ∧
    ¬FloatOn { fsInitial with mstatus := State.reset.mstatus } := by
  refine ⟨?_, ?_, by unfold FloatOn; decide⟩
  · rintro ⟨r, m, rfl, h⟩
    revert h
    cases r <;> decide
  · rintro ⟨r, m, rfl, h⟩
    revert h
    cases r <;> decide

theorem witness_CompressedComputation : (63 : BitVec 6).toNat < State.reset.xlen ∧ (31 : BitVec 6).toNat < reset32.xlen ∧
    State.reset.cfg.xlen = .rv64 := by decide

theorem witness_CompressedLoadsAndStores : Memory.wf State.reset.mem = true ∧ State.reset.cfg.xlen = .rv64 ∧
    AlignmentOk State.reset (State.reset.effective 2 (8 * (63#6).toNat)) 8 ∧
    BytesOk State.reset .load (State.reset.effective 2 (8 * (63#6).toNat)) 8 ∧
    BytesOk State.reset .store (State.reset.effective 2 (8 * (63#6).toNat)) 8 ∧
    AlignmentOk State.reset (State.reset.effective (shortReg 7) (4 * (31#5).toNat)) 4 := by
  unfold AlignmentOk BytesOk
  decide

theorem witness_CompressedControlTransfer :
    modBits State.reset.xlen (State.reset.pc.toNat + 2 * (0x80#8).toInt) % State.reset.ialign = 0 ∧
    modBits State.reset.xlen (State.reset.pc.toNat + 2 * (0x3FF#11).toInt) % State.reset.ialign = 0 ∧
    State.reset.ux (shortReg 0) = 0 ∧ minusOne.ux 6 / 2 * 2 % minusOne.ialign = 0 := by decide

theorem witness_PseudoComputation : State.reset.cfg.xlen = .rv64 ∧ FloatOn State.reset ∧ State.reset.cfg.extD = true := by
  unfold FloatOn
  decide

theorem witness_LoadImmediateLoadsTheImmediate : (liOps .rv64 0xDEADBEEFCAFEBABE).length = 8 ∧
    (liOps .rv32 0xFFFFFFFFFFFFFFFF).length = 1 := by decide

/-- Both ends of the reach on RV64, and an offset outside it on RV32; the word at the lowest symbol can be loaded, the one
at the highest is misaligned. -/
theorem witness_LoadAddressReachesTheSymbol : PairReaches State.reset 0x7FFFF800#32 (-2 ^ 31 - 2 ^ 11) ∧
    PairReaches State.reset 0x7FFFF7FF#32 (2 ^ 31 - 2 ^ 11 - 1) ∧ PairReaches reset32 0x80000000#32 (2 ^ 31) ∧
    AlignmentOk State.reset (modBits State.reset.xlen (State.reset.pc.toNat + (-2 ^ 31 - 2 ^ 11))) (State.reset.xlen / 8) ∧
    BytesOk State.reset .load (modBits State.reset.xlen (State.reset.pc.toNat + (-2 ^ 31 - 2 ^ 11))) (State.reset.xlen / 8) ∧
    MainMemory State.reset (modBits State.reset.xlen (State.reset.pc.toNat + (-2 ^ 31 - 2 ^ 11))) (State.reset.xlen / 8) ∧
    ¬AlignmentOk State.reset (modBits State.reset.xlen (State.reset.pc.toNat + (2 ^ 31 - 2 ^ 11 - 1)))
      (State.reset.xlen / 8) := by
  unfold PairReaches AlignmentOk BytesOk MainMemory
  decide

theorem witness_PseudoControlTransfer :
    modBits State.reset.xlen (State.reset.pc.toNat + 2 * (0x7FF#12).toInt) % State.reset.ialign = 0 ∧
    State.reset.ux 0 = 0 ∧ minusOne.sx 6 < 0 := by decide

/-- Both ends of the reach of `call` and `tail` on RV64, with compressed instructions, and a misaligned target without. -/
theorem witness_PseudoControlTransfer_pair : PairReaches State.reset 0x7FFFF800#32 (-2 ^ 31 - 2 ^ 11) ∧
    PairReaches State.reset 0x7FFFF7FF#32 (2 ^ 31 - 2 ^ 11 - 1) ∧
    modBits State.reset.xlen (State.reset.pc.toNat + (-2 ^ 31 - 2 ^ 11)) / 2 * 2 % State.reset.ialign = 0 ∧
    modBits State.reset.xlen (State.reset.pc.toNat + (2 ^ 31 - 2 ^ 11 - 1)) / 2 * 2 % State.reset.ialign = 0 ∧
    PairReaches noCompressed 0x7FFFF7FE#32 (2 ^ 31 - 2 ^ 11 - 2) ∧
    modBits noCompressed.xlen (noCompressed.pc.toNat + (2 ^ 31 - 2 ^ 11 - 2)) / 2 * 2 % noCompressed.ialign ≠ 0 ∧
    modBits noCompressed.xlen (offsetLo 0x7FFFF7FE#32).toInt / 2 * 2 % noCompressed.ialign ≠ 0 := by
  unfold PairReaches
  decide

/-- `fcsr` in user mode, `cycle` in machine mode, `cycleh` on RV64. -/
theorem witness_PseudoCsrAccess : (State.reset.inMode .user).csrAccess 0x003#12 true = some .fcsr ∧
    State.reset.csrAccess 0xC00#12 false = some .cycle ∧ State.reset.csrAccess 0xC80#12 false = none ∧
    reset32.csrAccess 0xC80#12 false = some .cycleh := by decide

theorem witness_InvariantHoldsAtReset : Inv State.reset ∧ Config.wf resetConfig = true ∧
    Config.wf { resetConfig with xlen := .rv32, resetVector := 0xFFFFFFFC, mtvecReset := some 0x80000001 } = true :=
  ⟨inv_of_checks _ (by decide), by decide⟩

theorem witness_StepKeepsInvariant : Inv State.reset ∧ ∃ t, step State.reset = .next t :=
  ⟨inv_of_checks _ (by decide), _, rfl⟩

theorem witness_UserModeIsConfined : ((start .rv64 0x1000 4 0x00000013).inMode .user).priv = .user ∧
    (∃ t, step ((start .rv64 0x1000 4 0x00000013).inMode .user) = .next t) ∧
    ∃ t, step ((start .rv64 0x1000 4 0x00000073).inMode .user) = .next t := ⟨by decide, ⟨_, rfl⟩, _, rfl⟩

theorem witness_OnlyTrapsAndReturnsChangeMode :
    (∃ t, step (start .rv64 0x1000 4 0x30200073) = .next t ∧ t.priv ≠ .machine) ∧
    ∃ t, step ((start .rv64 0x1000 4 0x00000073).inMode .user) = .next t ∧ t.priv ≠ .user :=
  ⟨⟨_, rfl, by decide⟩, _, rfl, by decide⟩

end Sys2Proof.Tests
end

/-! ## What a step does (00_scope.md R15; 60_exceptions.md R630) -/

namespace Sys2Proof.Machine

open Sys2Proof

/-! ### A fetch changes nothing but the count of free values -/

theorem State.fetchHalf_state (s : State) (a : Word) : ∃ d, (s.fetchHalf a).2 = { s with draws := d } := by
  unfold State.fetchHalf
  dsimp only
  split
  · exact ⟨_, rfl⟩
  · split <;> exact ⟨_, rfl⟩

/-- All that a fetch can do: give a parcel, or trap for the address in `pc` (20_memory.md R83). -/
theorem State.fetch_cases (s : State) : ∃ d,
    (∃ p, s.fetch = .done p { s with draws := d }) ∨
    s.fetch = .trap .instructionAddressMisaligned s.pc { s with draws := d } ∨
    s.fetch = .trap .instructionAccessFault s.pc { s with draws := d } := by
  obtain ⟨d, hlo⟩ := s.fetchHalf_state s.pc
  obtain ⟨e, hhi⟩ : ∃ e, ((s.fetchHalf s.pc).2.fetchHalf (s.cfg.xlen.wrap (s.pc + 2))).2 = { s with draws := e } := by
    rw [hlo]
    exact State.fetchHalf_state _ _
  unfold State.fetch
  dsimp only
  rw [hhi, hlo]
  generalize (if s.cfg.extC then 2 else 4) = ialign
  split
  · exact ⟨s.draws, .inr (.inl rfl)⟩
  split
  · exact ⟨s.draws, .inr (.inr rfl)⟩
  split
  · exact ⟨d, .inl ⟨_, rfl⟩⟩
  split
  · exact ⟨d, .inr (.inr rfl)⟩
  · exact ⟨e, .inl ⟨_, rfl⟩⟩

theorem State.fetch_done_state {s t : State} {p : Parcel} (h : s.fetch = .done p t) :
    ∃ d, t = { s with draws := d } := by
  obtain ⟨d, ⟨q, hq⟩ | hmis | hacc⟩ := s.fetch_cases
  · cases hq.symm.trans h
    exact ⟨d, rfl⟩
  · cases hmis.symm.trans h
  · cases hacc.symm.trans h

theorem State.fetch_done_cfg {s t : State} {p : Parcel} (h : s.fetch = .done p t) : t.cfg = s.cfg := by
  obtain ⟨d, rfl⟩ := State.fetch_done_state h
  rfl

/-! ### The equations of a step -/

theorem runParcel_of_decode_some {p : Parcel} {s : State} {i : Instr} (h : decode s.cfg p = some i) :
    runParcel p s = exec i s := by
  rw [runParcel, h]

theorem runParcel_of_decode_none {p : Parcel} {s : State} (h : decode s.cfg p = none) :
    runParcel p s = raise .illegalInstruction p.bits s := by
  rw [runParcel, h]

theorem runInstruction_of_fetch_done {s t : State} {p : Parcel} (h : s.fetch = .done p t) :
    runInstruction s = runParcel p t := by
  rw [runInstruction, h, Access.andThen]

theorem runInstruction_of_fetch_trap {s t : State} {e : Exc} {a : Word} (h : s.fetch = .trap e a t) :
    runInstruction s = raise e a t := by
  rw [runInstruction, h, Access.andThen]

theorem step_of_interrupt {s : State} {n : Nat} (h : s.sample.interrupt = some n) :
    step s = .next (s.sample.takeTrap (.irq n) 0) := by
  rw [step, h]

theorem step_of_no_interrupt {s : State} (h : s.sample.interrupt = none) : step s = runInstruction s.sample := by
  rw [step, h]

/-- Sampling the lines and fetching leave the configuration alone, so the parcel is decoded under that of `s`. -/
theorem step_of_fetch_done {s t : State} {p : Parcel} (hint : s.sample.interrupt = none)
    (hf : s.sample.fetch = .done p t) : step s = runParcel p t ∧ t.cfg = s.cfg := by
  have hcfg : t.cfg = s.cfg := (State.fetch_done_cfg hf).trans s.sample_cfg
  exact ⟨(step_of_no_interrupt hint).trans (runInstruction_of_fetch_done hf), hcfg⟩

/-- Settles O11, clause by clause from the equations of a step. -/
theorem stepRunsDecodedInstruction : Obligations.StepRunsDecodedInstruction := by
  intro s
  refine ⟨fun n => step_of_interrupt, fun hint => ⟨fun p t i hf hd => ?_, fun p t hf hd => ?_, fun e a t hf => ?_⟩⟩
  · obtain ⟨hstep, hcfg⟩ := step_of_fetch_done hint hf
    rw [hstep, runParcel_of_decode_some (by rw [hcfg, hd])]
  · obtain ⟨hstep, hcfg⟩ := step_of_fetch_done hint hf
    rw [hstep, runParcel_of_decode_none (by rw [hcfg, hd])]
  · rw [step_of_no_interrupt hint, runInstruction_of_fetch_trap hf]

end Sys2Proof.Machine

/-! ## Bits of registers -/

namespace Sys2Proof.Machine

open Sys2Proof

/-- Clearing the k low bits rounds down to a multiple of 2^k. -/
theorem toNat_clearLow (v : Word) (k : Nat) :
    (v &&& ~~~(BitVec.ofNat 64 (2 ^ k - 1))).toNat = v.toNat / 2 ^ k * 2 ^ k := by
  apply Nat.eq_of_testBit_eq
  intro i
  rw [BitVec.testBit_toNat, BitVec.getLsbD_and, BitVec.getLsbD_not, BitVec.getLsbD_ofNat, Nat.testBit_two_pow_sub_one,
    ← Nat.shiftRight_eq_div_pow, ← Nat.shiftLeft_eq, Nat.testBit_shiftLeft, Nat.testBit_shiftRight, BitVec.testBit_toNat]
  by_cases hi : i < 64
  · by_cases hk : k ≤ i
    · simp [hi, hk]
    · simp [hi, hk, Nat.lt_of_not_le hk]
  · by_cases hk : k ≤ i
    · simp [hi, hk, BitVec.getLsbD_of_ge v i (Nat.le_of_not_lt hi)]
    · simp [hi, hk]

theorem toNat_clearTwo (v : Word) : (v &&& ~~~(3#64)).toNat = v.toNat / 4 * 4 := toNat_clearLow v 2

theorem toNat_clearOne (v : Word) : (v &&& ~~~(1#64)).toNat = v.toNat / 2 * 2 := toNat_clearLow v 1

/-- Two numbers have no bit in common. -/
theorem and_eq_zero_iff {w : Nat} (x m : BitVec w) :
    x &&& m = 0 ↔ ∀ k, m.getLsbD k = true → x.getLsbD k = false := by
  constructor
  · intro h k hk
    have hbit : (x &&& m).getLsbD k = false := by rw [h]; exact BitVec.getLsbD_zero
    rwa [BitVec.getLsbD_and, hk, Bool.and_true] at hbit
  · intro h
    apply BitVec.eq_of_getLsbD_eq
    intro k _
    rw [BitVec.getLsbD_and]
    cases hk : m.getLsbD k
    · simp
    · simp [h k hk]

/-- The bits of a register are known from those below its width, where p holds of no other place. -/
theorem getLsbD_iff_of_lt {w : Nat} {m : BitVec w} {p : Nat → Prop} (hlow : ∀ k < w, m.getLsbD k = true ↔ p k)
    (hp : ∀ k, p k → k < w) (k : Nat) : m.getLsbD k = true ↔ p k := by
  by_cases hk : k < w
  · exact hlow k hk
  · rw [BitVec.getLsbD_of_ge _ k (Nat.le_of_not_lt hk)]
    exact ⟨fun h => Bool.noConfusion h, fun h => absurd (hp k h) hk⟩

theorem getLsbD_mergeBits (old v m : BitVec 12) (k : Nat) :
    (mergeBits old v m).getLsbD k = if m.getLsbD k then v.getLsbD k else old.getLsbD k := by
  unfold mergeBits
  rw [BitVec.getLsbD_or, BitVec.getLsbD_and, BitVec.getLsbD_and, BitVec.getLsbD_not]
  by_cases hk : k < 12
  · cases m.getLsbD k <;> simp [hk]
  · simp [BitVec.getLsbD_of_ge _ k (Nat.le_of_not_lt hk)]

theorem Xlen.getLsbD_wrap (xl : Xlen) (v : Word) (k : Nat) :
    (xl.wrap v).getLsbD k = (decide (k < xl.bits) && v.getLsbD k) := by
  cases xl
  · simp only [Xlen.wrap, Xlen.bits, BitVec.getLsbD_setWidth]
    by_cases hk : k < 32
    · simp [hk, Nat.lt_trans hk (show 32 < 64 by decide)]
    · simp [hk]
  · simp only [Xlen.wrap, Xlen.bits]
    by_cases hk : k < 64
    · simp [hk]
    · simp [hk, BitVec.getLsbD_of_ge v k (Nat.le_of_not_lt hk)]

end Sys2Proof.Machine

/-! ## x registers (10_state.md R30, R31) -/

namespace Sys2Proof.Machine

open Sys2Proof

/-- Settles O2, by what a register reads after a write. -/
theorem registerZeroReadsZero : Obligations.RegisterZeroReadsZero := by
  intro s r q v
  refine ⟨State.readX_zero s, State.writeX_zero s v, fun hr => ?_, fun hqr => ?_⟩
  · rw [State.ux, State.readX_writeX, if_neg hr, if_pos rfl, Xlen.wrap_toNat, State.xlen]
  · rw [State.readX_writeX, if_neg hqr]
    split
    · next hq => rw [hq, State.readX_zero]
    · rfl

end Sys2Proof.Machine

/-! ## Counters (10_state.md R44 to R46, R60) -/

namespace Sys2Proof.Machine

open Sys2Proof

theorem le_advanceCounter (v : Word) (by' : Nat) : v.toNat ≤ (advanceCounter v by').toNat := by
  have hv := v.isLt
  have hstep : by' % (2 ^ 64 - v.toNat) < 2 ^ 64 - v.toNat := Nat.mod_lt _ (by omega)
  rw [advanceCounter, BitVec.toNat_ofNat, Nat.mod_eq_of_lt (by omega)]
  exact Nat.le_add_right _ _

theorem State.mcycle_le_tickCycle (s : State) : s.mcycle.toNat ≤ s.tickCycle.mcycle.toNat := le_advanceCounter _ _

theorem State.time_le_tickTime (s : State) : s.time.toNat ≤ s.tickTime.time.toNat := le_advanceCounter _ _

theorem highHalf_toNat (v : Word) : (highHalf v).toNat = v.toNat / 2 ^ 32 := by
  rw [highHalf, BitVec.toNat_ushiftRight, Nat.shiftRight_eq_div_pow]

/-- Settles O34: a read of a counter that moves ticks it, and shows the low XLEN bits or the high half. -/
theorem countersDoNotDecrease : Obligations.CountersDoNotDecrease := by
  intro s
  refine ⟨?cycleMoves, ?timeMoves, ?cycleLow, ?cycleHigh, Xlen.wrap_toNat _ _, highHalf_toNat _, ?instretLow,
    ?instretHigh, ?instretStays⟩
  case cycleMoves =>
    intro c hc
    fin_cases hc <;> exact ⟨s.mcycle_le_tickCycle, rfl⟩
  case timeMoves =>
    intro c hc
    fin_cases hc <;> exact ⟨s.time_le_tickTime, rfl⟩
  case cycleLow =>
    intro c hc
    fin_cases hc <;> exact Xlen.wrap_toNat _ _
  case cycleHigh =>
    intro c hc
    fin_cases hc <;> exact highHalf_toNat _
  case instretLow =>
    intro c hc
    fin_cases hc <;> exact Xlen.wrap_toNat _ _
  case instretHigh =>
    intro c hc
    fin_cases hc <;> exact highHalf_toNat _
  case instretStays =>
    intro c hc
    fin_cases hc <;> rfl

end Sys2Proof.Machine

/-! ## What the CSRs read as (10_state.md R40 to R60) -/

namespace Sys2Proof.Machine

open Sys2Proof

/-! ### Registers made of fields -/

/-- The register x has bits of the mask m alone, and is the number a. -/
structure Shows (x m : Word) (a : Nat) : Prop where
  within : ∀ k, x.getLsbD k = true → m.getLsbD k = true
  value : x.toNat = a

/-- Fields in different places add up. -/
theorem Shows.or {x y m n : Word} {a b : Nat} (hx : Shows x m a) (hy : Shows y n b) (hmn : m &&& n = 0) :
    Shows (x ||| y) (m ||| n) (a + b) where
  within k hk := by
    rw [BitVec.getLsbD_or, Bool.or_eq_true] at *
    exact hk.imp (hx.within k) (hy.within k)
  value := by
    have hdisjoint : x &&& y = 0 := (and_eq_zero_iff x y).mpr fun k hk => by
      have hm := (and_eq_zero_iff m n).mp hmn k (hy.within k hk)
      exact Bool.eq_false_iff.mpr fun hxk => Bool.eq_false_iff.mp hm (hx.within k hxk)
    rw [← BitVec.add_eq_or_of_and_eq_zero x y hdisjoint, BitVec.toNat_add_of_and_eq_zero hdisjoint, hx.value, hy.value]

theorem Shows.le {x m : Word} {a : Nat} (h : Shows x m a) : a ≤ m.toNat := by
  have hsplit : x = m &&& x := by
    apply BitVec.eq_of_getLsbD_eq
    intro k _
    rw [BitVec.getLsbD_and]
    cases hk : x.getLsbD k
    · simp
    · simp [h.within k hk]
  rw [← h.value, hsplit, BitVec.toNat_and]
  exact Nat.and_le_left

theorem shows_bitAt (b : Bool) {k : Nat} (hk : k < 64) : Shows (bitAt b k) (1#64 <<< k) (field b (2 ^ k)) := by
  have hlt : 2 ^ k < 2 ^ 64 := Nat.pow_lt_pow_right (by decide) hk
  cases b
  · exact ⟨fun k hk => by simp [bitAt] at hk, rfl⟩
  · refine ⟨fun _ => id, ?_⟩
    show (1#64 <<< k).toNat = 2 ^ k
    rw [BitVec.toNat_shiftLeft, Nat.shiftLeft_eq]
    rw [show (1#64).toNat = 1 from rfl, Nat.one_mul, Nat.mod_eq_of_lt hlt]

/-- A one-bit field added at a free place. -/
theorem Shows.orBit {x m : Word} {a : Nat} (h : Shows x m a) (b : Bool) (k : Nat) (hk : k < 64 := by decide)
    (hm : m &&& 1#64 <<< k = 0 := by decide) : Shows (x ||| bitAt b k) (m ||| 1#64 <<< k) (a + field b (2 ^ k)) :=
  h.or (shows_bitAt b hk) hm

/-- The mask of a field that RV64 alone has. -/
def rv64Only (xl : Xlen) (m : Word) : Word :=
  match xl with
  | .rv32 => 0
  | .rv64 => m

/-- A constant field that is there on RV64 in some configurations. -/
theorem shows_rv64Only (xl : Xlen) (b : Bool) (m : Word) :
    Shows (if xl == .rv64 && b then m else 0) (rv64Only xl m) (field (xl == .rv64 && b) m.toNat) := by
  cases xl
  · exact ⟨fun _ => id, rfl⟩
  · cases b
    · exact ⟨fun k hk => by simp at hk, rfl⟩
    · exact ⟨fun _ => id, rfl⟩

/-- A field of two bits. -/
theorem shows_twoBits (v : BitVec 2) {k : Nat} (hk : k < 63) :
    Shows (v.setWidth 64 <<< k) (3#64 <<< k) (v.toNat * 2 ^ k) where
  within i hi := by
    have hones : 3#64 = (BitVec.allOnes 2).setWidth 64 := rfl
    rw [hones]
    simp only [BitVec.getLsbD_shiftLeft, BitVec.getLsbD_setWidth, BitVec.getLsbD_allOnes, Bool.and_eq_true] at *
    obtain ⟨hplace, hlow, hbit⟩ := hi
    exact ⟨hplace, hlow, decide_eq_true (BitVec.lt_of_getLsbD hbit)⟩
  value := by
    have hv := v.isLt
    have hpow : 2 ^ k ≤ 2 ^ 62 := Nat.pow_le_pow_right (by decide) (by omega)
    have hlt : v.toNat * 2 ^ k < 2 ^ 64 := by nlinarith
    rw [BitVec.toNat_shiftLeft, BitVec.toNat_setWidth, Nat.shiftLeft_eq, Nat.mod_eq_of_lt (show v.toNat < 2 ^ 64 by omega),
      Nat.mod_eq_of_lt hlt]

theorem State.fsField_toNat (s : State) : s.fsField.toNat = s.fsNumber := by
  unfold State.fsField State.fsNumber Config.hasFs
  simp only [Bool.and_eq_true]
  split <;> rfl

/-- The mask of the fields of `sstatus`. -/
def sstatusMask (xl : Xlen) : Word :=
  (1#64 <<< 1 ||| 1#64 <<< 5 ||| 1#64 <<< 8) ||| 3#64 <<< 13 ||| 1#64 <<< (xl.bits - 1) ||| rv64Only xl (2#64 <<< 32)

/-- SIE, SPIE and SPP, which exist with PRIV_S. -/
theorem State.shows_supervisorFields (s : State) :
    Shows (if s.cfg.privS then bitAt s.mstatus.sie 1 ||| bitAt s.mstatus.spie 5 ||| bitAt s.mstatus.spp 8 else 0)
      (1#64 <<< 1 ||| 1#64 <<< 5 ||| 1#64 <<< 8)
      (field (s.cfg.privS && s.mstatus.sie) (2 ^ 1) + field (s.cfg.privS && s.mstatus.spie) (2 ^ 5) +
        field (s.cfg.privS && s.mstatus.spp) (2 ^ 8)) := by
  cases s.cfg.privS
  · exact ⟨fun k hk => by simp at hk, rfl⟩
  · exact ((shows_bitAt _ (by decide)).orBit _ 5).orBit _ 8

theorem State.shows_sstatus (s : State) : Shows s.sstatusBits (sstatusMask s.cfg.xlen) s.sstatusNumber := by
  have hfs : Shows (s.fsField.setWidth 64 <<< 13) (3#64 <<< 13) (s.fsNumber * 2 ^ 13) :=
    s.fsField_toNat ▸ shows_twoBits s.fsField (by decide)
  have hdirty : (s.fsField == 3#2) = (s.fsNumber == 3) := by
    rw [← s.fsField_toNat, Bool.eq_iff_iff, beq_iff_eq, beq_iff_eq, ← BitVec.toNat_inj]
    rfl
  unfold State.sstatusBits State.sstatusNumber sstatusMask State.xlen
  rw [hdirty]
  cases s.cfg.xlen
  · exact (((s.shows_supervisorFields.or hfs (by decide)).or (shows_bitAt _ (by decide)) (by decide)).or
      (shows_rv64Only _ _ _) (by decide))
  · exact (((s.shows_supervisorFields.or hfs (by decide)).or (shows_bitAt _ (by decide)) (by decide)).or
      (shows_rv64Only _ _ _) (by decide))

theorem Priv.bits_toNat (p : Priv) : (Priv.bits p).toNat = modeNumber p := by cases p <;> rfl

theorem State.shows_mstatus (s : State) :
    Shows s.mstatusBits (1#64 <<< 3 ||| 1#64 <<< 7 ||| 3#64 <<< 11 ||| rv64Only s.cfg.xlen (2#64 <<< 34) |||
        sstatusMask s.cfg.xlen)
      s.mstatusNumber := by
  have hmpp : Shows ((Priv.bits s.mstatus.mpp).setWidth 64 <<< 11) (3#64 <<< 11) (modeNumber s.mstatus.mpp * 2 ^ 11) :=
    Priv.bits_toNat _ ▸ shows_twoBits _ (by decide)
  have hmie := shows_bitAt s.mstatus.mie (show 3 < 64 by decide)
  have hmachine := ((hmie.orBit s.mstatus.mpie 7).or hmpp (by decide)).or
    (shows_rv64Only s.cfg.xlen s.cfg.privS (2#64 <<< 34)) (by cases s.cfg.xlen <;> decide)
  have hall := hmachine.or s.shows_sstatus (by cases s.cfg.xlen <;> decide)
  have hsum : s.mstatusNumber = field s.mstatus.mie (2 ^ 3) + field s.mstatus.mpie (2 ^ 7) +
      modeNumber s.mstatus.mpp * 2 ^ 11 + field (s.cfg.xlen == .rv64 && s.cfg.privS) (2#64 <<< 34).toNat +
      s.sstatusNumber := by
    unfold State.mstatusNumber
    rw [show (2#64 <<< 34).toNat = 2 * 2 ^ 34 from rfl]
    ring
  rw [hsum]
  exact hall

/-- A register whose fields lie below XLEN reads as its number. -/
theorem Shows.wrap_toNat {xl : Xlen} {x m : Word} {a : Nat} (h : Shows x m a) (hm : m.toNat < 2 ^ xl.bits) :
    (xl.wrap x).toNat = a := by
  rw [Xlen.wrap_toNat, h.value, Nat.mod_eq_of_lt (Nat.lt_of_le_of_lt h.le hm)]

theorem State.readCsr_sstatus_toNat (s : State) : (s.readCsr .sstatus).1.toNat = s.sstatusNumber :=
  s.shows_sstatus.wrap_toNat (by cases s.cfg.xlen <;> decide)

theorem State.readCsr_mstatus_toNat (s : State) : (s.readCsr .mstatus).1.toNat = s.mstatusNumber :=
  s.shows_mstatus.wrap_toNat (by cases s.cfg.xlen <;> decide)

/-- `misa` has one bit for each extension and mode below MXL (10_state.md R59). -/
theorem State.readCsr_misa_toNat (s : State) : (s.readCsr .misa).1.toNat = s.misaNumber := by
  show (misaBits s.cfg).toNat = _
  unfold misaBits State.misaNumber
  cases s.cfg.xlen <;>
    exact (((((((((Shows.mk (fun _ => id) rfl).orBit _ 0).orBit _ 2).orBit _ 3).orBit _ 5).orBit true 8).orBit _ 12).orBit
      _ 18).orBit _ 20).value

/-! ### Interrupt registers, bit by bit (10_state.md R55) -/

theorem getLsbD_setWidth_word {w : Nat} (v : BitVec w) (hw : w ≤ 64) (k : Nat) :
    (v.setWidth 64).getLsbD k = v.getLsbD k := by
  rw [BitVec.getLsbD_setWidth]
  by_cases hk : k < 64
  · simp [hk]
  · simp [BitVec.getLsbD_of_ge v k (by omega)]

/-- SSIP, STIP and SEIP. -/
theorem getLsbD_supervisorBits (k : Nat) : (0x222#12).getLsbD k = true ↔ k = 1 ∨ k = 5 ∨ k = 9 :=
  getLsbD_iff_of_lt (p := fun k => k = 1 ∨ k = 5 ∨ k = 9) (by decide) (by omega) k

theorem State.enableExists_lt (s : State) (k : Nat) : s.enableExists k → k < 12 := by
  unfold State.enableExists
  omega

theorem getLsbD_interruptBits (s : State) (k : Nat) : (interruptBits s.cfg).getLsbD k = true ↔ s.enableExists k := by
  refine getLsbD_iff_of_lt ?_ s.enableExists_lt k
  unfold interruptBits State.enableExists
  cases s.cfg.privS <;> decide

/-- A line that drives bit i alone. -/
theorem getLsbD_line (b : Bool) {m : BitVec 12} {i : Nat} (hi : i < 12) (hm : m = BitVec.twoPow 12 i) (k : Nat) :
    (if b then m else 0).getLsbD k = true ↔ k = i ∧ b = true := by
  subst hm
  cases b
  · simp
  · simp [BitVec.getLsbD_twoPow, hi, eq_comm]

theorem Lines.getLsbD_bits (l : Lines) (k : Nat) : (Lines.bits l).getLsbD k = true ↔
    (k = 3 ∧ l.msip = true) ∨ (k = 7 ∧ l.mtip = true) ∨ (k = 11 ∧ l.meip = true) ∨ (k = 9 ∧ l.seip = true) := by
  unfold Lines.bits
  rw [BitVec.getLsbD_or, BitVec.getLsbD_or, BitVec.getLsbD_or, Bool.or_eq_true, Bool.or_eq_true, Bool.or_eq_true,
    getLsbD_line l.meip (i := 11) (by decide) (by decide), getLsbD_line l.mtip (i := 7) (by decide) (by decide),
    getLsbD_line l.msip (i := 3) (by decide) (by decide), getLsbD_line l.seip (i := 9) (by decide) (by decide)]
  tauto

theorem State.getLsbD_mip (s : State) (k : Nat) : s.mip.getLsbD k = true ↔ s.pending k := by
  unfold State.mip State.pending
  rw [BitVec.getLsbD_and, BitVec.getLsbD_or, BitVec.getLsbD_and, Bool.and_eq_true, Bool.or_eq_true, Bool.and_eq_true,
    Lines.getLsbD_bits, getLsbD_supervisorBits, getLsbD_interruptBits, State.enableExists]
  grind

theorem State.getLsbD_delegatedMask (s : State) (k : Nat) :
    s.delegatedMask.getLsbD k = true ↔ (k = 1 ∨ k = 5 ∨ k = 9) ∧ s.mideleg.getLsbD k = true := by
  unfold State.delegatedMask
  rw [BitVec.getLsbD_and, BitVec.getLsbD_setWidth, Bool.and_eq_true, Bool.and_eq_true, getLsbD_supervisorBits,
    decide_eq_true_iff]
  constructor
  · rintro ⟨⟨-, hbit⟩, hk⟩
    exact ⟨hk, hbit⟩
  · rintro ⟨hk, hbit⟩
    exact ⟨⟨by omega, hbit⟩, hk⟩

theorem State.readCsr_mip_bit (s : State) (k : Nat) : (s.readCsr .mip).1.getLsbD k = true ↔ s.pending k := by
  rw [← s.getLsbD_mip]
  exact Bool.coe_iff_coe.mpr (getLsbD_setWidth_word s.mip (by decide) k)

theorem State.readCsr_mie_bit (s : State) (k : Nat) :
    (s.readCsr .mie).1.getLsbD k = true ↔ s.mie.getLsbD k = true ∧ s.enableExists k := by
  have hbit : (s.readCsr .mie).1.getLsbD k = (s.mie &&& interruptBits s.cfg).getLsbD k :=
    getLsbD_setWidth_word _ (by decide) k
  rw [hbit, BitVec.getLsbD_and, Bool.and_eq_true, getLsbD_interruptBits]

theorem State.readCsr_sip_bit (s : State) (k : Nat) : (s.readCsr .sip).1.getLsbD k = true ↔
    (k = 1 ∨ k = 5 ∨ k = 9) ∧ s.pending k ∧ s.mideleg.getLsbD k = true := by
  have hbit : (s.readCsr .sip).1.getLsbD k = (s.mip &&& s.delegatedMask).getLsbD k :=
    getLsbD_setWidth_word _ (by decide) k
  rw [hbit, BitVec.getLsbD_and, Bool.and_eq_true, State.getLsbD_mip, State.getLsbD_delegatedMask, and_left_comm]

theorem State.readCsr_sie_bit (s : State) (k : Nat) : (s.readCsr .sie).1.getLsbD k = true ↔
    (k = 1 ∨ k = 5 ∨ k = 9) ∧ s.mie.getLsbD k = true ∧ s.enableExists k ∧ s.mideleg.getLsbD k = true := by
  have hbit : (s.readCsr .sie).1.getLsbD k = (s.mie &&& interruptBits s.cfg &&& s.delegatedMask).getLsbD k :=
    getLsbD_setWidth_word _ (by decide) k
  rw [hbit, BitVec.getLsbD_and, BitVec.getLsbD_and, Bool.and_eq_true, Bool.and_eq_true, getLsbD_interruptBits,
    State.getLsbD_delegatedMask, and_left_comm, and_assoc]

/-! ### Small registers -/

theorem toNat_setWidth_word {w : Nat} (v : BitVec w) (hw : w ≤ 64) : (v.setWidth 64).toNat = v.toNat := by
  rw [BitVec.toNat_setWidth]
  exact Nat.mod_eq_of_lt (Nat.lt_of_lt_of_le v.isLt (Nat.pow_le_pow_right (by decide) hw))

theorem toNat_extract_word (v : Word) (k n : Nat) : (v.extractLsb' k n).toNat = v.toNat / 2 ^ k % 2 ^ n := by
  rw [BitVec.extractLsb'_toNat, Nat.shiftRight_eq_div_pow]

theorem toNat_extract_low (v : Word) (n : Nat) : (v.extractLsb' 0 n).toNat = v.toNat % 2 ^ n := by
  rw [toNat_extract_word, Nat.pow_zero, Nat.div_one]

theorem State.readCsr_fcsr_toNat (s : State) :
    (s.readCsr .fcsr).1.toNat = s.frm.toNat * 32 + s.fflags.toNat := by
  have hread : (s.readCsr .fcsr).1.toNat = (s.frm ++ s.fflags).toNat := toNat_setWidth_word _ (by decide)
  rw [hread, BitVec.toNat_append, ← Nat.shiftLeft_add_eq_or_of_lt s.fflags.isLt, Nat.shiftLeft_eq]

/-- Only a counter that moves when it is read changes the state. -/
theorem State.readCsr_state (s : State) (c : Csr)
    (hc : c ∉ [Csr.cycle, .cycleh, .mcycle, .mcycleh, .time, .timeh]) : (s.readCsr c).2 = s := by
  cases c
  case cycle | cycleh | mcycle | mcycleh | time | timeh => exact absurd (by decide) hc
  all_goals rfl

/-! ## What a write of a CSR keeps (92_eei_decisions.md D20; 10_state.md R40 to R60) -/

/-! ### The platform's part of `csr_legalize` -/

theorem getLsbD_csrLegalize (c : Config) (r : Csr) (old v : Word) (k : Nat) : (csrLegalize c r old v).getLsbD k =
    if (csrReadOnlyBits c r).getLsbD k then old.getLsbD k else (csrOwnValue c r old v).getLsbD k := by
  unfold csrLegalize
  rw [BitVec.getLsbD_or, BitVec.getLsbD_and, BitVec.getLsbD_and, BitVec.getLsbD_not]
  by_cases hk : k < 64
  · cases (csrReadOnlyBits c r).getLsbD k <;> simp [hk]
  · simp [BitVec.getLsbD_of_ge _ k (Nat.le_of_not_lt hk)]

theorem csrOwnValue_of_not_mem {c : Config} {r : Csr} (h : r.number ∉ c.csrOwnRule) (old v : Word) :
    csrOwnValue c r old v = v := by
  unfold csrOwnValue
  rw [if_neg (mt List.contains_iff_mem.mp h)]

/-! ### What a write leaves alone -/

theorem State.fsDirty_eq (s : State) : s.fsDirty = { s with mstatus := s.dirtied } := by
  unfold State.fsDirty State.dirtied
  split <;> rfl

theorem State.writeCsr_fflags_eq (s : State) (v : Word) :
    s.writeCsr .fflags v = { s with fflags := (s.writeCsr .fflags v).fflags, mstatus := s.dirtied } := by
  rw [State.writeCsr, State.storeCsr, State.fsDirty_eq]
  rfl

theorem State.writeCsr_frm_eq (s : State) (v : Word) :
    s.writeCsr .frm v = { s with frm := (s.writeCsr .frm v).frm, mstatus := s.dirtied } := by
  rw [State.writeCsr, State.storeCsr, State.fsDirty_eq]
  rfl

theorem State.writeCsr_fcsr_eq (s : State) (v : Word) :
    s.writeCsr .fcsr v = { s with
      fflags := (s.writeCsr .fcsr v).fflags, frm := (s.writeCsr .fcsr v).frm, mstatus := s.dirtied } := by
  rw [State.writeCsr, State.storeCsr, State.fsDirty_eq]
  rfl

/-! ### What is read after a value is stored -/

/-- Registers with no limit but XLEN. -/
theorem toNat_wrap_wrap (s : State) (v : Word) :
    (s.cfg.xlen.wrap (s.cfg.xlen.wrap v)).toNat = v.toNat % 2 ^ s.xlen := by
  rw [Xlen.wrap_wrap, Xlen.wrap_toNat, State.xlen]

theorem maskEpc_toNat (s : State) (v : Word) :
    (maskEpc s.cfg v).toNat = v.toNat % 2 ^ s.xlen / s.ialign * s.ialign := by
  have hxlen := s.xlen_eq
  unfold maskEpc State.ialign
  rw [Xlen.wrap_toNat]
  change _ % 2 ^ s.xlen = _
  split
  · rw [toNat_clearOne]
    rcases hxlen with h | h <;> rw [h] <;> omega
  · rw [toNat_clearTwo]
    rcases hxlen with h | h <;> rw [h] <;> omega

theorem maskEpc_maskEpc_toNat (s : State) (v : Word) :
    (maskEpc s.cfg (maskEpc s.cfg v)).toNat = v.toNat % 2 ^ s.xlen / s.ialign * s.ialign := by
  have hlt : (maskEpc s.cfg v).toNat < 2 ^ s.xlen := wrap_fits s _
  have hpos : 0 < s.ialign := by
    unfold State.ialign
    split <;> decide
  rw [maskEpc_toNat, Nat.mod_eq_of_lt hlt, maskEpc_toNat, Nat.mul_div_cancel _ hpos]

theorem getLsbD_one_iff (v : Word) : v.getLsbD 1 = true ↔ 2 ≤ v.toNat % 4 := by
  rw [← BitVec.testBit_toNat, Nat.testBit_eq_decide_div_mod_eq, decide_eq_true_iff]
  omega

/-- A trap-vector register with a legal MODE holds the value written (10_state.md R51). -/
theorem legalTvec_of_legal (xl : Xlen) (old : Word) {v : Word} (h : v.toNat % 4 < 2) :
    legalTvec xl old v = xl.wrap v := by
  unfold legalTvec
  rw [if_neg (mt (getLsbD_one_iff v).mp (by omega))]

/-- With an illegal MODE the register holds the base written and the MODE it had. -/
theorem legalTvec_of_illegal (xl : Xlen) (old : Word) {v : Word} (h : 2 ≤ v.toNat % 4) :
    (legalTvec xl old v).toNat = (v.toNat / 4 * 4 + old.toNat % 4) % 2 ^ xl.bits := by
  have hbase : Shows (v &&& ~~~(3#64)) (~~~(3#64)) (v.toNat / 4 * 4) :=
    ⟨fun k hk => by rw [BitVec.getLsbD_and, Bool.and_eq_true] at hk; exact hk.2, toNat_clearTwo v⟩
  have hmode : Shows (old &&& 3#64) (3#64) (old.toNat % 4) :=
    ⟨fun k hk => by rw [BitVec.getLsbD_and, Bool.and_eq_true] at hk; exact hk.2,
      Nat.and_two_pow_sub_one_eq_mod old.toNat 2⟩
  unfold legalTvec
  rw [if_pos ((getLsbD_one_iff v).mpr h), Xlen.wrap_toNat, (hbase.or hmode (by decide)).value]

theorem wrap_legalTvec_legal (s : State) (old : Word) {v : Word} (h : v.toNat % 4 < 2) :
    (s.cfg.xlen.wrap (legalTvec s.cfg.xlen old v)).toNat = v.toNat % 2 ^ s.xlen := by
  rw [legalTvec_of_legal _ _ h, toNat_wrap_wrap]

theorem wrap_legalTvec_illegal (s : State) (old : Word) {v : Word} (h : 2 ≤ v.toNat % 4) :
    (s.cfg.xlen.wrap (legalTvec s.cfg.xlen old v)).toNat =
      v.toNat % 2 ^ s.xlen / 4 * 4 + (s.cfg.xlen.wrap old).toNat % 4 := by
  rw [Xlen.wrap_toNat, Xlen.wrap_toNat, legalTvec_of_illegal _ _ h]
  change _ % 2 ^ s.xlen % 2 ^ s.xlen = _ + _ % 2 ^ s.xlen % 4
  rcases s.xlen_eq with hx | hx <;> rw [hx] <;> omega

theorem toNat_threeBits (v : Word) : ((v.extractLsb' 0 3).setWidth 64).toNat = v.toNat % 8 := by
  rw [toNat_setWidth_word _ (by decide), toNat_extract_low]
  rfl

theorem getLsbD_wrap_wrap (s : State) (v : Word) (k : Nat) :
    (s.cfg.xlen.wrap (s.cfg.xlen.wrap v)).getLsbD k = true ↔ v.getLsbD k = true ∧ k < s.xlen := by
  rw [Xlen.wrap_wrap, Xlen.getLsbD_wrap, Bool.and_eq_true, decide_eq_true_iff, and_comm]
  rfl

/-- The bits of m are cleared. -/
theorem getLsbD_clear (v m : Word) (k : Nat) :
    (v &&& ~~~m).getLsbD k = true ↔ v.getLsbD k = true ∧ ¬m.getLsbD k = true := by
  rw [BitVec.getLsbD_and, BitVec.getLsbD_not, Bool.and_eq_true, Bool.and_eq_true, Bool.not_eq_true', decide_eq_true_iff,
    Bool.not_eq_true]
  exact ⟨fun h => ⟨h.1, h.2.2⟩, fun h => ⟨h.1, BitVec.lt_of_getLsbD h.1, h.2⟩⟩

theorem getLsbD_environmentCallBit (k : Nat) : (0x800#64).getLsbD k = true ↔ k = 11 :=
  getLsbD_iff_of_lt (p := fun k => k = 11) (by decide) (by omega) k

theorem getLsbD_machineBits (k : Nat) : (0x888#64).getLsbD k = true ↔ k = 3 ∨ k = 7 ∨ k = 11 :=
  getLsbD_iff_of_lt (p := fun k => k = 3 ∨ k = 7 ∨ k = 11) (by decide) (by omega) k

theorem storeCsr_medeleg_bit (s : State) (v : Word) (k : Nat) :
    ((s.storeCsr .medeleg v).readCsr .medeleg).1.getLsbD k = true ↔ v.getLsbD k = true ∧ k < s.xlen ∧ k ≠ 11 := by
  refine (getLsbD_wrap_wrap s _ k).trans ?_
  rw [getLsbD_clear, getLsbD_environmentCallBit]
  tauto

theorem storeCsr_mideleg_bit (s : State) (v : Word) (k : Nat) :
    ((s.storeCsr .mideleg v).readCsr .mideleg).1.getLsbD k = true ↔
      v.getLsbD k = true ∧ k < s.xlen ∧ k ≠ 3 ∧ k ≠ 7 ∧ k ≠ 11 := by
  refine (getLsbD_wrap_wrap s _ k).trans ?_
  rw [getLsbD_clear, getLsbD_machineBits]
  tauto

theorem storeCsr_mie_bit (s : State) (v : Word) (k : Nat) :
    ((s.storeCsr .mie v).readCsr .mie).1.getLsbD k = true ↔ v.getLsbD k = true ∧ s.enableExists k := by
  have hexists := s.enableExists_lt k
  rw [State.readCsr_mie_bit]
  change (v.setWidth 12 &&& interruptBits s.cfg).getLsbD k = true ∧ s.enableExists k ↔ _
  rw [BitVec.getLsbD_and, BitVec.getLsbD_setWidth, Bool.and_eq_true, Bool.and_eq_true, decide_eq_true_iff,
    getLsbD_interruptBits]
  tauto

/-- A write through a mask changes the bits of the mask. -/
theorem bitsWritten_mergeBits (old m : BitVec 12) (v : Word) {p : Nat → Prop} (hm : ∀ k, m.getLsbD k = true ↔ p k) :
    BitsWritten old (mergeBits old (v.setWidth 12) m) v p := by
  intro k hk
  rw [getLsbD_mergeBits, BitVec.getLsbD_setWidth, decide_eq_true hk, Bool.true_and, ← hm k]
  exact ⟨fun h => if_pos h, fun h => if_neg h⟩

/-- The bits of `mip` that can be written exist with PRIV_S alone. -/
theorem getLsbD_writableMip (s : State) (k : Nat) : (interruptBits s.cfg &&& 0x222#12).getLsbD k = true ↔
    s.cfg.privS = true ∧ (k = 1 ∨ k = 5 ∨ k = 9) := by
  rw [BitVec.getLsbD_and, Bool.and_eq_true, getLsbD_interruptBits, getLsbD_supervisorBits, State.enableExists]
  constructor
  · rintro ⟨hex, hk⟩
    obtain h | h | h | ⟨hs, -⟩ := hex
    · omega
    · omega
    · omega
    · exact ⟨hs, hk⟩
  · rintro ⟨hs, hk⟩
    exact ⟨.inr (.inr (.inr ⟨hs, by omega⟩)), hk⟩

/-- Of `sip`, software can write SSIP alone. -/
theorem getLsbD_writableSip (s : State) (k : Nat) : (s.delegatedMask &&& 0x002#12).getLsbD k = true ↔
    k = 1 ∧ s.mideleg.getLsbD 1 = true := by
  have hssip : (0x002#12).getLsbD k = true ↔ k = 1 := by
    rw [show 0x002#12 = BitVec.twoPow 12 1 by decide, BitVec.getLsbD_twoPow]
    simp [eq_comm]
  rw [BitVec.getLsbD_and, Bool.and_eq_true, State.getLsbD_delegatedMask, hssip]
  constructor
  · rintro ⟨⟨-, hbit⟩, rfl⟩
    exact ⟨rfl, hbit⟩
  · rintro ⟨rfl, hbit⟩
    exact ⟨⟨.inl rfl, hbit⟩, rfl⟩

/-! ### Counters -/

theorem toNat_append_half (a b : BitVec 32) : (a ++ b).toNat = a.toNat * 2 ^ 32 + b.toNat := by
  rw [BitVec.toNat_append, ← Nat.shiftLeft_add_eq_or_of_lt b.isLt, Nat.shiftLeft_eq]

theorem writeLow_rv32 (old v : Word) :
    (writeLow .rv32 old v).toNat = old.toNat / 2 ^ 32 * 2 ^ 32 + v.toNat % 2 ^ 32 := by
  have hold := old.isLt
  refine (toNat_append_half _ _).trans ?_
  rw [toNat_extract_word, toNat_extract_word]
  omega

theorem wrap_writeLow (s : State) (old v : Word) :
    (s.cfg.xlen.wrap (writeLow s.cfg.xlen old v)).toNat = v.toNat % 2 ^ s.xlen := by
  rw [Xlen.wrap_toNat, State.xlen]
  cases s.cfg.xlen
  · change (writeLow .rv32 old v).toNat % 2 ^ 32 = v.toNat % 2 ^ 32
    rw [writeLow_rv32]
    omega
  · rfl

theorem toNat_writeHigh (old v : Word) :
    (writeHigh old v).toNat = v.toNat % 2 ^ 32 * 2 ^ 32 + old.toNat % 2 ^ 32 := by
  refine (toNat_append_half _ _).trans ?_
  rw [toNat_extract_low, toNat_extract_low]

/-! ### `mstatus` -/

theorem hasFs_iff (c : Config) : Config.hasFs c = true ↔ c.fsTracking = true ∧ c.extF = true := by
  rw [Config.hasFs, Bool.and_eq_true]

theorem ofBits_eq_some_iff (b : BitVec 2) (p : Priv) : Priv.ofBits b = some p ↔ b.toNat = modeNumber p := by
  cases p <;> revert b <;> decide

/-- MPP takes a mode that exists. -/
theorem legalMpp_of_exists {c : Config} {p : Priv} {b : BitVec 2} (hp : Config.hasMode c p = true)
    (hb : b.toNat = modeNumber p) (old : Priv) : legalMpp c old b = p := by
  unfold legalMpp
  rw [(ofBits_eq_some_iff b p).mpr hb]
  exact if_pos hp

/-- MPP stays where no mode that exists is written. -/
theorem legalMpp_of_not_exists {c : Config} {b : BitVec 2}
    (h : ∀ p, Config.hasMode c p = true → b.toNat ≠ modeNumber p) (old : Priv) : legalMpp c old b = old := by
  unfold legalMpp
  split
  · next p hp =>
    split
    · next hmode => exact absurd ((ofBits_eq_some_iff b p).mp hp) (h p hmode)
    · rfl
  · rfl

/-- The fields that both `mstatus` and `sstatus` show. -/
theorem State.writeSstatus_fields (s : State) (v : Word) :
    (s.cfg.privS = true → (s.writeSstatus v).sie = v.getLsbD 1 ∧ (s.writeSstatus v).spie = v.getLsbD 5 ∧
      (s.writeSstatus v).spp = v.getLsbD 8) ∧
    (s.cfg.privS = false → (s.writeSstatus v).sie = s.mstatus.sie ∧ (s.writeSstatus v).spie = s.mstatus.spie ∧
      (s.writeSstatus v).spp = s.mstatus.spp) ∧
    (s.cfg.fsTracking = true ∧ s.cfg.extF = true → (s.writeSstatus v).fs.toNat = v.toNat / 2 ^ 13 % 4) ∧
    (¬(s.cfg.fsTracking = true ∧ s.cfg.extF = true) → (s.writeSstatus v).fs = s.mstatus.fs) := by
  refine ⟨fun hs => ?_, fun hs => ?_, fun hfs => ?_, fun hfs => ?_⟩
  · simp only [State.writeSstatus, hs, if_true, and_self]
  · simp only [State.writeSstatus, hs, Bool.false_eq_true, if_false, and_self]
  · rw [State.writeSstatus, if_pos ((hasFs_iff s.cfg).mpr hfs)]
    exact toNat_extract_word v 13 2
  · rw [State.writeSstatus, if_neg (mt (hasFs_iff s.cfg).mp hfs)]

/-! ### Each register after a value is stored in it -/

theorem storeCsr_fsDirty (s : State) (v : Word) :
    ∀ c ∈ [Csr.fcsr, .fflags, .frm], (s.storeCsr c v).mstatus = s.dirtied := by
  intro c hc
  fin_cases hc <;> exact congrArg State.mstatus (State.fsDirty_eq _)

theorem storeCsr_fcsr_fields (s : State) (v : Word) :
    (s.storeCsr .fcsr v).fflags.toNat = v.toNat % 32 ∧ (s.storeCsr .fcsr v).frm.toNat = v.toNat / 32 % 8 := by
  rw [State.storeCsr, State.fsDirty_eq]
  exact ⟨toNat_extract_low v 5, toNat_extract_word v 5 3⟩

theorem storeCsr_fflags_fields (s : State) (v : Word) :
    (s.storeCsr .fflags v).fflags.toNat = v.toNat % 32 ∧ (s.storeCsr .fflags v).frm = s.frm := by
  rw [State.storeCsr, State.fsDirty_eq]
  exact ⟨toNat_extract_low v 5, rfl⟩

theorem storeCsr_frm_fields (s : State) (v : Word) :
    (s.storeCsr .frm v).frm.toNat = v.toNat % 8 ∧ (s.storeCsr .frm v).fflags = s.fflags := by
  rw [State.storeCsr, State.fsDirty_eq]
  exact ⟨toNat_extract_low v 3, rfl⟩

/-- Settles O33: each clause is the lemma above about that register, read or written. -/
theorem csrReadsWhatItCanHold : Obligations.CsrReadsWhatItCanHold := by
  intro s v
  refine ⟨s.readCsr_mstatus_toNat, s.readCsr_sstatus_toNat, s.readCsr_misa_toNat, rfl, s.readCsr_mip_bit,
    s.readCsr_mie_bit, s.readCsr_sip_bit, s.readCsr_sie_bit, toNat_setWidth_word _ (by decide),
    toNat_setWidth_word _ (by decide), Xlen.wrap_toNat _ _, s.readCsr_state,
    fun c hc => ?mstatus, fun c hc => ?mie, fun c hc => ?mip, fun c hc => ?mcycle, fun c hc => ?minstret,
    s.writeCsr_fflags_eq v, s.writeCsr_frm_eq v, s.writeCsr_fcsr_eq v,
    rfl, rfl, rfl, rfl, rfl, rfl, rfl, rfl, rfl, rfl, rfl, rfl, rfl, rfl, fun c hc => ?ignored,
    fun _ => rfl, fun c old k => getLsbD_csrLegalize _ c old v k, fun c old h => csrOwnValue_of_not_mem h old v,
    fun hro hown => ?kept⟩
  case mstatus | mie | mip | mcycle | minstret | ignored => fin_cases hc <;> rfl
  simp only [State.writeCsr_of_nil hro hown]
  refine ⟨fun c hc => ?xlenBits, fun c hc => ?epc, fun c hc h => ?tvecLegal, fun c hc h => ?tvecIllegal,
    fun c hc => ?counteren, storeCsr_medeleg_bit s v, storeCsr_mideleg_bit s v, storeCsr_mie_bit s v,
    bitsWritten_mergeBits _ _ v s.getLsbD_delegatedMask, bitsWritten_mergeBits _ _ v (getLsbD_writableMip s),
    bitsWritten_mergeBits _ _ v (getLsbD_writableSip s), ?floatFields,
    ⟨s.readCsr_fcsr_toNat, toNat_setWidth_word _ (by decide), toNat_setWidth_word _ (by decide)⟩,
    wrap_writeLow s _ v, fun hx => ?rv64, fun hx => ?rv32, toNat_writeHigh _ v, toNat_writeHigh _ v,
    fun c hc => ?shared, ⟨rfl, rfl⟩, fun p hp hv => ?mppExists, fun h => ?mppNone, rfl, rfl, rfl⟩
  case xlenBits => fin_cases hc <;> exact toNat_wrap_wrap s v
  case epc => fin_cases hc <;> exact maskEpc_maskEpc_toNat s v
  case tvecLegal => fin_cases hc <;> exact wrap_legalTvec_legal s _ h
  case tvecIllegal => fin_cases hc <;> exact wrap_legalTvec_illegal s _ h
  case counteren => fin_cases hc <;> exact toNat_threeBits v
  case floatFields =>
    obtain ⟨hflags, hrm⟩ := storeCsr_fcsr_fields s v
    obtain ⟨hflags', hrm'⟩ := storeCsr_fflags_fields s v
    obtain ⟨hrm'', hflags''⟩ := storeCsr_frm_fields s v
    exact ⟨hflags, hrm, hflags', hrm', hrm'', hflags'', storeCsr_fsDirty s v⟩
  case rv64 => simp only [State.storeCsr, hx, writeLow, and_self]
  case rv32 => simp only [State.storeCsr, hx, writeLow_rv32, and_self]
  case shared => fin_cases hc <;> exact s.writeSstatus_fields v
  case mppExists => exact legalMpp_of_exists hp ((toNat_extract_word v 11 2).trans hv) _
  case mppNone => exact legalMpp_of_not_exists (fun p hp => (toNat_extract_word v 11 2).symm ▸ h p hp) _

end Sys2Proof.Machine

/-! ## Every step keeps the invariant (Safety.lean) -/

namespace Sys2Proof.Machine

open Sys2Proof

/-! ### Addresses that are multiples of IALIGN/8 -/

/-- A multiple of 4 is a multiple of IALIGN/8 in every configuration. -/
theorem targetAligned_of_four {c : Config} {a : Word} (h : a.toNat % 4 = 0) : targetAligned c a = true := by
  unfold targetAligned
  rw [beq_iff_eq]
  split <;> omega

theorem targetAligned_two {c : Config} (h : c.extC = true) : targetAligned c (BitVec.ofNat 64 2) = true := by
  unfold targetAligned
  rw [if_pos h]
  rfl

theorem targetAligned_four (c : Config) : targetAligned c (BitVec.ofNat 64 4) = true := targetAligned_of_four rfl

/-- 2^XLEN is a multiple of IALIGN/8, so addresses may wrap. -/
theorem targetAligned_wrap_add {c : Config} {a b : Word} (ha : targetAligned c a = true)
    (hb : targetAligned c b = true) : targetAligned c (c.xlen.wrap (a + b)) = true := by
  unfold targetAligned at *
  rw [beq_iff_eq] at *
  rw [Xlen.wrap_add]
  cases c.xlen <;> simp only [Xlen.bits] <;> split at ha <;> simp_all <;> omega

theorem targetAligned_wrap {c : Config} {a : Word} (ha : targetAligned c a = true) :
    targetAligned c (c.xlen.wrap a) = true := by
  have h := targetAligned_wrap_add ha (targetAligned_of_four (a := 0#64) rfl)
  rwa [BitVec.add_zero] at h

/-- A trap vector's target is a multiple of 4 (60_exceptions.md R610 (9)). -/
theorem trapTarget_mod_four (tvec : Word) (c : Cause) : (trapTarget tvec c).toNat % 4 = 0 := by
  have hbase := toNat_clearTwo tvec
  unfold trapTarget
  cases c with
  | exc e => dsimp only; omega
  | irq i =>
    dsimp only
    split
    · rw [BitVec.toNat_add, BitVec.toNat_ofNat]; omega
    · omega

/-- An exception program counter is a multiple of IALIGN/8 (10_state.md R49, R50). -/
theorem targetAligned_maskEpc (c : Config) (v : Word) : targetAligned c (maskEpc c v) = true := by
  refine targetAligned_wrap ?_
  unfold targetAligned
  rw [beq_iff_eq]
  split
  · rw [toNat_clearOne]; omega
  · rw [toNat_clearTwo]; omega

theorem wrap_maskEpc (c : Config) (v : Word) : c.xlen.wrap (maskEpc c v) = maskEpc c v := Xlen.wrap_wrap _ _

/-! ### Updates the invariant does not see -/

/-- All that the invariant speaks of is in t as it is in s, but memory, which keeps its canonical form. -/
structure KeepsControl (s t : State) : Prop where
  cfg : t.cfg = s.cfg
  memory : Memory.wf s.mem = true → Memory.wf t.mem = true
  pc : t.pc = s.pc
  priv : t.priv = s.priv
  mpp : t.mstatus.mpp = s.mstatus.mpp
  mie : t.mie = s.mie
  medeleg : t.medeleg = s.medeleg
  mideleg : t.mideleg = s.mideleg

/-- The invariant holds under the configuration c: what every step from a state with the configuration c has to give. -/
structure InvUnder (c : Config) (s : State) : Prop where
  inv : Inv s
  cfg : s.cfg = c

theorem Inv.keeps {s t : State} (h : Inv s) (k : KeepsControl s t) : Inv t where
  config := k.cfg ▸ h.config
  memory := k.memory h.memory
  pcAligned := by rw [k.cfg, k.pc]; exact h.pcAligned
  pcFits := by rw [k.cfg, k.pc]; exact h.pcFits
  modes := by rw [ModesExist, k.cfg, k.priv, k.mpp]; exact h.modes
  mieBits := by rw [k.mie, k.cfg]; exact h.mieBits
  medelegBit := by rw [k.medeleg]; exact h.medelegBit
  midelegBits := by rw [k.mideleg]; exact h.midelegBits

theorem InvUnder.keeps {c : Config} {s t : State} (h : InvUnder c s) (k : KeepsControl s t) : InvUnder c t :=
  ⟨h.inv.keeps k, k.cfg.trans h.cfg⟩

theorem keepsControl_writeX (s : State) (r : Reg) (v : Word) : KeepsControl s (s.writeX r v) := by
  constructor <;> simp

theorem keepsControl_writeF (s : State) (r : Reg) (v : Word) : KeepsControl s (s.writeF r v) := by
  constructor <;> simp

theorem keepsControl_writeS (s : State) (r : Reg) (v : Word32) : KeepsControl s (s.writeS r v) := by
  constructor <;> simp

theorem keepsControl_accrue (s : State) (b : BitVec 5) : KeepsControl s (s.accrue b) := by
  constructor <;> simp

theorem State.fsDirty_mpp (s : State) : s.fsDirty.mstatus.mpp = s.mstatus.mpp := by
  unfold State.fsDirty
  split <;> rfl

theorem keepsControl_fsDirty (s : State) : KeepsControl s s.fsDirty := by
  constructor <;> simp [State.fsDirty_mpp]

theorem keepsControl_retire (s : State) : KeepsControl s s.retire := by
  constructor <;> simp

theorem keepsControl_syncFetch (s : State) : KeepsControl s s.syncFetch := by
  constructor <;> simp

theorem keepsControl_sample (s : State) : KeepsControl s s.sample := by
  constructor <;> simp

theorem keepsControl_readMem (s : State) (a : Word) (n : Nat) : KeepsControl s (s.readMem a n).2 := by
  constructor <;> simp

theorem keepsControl_loadBytes (s : State) (a : Word) (n : Nat) : KeepsControl s (s.loadBytes a n).2 := by
  constructor <;> simp

theorem keepsControl_writeMem (s : State) (a : Word) (n : Nat) (v : Word) : KeepsControl s (s.writeMem a n v) := by
  refine ⟨?_, State.writeMem_wf s a n v, ?_, ?_, ?_, ?_, ?_, ?_⟩ <;> simp

theorem keepsControl_storeBytes (s : State) (a : Word) (n : Nat) (v : Word) : KeepsControl s (s.storeBytes a n v) := by
  refine ⟨?_, State.storeBytes_wf s a n v, ?_, ?_, ?_, ?_, ?_, ?_⟩ <;> simp

theorem keepsControl_reservation (s : State) (r : Option Reservation) : KeepsControl s { s with reservation := r } :=
  ⟨rfl, id, rfl, rfl, rfl, rfl, rfl, rfl⟩

theorem keepsControl_draws (s : State) (d : Nat) : KeepsControl s { s with draws := d } :=
  ⟨rfl, id, rfl, rfl, rfl, rfl, rfl, rfl⟩

theorem keepsControl_readCsr (s : State) (r : Csr) : KeepsControl s (s.readCsr r).2 := by
  obtain ⟨cy, tm, d, h⟩ := s.readCsr_shape r
  rw [h]
  exact ⟨rfl, id, rfl, rfl, rfl, rfl, rfl, rfl⟩

/-! ### Updates the invariant sees: the pc, traps and returns -/

/-- The pc may become any XLEN-bit multiple of IALIGN/8. -/
theorem InvUnder.setPc {c : Config} {s : State} (h : InvUnder c s) {a : Word} (ha : targetAligned c a = true) :
    InvUnder c { s with pc := s.cfg.xlen.wrap a } := by
  obtain ⟨hi, rfl⟩ := h
  exact ⟨{ hi with pcAligned := targetAligned_wrap ha, pcFits := Xlen.wrap_wrap _ _ }, rfl⟩

theorem InvUnder.advance {c : Config} {s : State} (h : InvUnder c s) {len : Nat}
    (hl : targetAligned c (BitVec.ofNat 64 len) = true) : InvUnder c (s.advance len) := by
  obtain ⟨hi, rfl⟩ := h
  exact ⟨{ hi with pcAligned := targetAligned_wrap_add hi.pcAligned hl, pcFits := Xlen.wrap_wrap _ _ }, rfl⟩

theorem InvUnder.enterM {c : Config} {s : State} (h : InvUnder c s) (e : Cause) (info : Word) :
    InvUnder c (s.enterM e info) := by
  obtain ⟨hi, rfl⟩ := h
  exact ⟨{ hi with
    pcAligned := targetAligned_wrap (targetAligned_of_four (trapTarget_mod_four _ _))
    pcFits := Xlen.wrap_wrap _ _
    modes := ⟨rfl, hi.modes.1⟩ }, rfl⟩

theorem InvUnder.enterS {c : Config} {s : State} (h : InvUnder c s) (hs : s.cfg.privS = true) (e : Cause) (info : Word) :
    InvUnder c (s.enterS e info) := by
  obtain ⟨hi, rfl⟩ := h
  exact ⟨{ hi with
    pcAligned := targetAligned_wrap (targetAligned_of_four (trapTarget_mod_four _ _))
    pcFits := Xlen.wrap_wrap _ _
    modes := ⟨hs, hi.modes.2⟩ }, rfl⟩

/-- A trap entered in supervisor mode needs PRIV_S, so that the mode exists (60_exceptions.md R611). -/
theorem State.privS_of_trapsToS {s : State} {e : Cause} (h : s.trapsToS e = true) : s.cfg.privS = true := by
  unfold State.trapsToS at h
  simp only [Bool.and_eq_true] at h
  exact h.1.1

theorem InvUnder.takeTrap {c : Config} {s : State} (h : InvUnder c s) (e : Cause) (info : Word) :
    InvUnder c (s.takeTrap e info) := by
  unfold State.takeTrap
  split
  · next hs => exact h.enterS (State.privS_of_trapsToS hs) e info
  · exact h.enterM e info

theorem InvUnder.returnM {c : Config} {s : State} (h : InvUnder c s) : InvUnder c s.returnM := by
  obtain ⟨hi, rfl⟩ := h
  have hmpp : Config.hasMode s.cfg (if s.cfg.privU then .user else s.mstatus.mpp) = true := by
    split
    · next hu => exact hu
    · exact hi.modes.2
  exact ⟨{ hi with
    pcAligned := targetAligned_maskEpc _ _
    pcFits := wrap_maskEpc _ _
    modes := ⟨hi.modes.2, hmpp⟩ }, rfl⟩

/-- PRIV_S requires PRIV_U (00_scope.md R8). -/
theorem Config.privU_of_privS {c : Config} (h : Config.wf c = true) (hs : c.privS = true) : c.privU = true := by
  unfold Config.wf at h
  simp only [Bool.and_eq_true, Bool.or_eq_true, Bool.not_eq_true'] at h
  obtain ⟨⟨⟨⟨⟨-, hpriv⟩, -⟩, -⟩, -⟩, -⟩ := h
  rw [hs] at hpriv
  exact hpriv.resolve_left Bool.noConfusion

theorem InvUnder.returnS {c : Config} {s : State} (h : InvUnder c s) (hs : s.cfg.privS = true) :
    InvUnder c s.returnS := by
  obtain ⟨hi, rfl⟩ := h
  have hpriv : Config.hasMode s.cfg (if s.mstatus.spp then .supervisor else .user) = true := by
    split
    · exact hs
    · exact Config.privU_of_privS hi.config hs
  exact ⟨{ hi with
    pcAligned := targetAligned_maskEpc _ _
    pcFits := wrap_maskEpc _ _
    modes := ⟨hpriv, hi.modes.2⟩ }, rfl⟩

/-! ### Writes of control registers -/

theorem legalMpp_exists {c : Config} {p : Priv} (h : Config.hasMode c p = true) (b : BitVec 2) :
    Config.hasMode c (legalMpp c p b) = true := by
  unfold legalMpp
  split
  · split
    · next hq => exact hq
    · exact h
  · exact h

/-- The mode MPP names after a write exists where the mode it named before does (10_state.md R47). -/
theorem State.storeCsr_mpp_exists {s : State} (h : Config.hasMode s.cfg s.mstatus.mpp = true) (r : Csr) (v : Word) :
    Config.hasMode s.cfg (s.storeCsr r v).mstatus.mpp = true := by
  cases r
  case mstatus => exact legalMpp_exists h _
  case fflags | frm | fcsr =>
    rw [State.storeCsr, State.fsDirty_mpp]
    exact h
  all_goals exact h

/-- Merging bits of m, none of which is in n, into a number without bits in n leaves one without bits in n. -/
theorem mergeBits_and_eq_zero {old m n : BitVec 12} (h : old &&& n = 0) (hm : m &&& n = 0) (v : BitVec 12) :
    mergeBits old v m &&& n = 0 := by
  rw [and_eq_zero_iff] at *
  intro k hk
  rw [getLsbD_mergeBits, hm k hk]
  exact h k hk

/-- The bits of `mie` that a write of `sie` changes exist where supervisor mode does (10_state.md R55). -/
theorem State.delegatedMask_and_not_interruptBits (s : State) (hs : s.cfg.privS = true) :
    s.delegatedMask &&& ~~~interruptBits s.cfg = 0 := by
  have hbits : interruptBits s.cfg = 0xAAA#12 := if_pos hs
  rw [State.delegatedMask, hbits, BitVec.and_assoc]
  exact BitVec.and_zero

/-- A write of `mie` or `sie` sets no enable of an interrupt that does not exist (10_state.md R55). -/
theorem State.storeCsr_mieBits {s : State} (h : s.mie &&& ~~~interruptBits s.cfg = 0) {r : Csr}
    (hr : Csr.exists s.cfg r = true) (v : Word) : (s.storeCsr r v).mie &&& ~~~interruptBits s.cfg = 0 := by
  cases r
  case mie =>
    refine (and_eq_zero_iff _ _).mpr fun k hk => ?_
    rw [BitVec.getLsbD_not, Bool.and_eq_true, Bool.not_eq_true'] at hk
    show (v.setWidth 12 &&& interruptBits s.cfg).getLsbD k = false
    rw [BitVec.getLsbD_and, hk.2, Bool.and_false]
  case sie => exact mergeBits_and_eq_zero h (s.delegatedMask_and_not_interruptBits hr) _
  case fflags | frm | fcsr =>
    rw [State.storeCsr, State.fsDirty_mie]
    exact h
  all_goals exact h

/-- Environment calls from machine mode cannot be delegated (10_state.md R56). -/
theorem State.storeCsr_medelegBit {s : State} (h : s.medeleg.getLsbD 11 = false) (r : Csr) (v : Word) :
    (s.storeCsr r v).medeleg.getLsbD 11 = false := by
  cases r
  case medeleg =>
    show (s.cfg.xlen.wrap (v &&& ~~~(0x800#64))).getLsbD 11 = false
    rw [Xlen.getLsbD_wrap, BitVec.getLsbD_and]
    simp
  case fflags | frm | fcsr =>
    rw [State.storeCsr, State.fsDirty_medeleg]
    exact h
  all_goals exact h

/-- Machine interrupts cannot be delegated (10_state.md R56). -/
theorem State.storeCsr_midelegBits {s : State} (h : s.mideleg &&& 0x888#64 = 0) (r : Csr) (v : Word) :
    (s.storeCsr r v).mideleg &&& 0x888#64 = 0 := by
  cases r
  case mideleg =>
    refine (and_eq_zero_iff _ _).mpr fun k hk => ?_
    show (s.cfg.xlen.wrap (v &&& ~~~(0x888#64))).getLsbD k = false
    rw [Xlen.getLsbD_wrap, BitVec.getLsbD_and, BitVec.getLsbD_not, hk]
    simp
  case fflags | frm | fcsr =>
    rw [State.storeCsr, State.fsDirty_mideleg]
    exact h
  all_goals exact h

/-- What a CSR holds after a write is legal, whatever the platform's own rule makes of the value (log entry 32). -/
theorem InvUnder.writeCsr {c : Config} {s : State} (h : InvUnder c s) {r : Csr} (hr : Csr.exists c r = true) (v : Word) :
    InvUnder c (s.writeCsr r v) := by
  obtain ⟨hi, rfl⟩ := h
  obtain ⟨-, -, hmem, hpc, hcfg, hpriv, -⟩ := s.writeCsr_frame r v
  obtain ⟨hmode, hmpp⟩ := hi.modes
  refine ⟨?_, hcfg⟩
  constructor
  · rw [hcfg]; exact hi.config
  · rw [hmem]; exact hi.memory
  · rw [hcfg, hpc]; exact hi.pcAligned
  · rw [hcfg, hpc]; exact hi.pcFits
  · rw [ModesExist, hcfg, hpriv]; exact ⟨hmode, State.storeCsr_mpp_exists hmpp r _⟩
  · rw [hcfg]; exact State.storeCsr_mieBits hi.mieBits hr _
  · exact State.storeCsr_medelegBit hi.medelegBit r _
  · exact State.storeCsr_midelegBits hi.midelegBits r _

theorem InvUnder.csrEffect {c : Config} {s : State} (h : InvUnder c s) {r : Csr} (hr : Csr.exists c r = true)
    (u : CsrUse) (rd : Reg) (new : Word → Word) : InvUnder c (s.csrEffect r u rd new) := by
  obtain ⟨w, hw, heffect, -⟩ := s.csrEffect_eq r u rd new
  have hread : InvUnder c (if u.reads then (s.readCsr r).2 else s) := by
    split
    · exact h.keeps (keepsControl_readCsr s r)
    · exact h
  have hwritten : InvUnder c w := by
    rw [hw]
    split
    · exact hread.writeCsr hr _
    · exact hread
  rw [heffect]
  exact hwritten.keeps (keepsControl_writeX _ _ _)

/-! ### Shapes of instructions -/

/-- Where the outcome is a next state, that state meets the invariant under the configuration c. -/
def LeadsToInv (c : Config) (r : Result) : Prop := ∀ t, r = .next t → InvUnder c t

theorem InvUnder.next {c : Config} {s : State} (h : InvUnder c s) : LeadsToInv c (.next s) := by
  intro t ht
  cases ht
  exact h

theorem LeadsToInv.fault (c : Config) (f : Fault) : LeadsToInv c (.fault f) := fun _ ht => by cases ht

theorem LeadsToInv.refused (c : Config) (f : Refusal) : LeadsToInv c (.refused f) := fun _ ht => by cases ht

theorem InvUnder.raise {c : Config} {s : State} (h : InvUnder c s) (e : Exc) (info : Word) :
    LeadsToInv c (raise e info s) := by
  unfold Machine.raise
  split
  · exact (h.takeTrap _ _).next
  · exact .fault _ _

theorem InvUnder.finish {c : Config} {s : State} (h : InvUnder c s) {len : Nat}
    (hl : targetAligned c (BitVec.ofNat 64 len) = true) : LeadsToInv c (finish len s) :=
  ((h.advance hl).keeps (keepsControl_retire _)).next

theorem InvUnder.finishAt {c : Config} {s : State} (h : InvUnder c s) {target : Word}
    (ht : targetAligned c target = true) : LeadsToInv c (finishAt target s) :=
  ((h.setPc ht).keeps (keepsControl_retire _)).next

theorem LeadsToInv.thenDo {c : Config} {r : Result} {k : State → Result} (hr : LeadsToInv c r)
    (hk : ∀ s, InvUnder c s → LeadsToInv c (k s)) : LeadsToInv c (Result.thenDo r k) := by
  cases r with
  | next s => exact hk s (hr s rfl)
  | fault f => exact .fault _ f
  | refused f => exact .refused _ f

section
variable {c : Config} {s : State} {len : Nat} (h : InvUnder c s) (hl : targetAligned c (BitVec.ofNat 64 len) = true)
include h

/-- Whatever goes on after a load, in a state that meets the invariant, decides. -/
theorem InvUnder.load (a : Word) (n : Nat) {k : Word → State → Result}
    (hk : ∀ v t, InvUnder c t → LeadsToInv c (k v t)) : LeadsToInv c ((s.load a n).andThen k) := by
  have hread := h.keeps (keepsControl_readMem s a n)
  have hbytes := h.keeps (keepsControl_loadBytes s a n)
  unfold State.load
  split
  · exact h.raise _ _
  split
  · split
    · exact hk _ _ hread
    · exact h.raise _ _
  · split
    · exact hk _ _ hbytes
    · exact hbytes.raise _ _

theorem InvUnder.store (a : Word) (n : Nat) (v : Word) {k : Unit → State → Result}
    (hk : ∀ t, InvUnder c t → LeadsToInv c (k () t)) : LeadsToInv c ((s.store a n v).andThen k) := by
  have hbytes := h.keeps (keepsControl_storeBytes s a n v)
  unfold State.store
  split
  · exact h.raise _ _
  split
  · split
    · exact hk _ (h.keeps (keepsControl_writeMem s a n v))
    · exact h.raise _ _
  · split
    · exact hk _ hbytes
    · exact hbytes.raise _ _

theorem InvUnder.fpGuard (i : Instr) {k : Result} (hk : LeadsToInv c k) : LeadsToInv c (fpGuard i s k) := by
  unfold Machine.fpGuard
  split
  · exact h.raise _ _
  · exact hk

theorem InvUnder.fpRounded (i : Instr) (rm : BitVec 3) {k : Rounding → Result} (hk : ∀ r, LeadsToInv c (k r)) :
    LeadsToInv c (fpRounded i rm s k) := by
  refine h.fpGuard i ?_
  split
  · exact hk _
  · exact h.raise _ _

theorem InvUnder.csrInstruction (i : Instr) (rd : Reg) (n : BitVec 12) (u : CsrUse) (new : Word → Word) :
    LeadsToInv c (csrInstruction i rd n u new s) := by
  unfold Machine.csrInstruction
  split
  · exact h.raise _ _
  · next r hr =>
    have hexists : Csr.exists c r = true := h.cfg ▸ (State.csrAccess_exists hr).1
    have heffect := h.csrEffect hexists u rd new
    split
    · exact (heffect.advance (targetAligned_four c)).next
    · exact heffect.finish (targetAligned_four c)

theorem InvUnder.amo (n : Nat) (f : Word → Word → Word) (ext : Word → Word) (rd rs1 rs2 : Reg) :
    LeadsToInv c (amo n f ext rd rs1 rs2 s) := by
  unfold Machine.amo
  dsimp only
  split
  · exact h.raise _ _
  split
  · have hread := h.keeps (keepsControl_readMem s (s.readX rs1) n)
    exact ((hread.keeps (keepsControl_writeMem _ _ _ _)).keeps (keepsControl_writeX _ _ _)).finish (targetAligned_four c)
  · exact h.raise _ _

theorem InvUnder.amoW (f : BinOp) (rd rs1 rs2 : Reg) : LeadsToInv c (amoW f rd rs1 rs2 s) := h.amo _ _ _ _ _ _

theorem InvUnder.amoD (f : BinOp) (rd rs1 rs2 : Reg) : LeadsToInv c (amoD f rd rs1 rs2 s) := h.amo _ _ _ _ _ _

theorem InvUnder.loadReserved (rd rs1 : Reg) (n : Nat) : LeadsToInv c (loadReserved rd rs1 n s) := by
  unfold Machine.loadReserved
  dsimp only
  split
  · exact h.raise _ _
  split
  · have hread := h.keeps (keepsControl_readMem s (s.readX rs1) n)
    exact ((hread.keeps (keepsControl_reservation _ _)).keeps (keepsControl_writeX _ _ _)).finish (targetAligned_four c)
  · exact h.raise _ _

theorem InvUnder.storeConditional (rd rs1 rs2 : Reg) (n : Nat) :
    LeadsToInv c (storeConditional rd rs1 rs2 n s) := by
  have hused := h.keeps (keepsControl_draws s (s.draws + 1))
  unfold Machine.storeConditional
  dsimp only
  split
  · exact h.raise _ _
  split
  · exact h.raise _ _
  split
  · have hstored := hused.keeps (keepsControl_writeMem _ (s.readX rs1) n (s.readX rs2))
    exact ((hstored.keeps (keepsControl_reservation _ _)).keeps (keepsControl_writeX _ _ _)).finish (targetAligned_four c)
  · exact ((hused.keeps (keepsControl_reservation _ _)).keeps (keepsControl_writeX _ _ _)).finish (targetAligned_four c)

theorem InvUnder.mret : LeadsToInv c (execMret s) := by
  unfold execMret
  split
  · exact (h.returnM.keeps (keepsControl_retire _)).next
  · exact h.raise _ _

theorem InvUnder.sret : LeadsToInv c (execSret s) := by
  unfold execSret
  split
  · next hlegal =>
    unfold State.supervisorLegal at hlegal
    simp only [Bool.and_eq_true] at hlegal
    obtain ⟨⟨-, hs⟩, -⟩ := hlegal
    exact ((h.returnS hs).keeps (keepsControl_retire _)).next
  · exact h.raise _ _

/-- An instruction that is legal in some modes only and has no effect that one hart sees. -/
theorem InvUnder.finishWhere (legal : Bool) (i : Instr) :
    LeadsToInv c (if legal then Machine.finish 4 s else Machine.raise .illegalInstruction i.bits s) := by
  split
  · exact h.finish (targetAligned_four c)
  · exact h.raise _ _

theorem InvUnder.jumpLink (rd : Reg) (target : Word) : LeadsToInv c (jumpLink len rd target s) := by
  unfold Machine.jumpLink
  split
  · next ht => exact (h.keeps (keepsControl_writeX _ _ _)).finishAt (h.cfg ▸ ht)
  · exact h.raise _ _

/-- A floating-point instruction ends where its result is written and the flags and FS are set. -/
theorem InvUnder.accrueAndFinish (b : BitVec 5) : LeadsToInv c (Machine.finish 4 (s.accrue b).fsDirty) :=
  ((h.keeps (keepsControl_accrue s b)).keeps (keepsControl_fsDirty _)).finish (targetAligned_four c)

theorem InvUnder.arithS (i : Instr) (rm : BitVec 3) (rd : Reg) (op : Rounding → Nat × BitVec 5) :
    LeadsToInv c (arithS i rm rd op s) :=
  h.fpRounded i rm fun _ => (h.keeps (keepsControl_writeS _ _ _)).accrueAndFinish _

theorem InvUnder.arithD (i : Instr) (rm : BitVec 3) (rd : Reg) (op : Rounding → Nat × BitVec 5) :
    LeadsToInv c (arithD i rm rd op s) :=
  h.fpRounded i rm fun _ => (h.keeps (keepsControl_writeF _ _ _)).accrueAndFinish _

theorem InvUnder.selectS (i : Instr) (rd : Reg) (v : Nat × BitVec 5) : LeadsToInv c (selectS i rd v s) :=
  h.fpGuard i ((h.keeps (keepsControl_writeS _ _ _)).accrueAndFinish _)

theorem InvUnder.selectD (i : Instr) (rd : Reg) (v : Nat × BitVec 5) : LeadsToInv c (selectD i rd v s) :=
  h.fpGuard i ((h.keeps (keepsControl_writeF _ _ _)).accrueAndFinish _)

theorem InvUnder.compareF (i : Instr) (rd : Reg) (v : Word × BitVec 5) : LeadsToInv c (compareF i rd v s) :=
  h.fpGuard i ((h.keeps (keepsControl_writeX _ _ _)).accrueAndFinish _)

theorem InvUnder.convertToX (i : Instr) (rm : BitVec 3) (rd : Reg) (bits : Nat) (op : Rounding → Int × BitVec 5) :
    LeadsToInv c (convertToX i rm rd bits op s) :=
  h.fpRounded i rm fun _ => (h.keeps (keepsControl_writeX _ _ _)).accrueAndFinish _

theorem InvUnder.moveToX (i : Instr) (rd : Reg) (v : Word) : LeadsToInv c (moveToX i rd v s) :=
  h.fpGuard i ((h.keeps (keepsControl_writeX _ _ _)).finish (targetAligned_four c))

theorem InvUnder.moveToF (i : Instr) (rd : Reg) (v : Word) : LeadsToInv c (moveToF i rd v s) :=
  h.fpGuard i (((h.keeps (keepsControl_writeF _ _ _)).keeps (keepsControl_fsDirty _)).finish (targetAligned_four c))

include hl

theorem InvUnder.setX (rd : Reg) (v : Word) : LeadsToInv c (setX len rd v s) :=
  (h.keeps (keepsControl_writeX s rd v)).finish hl

theorem InvUnder.branch (cond : Bool) (off : Word) : LeadsToInv c (branch len cond off s) := by
  unfold Machine.branch
  split
  · split
    · next ht => exact h.finishAt (h.cfg ▸ ht)
    · exact h.raise _ _
  · exact h.finish hl

theorem InvUnder.loadX (rd : Reg) (a : Word) (n : Nat) (ext : Word → Word) : LeadsToInv c (loadX len rd a n ext s) :=
  h.load a n fun _ _ ht => (ht.keeps (keepsControl_writeX _ _ _)).finish hl

theorem InvUnder.storeX (rs2 : Reg) (a : Word) (n : Nat) : LeadsToInv c (storeX len rs2 a n s) :=
  h.store a n _ fun _ ht => ht.finish hl

theorem InvUnder.loadF (i : Instr) (rd : Reg) (a : Word) (n : Nat) : LeadsToInv c (loadF i len rd a n s) := by
  refine h.fpGuard i (h.load a n fun v t ht => ?_)
  have hwritten : InvUnder c (if n = 4 then t.writeS rd (v.setWidth 32) else t.writeF rd v) := by
    split
    · exact ht.keeps (keepsControl_writeS _ _ _)
    · exact ht.keeps (keepsControl_writeF _ _ _)
  exact (hwritten.keeps (keepsControl_fsDirty _)).finish hl

theorem InvUnder.storeF (i : Instr) (rs2 : Reg) (a : Word) (n : Nat) : LeadsToInv c (storeF i len rs2 a n s) :=
  h.fpGuard i (h.store a n _ fun _ ht => ht.finish hl)

end

/-! ### Every instruction -/

/-- A compressed instruction exists with EXT_C alone (30_encoding.md R150). -/
theorem Instr.extC_of_available {c : Config} {i : Instr} (ha : i.available c = true) (hc : i.isCompressed = true) :
    c.extC = true := by
  cases i
  case cAdd | cAddi | cAddi16sp | cAddi4spn | cAnd | cAndi | cBeqz | cBnez | cEbreak | cJ | cJalr | cJr | cLi | cLui | cLw
      | cLwsp | cMv | cOr | cSub | cSw | cSwsp | cXor =>
    exact ha
  case cAddiw | cAddw | cLd | cLdsp | cSd | cSdsp | cSubw | cFld | cFldsp | cFsd | cFsdsp | cFlw | cFlwsp | cFsw | cFswsp
      | cJal =>
    exact (Bool.and_eq_true_iff.mp ha).2
  case cSlli | cSrai | cSrli => exact (Bool.and_eq_true_iff.mp ha).1
  all_goals exact Bool.noConfusion hc

theorem available_of_decode {c : Config} {p : Parcel} {i : Instr} (h : decode c p = some i) : i.available c = true := by
  unfold decode at h
  split at h
  · split at h
    · next hav =>
      cases h
      rw [Bool.and_eq_true] at hav
      exact hav.2
    · cases h
  · cases h

section
variable {c : Config} {s : State} (h : InvUnder c s) (rd : Reg)
include h

theorem InvUnder.auipc (imm : BitVec 20) : LeadsToInv c (execAuipc rd imm s) := h.setX (targetAligned_four c) _ _

theorem InvUnder.addi (rs1 : Reg) (imm : BitVec 12) : LeadsToInv c (execAddi rd rs1 imm s) :=
  h.setX (targetAligned_four c) _ _

theorem InvUnder.jalr (rs1 : Reg) (off : BitVec 12) : LeadsToInv c (execJalr rd rs1 off s) := h.jumpLink _ _

theorem InvUnder.liOp (op : LiOp) : LeadsToInv c (execLiOp rd op s) := by
  cases op <;> exact h.setX (targetAligned_four c) _ _

theorem InvUnder.loadAddressEnd (pic : Bool) (lo : BitVec 12) : LeadsToInv c (loadAddressEnd rd pic lo s) := by
  unfold Machine.loadAddressEnd
  split
  · exact h.addi _ _ _
  · exact h.loadX (targetAligned_four c) _ _ _ _
  · exact h.loadX (targetAligned_four c) _ _ _ _

theorem InvUnder.call (delta : BitVec 32) : LeadsToInv c (execCall rd delta s) :=
  (h.auipc rd _).thenDo fun _ ht => ht.jalr _ _ _

theorem InvUnder.la (pic : Bool) (delta : BitVec 32) : LeadsToInv c (execLa rd pic delta s) :=
  (h.auipc rd _).thenDo fun _ ht => ht.loadAddressEnd _ _ _

theorem InvUnder.lla (delta : BitVec 32) : LeadsToInv c (execLla rd delta s) :=
  (h.auipc rd _).thenDo fun _ ht => ht.addi _ _ _

omit rd in
theorem InvUnder.tail (delta : BitVec 32) : LeadsToInv c (execTail delta s) :=
  (h.auipc 6 _).thenDo fun _ ht => ht.jalr _ _ _

end

theorem InvUnder.runLi {c : Config} (rd : Reg) : ∀ (ops : List LiOp) {s : State}, InvUnder c s →
    LeadsToInv c (runLi rd ops s)
  | [], _, h => h.next
  | op :: ops, _, h => (h.liOp rd op).thenDo fun _ ht => InvUnder.runLi rd ops ht

/-- Every instruction keeps the invariant, a compressed one where EXT_C makes IALIGN 16. -/
theorem exec_leadsToInv {c : Config} {s : State} (h : InvUnder c s) (i : Instr)
    (hc : i.isCompressed = true → c.extC = true) : LeadsToInv c (exec i s) := by
  have four := targetAligned_four c
  cases i
  case add | addi | addiw | addw | and | andi | auipc | lui | or | ori | sll | slli | slliw | sllw | slt | slti | sltiu
      | sltu | sra | srai | sraiw | sraw | srl | srli | srliw | srlw | sub | subw | xor | xori | mul | mulh | mulhsu
      | mulhu | mulw | div | divu | divw | divuw | rem | remu | remw | remuw | mv | neg | negw | nop | not | seqz | sextW
      | sgtz | sltz | snez =>
    exact h.setX four _ _
  case cAdd | cAddi | cAddi16sp | cAddi4spn | cAddiw | cAnd | cAddw | cAndi | cLi | cLui | cMv | cOr | cSlli | cSrai
      | cSrli | cSub | cSubw | cXor =>
    exact h.setX (targetAligned_two (hc rfl)) _ _
  case beq | bge | bgeu | blt | bltu | bne | beqz | bgez | bgt | bgtu | bgtz | ble | bleu | blez | bltz | bnez =>
    exact h.branch four _ _
  case cBeqz | cBnez => exact h.branch (targetAligned_two (hc rfl)) _ _
  case jal | jalr | cJ | cJal | cJalr | cJr | j | jr | ret => exact h.jumpLink _ _
  case lb | lbu | ld | lh | lhu | lw | lwu => exact h.loadX four _ _ _ _
  case cLd | cLdsp | cLw | cLwsp => exact h.loadX (targetAligned_two (hc rfl)) _ _ _ _
  case sb | sd | sh | sw => exact h.storeX four _ _ _
  case cSd | cSdsp | cSw | cSwsp => exact h.storeX (targetAligned_two (hc rfl)) _ _ _
  case csrrw | csrrs | csrrc | csrrwi | csrrsi | csrrci | csrr | csrc | csrci | csrs | csrsi | csrw | csrwi | frcsr
      | frflags | frrm | fscsr | fsflags | fsrm | rdcycle | rdcycleh | rdinstret | rdinstreth | rdtime | rdtimeh =>
    exact h.csrInstruction _ _ _ _ _
  case fence => exact h.finish four
  case fenceI => exact (h.keeps (keepsControl_syncFetch s)).finish four
  case ecall | ebreak | cEbreak => exact h.raise _ _
  case mret => exact h.mret
  case sret => exact h.sret
  case wfi | sfenceVma => exact h.finishWhere _ _
  case amoaddW | amoandW | amomaxW | amomaxuW | amominW | amominuW | amoorW | amoswapW | amoxorW => exact h.amoW _ _ _ _
  case amoaddD | amoandD | amomaxD | amomaxuD | amominD | amominuD | amoorD | amoswapD | amoxorD => exact h.amoD _ _ _ _
  case lrD | lrW => exact h.loadReserved _ _ _
  case scD | scW => exact h.storeConditional _ _ _ _
  case faddS | fcvtSL | fcvtSLu | fcvtSW | fcvtSWu | fdivS | fmaddS | fmsubS | fmulS | fnmaddS | fnmsubS | fsqrtS | fsubS
      | fcvtSD =>
    exact h.arithS _ _ _ _
  case faddD | fcvtDL | fcvtDLu | fcvtDS | fcvtDW | fcvtDWu | fdivD | fmaddD | fmsubD | fmulD | fnmaddD | fnmsubD
      | fsqrtD | fsubD =>
    exact h.arithD _ _ _ _
  case fmaxS | fminS | fsgnjS | fsgnjnS | fsgnjxS | fabsS | fmvS | fnegS => exact h.selectS _ _ _
  case fmaxD | fminD | fsgnjD | fsgnjnD | fsgnjxD | fabsD | fmvD | fnegD => exact h.selectD _ _ _
  case feqS | fleS | fltS | feqD | fleD | fltD => exact h.compareF _ _ _
  case fcvtLS | fcvtLuS | fcvtWS | fcvtWuS | fcvtLD | fcvtLuD | fcvtWD | fcvtWuD => exact h.convertToX _ _ _ _ _
  case fclassS | fclassD | fmvXW | fmvXD => exact h.moveToX _ _ _
  case fmvWX | fmvDX => exact h.moveToF _ _ _
  case flw | fld => exact h.loadF four _ _ _ _
  case cFld | cFldsp | cFlw | cFlwsp => exact h.loadF (targetAligned_two (hc rfl)) _ _ _ _
  case fsw | fsd => exact h.storeF four _ _ _ _
  case cFsd | cFsdsp | cFsw | cFswsp => exact h.storeF (targetAligned_two (hc rfl)) _ _ _ _
  case call => exact h.call _ _
  case la => exact h.la _ _ _
  case li => exact InvUnder.runLi _ _ h
  case lla => exact h.lla _ _
  case tail => exact h.tail _

/-! ### The step -/

theorem runParcel_leadsToInv {c : Config} {s : State} (h : InvUnder c s) (p : Parcel) : LeadsToInv c (runParcel p s) := by
  cases hd : decode s.cfg p with
  | none =>
    rw [runParcel_of_decode_none hd]
    exact h.raise _ _
  | some i =>
    rw [runParcel_of_decode_some hd]
    have havail : i.available c = true := h.cfg ▸ available_of_decode hd
    exact exec_leadsToInv h i (Instr.extC_of_available havail)

theorem runInstruction_leadsToInv {c : Config} {s : State} (h : InvUnder c s) : LeadsToInv c (runInstruction s) := by
  obtain ⟨d, ⟨p, hp⟩ | hmis | hacc⟩ := s.fetch_cases
  all_goals have hfetched := h.keeps (keepsControl_draws s d)
  · rw [runInstruction_of_fetch_done hp]
    exact runParcel_leadsToInv hfetched p
  · rw [runInstruction_of_fetch_trap hmis]
    exact hfetched.raise _ _
  · rw [runInstruction_of_fetch_trap hacc]
    exact hfetched.raise _ _

theorem step_leadsToInv {c : Config} {s : State} (h : InvUnder c s) : LeadsToInv c (step s) := by
  have hsample := h.keeps (keepsControl_sample s)
  cases hint : s.sample.interrupt with
  | some n =>
    rw [step_of_interrupt hint]
    exact (hsample.takeTrap _ _).next
  | none =>
    rw [step_of_no_interrupt hint]
    exact runInstruction_leadsToInv hsample

/-- Settles O58: the invariant holds after a step by the lemma for each shape of instruction, each update of the state
between keeping the control fields or setting them to legal values. -/
theorem stepKeepsInvariant : Obligations.StepKeepsInvariant := by
  intro s t h hstep
  obtain ⟨hinv, hcfg⟩ := step_leadsToInv ⟨h, rfl⟩ t hstep
  exact ⟨hinv, hcfg⟩

end Sys2Proof.Machine

/-! ## Memory (20_memory.md R80, R81) -/

namespace Sys2Proof.Machine

open Sys2Proof

/-- Settles O3, by the laws of a single write. -/
theorem memoryWriteThenRead : Obligations.MemoryWriteThenRead := by
  intro m a b v hwf
  exact ⟨Memory.wf_write m a v hwf, Memory.read_write m a b v hwf⟩

/-- The low n base-256 digits of a number make it up modulo 256^n. -/
theorem sum_digits256 (v : Nat) : ∀ n,
    ((List.range n).map (fun k => v / 256 ^ k % 256 * 256 ^ k)).sum = v % 256 ^ n
  | 0 => (Nat.mod_one v).symm
  | n + 1 => by
    rw [List.range_succ, List.map_append, List.sum_append, sum_digits256 v n, List.map_singleton, List.sum_singleton,
      Nat.mod_pow_succ, Nat.mul_comm (256 ^ n)]

/-- Bytes of main memory that a number was written to read as that number, modulo 256^n. -/
theorem BytesWritten.littleEndian {s t : State} {a n v : Nat} (hcfg : t.cfg = s.cfg) (hmain : MainMemory s a n)
    (h : BytesWritten s t a n v) : t.littleEndian a n = v % 256 ^ n := by
  have hat : ∀ k, t.byteAt a k = s.byteAt a k := fun k => by
    rw [State.byteAt, State.byteAt, State.xlen, hcfg, State.xlen]
  rw [← sum_digits256, State.littleEndian]
  refine congrArg List.sum (List.map_congr_left fun k hk => ?_)
  have hk : k < n := List.mem_range.mp hk
  rw [hat, h.1 k hk (hmain k hk)]

theorem MainMemory.of_cfg {s t : State} {a n : Nat} (hcfg : t.cfg = s.cfg) (h : MainMemory s a n) :
    MainMemory t a n := by
  unfold MainMemory State.byteAt State.xlen at *
  rw [hcfg]
  exact h

/-- Settles O5: what is loaded after a store is the little-endian number of the bytes the store wrote. -/
theorem storedBytesAreLoadedLittleEndian : Obligations.StoredBytesAreLoadedLittleEndian := by
  intro s a v n hwf hn hmain
  obtain ⟨hval, hsame⟩ := s.readMem_main a n hn hmain
  have hwritten : BytesWritten s (s.writeMem a n v) a.toNat n v.toNat := s.writeMem_bytes a n v hwf hn
  have hcfg := s.writeMem_cfg a n v
  refine ⟨hval, hsame, hwritten, ?_⟩
  rw [((s.writeMem a n v).readMem_main a n hn (hmain.of_cfg hcfg)).1]
  exact hwritten.littleEndian hcfg hmain

end Sys2Proof.Machine

/-! ## Fetching a parcel (20_memory.md R83, R87, R101) -/

namespace Sys2Proof.Machine

open Sys2Proof

/-! ### Addresses of bytes -/

/-- The address of a byte depends on the address of the access modulo 2^XLEN. -/
theorem State.byteAt_mod (s : State) (a k : Nat) : s.byteAt (a % 2 ^ s.xlen) k = s.byteAt a k :=
  Nat.mod_add_mod a (2 ^ s.xlen) k

theorem State.byteAt_add (s : State) (a j k : Nat) : s.byteAt (a + j) k = s.byteAt a (j + k) := by
  rw [State.byteAt, State.byteAt, Nat.add_assoc]

theorem MainMemory.mono {s : State} {a m n : Nat} (h : MainMemory s a n) (hmn : m ≤ n) : MainMemory s a m :=
  fun j hj => h j (by omega)

theorem MainMemory.after {s : State} {a m n : Nat} (h : MainMemory s a (m + n)) : MainMemory s (a + m) n :=
  fun j hj => by
    rw [State.byteAt_add]
    exact h (m + j) (by omega)

theorem StoredTo.mono {s : State} {a m n : Nat} (h : StoredTo s a m) (hmn : m ≤ n) : StoredTo s a n := by
  obtain ⟨cells, hcells, c, hc, k, hk, hat⟩ := h
  exact ⟨cells, hcells, c, hc, k, by omega, hat⟩

theorem StoredTo.of_after {s : State} {a m n : Nat} (h : StoredTo s (a + m) n) : StoredTo s a (m + n) := by
  obtain ⟨cells, hcells, c, hc, k, hk, hat⟩ := h
  exact ⟨cells, hcells, c, hc, m + k, by omega, by rw [hat, State.byteAt_add]⟩

/-- The number of m + n bytes is made of those of the first m and of the n after them. -/
theorem State.littleEndian_add (s : State) (a m n : Nat) :
    s.littleEndian a (m + n) = s.littleEndian a m + 256 ^ m * s.littleEndian (a + m) n := by
  unfold State.littleEndian
  rw [List.range_add, List.map_append, List.sum_append, List.map_map, ← List.sum_map_mul_left]
  congr 3
  funext k
  rw [Function.comp_apply, State.byteAt_add, Nat.pow_add]
  ring

theorem State.littleEndian_two (s : State) (a : Nat) : s.littleEndian a 2 =
    (Memory.read s.mem (s.byteAt a 0)).toNat + 256 * (Memory.read s.mem (s.byteAt a 1)).toNat := by
  simp [State.littleEndian, List.range_succ, Nat.mul_comm]

theorem State.littleEndian_two_lt (s : State) (a : Nat) : s.littleEndian a 2 < 2 ^ 16 := littleEndian_lt s a 2

/-! ### The first halfword and the second -/

/-- The address of the second halfword of the parcel at pc. -/
def State.secondHalf (s : State) : Word := s.cfg.xlen.wrap (s.pc + 2)

theorem State.secondHalf_toNat (s : State) : s.secondHalf.toNat = (s.pc.toNat + 2) % 2 ^ s.xlen :=
  Xlen.wrap_add _ _ _

theorem State.byteAt_secondHalf (s : State) (k : Nat) :
    s.byteAt s.secondHalf.toNat k = s.byteAt (s.pc.toNat + 2) k := by
  rw [State.secondHalf_toNat, State.byteAt_mod]

theorem MainMemory.secondHalf {s : State} (h : MainMemory s s.pc.toNat 4) : MainMemory s s.secondHalf.toNat 2 :=
  fun j hj => by
    rw [State.byteAt_secondHalf]
    exact MainMemory.after h j hj

theorem storedTo_secondHalf_iff (s : State) : StoredTo s s.secondHalf.toNat 2 ↔ StoredTo s (s.pc.toNat + 2) 2 := by
  simp only [StoredTo, State.byteAt_secondHalf]

theorem State.littleEndian_secondHalf (s : State) :
    s.littleEndian s.secondHalf.toNat 2 = s.littleEndian (s.pc.toNat + 2) 2 := by
  simp only [State.littleEndian, State.byteAt_secondHalf]

/-- Where no store since the last `fence.i` wrote to it, a halfword of main memory is fetched as memory holds it. -/
theorem State.fetchHalf_of_not_storedTo {s : State} {a : Word} (hm : MainMemory s a.toNat 2)
    (hs : ¬StoredTo s a.toNat 2) : s.fetchHalf a = (BitVec.ofNat 16 (s.littleEndian a.toNat 2), s) := by
  obtain ⟨-, -, hnow⟩ := s.fetchHalf_spec a hm
  obtain ⟨hstate, hval⟩ := hnow hs
  refine Prod.ext (BitVec.eq_of_toNat_eq ?_) hstate
  rw [hval, ← State.littleEndian_two, BitVec.toNat_ofNat, Nat.mod_eq_of_lt (s.littleEndian_two_lt _)]

/-- The second halfword is fetched after the first, which may have used a free value. -/
theorem State.fetchHalf_second (s : State) (hm : MainMemory s s.pc.toNat 4) :
    HalfFetched s (s.pc.toNat + 2) ((s.fetchHalf s.pc).2.fetchHalf s.secondHalf).1 := by
  obtain ⟨-, ⟨d, hd, hstate⟩, -⟩ := s.fetchHalf_spec s.pc (hm.mono (by decide))
  rw [hstate]
  obtain ⟨⟨k, hk, hdraw, hval⟩, -⟩ := State.fetchHalf_spec { s with draws := d } s.secondHalf hm.secondHalf
  refine ⟨k, hk, fun h => ⟨d, hd, hdraw ((storedTo_secondHalf_iff s).mpr h)⟩, ?_⟩
  rw [← State.byteAt_secondHalf, ← State.byteAt_secondHalf]
  exact hval

/-! ### The parcel -/

/-- Each of the first n bytes at pc may be fetched, in the halfwords a fetch reads. -/
def State.MayFetch (s : State) (n : Nat) : Prop :=
  ∀ j, j < n → byteValid s.cfg .fetch 2 (s.byteAt s.pc.toNat j) = true

theorem memValid_fetch_iff (s : State) (a : Word) :
    memValid s.cfg .fetch a 2 = true ↔ ∀ j, j < 2 → byteValid s.cfg .fetch 2 (s.byteAt a.toNat j) = true := by
  unfold memValid byteAddrs State.byteAt State.xlen
  simp only [List.all_map, List.all_eq_true, List.mem_range, Function.comp_apply]

theorem State.mayFetch_four_iff (s : State) (h : s.MayFetch 2) :
    s.MayFetch 4 ↔ memValid s.cfg .fetch s.secondHalf 2 = true := by
  rw [memValid_fetch_iff]
  simp only [State.byteAt_secondHalf, State.byteAt_add]
  refine ⟨fun hall j hj => hall (2 + j) (by omega), fun hsecond j hj => ?_⟩
  by_cases hj2 : j < 2
  · exact h j hj2
  · obtain ⟨k, rfl⟩ := Nat.exists_eq_add_of_le (Nat.le_of_not_lt hj2)
    exact hsecond k (by omega)

/-- The lowest two bits of a halfword are 11 (30_encoding.md R121). -/
theorem lowBits_eq_three_iff (h : Half) : h.extractLsb' 0 2 = 0b11#2 ↔ h.toNat % 4 = 3 := by
  rw [← BitVec.toNat_inj, BitVec.extractLsb'_toNat, Nat.shiftRight_zero]
  rfl

theorem State.fetch_of_misaligned {s : State} (ha : s.pc.toNat % s.ialign ≠ 0) :
    s.fetch = .trap .instructionAddressMisaligned s.pc s := by
  unfold State.fetch
  rw [if_pos (by simpa [State.ialign] using ha)]

/-- The ways the fetch of an aligned parcel goes. -/
theorem State.fetch_of_aligned {s : State} (ha : s.pc.toNat % s.ialign = 0) :
    (¬s.MayFetch 2 → s.fetch = .trap .instructionAccessFault s.pc s) ∧
    (s.MayFetch 2 → (s.fetchHalf s.pc).1.toNat % 4 ≠ 3 →
      s.fetch = .done (.half (s.fetchHalf s.pc).1) (s.fetchHalf s.pc).2) ∧
    (s.MayFetch 2 → (s.fetchHalf s.pc).1.toNat % 4 = 3 → ¬s.MayFetch 4 →
      s.fetch = .trap .instructionAccessFault s.pc (s.fetchHalf s.pc).2) ∧
    (s.MayFetch 4 → (s.fetchHalf s.pc).1.toNat % 4 = 3 →
      s.fetch = .done (.word (((s.fetchHalf s.pc).2.fetchHalf s.secondHalf).1 ++ (s.fetchHalf s.pc).1))
        ((s.fetchHalf s.pc).2.fetchHalf s.secondHalf).2) := by
  have haligned : ¬(!(s.pc.toNat % (if s.cfg.extC then 2 else 4) == 0)) = true := by
    simpa [State.ialign] using ha
  have hfirst : (!memValid s.cfg .fetch s.pc 2) = true ↔ ¬s.MayFetch 2 := by
    rw [Bool.not_eq_true', ← Bool.not_eq_true, memValid_fetch_iff, State.MayFetch]
  have hlong : ((s.fetchHalf s.pc).1.extractLsb' 0 2 != 0b11#2) = true ↔ (s.fetchHalf s.pc).1.toNat % 4 ≠ 3 := by
    rw [bne_iff_ne, ne_eq, lowBits_eq_three_iff]
  have hsecond : s.MayFetch 2 → ((!memValid s.cfg .fetch s.secondHalf 2) = true ↔ ¬s.MayFetch 4) := fun h => by
    rw [Bool.not_eq_true', ← Bool.not_eq_true, s.mayFetch_four_iff h]
  unfold State.fetch
  rw [if_neg haligned]
  refine ⟨fun hv => ?_, fun hv hl => ?_, fun hv hl h4 => ?_, fun h4 hl => ?_⟩
  · rw [if_pos (hfirst.mpr hv)]
  · rw [if_neg (fun h => hfirst.mp h hv)]
    exact if_pos (hlong.mpr hl)
  · rw [if_neg (fun h => hfirst.mp h hv)]
    exact (if_neg (fun h => hlong.mp h hl)).trans (if_pos ((hsecond hv).mpr h4))
  · have hv : s.MayFetch 2 := fun j hj => h4 j (by omega)
    rw [if_neg (fun h => hfirst.mp h hv)]
    exact (if_neg (fun h => hlong.mp h hl)).trans (if_neg (fun h => (hsecond hv).mp h h4))

/-- A parcel in main memory, whatever stores since the last `fence.i` may show in it. -/
theorem State.fetch_main {s : State} (ha : s.pc.toNat % s.ialign = 0) (hv : s.MayFetch 2)
    (hm : MainMemory s s.pc.toNat 4) :
    ∃ low d, HalfFetched s s.pc.toNat low ∧
      (low.toNat % 4 ≠ 3 → s.fetch = .done (.half low) { s with draws := d }) ∧
      (low.toNat % 4 = 3 → s.MayFetch 4 →
        ∃ high e, HalfFetched s (s.pc.toNat + 2) high ∧ s.fetch = .done (.word (high ++ low)) { s with draws := e }) ∧
      (low.toNat % 4 = 3 → ¬s.MayFetch 4 →
        s.fetch = .trap .instructionAccessFault s.pc { s with draws := d }) := by
  obtain ⟨-, hhalf, hfault, hword⟩ := State.fetch_of_aligned ha
  obtain ⟨d, hlow⟩ := s.fetchHalf_state s.pc
  obtain ⟨e, hhigh⟩ : ∃ e, ((s.fetchHalf s.pc).2.fetchHalf s.secondHalf).2 = { s with draws := e } := by
    rw [hlow]
    exact State.fetchHalf_state _ _
  refine ⟨(s.fetchHalf s.pc).1, d, s.fetchHalf_fetched s.pc (hm.mono (by decide)), fun hl => ?_,
    fun hl h4 => ⟨_, e, s.fetchHalf_second hm, ?_⟩, fun hl h4 => ?_⟩
  · rw [hhalf hv hl, hlow]
  · rw [hword h4 hl, hhigh]
  · rw [hfault hv hl h4, hlow]

/-- The word at pc is its second halfword above its first. -/
theorem State.littleEndian_halves (s : State) :
    BitVec.ofNat 16 (s.littleEndian (s.pc.toNat + 2) 2) ++ BitVec.ofNat 16 (s.littleEndian s.pc.toNat 2) =
      BitVec.ofNat 32 (s.littleEndian s.pc.toNat 4) := by
  have hlow := s.littleEndian_two_lt s.pc.toNat
  have hhigh := s.littleEndian_two_lt (s.pc.toNat + 2)
  apply BitVec.eq_of_toNat_eq
  rw [State.littleEndian_add s s.pc.toNat 2 2, BitVec.toNat_append, BitVec.toNat_ofNat, BitVec.toNat_ofNat,
    BitVec.toNat_ofNat, Nat.mod_eq_of_lt hlow, Nat.mod_eq_of_lt hhigh, ← Nat.shiftLeft_add_eq_or_of_lt hlow,
    Nat.shiftLeft_eq]
  omega

/-- A parcel in main memory that no store since the last `fence.i` wrote to. -/
theorem State.fetch_main_of_not_storedTo {s : State} (ha : s.pc.toNat % s.ialign = 0) (hv : s.MayFetch 2)
    (hm : MainMemory s s.pc.toNat 4) (hs : ¬StoredTo s s.pc.toNat 4) :
    (s.littleEndian s.pc.toNat 2 % 4 ≠ 3 →
      s.fetch = .done (.half (BitVec.ofNat 16 (s.littleEndian s.pc.toNat 2))) s) ∧
    (s.littleEndian s.pc.toNat 2 % 4 = 3 → s.MayFetch 4 →
      s.fetch = .done (.word (BitVec.ofNat 32 (s.littleEndian s.pc.toNat 4))) s) ∧
    (s.littleEndian s.pc.toNat 2 % 4 = 3 → ¬s.MayFetch 4 → s.fetch = .trap .instructionAccessFault s.pc s) := by
  have hlow := State.fetchHalf_of_not_storedTo (hm.mono (by decide)) (fun h => hs (h.mono (by decide)))
  have hhigh := State.fetchHalf_of_not_storedTo hm.secondHalf
    (fun h => hs ((storedTo_secondHalf_iff s).mp h).of_after)
  have hbits : (BitVec.ofNat 16 (s.littleEndian s.pc.toNat 2)).toNat = s.littleEndian s.pc.toNat 2 := by
    rw [BitVec.toNat_ofNat, Nat.mod_eq_of_lt (s.littleEndian_two_lt _)]
  obtain ⟨-, hhalf, hfault, hword⟩ := State.fetch_of_aligned ha
  rw [hlow, hbits] at hhalf hfault hword
  refine ⟨hhalf hv, fun hl h4 => ?_, hfault hv⟩
  rw [hword h4 hl, hhigh, State.littleEndian_secondHalf, State.littleEndian_halves]

/-- Settles O12, from the cases of a fetch. -/
theorem fetchReadsTheParcelAtPc : Obligations.FetchReadsTheParcelAtPc := by
  intro s _
  exact ⟨State.fetch_of_misaligned, fun ha => (State.fetch_of_aligned ha).1, State.fetch_main,
    State.fetch_main_of_not_storedTo⟩

end Sys2Proof.Machine

/-! ## Atomic memory operations (45_atomics.md R320 to R338; 20_memory.md R100) -/

namespace Sys2Proof.Machine

open Sys2Proof

/-! ### The operations as functions of numbers -/

/-- At width w, with the second operand b modulo 2^w, the operation computes `new` of the first modulo 2^w. -/
def Computes (w : Nat) (f : BinOp) (b : Nat) (new : Nat → Nat) : Prop :=
  ∀ t c : BitVec w, c.toNat = b % 2 ^ w → (f w t c).toNat = new t.toNat % 2 ^ w

theorem opSwap_computes (w b : Nat) : Computes w opSwap b (fun _ => b) := fun _ _ hc => hc

theorem opAdd_computes (w b : Nat) : Computes w opAdd b (fun t => t + b) := fun t c hc => by
  rw [opAdd, BitVec.toNat_add, hc, Nat.add_mod_mod]

theorem opAnd_computes (w b : Nat) : Computes w opAnd b (fun t => t &&& b) := fun t c hc => by
  rw [opAnd, BitVec.toNat_and, hc, Nat.and_mod_two_pow, Nat.mod_eq_of_lt t.isLt]

theorem opOr_computes (w b : Nat) : Computes w opOr b (fun t => t ||| b) := fun t c hc => by
  rw [opOr, BitVec.toNat_or, hc, Nat.or_mod_two_pow, Nat.mod_eq_of_lt t.isLt]

theorem opXor_computes (w b : Nat) : Computes w opXor b (fun t => t ^^^ b) := fun t c hc => by
  rw [opXor, BitVec.toNat_xor, hc, Nat.xor_mod_two_pow, Nat.mod_eq_of_lt t.isLt]

section

variable {w b b' : Nat} (hb : b' = b % 2 ^ w)

include hb

theorem opMax_computes (hw : 0 < w) :
    Computes w opMax b (fun t => if signedOf w t < signedOf w b' then b else t) := fun t c hc => by
  subst hb
  simp only [opMax, ← hc, signedOf_toNat hw]
  split
  · exact hc
  · exact (Nat.mod_eq_of_lt t.isLt).symm

theorem opMin_computes (hw : 0 < w) :
    Computes w opMin b (fun t => if signedOf w b' < signedOf w t then b else t) := fun t c hc => by
  subst hb
  simp only [opMin, ← hc, signedOf_toNat hw]
  split
  · exact hc
  · exact (Nat.mod_eq_of_lt t.isLt).symm

theorem opMaxu_computes : Computes w opMaxu b (fun t => max t b') := fun t c hc => by
  subst hb
  have hlt : max t.toNat c.toNat < 2 ^ w := max_lt t.isLt c.isLt
  rw [← hc, Nat.mod_eq_of_lt hlt, opMaxu]
  split <;> omega

theorem opMinu_computes : Computes w opMinu b (fun t => min t b') := fun t c hc => by
  subst hb
  have hlt : min t.toNat c.toNat < 2 ^ w := min_lt_of_left_lt t.isLt
  rw [← hc, Nat.mod_eq_of_lt hlt, opMinu]
  split <;> omega

end

/-! ### The two widths -/

theorem signedBytes_eight (v : Word) : signedBytes 8 v = v := by
  rw [signedBytes, BitVec.setWidth_eq, BitVec.signExtend_eq]

/-- The `.w` forms run an operation on 32-bit numbers. -/
theorem amoW_spec {f : BinOp} {new : Nat → Nat} {s : State} {rs2 : Reg} (rd rs1 : Reg) (hm : Memory.wf s.mem = true)
    (hf : Computes 32 f (s.ux rs2) new) : AmoMeets (amoW f rd rs1 rs2 s) s rd (s.ux rs1) 4 new := by
  refine amo_spec 4 _ _ new rd rs1 rs2 s (by decide) hm (fun t ht => ?_)
    (fun t ht => signedBytes_toNat 4 t s (by decide) ht)
  have ht' : (t.setWidth 32).toNat = t.toNat := by
    rw [BitVec.toNat_setWidth]
    exact Nat.mod_eq_of_lt ht
  have hval := hf (t.setWidth 32) ((s.readX rs2).setWidth 32) (BitVec.toNat_setWidth ..)
  rw [ht'] at hval
  rw [BitVec.toNat_setWidth_of_le (by decide), hval]
  exact Nat.mod_mod _ _

/-- The `.d` forms run an operation on 64-bit numbers. -/
theorem amoD_spec {f : BinOp} {new : Nat → Nat} {s : State} {rs2 : Reg} (rd rs1 : Reg) (hm : Memory.wf s.mem = true)
    (hf : Computes 64 f (s.ux rs2) new) : AmoMeets (amoD f rd rs1 rs2 s) s rd (s.ux rs1) 8 new := by
  refine amo_spec 8 _ _ new rd rs1 rs2 s (by decide) hm (fun t ht => ?_) (fun t ht => ?_)
  · rw [hf t (s.readX rs2) (Nat.mod_eq_of_lt (s.readX rs2).isLt).symm]
    exact Nat.mod_mod _ _
  · have hsigned := signedBytes_toNat 8 t s (by decide) ht
    rwa [signedBytes_eight] at hsigned

/-- Settles O28: each AMO is the shared shape of its width with an operation that computes the statement's number. -/
theorem atomicOperationsUpdateMemory : Obligations.AtomicOperationsUpdateMemory := by
  rintro s rd rs1 rs2 aq rl a b hm rfl rfl
  have hword : ∀ {f new}, Computes 32 f (s.ux rs2) new → AmoMeets (amoW f rd rs1 rs2 s) s rd (s.ux rs1) 4 new :=
    amoW_spec rd rs1 hm
  have hdouble : ∀ {f new}, Computes 64 f (s.ux rs2) new → AmoMeets (amoD f rd rs1 rs2 s) s rd (s.ux rs1) 8 new :=
    amoD_spec rd rs1 hm
  have hreg : s.ux rs2 = s.ux rs2 % 2 ^ 64 := (Nat.mod_eq_of_lt (s.readX rs2).isLt).symm
  exact ⟨hword (opSwap_computes 32 _), hword (opAdd_computes 32 _), hword (opAnd_computes 32 _),
    hword (opOr_computes 32 _), hword (opXor_computes 32 _), hword (opMax_computes rfl (by decide)),
    hword (opMin_computes rfl (by decide)), hword (opMaxu_computes rfl), hword (opMinu_computes rfl),
    fun _ => ⟨hdouble (opSwap_computes 64 _), hdouble (opAdd_computes 64 _), hdouble (opAnd_computes 64 _),
      hdouble (opOr_computes 64 _), hdouble (opXor_computes 64 _), hdouble (opMax_computes hreg (by decide)),
      hdouble (opMin_computes hreg (by decide)), hdouble (opMaxu_computes hreg), hdouble (opMinu_computes hreg)⟩⟩

end Sys2Proof.Machine

/-! ## Decoding and encoding (30_encoding.md R121 to R155) -/

namespace Sys2Proof.Machine

open Sys2Proof

/-! ### Bits at a place -/

/-- The bits of `h` from bit `s` on are `x`: what an encoding line says of one field. -/
def BitsAt {w l : Nat} (h : BitVec w) (s : Nat) (x : BitVec l) : Prop := h.extractLsb' s l = x

/-- A concatenation stands in `h` where its two parts stand next to each other. -/
theorem bitsAt_append {w m n s : Nat} {h : BitVec w} {x : BitVec m} {y : BitVec n} :
    BitsAt h s (x ++ y) ↔ BitsAt h (s + n) x ∧ BitsAt h s y := by
  unfold BitsAt
  rw [← slice_join]
  constructor
  · intro hxy
    have hx := congrArg (BitVec.extractLsb' n m) hxy
    have hy := congrArg (BitVec.extractLsb' 0 n) hxy
    simp only [BitVec.extractLsb'_append_eq_left, BitVec.extractLsb'_append_eq_right] at hx hy
    exact ⟨hx, hy⟩
  · rintro ⟨rfl, rfl⟩
    rfl

theorem eq_iff_bitsAt_zero {w : Nat} {x h : BitVec w} : x = h ↔ BitsAt h 0 x := by
  rw [BitsAt, BitVec.extractLsb'_eq_self]
  exact eq_comm

/-- One bit as a slice of width 1 and as a Boolean. -/
theorem bitsAt_ofBool_iff {w i : Nat} {h : BitVec w} {b : Bool} :
    BitsAt h i (BitVec.ofBool b) ↔ h.getLsbD i = b := by
  rw [BitsAt, BitVec.getLsbD_eq_extractLsb']
  generalize h.extractLsb' i 1 = y
  revert y b
  decide

/-! ### A word is written by a format exactly when its fields are the operands (R124 to R130) -/

section

variable {w : Word32} {f7 : BitVec 7} {f6 shamt : BitVec 6} {f5 : BitVec 5} {aq rl : Bool} {fmt : BitVec 2}
  {imm off : BitVec 12} {imm20 off20 : BitVec 20} {rs3 rs2 rs1 : Reg} {f3 : BitVec 3} {rd : Reg} {op : BitVec 7}

theorem rType_eq_iff : rType f7 rs2 rs1 f3 rd op = w ↔
    funct7 w = f7 ∧ rs2Of w = rs2 ∧ rs1Of w = rs1 ∧ funct3 w = f3 ∧ rdOf w = rd ∧ opcode w = op := by
  rw [eq_iff_bitsAt_zero]
  simp only [rType, bitsAt_append, and_assoc]
  rfl

theorem iType_eq_iff : iType imm rs1 f3 rd op = w ↔
    immI w = imm ∧ rs1Of w = rs1 ∧ funct3 w = f3 ∧ rdOf w = rd ∧ opcode w = op := by
  rw [eq_iff_bitsAt_zero]
  simp only [iType, bitsAt_append, and_assoc]
  rfl

theorem shType_eq_iff : shType f6 shamt rs1 f3 rd op = w ↔
    funct6 w = f6 ∧ w.extractLsb' 20 6 = shamt ∧ rs1Of w = rs1 ∧ funct3 w = f3 ∧ rdOf w = rd ∧ opcode w = op := by
  rw [eq_iff_bitsAt_zero]
  simp only [shType, bitsAt_append, and_assoc]
  rfl

theorem aType_eq_iff : aType f5 aq rl rs2 rs1 f3 rd op = w ↔
    funct5 w = f5 ∧ w.getLsbD 26 = aq ∧ w.getLsbD 25 = rl ∧ rs2Of w = rs2 ∧ rs1Of w = rs1 ∧ funct3 w = f3 ∧
      rdOf w = rd ∧ opcode w = op := by
  rw [eq_iff_bitsAt_zero]
  simp only [aType, bitsAt_append, bitsAt_ofBool_iff, and_assoc]
  rfl

theorem uType_eq_iff : uType imm20 rd op = w ↔ immU w = imm20 ∧ rdOf w = rd ∧ opcode w = op := by
  rw [eq_iff_bitsAt_zero]
  simp only [uType, bitsAt_append, and_assoc]
  rfl

theorem r4Type_eq_iff : r4Type rs3 fmt rs2 rs1 f3 rd op = w ↔
    rs3Of w = rs3 ∧ fmtR4 w = fmt ∧ rs2Of w = rs2 ∧ rs1Of w = rs1 ∧ funct3 w = f3 ∧ rdOf w = rd ∧ opcode w = op := by
  rw [eq_iff_bitsAt_zero]
  simp only [r4Type, bitsAt_append, and_assoc]
  rfl

theorem sType_eq_iff : sType off rs2 rs1 f3 op = w ↔
    immS w = off ∧ rs2Of w = rs2 ∧ rs1Of w = rs1 ∧ funct3 w = f3 ∧ opcode w = op := by
  constructor
  · rintro rfl
    simp
  · rintro ⟨rfl, rfl, rfl, rfl, rfl⟩
    rw [eq_iff_bitsAt_zero]
    simp (disch := decide) only [sType, immS, bitsAt_append, slice_hi, slice_lo, and_assoc]
    simp only [Nat.reduceSub, BitVec.extractLsb'_eq_self]
    exact ⟨rfl, rfl, rfl, rfl, rfl, rfl⟩

theorem bType_eq_iff : bType off rs2 rs1 f3 op = w ↔
    offB w = off ∧ rs2Of w = rs2 ∧ rs1Of w = rs1 ∧ funct3 w = f3 ∧ opcode w = op := by
  constructor
  · rintro rfl
    simp
  · rintro ⟨rfl, rfl, rfl, rfl, rfl⟩
    rw [eq_iff_bitsAt_zero]
    simp (disch := decide) only [bType, offB, bitsAt_append, slice_hi, slice_lo, and_assoc]
    simp only [Nat.reduceSub, BitVec.extractLsb'_eq_self]
    exact ⟨rfl, rfl, rfl, rfl, rfl, rfl, rfl, rfl⟩

theorem jType_eq_iff : jType off20 rd op = w ↔ offJ w = off20 ∧ rdOf w = rd ∧ opcode w = op := by
  constructor
  · rintro rfl
    simp
  · rintro ⟨rfl, rfl, rfl⟩
    rw [eq_iff_bitsAt_zero]
    simp (disch := decide) only [jType, offJ, bitsAt_append, slice_hi, slice_lo, and_assoc]
    simp only [Nat.reduceSub, BitVec.extractLsb'_eq_self]
    exact ⟨rfl, rfl, rfl, rfl, rfl, rfl⟩

/-- The I-type immediate of `fence` is made of fm, pred and succ (R289). -/
theorem immI_eq_fence_iff {fm pred succ : BitVec 4} : immI w = fm ++ pred ++ succ ↔
    w.extractLsb' 28 4 = fm ∧ w.extractLsb' 24 4 = pred ∧ w.extractLsb' 20 4 = succ := by
  change BitsAt w 20 (fm ++ pred ++ succ) ↔ _
  simp only [bitsAt_append, and_assoc]
  rfl

/-- A word whose I-type immediate is given has the R-type fields that the immediate overlaps. -/
theorem funct7_of_immI (h : immI w = imm) : funct7 w = imm.extractLsb' 5 7 := by
  have hparts : immI w = funct7 w ++ rs2Of w := (slice_join w 20 7 5).symm
  rw [← h, hparts, BitVec.extractLsb'_append_eq_left]

end

/-! ### The decoder is a row and two checks (R150) -/

theorem decode_eq_some_iff {c : Config} {p : Parcel} {i : Instr} :
    decode c p = some i ↔ decodeRow c.xlen p = some i ∧ i.wf = true ∧ i.available c = true := by
  unfold decode
  cases decodeRow c.xlen p with
  | none => simp
  | some j =>
    by_cases h : (j.wf && j.available c) = true
    · simp only [h, if_true, Option.some.injEq]
      constructor
      · rintro rfl
        exact ⟨rfl, Bool.and_eq_true_iff.mp h⟩
      · exact And.left
    · simp only [h]
      constructor
      · nofun
      · rintro ⟨⟨⟩, hchecks⟩
        exact absurd (Bool.and_eq_true_iff.mpr hchecks) h

/-! ### The row of an encoded 32-bit instruction -/

/-- `sfence.vma` shares its opcode and funct3 with `ecall` and `ebreak`, whose immediates have another funct7. -/
theorem decodeSystem_sfenceVma (rs1 rs2 : Reg) :
    decodeSystem (rType 0b0001001#7 rs2 rs1 0b000#3 0#5 0b1110011#7) = some (.sfenceVma rs1 rs2) := by
  have himm : ∀ imm : BitVec 12, imm.extractLsb' 5 7 ≠ 0b0001001#7 →
      immI (rType 0b0001001#7 rs2 rs1 0b000#3 0#5 0b1110011#7) ≠ imm :=
    fun imm hne h => hne ((funct7_of_immI h).symm.trans (funct7_rType ..))
  have hecall := himm 0b000000000000#12 (by decide)
  have hebreak := himm 0b000000000001#12 (by decide)
  simp [decodeSystem, hecall, hebreak]

theorem decodeMiscMem_fence (pred succ : BitVec 4) :
    decodeMiscMem (iType (0b0000#4 ++ pred ++ succ) 0 0b000 0 0b0001111) = some (.fence pred succ) := by
  obtain ⟨hfm, hpred, hsucc⟩ :=
    immI_eq_fence_iff.mp (immI_iType (0b0000#4 ++ pred ++ succ) 0 0b000 0 0b0001111)
  simp only [decodeMiscMem, hfm, hpred, hsucc, rs1Of_iType, funct3_iType, rdOf_iType]
  rfl

theorem decodeRow_of_word {xl : Xlen} {i : Instr} {w : Word32} (he : encodeOne i = .word w)
    (hd : decodeWord w = some i) : decodeRow xl (encodeOne i) = some i := by
  rw [he]
  exact hd

/-- Each machine instruction of 32 bits is read back by the function of its major opcode (R147): the fields are the
operands by the lemmas of the format, and no earlier row of the opcode has the same constant bits. -/
theorem decodeRow_encodeOne_of_word {i : Instr} (xl : Xlen) (hp : i.isPseudo = false) (hc : i.isCompressed = false) :
    decodeRow xl (encodeOne i) = some i := by
  cases i <;> cases hp <;> cases hc
  case add | and | or | sll | slt | sltu | sra | srl | sub | xor | mul | mulh | mulhsu | mulhu | div | divu | rem |
      remu =>
    exact decodeRow_of_word rfl (by simp [decodeWord, decodeOp])
  case addi | andi | ori | slli | slti | sltiu | srai | srli | xori =>
    exact decodeRow_of_word rfl (by simp [decodeWord, decodeOpImm])
  case addiw | slliw | sraiw | srliw =>
    exact decodeRow_of_word rfl (by simp [decodeWord, decodeOpImm32])
  case addw | sllw | sraw | srlw | subw | mulw | divw | divuw | remw | remuw =>
    exact decodeRow_of_word rfl (by simp [decodeWord, decodeOp32])
  case auipc =>
    exact decodeRow_of_word rfl (by simp [decodeWord, decodeAuipc])
  case lui =>
    exact decodeRow_of_word rfl (by simp [decodeWord, decodeLui])
  case beq | bge | bgeu | blt | bltu | bne =>
    exact decodeRow_of_word rfl (by simp [decodeWord, decodeBranch])
  case jal =>
    exact decodeRow_of_word rfl (by simp [decodeWord, decodeJal])
  case jalr =>
    exact decodeRow_of_word rfl (by simp [decodeWord, decodeJalr])
  case lb | lbu | ld | lh | lhu | lw | lwu =>
    exact decodeRow_of_word rfl (by simp [decodeWord, decodeLoad])
  case sb | sd | sh | sw =>
    exact decodeRow_of_word rfl (by simp [decodeWord, decodeStore])
  case csrrw | csrrs | csrrc | csrrwi | csrrsi | csrrci =>
    exact decodeRow_of_word rfl (by simp [decodeWord, decodeSystem])
  case fenceI =>
    exact decodeRow_of_word rfl (by simp [decodeWord, decodeMiscMem])
  case amoaddD | amoaddW | amoandD | amoandW | amomaxD | amomaxW | amomaxuD | amomaxuW | amominD | amominW | amominuD
      | amominuW | amoorD | amoorW | amoswapD | amoswapW | amoxorD | amoxorW | lrD | lrW | scD | scW =>
    exact decodeRow_of_word rfl (by simp [decodeWord, decodeAmo])
  case faddS | fclassS | fcvtLS | fcvtLuS | fcvtSL | fcvtSLu | fcvtSW | fcvtSWu | fcvtWS | fcvtWuS | fdivS | feqS |
      fleS | fltS | fmaxS | fminS | fmulS | fmvWX | fmvXW | fsgnjS | fsgnjnS | fsgnjxS | fsqrtS | fsubS | faddD |
      fclassD | fcvtDL | fcvtDLu | fcvtDS | fcvtDW | fcvtDWu | fcvtLD | fcvtLuD | fcvtSD | fcvtWD | fcvtWuD | fdivD |
      feqD | fleD | fltD | fmaxD | fminD | fmulD | fmvDX | fmvXD | fsgnjD | fsgnjnD | fsgnjxD | fsqrtD | fsubD =>
    exact decodeRow_of_word rfl (by simp [decodeWord, decodeOpFp])
  case flw | fld =>
    exact decodeRow_of_word rfl (by simp [decodeWord, decodeLoadFp])
  case fmaddS | fmaddD =>
    exact decodeRow_of_word rfl (by simp [decodeWord, decodeMadd])
  case fmsubS | fmsubD =>
    exact decodeRow_of_word rfl (by simp [decodeWord, decodeMsub])
  case fnmaddS | fnmaddD =>
    exact decodeRow_of_word rfl (by simp [decodeWord, decodeNmadd])
  case fnmsubS | fnmsubD =>
    exact decodeRow_of_word rfl (by simp [decodeWord, decodeNmsub])
  case fsw | fsd =>
    exact decodeRow_of_word rfl (by simp [decodeWord, decodeStoreFp])
  case ecall | ebreak | mret | sret | wfi =>
    rfl
  case sfenceVma rs1 rs2 =>
    exact decodeRow_of_word rfl (by simpa [decodeWord] using decodeSystem_sfenceVma rs1 rs2)
  case fence pred succ =>
    exact decodeRow_of_word rfl (by simpa [decodeWord] using decodeMiscMem_fence pred succ)

/-- Settles O7: the row of the encoding is the instruction, and both checks of the decoder are hypotheses. -/
theorem wordEncodingRoundTrip : Obligations.WordEncodingRoundTrip := fun c _ hp hc hwf hav =>
  decode_eq_some_iff.mpr ⟨decodeRow_encodeOne_of_word c.xlen hp hc, hwf, hav⟩

/-! ### Halfwords field by field (R148, R149) -/

theorem half_eq_half_iff {x h : Half} : Parcel.half x = .half h ↔ BitsAt h 0 x := by
  rw [Parcel.half.injEq, eq_iff_bitsAt_zero]

/-! The encoding lines join neighbouring constant fields; these are the fields that the decoder compares. -/

theorem funct4_1000 : 0b1000#4 = 0b100#3 ++ 0b0#1 := rfl
theorem funct4_1001 : 0b1001#4 = 0b100#3 ++ 0b1#1 := rfl
theorem funct6_100011 : 0b100011#6 = 0b100#3 ++ 0b0#1 ++ 0b11#2 := rfl
theorem funct6_100111 : 0b100111#6 = 0b100#3 ++ 0b1#1 ++ 0b11#2 := rfl
theorem zero_rs2_op_10 : 0b0000010#7 = 0b00000#5 ++ 0b10#2 := rfl
theorem cEbreak_fields : 0b1001000000000010#16 = 0b100#3 ++ 0b1#1 ++ 0b00000#5 ++ 0b00000#5 ++ 0b10#2 := rfl

section

variable {h : Half}

theorem bits_12_10_eq_011_iff :
    h.extractLsb' 10 3 = 0b011#3 ↔ h.extractLsb' 12 1 = 0b0#1 ∧ h.extractLsb' 10 2 = 0b11#2 :=
  bitsAt_append (x := 0b0#1) (y := 0b11#2)

theorem bits_12_10_eq_111_iff :
    h.extractLsb' 10 3 = 0b111#3 ↔ h.extractLsb' 12 1 = 0b1#1 ∧ h.extractLsb' 10 2 = 0b11#2 :=
  bitsAt_append (x := 0b1#1) (y := 0b11#2)

theorem bits_12_2_eq_cEbreak_iff : h.extractLsb' 2 11 = 0b10000000000#11 ↔
    (h.extractLsb' 12 1 = 0b1#1 ∧ h.extractLsb' 7 5 = 0b00000#5) ∧ h.extractLsb' 2 5 = 0b00000#5 :=
  (bitsAt_append (x := 0b1#1 ++ 0b00000#5) (y := 0b00000#5)).trans (and_congr_left fun _ => bitsAt_append)

end

/-! ### The row of an encoded compressed instruction -/

/-- Each compressed instruction is read back by the function of its quadrant: `he` lists the fields of the halfword,
the forms that share bits are told apart by XLEN (R153) or by the operands that R151 shuts out, and the pieces of an
immediate join again. -/
theorem decodeHalf_of_encodeOne {c : Config} {i : Instr} {h : Half} (he : encodeOne i = .half h)
    (hc : i.isCompressed = true) (hwf : i.wf = true) (hav : i.available c = true) : decodeHalf c.xlen h = some i := by
  cases i <;> cases hc
  all_goals
    replace he := half_eq_half_iff.mp he
    simp only [funct4_1000, funct4_1001, funct6_100011, funct6_100111, zero_rs2_op_10, cEbreak_fields,
      bitsAt_append] at he
    simp only [BitsAt, Nat.reduceAdd] at he
  case cAddi4spn | cFld | cLw | cFsd | cSw | cAddi | cLi | cAddi16sp | cJ | cBeqz | cBnez | cSlli | cFldsp | cLwsp |
      cFsdsp | cSwsp =>
    simp only [decodeHalf, decodeQuadrant0, decodeQuadrant1, decodeQuadrant2, he, BitVec.reduceEq, ↓reduceIte,
      BitVec.extractLsb'_append_extractLsb'_eq_extractLsb', BitVec.extractLsb'_eq_self]
  case cFlw | cFsw | cFlwsp | cFswsp =>
    have hxl : c.xlen = .rv32 := beq_iff_eq.mp (Bool.and_eq_true_iff.mp (Bool.and_eq_true_iff.mp hav).1).1
    simp only [decodeHalf, decodeQuadrant0, decodeQuadrant2, hxl, he, BitVec.reduceEq, ↓reduceIte,
      BitVec.extractLsb'_append_extractLsb'_eq_extractLsb', BitVec.extractLsb'_eq_self]
  case cJal =>
    have hxl : c.xlen = .rv32 := beq_iff_eq.mp (Bool.and_eq_true_iff.mp hav).1
    simp only [decodeHalf, decodeQuadrant1, hxl, he, BitVec.reduceEq, ↓reduceIte,
      BitVec.extractLsb'_append_extractLsb'_eq_extractLsb', BitVec.extractLsb'_eq_self]
  case cLd | cSd | cAddiw | cLdsp | cSdsp =>
    have hxl : c.xlen = .rv64 := beq_iff_eq.mp (Bool.and_eq_true_iff.mp hav).1
    simp only [decodeHalf, decodeQuadrant0, decodeQuadrant1, decodeQuadrant2, hxl, he, BitVec.reduceEq, ↓reduceIte,
      BitVec.extractLsb'_append_extractLsb'_eq_extractLsb', BitVec.extractLsb'_eq_self]
  case cLui rd imm =>
    have hrd : rd ≠ 2#5 := bne_iff_ne.mp (Bool.and_eq_true_iff.mp hwf).1
    simp only [decodeHalf, decodeQuadrant1, hrd, he, BitVec.reduceEq, ↓reduceIte,
      BitVec.extractLsb'_append_extractLsb'_eq_extractLsb', BitVec.extractLsb'_eq_self]
  case cAnd | cAddw | cOr | cSub | cSubw | cXor =>
    simp only [decodeHalf, decodeQuadrant1, bits_12_10_eq_011_iff, bits_12_10_eq_111_iff, and_true, and_false, he,
      BitVec.reduceEq, ↓reduceIte]
  case cAndi | cSrai | cSrli =>
    simp only [decodeHalf, decodeQuadrant1, bits_12_10_eq_011_iff, bits_12_10_eq_111_iff, and_false, false_and, he,
      BitVec.reduceEq, ↓reduceIte, BitVec.extractLsb'_append_extractLsb'_eq_extractLsb', BitVec.extractLsb'_eq_self]
  case cEbreak | cJr =>
    simp only [decodeHalf, decodeQuadrant2, bits_12_2_eq_cEbreak_iff, and_true, false_and, he, BitVec.reduceEq,
      ↓reduceIte]
  case cJalr rs1 =>
    have hrs1 : rs1 ≠ 0#5 := bne_iff_ne.mp hwf
    simp only [decodeHalf, decodeQuadrant2, bits_12_2_eq_cEbreak_iff, hrs1, and_true, and_false, he, BitVec.reduceEq,
      ↓reduceIte]
  case cMv rd rs2 =>
    have hrs2 : rs2 ≠ 0#5 := bne_iff_ne.mp hwf
    simp only [decodeHalf, decodeQuadrant2, bits_12_2_eq_cEbreak_iff, hrs2, and_false, he, BitVec.reduceEq,
      ↓reduceIte]
  case cAdd rd rs2 =>
    have hrs2 : rs2 ≠ 0#5 := bne_iff_ne.mp (Bool.and_eq_true_iff.mp hwf).2
    simp only [decodeHalf, decodeQuadrant2, bits_12_2_eq_cEbreak_iff, hrs2, and_false, he, BitVec.reduceEq,
      ↓reduceIte]

theorem encodeOne_of_compressed {i : Instr} (hc : i.isCompressed = true) : ∃ h, encodeOne i = .half h := by
  cases i <;> cases hc <;> exact ⟨_, rfl⟩

/-- Settles O8: the row of the encoding is the instruction, and both checks of the decoder are hypotheses. -/
theorem compressedEncodingRoundTrip : Obligations.CompressedEncodingRoundTrip := by
  intro c i hc hwf hav
  obtain ⟨h, he⟩ := encodeOne_of_compressed hc
  rw [he]
  exact decode_eq_some_iff.mpr ⟨decodeHalf_of_encodeOne he hc hwf hav, hwf, hav⟩

/-! ### What a row gives encodes to the parcel -/

/-- The answer `r` of a decoder to the parcel `p` loses no bit: an instruction it gives is a machine instruction whose
encoding is `p`. -/
def Faithful (p : Parcel) (r : Option Instr) : Prop := ∀ i, r = some i → encodeOne i = p ∧ i.isPseudo = false

section

variable {p : Parcel} {P : Prop} [Decidable P] {r r' : Option Instr} {i : Instr}

theorem faithful_none : Faithful p none := nofun

theorem faithful_some (he : encodeOne i = p) (hp : i.isPseudo = false) : Faithful p (some i) := by
  rintro _ ⟨⟩
  exact ⟨he, hp⟩

theorem faithful_ite (hthen : P → Faithful p r) (helse : Faithful p r') : Faithful p (if P then r else r') := by
  split
  next h => exact hthen h
  next => exact helse

/-- One row of the table: an instruction under the condition on its constant bits. -/
theorem faithful_row (he : P → encodeOne i = p) (hp : i.isPseudo = false) (hrest : Faithful p r) :
    Faithful p (if P then some i else r) :=
  faithful_ite (fun h => faithful_some (he h) hp) hrest

end

/-! The functions of the major opcodes: the word of a row is the row's format applied to its fields, each of which is
either read as an operand or compared as a constant. -/

section

variable {w : Word32}

theorem decodeOp_faithful (hop : opcode w = 0b0110011#7) : Faithful (.word w) (decodeOp w) := by
  repeat refine faithful_row (fun hrow => congrArg Parcel.word (rType_eq_iff.mpr (by simp [hrow, hop]))) rfl ?_
  exact faithful_none

theorem decodeOpImm_faithful (hop : opcode w = 0b0010011#7) : Faithful (.word w) (decodeOpImm w) := by
  iterate 3 refine faithful_row (fun hrow => congrArg Parcel.word (iType_eq_iff.mpr (by simp [hrow, hop]))) rfl ?_
  refine faithful_row (fun hrow => congrArg Parcel.word (shType_eq_iff.mpr (by simp [hrow, hop]))) rfl ?_
  iterate 2 refine faithful_row (fun hrow => congrArg Parcel.word (iType_eq_iff.mpr (by simp [hrow, hop]))) rfl ?_
  iterate 2 refine faithful_row (fun hrow => congrArg Parcel.word (shType_eq_iff.mpr (by simp [hrow, hop]))) rfl ?_
  refine faithful_row (fun hrow => congrArg Parcel.word (iType_eq_iff.mpr (by simp [hrow, hop]))) rfl ?_
  exact faithful_none

theorem decodeOpImm32_faithful (hop : opcode w = 0b0011011#7) : Faithful (.word w) (decodeOpImm32 w) := by
  refine faithful_row (fun hrow => congrArg Parcel.word (iType_eq_iff.mpr (by simp [hrow, hop]))) rfl ?_
  iterate 3 refine faithful_row (fun hrow => congrArg Parcel.word (shType_eq_iff.mpr (by simp [hrow, hop]))) rfl ?_
  exact faithful_none

theorem decodeOp32_faithful (hop : opcode w = 0b0111011#7) : Faithful (.word w) (decodeOp32 w) := by
  repeat refine faithful_row (fun hrow => congrArg Parcel.word (rType_eq_iff.mpr (by simp [hrow, hop]))) rfl ?_
  exact faithful_none

theorem decodeAuipc_faithful (hop : opcode w = 0b0010111#7) : Faithful (.word w) (decodeAuipc w) :=
  faithful_some (congrArg Parcel.word (uType_eq_iff.mpr ⟨rfl, rfl, hop⟩)) rfl

theorem decodeLui_faithful (hop : opcode w = 0b0110111#7) : Faithful (.word w) (decodeLui w) :=
  faithful_some (congrArg Parcel.word (uType_eq_iff.mpr ⟨rfl, rfl, hop⟩)) rfl

theorem decodeBranch_faithful (hop : opcode w = 0b1100011#7) : Faithful (.word w) (decodeBranch w) := by
  repeat refine faithful_row (fun hrow => congrArg Parcel.word (bType_eq_iff.mpr (by simp [hrow, hop]))) rfl ?_
  exact faithful_none

theorem decodeJal_faithful (hop : opcode w = 0b1101111#7) : Faithful (.word w) (decodeJal w) :=
  faithful_some (congrArg Parcel.word (jType_eq_iff.mpr ⟨rfl, rfl, hop⟩)) rfl

theorem decodeJalr_faithful (hop : opcode w = 0b1100111#7) : Faithful (.word w) (decodeJalr w) := by
  repeat refine faithful_row (fun hrow => congrArg Parcel.word (iType_eq_iff.mpr (by simp [hrow, hop]))) rfl ?_
  exact faithful_none

theorem decodeLoad_faithful (hop : opcode w = 0b0000011#7) : Faithful (.word w) (decodeLoad w) := by
  repeat refine faithful_row (fun hrow => congrArg Parcel.word (iType_eq_iff.mpr (by simp [hrow, hop]))) rfl ?_
  exact faithful_none

theorem decodeStore_faithful (hop : opcode w = 0b0100011#7) : Faithful (.word w) (decodeStore w) := by
  repeat refine faithful_row (fun hrow => congrArg Parcel.word (sType_eq_iff.mpr (by simp [hrow, hop]))) rfl ?_
  exact faithful_none

theorem decodeSystem_faithful (hop : opcode w = 0b1110011#7) : Faithful (.word w) (decodeSystem w) := by
  iterate 8 refine faithful_row (fun hrow => congrArg Parcel.word (iType_eq_iff.mpr (by simp [hrow, hop]))) rfl ?_
  iterate 4 refine faithful_row (fun hrow => congrArg Parcel.word (rType_eq_iff.mpr (by simp [hrow, hop]))) rfl ?_
  exact faithful_none

theorem decodeMiscMem_faithful (hop : opcode w = 0b0001111#7) : Faithful (.word w) (decodeMiscMem w) := by
  refine faithful_row (fun ⟨hfm, hrow⟩ => congrArg Parcel.word (iType_eq_iff.mpr ⟨?_, by simp [hrow, hop]⟩)) rfl ?_
  · exact immI_eq_fence_iff.mpr ⟨hfm, rfl, rfl⟩
  refine faithful_row (fun hrow => congrArg Parcel.word (iType_eq_iff.mpr (by simp [hrow, hop]))) rfl ?_
  exact faithful_none

theorem decodeAmo_faithful (hop : opcode w = 0b0101111#7) : Faithful (.word w) (decodeAmo w) := by
  repeat refine faithful_row (fun hrow => congrArg Parcel.word (aType_eq_iff.mpr (by simp [hrow, hop]))) rfl ?_
  exact faithful_none

theorem decodeOpFp_faithful (hop : opcode w = 0b1010011#7) : Faithful (.word w) (decodeOpFp w) := by
  repeat refine faithful_row (fun hrow => congrArg Parcel.word (rType_eq_iff.mpr (by simp [hrow, hop]))) rfl ?_
  exact faithful_none

theorem decodeLoadFp_faithful (hop : opcode w = 0b0000111#7) : Faithful (.word w) (decodeLoadFp w) := by
  repeat refine faithful_row (fun hrow => congrArg Parcel.word (iType_eq_iff.mpr (by simp [hrow, hop]))) rfl ?_
  exact faithful_none

theorem decodeMadd_faithful (hop : opcode w = 0b1000011#7) : Faithful (.word w) (decodeMadd w) := by
  repeat refine faithful_row (fun hrow => congrArg Parcel.word (r4Type_eq_iff.mpr (by simp [hrow, hop]))) rfl ?_
  exact faithful_none

theorem decodeMsub_faithful (hop : opcode w = 0b1000111#7) : Faithful (.word w) (decodeMsub w) := by
  repeat refine faithful_row (fun hrow => congrArg Parcel.word (r4Type_eq_iff.mpr (by simp [hrow, hop]))) rfl ?_
  exact faithful_none

theorem decodeNmadd_faithful (hop : opcode w = 0b1001111#7) : Faithful (.word w) (decodeNmadd w) := by
  repeat refine faithful_row (fun hrow => congrArg Parcel.word (r4Type_eq_iff.mpr (by simp [hrow, hop]))) rfl ?_
  exact faithful_none

theorem decodeNmsub_faithful (hop : opcode w = 0b1001011#7) : Faithful (.word w) (decodeNmsub w) := by
  repeat refine faithful_row (fun hrow => congrArg Parcel.word (r4Type_eq_iff.mpr (by simp [hrow, hop]))) rfl ?_
  exact faithful_none

theorem decodeStoreFp_faithful (hop : opcode w = 0b0100111#7) : Faithful (.word w) (decodeStoreFp w) := by
  repeat refine faithful_row (fun hrow => congrArg Parcel.word (sType_eq_iff.mpr (by simp [hrow, hop]))) rfl ?_
  exact faithful_none

theorem decodeWord_faithful (w : Word32) : Faithful (.word w) (decodeWord w) := by
  refine faithful_ite decodeOp_faithful ?_
  refine faithful_ite decodeOpImm_faithful ?_
  refine faithful_ite decodeOpImm32_faithful ?_
  refine faithful_ite decodeOp32_faithful ?_
  refine faithful_ite decodeAuipc_faithful ?_
  refine faithful_ite decodeLui_faithful ?_
  refine faithful_ite decodeBranch_faithful ?_
  refine faithful_ite decodeJal_faithful ?_
  refine faithful_ite decodeJalr_faithful ?_
  refine faithful_ite decodeLoad_faithful ?_
  refine faithful_ite decodeStore_faithful ?_
  refine faithful_ite decodeSystem_faithful ?_
  refine faithful_ite decodeMiscMem_faithful ?_
  refine faithful_ite decodeAmo_faithful ?_
  refine faithful_ite decodeOpFp_faithful ?_
  refine faithful_ite decodeLoadFp_faithful ?_
  refine faithful_ite decodeMadd_faithful ?_
  refine faithful_ite decodeMsub_faithful ?_
  refine faithful_ite decodeNmadd_faithful ?_
  refine faithful_ite decodeNmsub_faithful ?_
  refine faithful_ite decodeStoreFp_faithful ?_
  exact faithful_none

end

/-! The functions of the quadrants: the halfword is the concatenation of the encoding line when each field of the line
stands in it, which is either read as an operand, read as a piece of an immediate, or compared as a constant. -/

section

variable {xl : Xlen} {h : Half}

theorem decodeQuadrant0_faithful (hop : h.extractLsb' 0 2 = 0b00#2) :
    Faithful (.half h) (decodeQuadrant0 xl h) := by
  cases xl
  all_goals
    repeat' refine faithful_ite (fun hrow => ?_) ?_
    any_goals exact faithful_none
    all_goals
      refine faithful_some (half_eq_half_iff.mpr ?_) rfl
      simp (disch := decide) only [bitsAt_append, slice_hi, slice_lo]
      simp_all [BitsAt]

theorem decodeQuadrant1_faithful (hop : h.extractLsb' 0 2 = 0b01#2) :
    Faithful (.half h) (decodeQuadrant1 xl h) := by
  cases xl
  all_goals
    repeat' refine faithful_ite (fun hrow => ?_) ?_
    any_goals exact faithful_none
    all_goals
      refine faithful_some (half_eq_half_iff.mpr ?_) rfl
      simp (disch := decide) only [funct6_100011, funct6_100111, bitsAt_append, slice_hi, slice_lo]
      simp_all [BitsAt, bits_12_10_eq_011_iff, bits_12_10_eq_111_iff]

theorem decodeQuadrant2_faithful (hop : h.extractLsb' 0 2 = 0b10#2) :
    Faithful (.half h) (decodeQuadrant2 xl h) := by
  cases xl
  all_goals
    repeat' refine faithful_ite (fun hrow => ?_) ?_
    any_goals exact faithful_none
    all_goals
      refine faithful_some (half_eq_half_iff.mpr ?_) rfl
      simp (disch := decide) only [funct4_1000, funct4_1001, zero_rs2_op_10, cEbreak_fields, bitsAt_append, slice_hi,
        slice_lo]
      simp_all [BitsAt, bits_12_2_eq_cEbreak_iff]

theorem decodeHalf_faithful (xl : Xlen) (h : Half) : Faithful (.half h) (decodeHalf xl h) := by
  refine faithful_ite decodeQuadrant0_faithful ?_
  refine faithful_ite decodeQuadrant1_faithful ?_
  refine faithful_ite decodeQuadrant2_faithful ?_
  exact faithful_none

end

theorem decodeRow_faithful (xl : Xlen) : ∀ p, Faithful p (decodeRow xl p)
  | .half h => decodeHalf_faithful xl h
  | .word w => decodeWord_faithful w

/-- Settles O10: a row loses no bit of the parcel, and the decoder's two checks are the rest. -/
theorem decodedParcelIsItsEncoding : Obligations.DecodedParcelIsItsEncoding := by
  intro c p i hd
  obtain ⟨hrow, hwf, hav⟩ := decode_eq_some_iff.mp hd
  obtain ⟨he, hp⟩ := decodeRow_faithful c.xlen p i hrow
  exact ⟨he, hwf, hav, hp⟩

end Sys2Proof.Machine

/-! ## Integer computation (40_integer_computational.md) -/

namespace Sys2Proof.Machine

open Sys2Proof

/-! ### A bit vector as the number of an integer -/

theorem toNat_of_eq_ofInt {w : Nat} {a : BitVec w} {v : Int} (h : a = .ofInt w v) : a.toNat = modBits w v := by
  rw [h, toNat_ofInt_eq]

theorem setWidth_eq_ofInt_toNat {n : Nat} (w : Nat) (v : BitVec n) : v.setWidth w = .ofInt w v.toNat := by
  rw [BitVec.ofInt_natCast, BitVec.ofNat_toNat]

/-- A field sign-extended to a register cell, at a width no larger than the cell. -/
theorem setWidth_signExtend_eq_ofInt {n w : Nat} (i : BitVec n) (hn : n ≤ 64) (hw : w ≤ 64) :
    (i.signExtend 64).setWidth w = .ofInt w i.toInt := by
  rw [← BitVec.signExtend_eq_setWidth_of_le _ hw, BitVec.signExtend, BitVec.toInt_signExtend_of_le hn]

/-- The immediate of `lui` and `auipc` is its field with 12 zeros below it (30_encoding.md R128). -/
theorem toInt_upperField (imm : BitVec 20) : (imm ++ 0#12).toInt = 4096 * imm.toInt := BitVec.toInt_append_zero

/-! ### The operations on numbers (00_scope.md R11), at every width -/

section

variable {w k m n : Nat} {a b : BitVec w} {x y : Int}

theorem opAdd_eq_ofInt (ha : a = .ofInt w x) (hb : b = .ofInt w y) : opAdd w a b = .ofInt w (x + y) := by
  rw [opAdd, ha, hb, BitVec.ofInt_add]

theorem opSub_eq_ofInt (ha : a = .ofInt w x) (hb : b = .ofInt w y) : opSub w a b = .ofInt w (x - y) := by
  rw [opSub, ha, hb, BitVec.sub_eq_add_neg, ← BitVec.ofInt_neg, ← BitVec.ofInt_add, Int.sub_eq_add_neg]

theorem opAdd_toNat (ha : a.toNat = m) (hb : b.toNat = n) : (opAdd w a b).toNat = (m + n) % 2 ^ w := by
  rw [opAdd, BitVec.toNat_add, ha, hb]

theorem opAnd_toNat (ha : a.toNat = m) (hb : b.toNat = n) : (opAnd w a b).toNat = m &&& n := by
  rw [opAnd, BitVec.toNat_and, ha, hb]

theorem opOr_toNat (ha : a.toNat = m) (hb : b.toNat = n) : (opOr w a b).toNat = m ||| n := by
  rw [opOr, BitVec.toNat_or, ha, hb]

theorem opXor_toNat (ha : a.toNat = m) (hb : b.toNat = n) : (opXor w a b).toNat = m ^^^ n := by
  rw [opXor, BitVec.toNat_xor, ha, hb]

theorem opSltu_toNat (hw : 0 < w) (ha : a.toNat = m) (hb : b.toNat = n) :
    (opSltu w a b).toNat = if m < n then 1 else 0 := by
  rw [opSltu, ha, hb, apply_ite BitVec.toNat, BitVec.toNat_zero, BitVec.toNat_one hw]

theorem opSlt_toNat (hw : 0 < w) (ha : a.toInt = x) (hb : b.toInt = y) :
    (opSlt w a b).toNat = if x < y then 1 else 0 := by
  rw [opSlt, ha, hb, apply_ite BitVec.toNat, BitVec.toNat_zero, BitVec.toNat_one hw]

/-! The shifts, by an amount k that is the second operand modulo the width (R211). -/

theorem opSll_toNat (ha : a.toNat = m) (hk : b.toNat % w = k) : (opSll w a b).toNat = m * 2 ^ k % 2 ^ w := by
  rw [opSll, hk, BitVec.toNat_shiftLeft, ha, Nat.shiftLeft_eq]

theorem opSll_eq_ofInt (ha : a = .ofInt w m) (hk : b.toNat % w = k) : opSll w a b = .ofInt w (m * 2 ^ k) := by
  have hm : a.toNat = m % 2 ^ w := (toNat_of_eq_ofInt ha).trans (modBits_natCast w m)
  apply BitVec.eq_of_toNat_eq
  rw [opSll_toNat hm hk, Nat.mod_mul_mod, toNat_ofInt_eq]
  exact_mod_cast (modBits_natCast w (m * 2 ^ k)).symm

theorem opSrl_toNat (ha : a.toNat = m) (hk : b.toNat % w = k) : (opSrl w a b).toNat = m / 2 ^ k := by
  rw [opSrl, hk, BitVec.toNat_ushiftRight, ha, Nat.shiftRight_eq_div_pow]

theorem opSrl_eq_ofInt (ha : a.toNat = m) (hk : b.toNat % w = k) : opSrl w a b = .ofInt w (m / 2 ^ k : Nat) := by
  rw [BitVec.ofInt_natCast, ← opSrl_toNat ha hk, BitVec.ofNat_toNat, BitVec.setWidth_eq]

theorem opSra_eq_ofInt (ha : a.toInt = x) (hk : b.toNat % w = k) : opSra w a b = .ofInt w (x / 2 ^ k) := by
  rw [← BitVec.ofInt_toInt (x := opSra w a b), opSra, hk, BitVec.toInt_sshiftRight, ha, Int.shiftRight_eq_div_pow]
  norm_cast

end

/-! ### The operands -/

/-- x[r] as a bit vector of XLEN bits. -/
def State.xbits (s : State) (r : Reg) : BitVec s.xlen := (s.readX r).setWidth s.xlen

/-- The low 32 bits of x[r]. -/
def State.wbits (s : State) (r : Reg) : BitVec 32 := (s.readX r).setWidth 32

theorem State.xlen_pos (s : State) : 0 < s.xlen := by
  obtain h | h := s.xlen_eq <;> omega

theorem State.xlen_le (s : State) : s.xlen ≤ 64 := Xlen.bits_le s.cfg.xlen

theorem State.xbits_eq_ofInt (s : State) (r : Reg) : s.xbits r = .ofInt s.xlen (s.ux r) :=
  setWidth_eq_ofInt_toNat s.xlen (s.readX r)

theorem State.xbits_toNat (s : State) (r : Reg) : (s.xbits r).toNat = s.ux r := by
  rw [State.xbits, BitVec.toNat_setWidth]
  exact Nat.mod_eq_of_lt (s.ux_lt r)

theorem State.xbits_toInt (s : State) (r : Reg) : (s.xbits r).toInt = s.sx r := by
  rw [← signedOf_toNat s.xlen_pos, State.xbits_toNat, State.sx]

theorem State.wbits_eq_ofInt (s : State) (r : Reg) : s.wbits r = .ofInt 32 (s.ux r) :=
  setWidth_eq_ofInt_toNat 32 (s.readX r)

theorem State.wbits_toNat (s : State) (r : Reg) : (s.wbits r).toNat = s.ux r % 2 ^ 32 :=
  BitVec.toNat_setWidth ..

theorem State.wbits_toInt (s : State) (r : Reg) : (s.wbits r).toInt = signedOf 32 (s.ux r % 2 ^ 32) := by
  rw [← signedOf_toNat (by decide), State.wbits_toNat]

theorem State.wbits_toNat_mod (s : State) (r : Reg) : (s.wbits r).toNat % 32 = s.ux r % 32 := by
  rw [State.wbits_toNat]
  exact Nat.mod_mod_of_dvd _ (by decide)

/-- A shift amount of an immediate form below the width is used as it is (R212, R213). -/
theorem shamt_setWidth_mod {w : Nat} (shamt : BitVec 6) (h : shamt.toNat < w) :
    ((shamt.setWidth 64).setWidth w).toNat % w = shamt.toNat := by
  rw [BitVec.toNat_setWidth, BitVec.toNat_setWidth_of_le (by decide),
    Nat.mod_eq_of_lt (h.trans Nat.lt_two_pow_self), Nat.mod_eq_of_lt h]

/-! ### The shared shapes -/

/-- Both cases of `Xlen.apply` are the operation at width XLEN. -/
theorem Xlen.apply_eq (xl : Xlen) (f : BinOp) (a b : Word) :
    xl.apply f a b = (f xl.bits (a.setWidth xl.bits) (b.setWidth xl.bits)).setWidth 64 := by
  cases xl
  · rfl
  · simp only [Xlen.apply, Xlen.bits, BitVec.setWidth_eq]

theorem Xlen.apply_toNat (xl : Xlen) (f : BinOp) (a b : Word) :
    (xl.apply f a b).toNat = (f xl.bits (a.setWidth xl.bits) (b.setWidth xl.bits)).toNat := by
  rw [Xlen.apply_eq, BitVec.toNat_setWidth_of_le (Xlen.bits_le xl)]

theorem applyW_toNat {f : BinOp} {a b : Word} {v : Int} (h : f 32 (a.setWidth 32) (b.setWidth 32) = .ofInt 32 v) :
    (applyW f a b).toNat = wordOf v := by
  rw [applyW, h, BitVec.signExtend, toNat_ofInt_eq, ← signedOf_toNat (by decide), toNat_ofInt_eq, wordOf]

section

variable {s : State} {len : Nat} {rd rs1 rs2 : Reg} {f : BinOp}

theorem setX_meets {v : Word} {n : Nat} (hl : len < 8) (hv : v.toNat % 2 ^ s.xlen = n) :
    SetsX (setX len rd v s) s len rd n :=
  hv ▸ setX_spec len rd v s hl

theorem setX_apply_meets {b : Word} {n : Nat} (hl : len < 8)
    (hf : (f s.xlen (s.xbits rs1) (b.setWidth s.xlen)).toNat = n) :
    SetsX (setX len rd (s.cfg.xlen.apply f (s.readX rs1) b) s) s len rd n := by
  refine setX_meets hl ?_
  rw [Xlen.apply_toNat, ← hf]
  exact Nat.mod_eq_of_lt (BitVec.isLt _)

theorem regReg_meets {n : Nat} (hl : len < 8) (hf : (f s.xlen (s.xbits rs1) (s.xbits rs2)).toNat = n) :
    SetsX (regReg len f rd rs1 rs2 s) s len rd n :=
  setX_apply_meets hl hf

theorem regImm_meets {imm : Word} {n : Nat} (hl : len < 8)
    (hf : (f s.xlen (s.xbits rs1) (imm.setWidth s.xlen)).toNat = n) :
    SetsX (regImm len f rd rs1 imm s) s len rd n :=
  setX_apply_meets hl hf

/-- The word forms exist on RV64 alone, where their sign-extended result fits the register (R200). -/
theorem setX_applyW_meets {b : Word} {v : Int} (hx : s.cfg.xlen = .rv64) (hl : len < 8)
    (hf : f 32 (s.wbits rs1) (b.setWidth 32) = .ofInt 32 v) :
    SetsX (setX len rd (applyW f (s.readX rs1) b) s) s len rd (wordOf v) := by
  refine setX_meets hl ?_
  rw [applyW_toNat hf, State.xlen, hx]
  exact Nat.mod_eq_of_lt (modBits_lt 64 _)

theorem regRegW_meets {v : Int} (hx : s.cfg.xlen = .rv64) (hl : len < 8)
    (hf : f 32 (s.wbits rs1) (s.wbits rs2) = .ofInt 32 v) :
    SetsX (regRegW len f rd rs1 rs2 s) s len rd (wordOf v) :=
  setX_applyW_meets hx hl hf

theorem regImmW_meets {imm : Word} {v : Int} (hx : s.cfg.xlen = .rv64) (hl : len < 8)
    (hf : f 32 (s.wbits rs1) (imm.setWidth 32) = .ofInt 32 v) :
    SetsX (regImmW len f rd rs1 imm s) s len rd (wordOf v) :=
  setX_applyW_meets hx hl hf

end

/-! ### Results and frame of each form -/

/-- Settles O18: each form is the shared shape at XLEN with the number its operation computes. -/
theorem integerRegisterResults : Obligations.IntegerRegisterResults := by
  intro s rd rs1 rs2
  have hreg : ∀ {f : BinOp} {n : Nat}, (f s.xlen (s.xbits rs1) (s.xbits rs2)).toNat = n →
      SetsX (regReg 4 f rd rs1 rs2 s) s 4 rd n := regReg_meets (by decide)
  have h1 := s.xbits_toNat rs1
  have h2 := s.xbits_toNat rs2
  have hk : (s.xbits rs2).toNat % s.xlen = s.ux rs2 % s.xlen := by rw [h2]
  exact ⟨hreg (opAdd_toNat h1 h2),
    hreg (toNat_of_eq_ofInt (opSub_eq_ofInt (s.xbits_eq_ofInt rs1) (s.xbits_eq_ofInt rs2))),
    hreg (opAnd_toNat h1 h2), hreg (opOr_toNat h1 h2), hreg (opXor_toNat h1 h2),
    hreg (opSll_toNat h1 hk), hreg (opSrl_toNat h1 hk),
    hreg (toNat_of_eq_ofInt (opSra_eq_ofInt (s.xbits_toInt rs1) hk)),
    hreg (opSlt_toNat s.xlen_pos (s.xbits_toInt rs1) (s.xbits_toInt rs2)),
    hreg (opSltu_toNat s.xlen_pos h1 h2)⟩

theorem lui_meets (s : State) (rd : Reg) (upper : BitVec 20) :
    SetsX (execLui rd upper s) s 4 rd (modBits s.xlen (4096 * upper.toInt)) := by
  refine setX_meets (by decide) ?_
  rw [upperImmediate, ← modBits_signExtend s _ (by decide), toInt_upperField]

theorem auipc_meets (s : State) (rd : Reg) (upper : BitVec 20) :
    SetsX (execAuipc rd upper s) s 4 rd (modBits s.xlen (s.pc.toNat + 4096 * upper.toInt)) := by
  refine setX_meets (by decide) ?_
  rw [upperImmediate, State.pcPlus_toNat s _ (by decide), toInt_upperField]
  exact Nat.mod_eq_of_lt (modBits_lt _ _)

/-- Settles O19: the second operand is the sign-extended field, or the shift amount. -/
theorem integerImmediateResults : Obligations.IntegerImmediateResults := by
  intro s rd rs1 imm shamt upper
  have himm : ∀ {f : BinOp} {i : Word} {n : Nat}, (f s.xlen (s.xbits rs1) (i.setWidth s.xlen)).toNat = n →
      SetsX (regImm 4 f rd rs1 i s) s 4 rd n := regImm_meets (by decide)
  have h1 := s.xbits_toNat rs1
  have hext : (immediate imm).setWidth s.xlen = .ofInt s.xlen imm.toInt :=
    setWidth_signExtend_eq_ofInt imm (by decide) s.xlen_le
  have hnat := toNat_of_eq_ofInt hext
  have hint : ((immediate imm).setWidth s.xlen).toInt = imm.toInt := by
    rw [hext]
    exact BitVec.toInt_signExtend_of_le (by obtain h | h := s.xlen_eq <;> omega)
  refine ⟨lui_meets s rd upper, auipc_meets s rd upper,
    himm (toNat_of_eq_ofInt (opAdd_eq_ofInt (s.xbits_eq_ofInt rs1) hext)),
    himm (opAnd_toNat h1 hnat), himm (opOr_toNat h1 hnat), himm (opXor_toNat h1 hnat),
    himm (opSlt_toNat s.xlen_pos (s.xbits_toInt rs1) hint), himm (opSltu_toNat s.xlen_pos h1 hnat), fun hlt => ?_⟩
  have hk := shamt_setWidth_mod shamt hlt
  exact ⟨himm (opSll_toNat h1 hk), himm (opSrl_toNat h1 hk),
    himm (toNat_of_eq_ofInt (opSra_eq_ofInt (s.xbits_toInt rs1) hk))⟩

/-- Settles O20: the operation runs on the low words, and its 32-bit result is sign-extended. -/
theorem integerWordResults : Obligations.IntegerWordResults := by
  intro s rd rs1 rs2 imm shamt hx
  have hreg : ∀ {f : BinOp} {v : Int}, f 32 (s.wbits rs1) (s.wbits rs2) = .ofInt 32 v →
      SetsX (regRegW 4 f rd rs1 rs2 s) s 4 rd (wordOf v) := regRegW_meets hx (by decide)
  have himm : ∀ {f : BinOp} {i : Word} {v : Int}, f 32 (s.wbits rs1) (i.setWidth 32) = .ofInt 32 v →
      SetsX (regImmW 4 f rd rs1 i s) s 4 rd (wordOf v) := regImmW_meets hx (by decide)
  have h1 := s.wbits_eq_ofInt rs1
  have h2 := s.wbits_eq_ofInt rs2
  have hk := s.wbits_toNat_mod rs2
  refine ⟨hreg (opAdd_eq_ofInt h1 h2), hreg (opSub_eq_ofInt h1 h2),
    himm (opAdd_eq_ofInt h1 (setWidth_signExtend_eq_ofInt imm (by decide) (by decide))),
    hreg (opSll_eq_ofInt h1 hk), hreg (opSrl_eq_ofInt (s.wbits_toNat rs1) hk),
    hreg (opSra_eq_ofInt (s.wbits_toInt rs1) hk), fun hlt => ?_⟩
  have hshamt := shamt_setWidth_mod shamt hlt
  exact ⟨himm (opSll_eq_ofInt h1 hshamt), himm (opSrl_eq_ofInt (s.wbits_toNat rs1) hshamt),
    himm (opSra_eq_ofInt (s.wbits_toInt rs1) hshamt)⟩

/-! ### Words written from the encoding lines -/

/-- Both round trips in one: a parcel decodes to the available well-formed instruction whose encoding it is. -/
theorem decode_of_encodeOne_eq {c : Config} {i : Instr} {p : Parcel} (he : encodeOne i = p) (hp : i.isPseudo = false)
    (hwf : i.wf = true) (hav : i.available c = true) : decode c p = some i := by
  subst he
  cases hc : i.isCompressed
  · exact wordEncodingRoundTrip c i hp hc hwf hav
  · exact compressedEncodingRoundTrip c i hc hwf hav

/-- Settles O6: each parcel is what the encoder writes for its instruction, so the round trip gives it back. -/
theorem specWordsDecode : Obligations.SpecWordsDecode := by
  refine ⟨?_, ?_, ?_, ?_, ?_, ?_, ?_, ?_, ?_, ?_⟩ <;> exact decode_of_encodeOne_eq rfl rfl rfl rfl

end Sys2Proof.Machine

/-! ## Control transfer (41_control_transfer.md) -/

namespace Sys2Proof.Machine

open Sys2Proof

/-! ### Targets -/

/-- The offset of a branch or of `jal` is its field with a zero below it (30_encoding.md R127, R129). -/
theorem State.pcPlus_evenOffset_toNat (s : State) {w : Nat} (off : BitVec w) (hw : w < 64) :
    (s.pcPlus ((off ++ 0#1).signExtend 64)).toNat = modBits s.xlen (s.pc.toNat + 2 * off.toInt) := by
  have hfield : (off ++ 0#1).toInt = 2 * off.toInt := BitVec.toInt_append_zero
  rw [State.pcPlus_toNat s _ hw, hfield]

theorem State.registerTarget_toNat (s : State) (rs1 : Reg) {w : Nat} (i : BitVec w) (hw : w ≤ 64) :
    (s.registerTarget rs1 (i.signExtend 64)).toNat = s.effective rs1 i.toInt / 2 * 2 := by
  rw [State.registerTarget, toNat_clearOne, State.address_toNat s rs1 i hw]

/-- Clearing bit 0 leaves the target below 2^XLEN. -/
theorem State.wrap_registerTarget (s : State) (rs1 : Reg) (o : Word) :
    s.cfg.xlen.wrap (s.registerTarget rs1 o) = s.registerTarget rs1 o := by
  have hfits : (s.address rs1 o).toNat < 2 ^ s.cfg.xlen.bits := by
    rw [← State.wrap_address, Xlen.wrap_toNat]
    exact Nat.mod_lt _ (by positivity)
  refine Xlen.wrap_of_lt _ _ (Nat.lt_of_le_of_lt ?_ hfits)
  rw [State.registerTarget, toNat_clearOne]
  exact Nat.div_mul_le_self ..

/-! ### Conditions -/

theorem State.readX_beq_iff (s : State) (r q : Reg) : (s.readX r == s.readX q) = true ↔ s.ux r = s.ux q :=
  beq_iff_eq.trans BitVec.toNat_inj.symm

theorem State.readX_bne_iff (s : State) (r q : Reg) : (s.readX r != s.readX q) = true ↔ s.ux r ≠ s.ux q :=
  bne_iff_ne.trans BitVec.toNat_ne_iff_ne.symm

theorem State.toInt_readX_lt_iff (s : State) (r q : Reg) :
    decide (s.cfg.xlen.toInt (s.readX r) < s.cfg.xlen.toInt (s.readX q)) = true ↔ s.sx r < s.sx q := by
  rw [decide_eq_true_iff, State.toInt_readX, State.toInt_readX]

theorem State.toInt_readX_le_iff (s : State) (r q : Reg) :
    decide (s.cfg.xlen.toInt (s.readX r) ≤ s.cfg.xlen.toInt (s.readX q)) = true ↔ s.sx r ≤ s.sx q := by
  rw [decide_eq_true_iff, State.toInt_readX, State.toInt_readX]

/-! ### The shared shapes -/

section

variable {s : State} {len target : Nat}

theorem branch_meets {cond : Bool} {P : Prop} {off : Word} (hl : len < 8) (hcond : cond = true ↔ P)
    (htarget : (s.pcPlus off).toNat = target) : BranchMeets (branch len cond off s) s len P target := by
  rw [← propext hcond, ← htarget]
  exact branch_spec len cond off s hl

theorem jumpLink_pcPlus_meets {rd : Reg} {off : Word} (hl : len < 8) (htarget : (s.pcPlus off).toNat = target) :
    JumpMeets (jumpLink len rd (s.pcPlus off) s) s len rd target :=
  htarget ▸ jumpLink_spec len rd _ s hl (s.wrap_pcPlus off)

theorem jumpLink_registerTarget_meets {rd rs1 : Reg} {off : Word} (hl : len < 8)
    (htarget : (s.registerTarget rs1 off).toNat = target) :
    JumpMeets (jumpLink len rd (s.registerTarget rs1 off) s) s len rd target :=
  htarget ▸ jumpLink_spec len rd _ s hl (s.wrap_registerTarget rs1 off)

end

/-! ### The instructions -/

/-- Settles O24: each form is the shared branch with a test that says the condition on the numbers. -/
theorem branchesFollowTheirCondition : Obligations.BranchesFollowTheirCondition := by
  rintro s rs1 rs2 off _ rfl
  have hbranch : ∀ {cond : Bool} {P : Prop}, (cond = true ↔ P) →
      BranchMeets (branch 4 cond (branchOffset off) s) s 4 P (modBits s.xlen (s.pc.toNat + 2 * off.toInt)) :=
    fun hcond => branch_meets (by decide) hcond (s.pcPlus_evenOffset_toNat off (by decide))
  exact ⟨hbranch (s.readX_beq_iff rs1 rs2), hbranch (s.readX_bne_iff rs1 rs2),
    hbranch (s.toInt_readX_lt_iff rs1 rs2), hbranch (s.toInt_readX_le_iff rs2 rs1),
    hbranch decide_eq_true_iff, hbranch decide_eq_true_iff⟩

/-- Settles O25: both forms are the shared jump, whose target is computed from the state before x[rd] is written. -/
theorem jumpsLinkAndTransfer : Obligations.JumpsLinkAndTransfer := fun s _ rs1 off imm =>
  ⟨jumpLink_pcPlus_meets (by decide) (s.pcPlus_evenOffset_toNat off (by decide)),
    jumpLink_registerTarget_meets (by decide) (s.registerTarget_toNat rs1 imm (by decide))⟩

end Sys2Proof.Machine

/-! ## Integer loads and stores (42_loads_stores.md) -/

namespace Sys2Proof.Machine

open Sys2Proof

section

variable {s : State} {len a n : Nat} {addr : Word}

/-! ### The shared shapes -/

/-- A load of 1, 2, 4 or 8 bytes widened with its sign (R261, R264, R266). -/
theorem loadX_signedBytes_meets {rd : Reg} (hl : len < 8) (hn : n = 1 ∨ n = 2 ∨ n = 4 ∨ n = 8) (ha : addr.toNat = a) :
    LoadMeets (loadX len rd addr n (signedBytes n) s) s len rd a n
      (modBits s.xlen (signedOf (8 * n) (s.littleEndian a n))) := by
  subst ha
  refine loadX_spec len rd addr n (signedBytes n) _ s hl (by omega) fun v hv => ?_
  rw [← hv]
  exact signedBytes_toNat n v s hn (hv ▸ littleEndian_lt s addr.toNat n)

/-- A zero-extending load keeps the number of its bytes, which fits a register no narrower than the access
(R262, R265, R267). -/
theorem loadX_id_meets {rd : Reg} (hl : len < 8) (hn : 8 * n ≤ s.xlen) (ha : addr.toNat = a) :
    LoadMeets (loadX len rd addr n id s) s len rd a n (s.littleEndian a n) := by
  subst ha
  have hxlen := s.xlen_le
  refine loadX_spec len rd addr n id _ s hl (by omega) fun v hv => ?_
  have hfits : s.littleEndian addr.toNat n < 2 ^ s.xlen :=
    calc s.littleEndian addr.toNat n < 256 ^ n := littleEndian_lt s addr.toNat n
      _ = 2 ^ (8 * n) := (Nat.pow_mul 2 8 n).symm
      _ ≤ 2 ^ s.xlen := Nat.pow_le_pow_right (by decide) hn
  rw [id, hv, Nat.mod_eq_of_lt hfits]

/-- A doubleword fills a register of RV64, so sign extension leaves its number (R263). -/
theorem loadX_doubleword_meets {rd : Reg} (hx : s.cfg.xlen = .rv64) (hl : len < 8) (ha : addr.toNat = a) :
    LoadMeets (loadX len rd addr 8 (signedBytes 8) s) s len rd a 8 (s.littleEndian a 8) := by
  have hext : signedBytes 8 = id := funext signedBytes_eight
  have hxlen : s.xlen = 64 := by rw [State.xlen, hx, Xlen.bits]
  rw [hext]
  exact loadX_id_meets hl (by omega) ha

theorem storeX_meets {rs2 : Reg} (hm : Memory.wf s.mem = true) (hl : len < 8) (hn : n ≤ 8) (ha : addr.toNat = a) :
    StoreMeets (storeX len rs2 addr n s) s len a n (s.ux rs2) :=
  ha ▸ storeX_spec len rs2 addr n s hl hn hm

end

/-! ### The instructions -/

/-- Settles O26: each form is the shared load at the effective address, of its width and with its extension. -/
theorem integerLoadsReadMemory : Obligations.IntegerLoadsReadMemory := by
  rintro s rd rs1 off _ rfl
  have haddr : (s.address rs1 (immediate off)).toNat = s.effective rs1 off.toInt := s.address_toNat rs1 off (by decide)
  have hxlen : 32 ≤ s.xlen := by
    obtain h | h := s.xlen_eq <;> omega
  have hsigned : ∀ n, n = 1 ∨ n = 2 ∨ n = 4 ∨ n = 8 →
      LoadMeets (loadX 4 rd (s.address rs1 (immediate off)) n (signedBytes n) s) s 4 rd (s.effective rs1 off.toInt) n
        (modBits s.xlen (signedOf (8 * n) (s.littleEndian (s.effective rs1 off.toInt) n))) :=
    fun _ hn => loadX_signedBytes_meets (by decide) hn haddr
  have hunsigned : ∀ n, n ≤ 4 →
      LoadMeets (loadX 4 rd (s.address rs1 (immediate off)) n id s) s 4 rd (s.effective rs1 off.toInt) n
        (s.littleEndian (s.effective rs1 off.toInt) n) :=
    fun _ hn => loadX_id_meets (by decide) (by omega) haddr
  exact ⟨hsigned 1 (by decide), hunsigned 1 (by decide), hsigned 2 (by decide), hunsigned 2 (by decide),
    hsigned 4 (by decide), fun hx => ⟨hunsigned 4 (by decide), loadX_doubleword_meets hx (by decide) haddr⟩⟩

/-- Settles O27: each form is the shared store at the effective address, of its width. -/
theorem integerStoresWriteMemory : Obligations.IntegerStoresWriteMemory := by
  rintro s rs2 rs1 off _ hm rfl
  have hstore : ∀ n, n ≤ 8 → StoreMeets (storeX 4 rs2 (s.address rs1 (immediate off)) n s) s 4
      (s.effective rs1 off.toInt) n (s.ux rs2) :=
    fun _ hn => storeX_meets hm (by decide) hn (s.address_toNat rs1 off (by decide))
  exact ⟨hstore 1 (by decide), hstore 2 (by decide), hstore 4 (by decide), fun _ => hstore 8 (by decide)⟩

end Sys2Proof.Machine

/-! ## CSR instructions (43_system_csr_fence.md R281 to R288) -/

namespace Sys2Proof.Machine

open Sys2Proof

/-! ### The access check (R282) -/

theorem Csr.mem_all (c : Csr) : c ∈ Csr.all := by cases c <;> decide

theorem Csr.number_injective : Function.Injective Csr.number := by
  have hnodup : (Csr.all.map Csr.number).Nodup := by decide
  exact fun c d h => List.inj_on_of_nodup_map hnodup c.mem_all d.mem_all h

theorem Csr.of_ofNumber {cfg : Config} {n : BitVec 12} {c : Csr} (h : Csr.ofNumber cfg n = some c) :
    c.number = n ∧ Csr.exists cfg c = true := by
  unfold Csr.ofNumber at h
  simpa using List.find?_some h

/-- At most one CSR has a number, so the search for it finds that one. -/
theorem Csr.ofNumber_eq_some_iff (cfg : Config) (n : BitVec 12) (c : Csr) :
    Csr.ofNumber cfg n = some c ↔ c.number = n ∧ Csr.exists cfg c = true := by
  refine ⟨Csr.of_ofNumber, fun ⟨hn, he⟩ => ?_⟩
  have hfound : (Csr.ofNumber cfg n).isSome = true := List.find?_isSome.mpr ⟨c, c.mem_all, by simp [hn, he]⟩
  obtain ⟨d, hd⟩ := Option.isSome_iff_exists.mp hfound
  obtain ⟨hdn, -⟩ := Csr.of_ofNumber hd
  rw [hd, Csr.number_injective (hdn.trans hn.symm)]

/-- Bits 9:8 of the number are 00, 01, or one of the two that count as machine (R282 (b)). -/
theorem lowestLevel_eq (n : BitVec 12) :
    lowestLevel n = if n.toNat / 256 % 4 = 0 then 0 else if n.toNat / 256 % 4 = 1 then 1 else 3 := by
  have hfield : ∀ b : BitVec 2, n.extractLsb' 8 2 = b ↔ n.toNat / 256 % 4 = b.toNat := fun b => by
    rw [← BitVec.toNat_inj, BitVec.extractLsb'_toNat, Nat.shiftRight_eq_div_pow]
  unfold lowestLevel
  simp only [hfield]
  rfl

theorem lowestLevel_eq_zero_iff (n : BitVec 12) : lowestLevel n = 0 ↔ n.toNat / 256 % 4 = 0 := by
  rw [lowestLevel_eq]
  split_ifs <;> simp [*]

theorem Priv.one_le_level_iff (p : Priv) : 1 ≤ Priv.level p ↔ p ≠ .user := by cases p <;> decide

theorem Priv.three_le_level_iff (p : Priv) : 3 ≤ Priv.level p ↔ p = .machine := by cases p <;> decide

theorem lowestLevel_le_iff (n : BitVec 12) (p : Priv) : lowestLevel n ≤ Priv.level p ↔
    (n.toNat / 256 % 4 = 1 → p ≠ .user) ∧ (2 ≤ n.toNat / 256 % 4 → p = .machine) := by
  rw [lowestLevel_eq, ← Priv.one_le_level_iff, ← Priv.three_le_level_iff]
  split_ifs <;> omega

theorem isReadOnly_iff (n : BitVec 12) : isReadOnly n = true ↔ n.toNat / 1024 = 3 := by
  have hn := n.isLt
  rw [isReadOnly, beq_iff_eq, ← BitVec.toNat_inj, BitVec.extractLsb'_toNat, Nat.shiftRight_eq_div_pow]
  change n.toNat / 1024 % 4 = 3 ↔ _
  omega

theorem Csr.isFloat_iff (c : Csr) : c.isFloat = true ↔ c = .fflags ∨ c = .frm ∨ c = .fcsr := by
  cases c <;> simp [Csr.isFloat]

theorem Csr.counterBit_eq_some_iff (c : Csr) (b : Nat) : c.counterBit = some b ↔
    (c = .cycle ∨ c = .cycleh) ∧ b = 0 ∨ (c = .time ∨ c = .timeh) ∧ b = 1 ∨ (c = .instret ∨ c = .instreth) ∧ b = 2 := by
  cases c <;> simp [Csr.counterBit, eq_comm]

/-- R282 (d): a counter needs its bit of `mcounteren` below machine mode, and of `scounteren` in user mode with PRIV_S. -/
theorem State.counterEnabled_iff (s : State) (c : Csr) : s.counterEnabled c = true ↔
    ∀ b, c.counterBit = some b → (s.priv ≠ .machine → s.mcounteren.getLsbD b = true) ∧
      (s.priv = .user → s.cfg.privS = true → s.scounteren.getLsbD b = true) := by
  unfold State.counterEnabled
  cases c.counterBit with
  | none => simp
  | some b =>
    cases hp : s.priv with
    | machine => simp
    | supervisor => simp
    | user => cases s.cfg.privS <;> simp

theorem State.csrAllowed_iff (s : State) (n : BitVec 12) (c : Csr) (writes : Bool) :
    s.csrAllowed n c writes = true ↔
      ¬(writes = true ∧ n.toNat / 1024 = 3) ∧ ¬((c = .fflags ∨ c = .frm ∨ c = .fcsr) ∧ ¬FloatOn s) ∧
      (s.cfg.trapModel = .environment → lowestLevel n = 0) ∧
      (s.cfg.trapModel = .machine → lowestLevel n ≤ Priv.level s.priv ∧ s.counterEnabled c = true) := by
  have hnot : ∀ a b : Bool, (!(a && b)) = true ↔ ¬(a = true ∧ b = true) := by decide
  unfold State.csrAllowed
  rw [← isReadOnly_iff, ← Csr.isFloat_iff, ← fsOff_iff, Bool.and_eq_true, Bool.and_eq_true, hnot, hnot, and_assoc]
  refine and_congr_right' (and_congr_right' ?_)
  cases s.cfg.trapModel <;> simp

theorem State.csrAccess_eq_some_iff (s : State) (n : BitVec 12) (writes : Bool) (c : Csr) :
    s.csrAccess n writes = some c ↔ Csr.ofNumber s.cfg n = some c ∧ s.csrAllowed n c writes = true := by
  unfold State.csrAccess
  cases Csr.ofNumber s.cfg n with
  | none => simp
  | some d =>
    rw [Option.ite_none_right_eq_some, and_comm]
    refine and_congr_right fun h => ?_
    cases h
    rfl

/-- Settles O32: the number finds the register, and each conjunct of the check is a comparison of numbers. -/
theorem csrAccessIsChecked : Obligations.CsrAccessIsChecked := by
  intro s n writes c
  rw [State.csrAccess_eq_some_iff, Csr.ofNumber_eq_some_iff, State.csrAllowed_iff, lowestLevel_eq_zero_iff,
    lowestLevel_le_iff, State.counterEnabled_iff]
  simp only [Csr.counterBit_eq_some_iff, and_assoc]

/-! ### The CSR instructions -/

theorem decide_ne_eq_bne {w : Nat} (a b : BitVec w) : decide (a ≠ b) = (a != b) :=
  Bool.eq_iff_iff.mpr (decide_eq_true_iff.trans bne_iff_ne.symm)

section

variable {i : Instr} {s : State} {rd : Reg} {n : BitVec 12} {new : Word → Word}

/-- The write forms always write, and read unless rd = x0 (R283, R286). -/
theorem csrWrite_meets (h : exec i s = csrInstruction i rd n (useOfWrite rd) new s) :
    CsrMeets i s rd n (decide (rd ≠ 0)) true new := by
  have hread : (useOfWrite rd).reads = false → rd = 0 := bne_eq_false_iff_eq.mp
  rw [decide_ne_eq_bne]
  exact csrInstruction_spec i rd n (useOfWrite rd) new s hread h

/-- The set and clear forms always read, and write unless their source field is zero (R284, R285, R287, R288). -/
theorem csrModify_meets {source : BitVec 5}
    (h : exec i s = csrInstruction i rd n (useOfModify (source != 0)) new s) :
    CsrMeets i s rd n true (decide (source ≠ 0)) new := by
  rw [decide_ne_eq_bne]
  exact csrInstruction_spec i rd n (useOfModify (source != 0)) new s nofun h

end

/-- Settles O31: each form is the shared procedure, with the reads and writes of its kind. -/
theorem csrInstructionsSwapAndModify : Obligations.CsrInstructionsSwapAndModify := fun _ _ _ _ _ =>
  ⟨csrWrite_meets rfl, csrModify_meets rfl, csrModify_meets rfl, csrWrite_meets rfl, csrModify_meets rfl,
    csrModify_meets rfl⟩

/-- A pseudoinstruction meets what its expansion meets: it runs it, and is reported with the same bits. -/
theorem CsrMeets.of_expansion {i j : Instr} {s : State} {rd : Reg} {n : BitVec 12} {reads writes : Bool}
    {new : Word → Word} (h : CsrMeets j s rd n reads writes new) (hexec : exec i s = exec j s) (hbits : i.bits = j.bits) :
    CsrMeets i s rd n reads writes new := by
  obtain ⟨hlegal, hillegal⟩ := h
  refine ⟨fun c hc => ?_, fun hc => ?_⟩
  · unfold CsrCompletes
    rw [hexec]
    exact hlegal c hc
  · rw [hexec, hbits]
    exact hillegal hc

/-- `csrrs` with rs1 = x0 reads alone (R284). -/
theorem csrrs_zero_meets (s : State) (rd : Reg) (n : BitVec 12) : CsrMeets (.csrrs rd n 0) s rd n true false id := by
  have hkeep : (fun t => t ||| s.readX 0) = id := funext fun t => by rw [State.readX_zero]; exact BitVec.or_zero
  obtain ⟨-, hset, -⟩ := csrInstructionsSwapAndModify s rd 0 n 0
  rw [hkeep] at hset
  exact hset

/-- Settles O56: each form meets what its expansion meets (O31). -/
theorem pseudoCsrAccess : Obligations.PseudoCsrAccess := by
  intro s rd rs n zimm
  have hread : ∀ {i : Instr} {m : BitVec 12}, exec i s = exec (.csrrs rd m 0) s → i.bits = (Instr.csrrs rd m 0).bits →
      CsrMeets i s rd m true false id :=
    (csrrs_zero_meets s rd _).of_expansion
  have hswap : ∀ {i : Instr} {m : BitVec 12}, exec i s = exec (.csrrw rd m rs) s →
      i.bits = (Instr.csrrw rd m rs).bits → CsrMeets i s rd m (decide (rd ≠ 0)) true (fun _ => s.readX rs) :=
    (csrInstructionsSwapAndModify s rd rs _ zimm).1.of_expansion
  obtain ⟨hwrite, hset, hclear, hwritei, hseti, hcleari⟩ := csrInstructionsSwapAndModify s 0 rs n zimm
  exact ⟨hread rfl rfl, hwrite.of_expansion rfl rfl, hset.of_expansion rfl rfl, hclear.of_expansion rfl rfl,
    hwritei.of_expansion rfl rfl, hseti.of_expansion rfl rfl, hcleari.of_expansion rfl rfl,
    hread rfl rfl, hread rfl rfl, hread rfl rfl, hswap rfl rfl, hswap rfl rfl, hswap rfl rfl,
    hread rfl rfl, hread rfl rfl, hread rfl rfl, hread rfl rfl, hread rfl rfl, hread rfl rfl⟩

end Sys2Proof.Machine

/-! ## Fences, traps and returns (43_system_csr_fence.md R289 to R296; 60_exceptions.md R612, R613, R643) -/

namespace Sys2Proof.Machine

open Sys2Proof

/-! ### Where the privileged instructions are legal -/

theorem State.mretLegal_iff (s : State) : s.mretLegal = true ↔ s.cfg.trapModel = .machine ∧ s.priv = .machine := by
  rw [State.mretLegal, Bool.and_eq_true, beq_iff_eq, beq_iff_eq]

theorem State.wfiLegal_iff (s : State) : s.wfiLegal = true ↔ s.cfg.trapModel = .machine ∧ s.priv ≠ .user := by
  rw [State.wfiLegal, Bool.and_eq_true, beq_iff_eq, bne_iff_ne]

theorem State.supervisorLegal_iff (s : State) : s.supervisorLegal = true ↔
    s.cfg.trapModel = .machine ∧ s.cfg.privS = true ∧ s.priv ≠ .user := by
  rw [State.supervisorLegal, Bool.and_eq_true, Bool.and_eq_true, beq_iff_eq, bne_iff_ne, and_assoc]

/-! ### Fences and waits -/

theorem toNat_append_eq_add {m n : Nat} (x : BitVec m) (y : BitVec n) :
    (x ++ y).toNat = x.toNat * 2 ^ n + y.toNat := by
  rw [BitVec.toNat_append, ← Nat.shiftLeft_add_eq_or_of_lt y.isLt, Nat.shiftLeft_eq]

/-- The word of `sfence.vma`: rs1 at bit 15 and rs2 at bit 20 of its constant fields (R124, R296). -/
theorem bits_sfenceVma (rs1 rs2 : Reg) :
    Instr.bits (.sfenceVma rs1 rs2) = BitVec.ofNat 64 (0x12000073 + rs1.toNat * 2 ^ 15 + rs2.toNat * 2 ^ 20) := by
  have hword : (rType 0b0001001#7 rs2 rs1 0b000#3 0#5 0b1110011#7).toNat =
      0x12000073 + rs1.toNat * 2 ^ 15 + rs2.toNat * 2 ^ 20 := by
    simp only [rType, toNat_append_eq_add, BitVec.toNat_ofNat]
    omega
  rw [← hword]
  exact BitVec.eq_of_toNat_eq (by rw [BitVec.toNat_ofNat]; exact BitVec.toNat_setWidth ..)

theorem fenceI_meets (s : State) : ∃ t, exec .fenceI s = .next t ∧ XWritten s t 0 0 ∧ Advanced s t 4 ∧ SameMemory s t ∧
    t.storeLog = [] ∧ t = { s with storeLog := t.storeLog, pc := t.pc, minstret := t.minstret } := by
  obtain ⟨t, hnext, hx, hpc, hretired, hmem, -⟩ := finish_spec 4 s.syncFetch (by decide)
  cases hnext
  exact ⟨_, rfl, hx, ⟨hpc, hretired⟩, hmem, rfl, rfl⟩

/-- An instruction with no effect that one hart sees, legal in some modes only. -/
theorem finishWhere_meets (legal : Bool) (i : Instr) (s : State) :
    (legal = true → SetsX (if legal then finish 4 s else raise .illegalInstruction i.bits s) s 4 0 0) ∧
    (¬legal = true → (if legal then finish 4 s else raise .illegalInstruction i.bits s) =
      raise .illegalInstruction i.bits s) := by
  refine ⟨fun h => ?_, fun h => if_neg h⟩
  rw [if_pos h]
  exact finish_spec 4 s (by decide)

/-- Settles O35: an instruction without an effect of its own advances where it is legal. -/
theorem fencesAndWaitsAdvance : Obligations.FencesAndWaitsAdvance := by
  intro s pred succ rs1 rs2
  rw [← State.wfiLegal_iff, ← State.supervisorLegal_iff, ← bits_sfenceVma]
  obtain ⟨hwfi, hwfiIllegal⟩ := finishWhere_meets s.wfiLegal .wfi s
  obtain ⟨hsfence, hsfenceIllegal⟩ := finishWhere_meets s.supervisorLegal (.sfenceVma rs1 rs2) s
  exact ⟨finish_spec 4 s (by decide), fenceI_meets s, hwfi, hwfiIllegal, hsfence, hsfenceIllegal⟩

/-! ### Environment calls and breakpoints -/

theorem raise_of_machine {s : State} (h : s.cfg.trapModel = .machine) (e : Exc) (info : Word) :
    raise e info s = .next (s.takeTrap (.exc e) info) := by
  rw [raise, h]

/-- Settles O36: the instructions raise, and with TRAP_MODEL = machine raising enters the trap. -/
theorem environmentCallsAndBreakpointsTrap : Obligations.EnvironmentCallsAndBreakpointsTrap := by
  intro s h
  have hcall : ∀ {e : Exc}, s.environmentCall = e → exec .ecall s = .next (s.takeTrap (.exc e) 0) :=
    fun he => he ▸ raise_of_machine h s.environmentCall 0
  exact ⟨fun hp => hcall (by rw [State.environmentCall, h, hp]), fun hp => hcall (by rw [State.environmentCall, h, hp]),
    fun hp => hcall (by rw [State.environmentCall, h, hp]), raise_of_machine h _ _, raise_of_machine h _ _⟩

/-! ### Returns from a trap -/

theorem retired_retire (s : State) : Retired s s.retire 1 := BitVec.toNat_add ..

/-- Settles O37: where it is legal the instruction makes the return and retires. -/
theorem trapReturnsRestoreTheMode : Obligations.TrapReturnsRestoreTheMode := by
  intro s
  rw [← State.mretLegal_iff, ← State.supervisorLegal_iff]
  refine ⟨fun h => ?mret, fun h => if_neg h, fun h => ?sret, fun h => if_neg h⟩
  case mret =>
    exact ⟨s.returnM.retire, if_pos h, maskEpc_toNat s s.mepc, rfl, retired_retire s.returnM, fun _ => rfl, rfl⟩
  case sret =>
    exact ⟨s.returnS.retire, if_pos h, maskEpc_toNat s s.sepc, rfl, retired_retire s.returnS, fun _ => rfl, rfl⟩

end Sys2Proof.Machine

/-! ## Multiplication and division (44_muldiv.md) -/

namespace Sys2Proof.Machine

open Sys2Proof

theorem eq_ofInt_of_toNat_eq {w n : Nat} {a : BitVec w} (h : a.toNat = n) : a = .ofInt w n := by
  rw [BitVec.ofInt_natCast, ← h, BitVec.ofNat_toNat, BitVec.setWidth_eq]

/-! ### Products (R302 to R306), at every width -/

section

variable {w m n : Nat} {a b : BitVec w} {x y : Int}

theorem opMul_toNat (ha : a.toNat = m) (hb : b.toNat = n) : (opMul w a b).toNat = m * n % 2 ^ w := by
  rw [opMul, BitVec.toNat_mul, ha, hb]

theorem opMul_eq_ofInt (ha : a = .ofInt w x) (hb : b = .ofInt w y) : opMul w a b = .ofInt w (x * y) := by
  rw [opMul, ha, hb, BitVec.ofInt_mul]

theorem opMulh_eq_ofInt (ha : a.toInt = x) (hb : b.toInt = y) : opMulh w a b = .ofInt w (x * y / 2 ^ w) := by
  rw [opMulh, ha, hb]

theorem opMulhsu_eq_ofInt (ha : a.toInt = x) (hb : b.toNat = n) : opMulhsu w a b = .ofInt w (x * n / 2 ^ w) := by
  rw [opMulhsu, ha, hb]

/-- The high half of a product of two w-bit numbers has w bits. -/
theorem opMulhu_toNat (ha : a.toNat = m) (hb : b.toNat = n) : (opMulhu w a b).toNat = m * n / 2 ^ w := by
  have hlt : a.toNat * b.toNat / 2 ^ w < 2 ^ w :=
    Nat.div_lt_of_lt_mul (Nat.mul_lt_mul'' a.isLt b.isLt)
  rw [opMulhu, BitVec.toNat_ofNat, Nat.mod_eq_of_lt hlt, ha, hb]

end

/-- Settles O21: each form is the shared shape with the half of the product its operation computes. -/
theorem multiplyResults : Obligations.MultiplyResults := by
  intro s rd rs1 rs2
  have hreg : ∀ {f : BinOp} {n : Nat}, (f s.xlen (s.xbits rs1) (s.xbits rs2)).toNat = n →
      SetsX (regReg 4 f rd rs1 rs2 s) s 4 rd n := regReg_meets (by decide)
  have h1 := s.xbits_toNat rs1
  have h2 := s.xbits_toNat rs2
  exact ⟨hreg (opMul_toNat h1 h2),
    hreg (toNat_of_eq_ofInt (opMulh_eq_ofInt (s.xbits_toInt rs1) (s.xbits_toInt rs2))),
    hreg (toNat_of_eq_ofInt (opMulhsu_eq_ofInt (s.xbits_toInt rs1) h2)),
    hreg (opMulhu_toNat h1 h2),
    fun hx => regRegW_meets hx (by decide) (opMul_eq_ofInt (s.wbits_eq_ofInt rs1) (s.wbits_eq_ofInt rs2))⟩

/-! ### The corners of division (R301), at every width -/

section

variable {w : Nat} {a b : BitVec w} {d : DivRecord}

theorem divOverflows_iff (hw : 0 < w) :
    divOverflows a b = true ↔ a.toNat = 2 ^ (w - 1) ∧ b.toNat = 2 ^ w - 1 := by
  rw [divOverflows, Bool.and_eq_true, beq_iff_eq, beq_iff_eq, ← BitVec.toNat_inj, ← BitVec.toNat_inj,
    BitVec.toNat_allOnes, BitVec.toNat_intMin_of_pos hw]

theorem eq_of_divOverflows (h : divOverflows a b = true) : a = BitVec.intMin w ∧ b = BitVec.allOnes w := by
  rwa [divOverflows, Bool.and_eq_true, beq_iff_eq, beq_iff_eq] at h

theorem toInt_of_divOverflows (hw : 0 < w) (h : divOverflows a b = true) :
    a.toInt = -2 ^ (w - 1) ∧ b.toInt = -1 := by
  obtain ⟨rfl, rfl⟩ := eq_of_divOverflows h
  exact ⟨BitVec.toInt_intMin_of_pos hw, by rw [BitVec.toInt_allOnes, if_pos hw]⟩

theorem ne_zero_of_divOverflows (hw : 0 < w) (h : divOverflows a b = true) : b ≠ 0#w := by
  obtain ⟨-, hb⟩ := toInt_of_divOverflows hw h
  rintro rfl
  exact absurd hb (by rw [BitVec.toInt_zero]; decide)

/-! What the default of DIV gives in each corner. -/

theorem opDiv_zero (hd : d = .standard) (hb : b = 0#w) : opDiv d w a b = BitVec.allOnes w := by
  subst hd
  exact if_pos hb

theorem opDivu_zero (hd : d = .standard) (hb : b = 0#w) : opDivu d w a b = BitVec.allOnes w := by
  subst hd
  exact if_pos hb

theorem opRem_zero (hd : d = .standard) (hb : b = 0#w) : opRem d w a b = a := by
  subst hd
  exact if_pos hb

theorem opRemu_zero (hd : d = .standard) (hb : b = 0#w) : opRemu d w a b = a := by
  subst hd
  exact if_pos hb

theorem opDiv_overflow (hd : d = .standard) (hw : 0 < w) (h : divOverflows a b = true) : opDiv d w a b = a := by
  subst hd
  rw [opDiv, if_neg (ne_zero_of_divOverflows hw h), if_pos h]
  rfl

theorem opRem_overflow (hd : d = .standard) (hw : 0 < w) (h : divOverflows a b = true) : opRem d w a b = 0#w := by
  subst hd
  rw [opRem, if_neg (ne_zero_of_divOverflows hw h), if_pos h]
  rfl

end

/-! ### Quotients and remainders of other operands (R307 to R314), at every width -/

section

variable {w : Nat} {a b : BitVec w} {d : DivRecord}

/-- With the default of DIV overflow is no exception: modulo 2^w the quotient 2^(w-1) is the dividend. -/
theorem opDiv_eq_ofInt (hw : 0 < w) (hb : b ≠ 0#w) (hd : divOverflows a b = true → d = .standard) :
    opDiv d w a b = .ofInt w (a.toInt.tdiv b.toInt) := by
  by_cases ho : divOverflows a b = true
  · obtain ⟨rfl, -⟩ := eq_of_divOverflows ho
    obtain ⟨-, hminus⟩ := toInt_of_divOverflows hw ho
    rw [opDiv_overflow (hd ho) hw ho, hminus, Int.tdiv_neg, Int.tdiv_one, BitVec.ofInt_neg, BitVec.ofInt_toInt,
      BitVec.neg_intMin]
  · rw [opDiv, if_neg hb, if_neg ho]

theorem opRem_eq_ofInt (hw : 0 < w) (hb : b ≠ 0#w) (hd : divOverflows a b = true → d = .standard) :
    opRem d w a b = .ofInt w (a.toInt.tmod b.toInt) := by
  by_cases ho : divOverflows a b = true
  · obtain ⟨-, hminus⟩ := toInt_of_divOverflows hw ho
    rw [opRem_overflow (hd ho) hw ho, hminus, Int.tmod_neg, Int.tmod_one]
    rfl
  · rw [opRem, if_neg hb, if_neg ho]

theorem opDivu_toNat (hb : b ≠ 0#w) : (opDivu d w a b).toNat = a.toNat / b.toNat := by
  rw [opDivu, if_neg hb, BitVec.toNat_ofNat, Nat.mod_eq_of_lt ((Nat.div_le_self _ _).trans_lt a.isLt)]

theorem opRemu_toNat (hb : b ≠ 0#w) : (opRemu d w a b).toNat = a.toNat % b.toNat := by
  rw [opRemu, if_neg hb, BitVec.toNat_ofNat, Nat.mod_eq_of_lt ((Nat.mod_le _ _).trans_lt a.isLt)]

theorem tmod_mul_self_nonneg (x y : Int) : 0 ≤ x.tmod y * x := by
  obtain hx | hx := Int.le_total 0 x
  · exact Int.mul_nonneg (Int.tmod_nonneg y hx) hx
  · have hneg : 0 ≤ (-x).tmod y := Int.tmod_nonneg y (Int.neg_nonneg_of_nonpos hx)
    rw [Int.neg_tmod] at hneg
    exact Int.mul_nonneg_of_nonpos_of_nonpos (Int.nonpos_of_neg_nonneg hneg) hx

theorem abs_tmod_lt (x : Int) {y : Int} (hy : y ≠ 0) : |x.tmod y| < |y| := by
  rw [Int.abs_eq_natAbs, Int.abs_eq_natAbs, Int.natAbs_tmod]
  exact_mod_cast Nat.mod_lt _ (Int.natAbs_pos.mpr hy)

/-- The quotient rounds towards zero because the remainder that goes with it has the sign of the dividend (R311). -/
theorem signedDivision_spec {x y : Int} (hw : 0 < w) (hb : b ≠ 0#w) (hd : divOverflows a b = true → d = .standard)
    (hx : a.toInt = x) (hy : b.toInt = y) :
    ∃ q r : Int, x = q * y + r ∧ |r| < |y| ∧ 0 ≤ r * x ∧
      opDiv d w a b = .ofInt w q ∧ opRem d w a b = .ofInt w r := by
  subst hx hy
  have hy : b.toInt ≠ 0 := fun h => hb (BitVec.eq_of_toInt_eq (h.trans BitVec.toInt_zero.symm))
  exact ⟨_, _, (Int.tdiv_mul_add_tmod a.toInt b.toInt).symm, abs_tmod_lt _ hy, tmod_mul_self_nonneg _ _,
    opDiv_eq_ofInt hw hb hd, opRem_eq_ofInt hw hb hd⟩

theorem unsignedDivision_spec {m n : Nat} (d : DivRecord) (hb : n ≠ 0) (hm : a.toNat = m) (hn : b.toNat = n) :
    ∃ q r : Nat, m = q * n + r ∧ r < n ∧ (opDivu d w a b).toNat = q ∧ (opRemu d w a b).toNat = r := by
  subst hm hn
  have hne : b ≠ 0#w := fun h => hb (by rw [h, BitVec.toNat_zero])
  exact ⟨_, _, (Nat.div_add_mod' _ _).symm, Nat.mod_lt _ (Nat.pos_of_ne_zero hb), opDivu_toNat hne, opRemu_toNat hne⟩

end

/-! ### The division instructions -/

/-- The word forms of an operation whose 32-bit result is known as an unsigned number (R300). -/
theorem regRegW_toNat_meets {s : State} {len n : Nat} {rd rs1 rs2 : Reg} {f : BinOp} (hx : s.cfg.xlen = .rv64)
    (hl : len < 8) (hf : (f 32 (s.wbits rs1) (s.wbits rs2)).toNat = n) :
    SetsX (regRegW len f rd rs1 rs2 s) s len rd (wordOf n) :=
  regRegW_meets hx hl (eq_ofInt_of_toNat_eq hf)

theorem State.xbits_eq_zero_iff (s : State) (r : Reg) : s.xbits r = 0#s.xlen ↔ s.ux r = 0 := by
  rw [← BitVec.toNat_inj, State.xbits_toNat, BitVec.toNat_zero]

theorem State.wbits_eq_zero_iff (s : State) (r : Reg) : s.wbits r = 0#32 ↔ s.ux r % 2 ^ 32 = 0 := by
  rw [← BitVec.toNat_inj, State.wbits_toNat, BitVec.toNat_zero]

theorem State.divOverflows_wbits_iff (s : State) (rs1 rs2 : Reg) : divOverflows (s.wbits rs1) (s.wbits rs2) = true ↔
    s.ux rs1 % 2 ^ 32 = 2 ^ 31 ∧ s.ux rs2 % 2 ^ 32 = 2 ^ 32 - 1 := by
  rw [divOverflows_iff (by decide), State.wbits_toNat, State.wbits_toNat]

theorem State.divOverflows_xbits_iff (s : State) (rs1 rs2 : Reg) : divOverflows (s.xbits rs1) (s.xbits rs2) = true ↔
    s.ux rs1 = 2 ^ (s.xlen - 1) ∧ s.ux rs2 = 2 ^ s.xlen - 1 := by
  rw [divOverflows_iff s.xlen_pos, State.xbits_toNat, State.xbits_toNat]

/-- Settles O22: each form is the shared shape with the quotient or the remainder its operation computes, which exist
whatever the operands are. -/
theorem divideResults : Obligations.DivideResults := by
  intro s rd rs1 rs2
  have hreg : ∀ {f : BinOp} {n : Nat}, (f s.xlen (s.xbits rs1) (s.xbits rs2)).toNat = n →
      SetsX (regReg 4 f rd rs1 rs2 s) s 4 rd n := regReg_meets (by decide)
  refine ⟨⟨_, _, hreg rfl, hreg rfl⟩, ⟨_, _, hreg rfl, hreg rfl⟩, fun hx => ?completes, fun hb hover => ?signed,
    fun hb => ?unsigned, fun hx hb => ⟨fun hover => ?signedWord, ?unsignedWord⟩⟩
  case completes =>
    have hword : ∀ {f : BinOp},
        SetsX (regRegW 4 f rd rs1 rs2 s) s 4 rd (wordOf (f 32 (s.wbits rs1) (s.wbits rs2)).toNat) :=
      regRegW_toNat_meets hx (by decide) rfl
    exact ⟨⟨_, _, hword, hword⟩, ⟨_, _, hword, hword⟩⟩
  case signed =>
    have hne : s.xbits rs2 ≠ 0#s.xlen := (s.xbits_eq_zero_iff rs2).not.mpr hb
    have hd : divOverflows (s.xbits rs1) (s.xbits rs2) = true → s.cfg.div = .standard := by
      intro ho
      obtain ⟨h1, h2⟩ := toInt_of_divOverflows s.xlen_pos ho
      rw [State.xbits_toInt] at h1 h2
      exact (hover.resolve_left (not_not_intro h1)).resolve_left (not_not_intro h2)
    obtain ⟨q, r, heq, hlt, hsign, hq, hr⟩ :=
      signedDivision_spec s.xlen_pos hne hd (s.xbits_toInt rs1) (s.xbits_toInt rs2)
    exact ⟨q, r, heq, hlt, hsign, hreg (toNat_of_eq_ofInt hq), hreg (toNat_of_eq_ofInt hr)⟩
  case unsigned =>
    obtain ⟨q, r, heq, hlt, hq, hr⟩ := unsignedDivision_spec s.cfg.div hb (s.xbits_toNat rs1) (s.xbits_toNat rs2)
    exact ⟨q, r, heq, hlt, hreg hq, hreg hr⟩
  case signedWord =>
    have hne : s.wbits rs2 ≠ 0#32 := (s.wbits_eq_zero_iff rs2).not.mpr hb
    have hd : divOverflows (s.wbits rs1) (s.wbits rs2) = true → s.cfg.div = .standard := by
      intro ho
      obtain ⟨h1, h2⟩ := (s.divOverflows_wbits_iff rs1 rs2).mp ho
      exact (hover.resolve_left (not_not_intro h1)).resolve_left (not_not_intro h2)
    obtain ⟨q, r, heq, hlt, hsign, hq, hr⟩ :=
      signedDivision_spec (by decide) hne hd (s.wbits_toInt rs1) (s.wbits_toInt rs2)
    exact ⟨q, r, heq, hlt, hsign, regRegW_meets hx (by decide) hq, regRegW_meets hx (by decide) hr⟩
  case unsignedWord =>
    obtain ⟨q, r, heq, hlt, hq, hr⟩ := unsignedDivision_spec s.cfg.div hb (s.wbits_toNat rs1) (s.wbits_toNat rs2)
    exact ⟨q, r, heq, hlt, regRegW_toNat_meets hx (by decide) hq, regRegW_toNat_meets hx (by decide) hr⟩

/-- Settles O23: the shared shapes with the values of the default of DIV. -/
theorem divisionCornerCases : Obligations.DivisionCornerCases := by
  intro s rd rs1 rs2 hd
  have hreg : ∀ {f : BinOp} {v : BitVec s.xlen} {n : Nat}, f s.xlen (s.xbits rs1) (s.xbits rs2) = v → v.toNat = n →
      SetsX (regReg 4 f rd rs1 rs2 s) s 4 rd n := fun hf hv => regReg_meets (by decide) (hf ▸ hv)
  have h1 := s.xbits_toNat rs1
  refine ⟨fun hb => ?zero, fun ha hb => ?overflow, fun hx hb => ?zeroWord, fun hx ha hb => ?overflowWord⟩
  case zero =>
    have hzero := (s.xbits_eq_zero_iff rs2).mpr hb
    exact ⟨hreg (opDiv_zero hd hzero) BitVec.toNat_allOnes, hreg (opDivu_zero hd hzero) BitVec.toNat_allOnes,
      hreg (opRem_zero hd hzero) h1, hreg (opRemu_zero hd hzero) h1⟩
  case overflow =>
    have ho := (s.divOverflows_xbits_iff rs1 rs2).mpr ⟨ha, hb⟩
    exact ⟨hreg (opDiv_overflow hd s.xlen_pos ho) (h1.trans ha),
      hreg (opRem_overflow hd s.xlen_pos ho) BitVec.toNat_zero⟩
  case zeroWord =>
    have hzero := (s.wbits_eq_zero_iff rs2).mpr hb
    have hones : BitVec.allOnes 32 = .ofInt 32 (-1) := by decide
    have hdividend := s.wbits_eq_ofInt rs1
    rw [show 2 ^ 64 - 1 = wordOf (-1) by decide]
    exact ⟨regRegW_meets hx (by decide) ((opDiv_zero hd hzero).trans hones),
      regRegW_meets hx (by decide) ((opDivu_zero hd hzero).trans hones),
      regRegW_meets hx (by decide) ((opRem_zero hd hzero).trans hdividend),
      regRegW_meets hx (by decide) ((opRemu_zero hd hzero).trans hdividend)⟩
  case overflowWord =>
    have ho := (s.divOverflows_wbits_iff rs1 rs2).mpr ⟨ha, hb⟩
    have hdividend := eq_ofInt_of_toNat_eq ((s.wbits_toNat rs1).trans ha)
    exact ⟨regRegW_meets hx (by decide) ((opDiv_overflow hd (by decide) ho).trans hdividend),
      regRegW_meets (v := 0) hx (by decide) (opRem_overflow hd (by decide) ho)⟩

end Sys2Proof.Machine

/-! ## Load-reserved and store-conditional (45_atomics.md R339 to R342; 20_memory.md R97, R98) -/

namespace Sys2Proof.Machine

open Sys2Proof

/-! ### An access to memory, then a register write -/

/-- From s to u, accesses have touched memory, the records of accesses, the count of free values and the reservation
alone. -/
def Accessed (s u : State) : Prop :=
  u = { s with mem := u.mem, storeLog := u.storeLog, ioLog := u.ioLog, draws := u.draws, reservation := u.reservation }

/-- The instruction that began in s has ended in t: after accesses that left u, x[rd] has become v. -/
structure WroteBack (s u t : State) (rd : Reg) (v : Nat) : Prop where
  advanced : Advanced s t 4
  written : XWritten s t rd v
  mem : t.mem = u.mem
  storeLog : t.storeLog = u.storeLog
  ioLog : t.ioLog = u.ioLog
  draws : t.draws = u.draws
  reservation : t.reservation = u.reservation
  frame : t = { s with x := t.x, mem := t.mem, storeLog := t.storeLog, ioLog := t.ioLog, draws := t.draws,
                       reservation := t.reservation, pc := t.pc, minstret := t.minstret }

section

variable {s u : State}

theorem finish_writeX_spec (hu : Accessed s u) (rd : Reg) (v : Word) :
    ∃ t, finish 4 (u.writeX rd v) = .next t ∧ WroteBack s u t rd (v.toNat % 2 ^ s.xlen) := by
  have hcfg : u.cfg = s.cfg := by rw [hu]
  have hx : u.x = s.x := by rw [hu]
  have hpc : u.pc = s.pc := by rw [hu]
  have hret : u.minstret = s.minstret := by rw [hu]
  refine ⟨_, rfl, Advanced.of_finish 4 (by simpa) (by simpa) (by simpa) (by decide),
    XWritten.of_writeX fun q => ?reads, by simp, by simp, by simp, by simp, by simp, ?frame⟩
  case reads =>
    rw [State.readX_congr (s := u.writeX rd v) (by simp) (by simp), State.readX_writeX, State.readX_writeX, hcfg,
      State.readX_congr hx hcfg]
  case frame =>
    rw [hu]
    unfold State.writeX
    split <;> rfl

variable {t : State} {rd : Reg} {v a n w : Nat} (h : WroteBack s u t rd v)

include h

theorem WroteBack.sameMemory (hmem : u.mem = s.mem) : SameMemory s t := fun a => by rw [h.mem, hmem]

theorem WroteBack.bytesWritten (hb : BytesWritten s u a n w) : BytesWritten s t a n w := by
  rwa [BytesWritten, h.mem]

theorem WroteBack.ioLogged {events : List IoEvent} (hio : IoLogged s u events) : IoLogged s t events := by
  rwa [IoLogged, h.ioLog]

theorem WroteBack.storesLogged {cells : List Host.Cell} (hst : StoresLogged s u cells) : StoresLogged s t cells := by
  rwa [StoresLogged, h.storeLog]

end

/-! ### Load-reserved -/

theorem accessed_readMem (s : State) (addr : Word) (n : Nat) (r : Option Reservation) :
    Accessed s { (s.readMem addr n).2 with reservation := r } := by
  obtain ⟨io, d, hread⟩ := s.readMem_shape addr n
  rw [hread]
  rfl

/-- Settles O29: `lr` is a read of memory, which changes no byte of it, and a register write. -/
theorem loadReservedRegistersReservation : Obligations.LoadReservedRegistersReservation := by
  intro s rd rs1 aq rl n i hi
  have hexec : exec i s = loadReserved rd rs1 n s := by
    obtain ⟨rfl, rfl⟩ | ⟨rfl, rfl, -⟩ := hi <;> rfl
  have hn : n = 4 ∨ n = 8 := hi.imp And.left And.left
  obtain ⟨hmisaligned, hinvalid, hdone⟩ := loadReserved_spec rd rs1 n s
  rw [hexec]
  refine ⟨hmisaligned, hinvalid, fun ha hb => ?_⟩
  rw [hdone ha hb]
  obtain ⟨io, d, hread⟩ := s.readMem_shape (s.readX rs1) n
  obtain ⟨t, ht, h⟩ := finish_writeX_spec
    (accessed_readMem s (s.readX rs1) n (some { addr := s.readX rs1, size := n })) rd
    (signedBytes n (s.readMem (s.readX rs1) n).1)
  have hmem : t.mem = s.mem := h.mem.trans (by rw [hread])
  have hlog : t.storeLog = s.storeLog := h.storeLog.trans (by rw [hread])
  refine ⟨t, ht, h.reservation, h.advanced, h.sameMemory (by rw [hread]), ⟨_, h.written⟩, ?frame, fun hmain => ?main⟩
  case frame =>
    have hframe := h.frame
    rwa [hmem, hlog] at hframe
  case main =>
    obtain ⟨hval, hsame⟩ := s.readMem_main (s.readX rs1) n (by omega) hmain
    have hext := signedBytes_toNat n (s.readMem (s.readX rs1) n).1 s (by omega) (hval ▸ littleEndian_lt s _ n)
    rw [hval] at hext
    exact ⟨hext ▸ h.written, h.ioLog.trans (by rw [hsame]), h.draws.trans (by rw [hsame])⟩

/-! ### Store-conditional -/

theorem accessed_writeMem (s : State) (addr : Word) (n : Nat) (v : Word) (d : Nat) (r : Option Reservation) :
    Accessed s { State.writeMem { s with draws := d } addr n v with reservation := r } := by
  obtain ⟨m, l, io, r', d', hwrite, -⟩ := State.writeMem_shape { s with draws := d } addr n v
  rw [hwrite]
  rfl

/-- Settles O30: `sc` is a write of memory where it succeeds and no access where it fails, the reservation dropped, and
a register write. -/
theorem storeConditionalSucceedsOrFails : Obligations.StoreConditionalSucceedsOrFails := by
  intro s rd rs1 rs2 aq rl n i hm hi
  have hexec : exec i s = storeConditional rd rs1 rs2 n s := by
    obtain ⟨rfl, rfl⟩ | ⟨rfl, rfl, -⟩ := hi <;> rfl
  have hn : n ≤ 8 := by
    obtain ⟨h, -⟩ | ⟨h, -⟩ := hi <;> omega
  obtain ⟨hmisaligned, hinvalid, hdone⟩ := storeConditional_spec rd rs1 rs2 n s
  rw [hexec]
  refine ⟨hmisaligned, hinvalid, fun ha hb => ?_⟩
  rw [hdone ha hb]
  have hcovered := s.mayStoreConditionally_iff (s.readX rs1) n
  rw [← State.ux] at hcovered
  by_cases hsucc : s.mayStoreConditionally (s.readX rs1) n = true ∧ Config.freeScSucceeds s.draws = true
  · have hcond := hsucc.imp_left hcovered.mp
    obtain ⟨t, ht, h⟩ := finish_writeX_spec
      (accessed_writeMem s (s.readX rs1) n (s.readX rs2) (s.draws + 1) none) rd 0
    rw [if_pos hsucc]
    refine ⟨t, ht, h.reservation, h.advanced, h.frame, ?_⟩
    rw [if_pos hcond]
    have hzero : (0 : Word).toNat % 2 ^ s.xlen = 0 := Nat.zero_mod _
    exact ⟨hzero ▸ h.written,
      h.bytesWritten (State.writeMem_bytes { s with draws := s.draws + 1 } (s.readX rs1) n (s.readX rs2) hm hn),
      h.ioLogged (State.writeMem_ioLogged { s with draws := s.draws + 1 } (s.readX rs1) n (s.readX rs2) ha),
      h.storesLogged (State.writeMem_storesLogged { s with draws := s.draws + 1 } (s.readX rs1) n (s.readX rs2))⟩
  · have hcond := mt (And.imp_left hcovered.mpr) hsucc
    obtain ⟨t, ht, h⟩ := finish_writeX_spec
      (show Accessed s { s with draws := s.draws + 1, reservation := none } from rfl) rd s.scFailCode
    obtain ⟨hpos, hlt⟩ := s.scFailCode_spec
    rw [if_neg hsucc]
    refine ⟨t, ht, h.reservation, h.advanced, h.frame, ?_⟩
    rw [if_neg hcond]
    exact ⟨h.sameMemory rfl, h.ioLog, h.storeLog, s.scFailCode.toNat, hpos, hlt, Nat.mod_eq_of_lt hlt ▸ h.written⟩

end Sys2Proof.Machine

/-! ## Floating-point instructions complete (46_float_single.md R350 to R385; 47_float_double.md) -/

namespace Sys2Proof.Machine

open Sys2Proof

section

variable {i : Instr} {s : State} {rd : Reg} {rm : BitVec 3}

/-! ### The shared shapes -/

theorem boxedSingle_mod (c : Config) (v : Nat) : boxedSingle c (v % 2 ^ 32) = boxedSingle c v := by
  unfold boxedSingle
  rw [Nat.mod_mod]

/-- A single cut to 32 bits, as an f register holds it. -/
theorem boxS_ofNat_toNat (c : Config) (v : Nat) :
    (Config.flenWrap c (Config.boxS c (BitVec.ofNat 32 v))).toNat = boxedSingle c v := by
  rw [boxS_toNat, BitVec.toNat_ofNat, boxedSingle_mod]

/-- Where FLEN is 64 an f register holds every double (10_state.md R37). -/
theorem flenWrap_ofNat_toNat {c : Config} (hd : c.extD = true) (v : Nat) :
    (Config.flenWrap c (BitVec.ofNat 64 v)).toNat = v % 2 ^ 64 := by
  rw [Config.flenWrap, if_pos hd, BitVec.toNat_ofNat]

theorem arithS_completes {op : Rounding → Nat × BitVec 5} (hexec : exec i s = arithS i rm rd op s) :
    RoundsToSingle i s rd rm op := by
  intro r hon hsel
  rw [hexec, arithS, fpRounded_spec i rm s _ r hon hsel, ← boxS_ofNat_toNat]
  exact finishF_spec 4 rd _ _ s (by decide)

theorem convertToX_completes {w : Nat} {op : Rounding → Int × BitVec 5} (hw : 0 < w) (hw' : w ≤ 64)
    (hexec : exec i s = convertToX i rm rd w op s) : RoundsToInteger i s rd rm w op := by
  intro r hon hsel
  have hvalue : modBits s.xlen (signedOf w (modBits w (op r).1)) =
      ((BitVec.ofInt w (op r).1).signExtend 64).toNat % 2 ^ s.xlen := by
    rw [← toNat_ofInt_eq w, signedOf_toNat hw, modBits_signExtend s _ hw']
  rw [hexec, convertToX, fpRounded_spec i rm s _ r hon hsel, hvalue]
  exact finishXF_spec rd _ _ s

theorem moveToX_completes {v : Word} (hon : FloatOn s) (hexec : exec i s = moveToX i rd v s) :
    SetsX (exec i s) s 4 rd (v.toNat % 2 ^ s.xlen) := by
  rw [hexec, moveToX, fpGuard_on i s _ hon]
  exact setX_spec 4 rd v s (by decide)

theorem State.accrue_zero (s : State) : s.accrue 0 = s := by
  rw [State.accrue]
  simp

theorem moveToF_completes {v : Word} (hon : FloatOn s) (hexec : exec i s = moveToF i rd v s) :
    SetsF (exec i s) s 4 rd (Config.flenWrap s.cfg v).toNat 0 := by
  have h := finishF_spec 4 rd v 0 s (by decide)
  rw [State.accrue_zero] at h
  rw [hexec, moveToF, fpGuard_on i s _ hon]
  exact h

theorem selectS_completes {v : Nat × BitVec 5} (hon : FloatOn s) (hexec : exec i s = selectS i rd v s) :
    SetsF (exec i s) s 4 rd (boxedSingle s.cfg v.1) v.2 := by
  rw [hexec, selectS, fpGuard_on i s _ hon, ← boxS_ofNat_toNat]
  exact finishF_spec 4 rd _ _ s (by decide)

theorem selectD_completes {v : Nat × BitVec 5} (hd : s.cfg.extD = true) (hon : FloatOn s)
    (hexec : exec i s = selectD i rd v s) : SetsF (exec i s) s 4 rd (v.1 % 2 ^ 64) v.2 := by
  rw [hexec, selectD, fpGuard_on i s _ hon, ← flenWrap_ofNat_toNat hd]
  exact finishF_spec 4 rd _ _ s (by decide)

theorem compareF_completes {v : Word × BitVec 5} (hon : FloatOn s) (hexec : exec i s = compareF i rd v s) :
    SetsXWithFlags (exec i s) s rd (v.1.toNat % 2 ^ s.xlen) v.2 := by
  rw [hexec, compareF, fpGuard_on i s _ hon]
  exact finishXF_spec rd _ _ s

end

/-! ### Arithmetic and conversions -/

/-- Settles O38: each form is the shared rounded shape, its operands read as numbers. -/
theorem singleArithmeticCompletes : Obligations.SingleArithmeticCompletes := by
  rintro s rd rs1 rs2 rs3 rm _ _ _ rfl rfl rfl
  rw [← readS_toNat s rs1, ← readS_toNat s rs2, ← readS_toNat s rs3, ← s.wbits_toInt rs1, ← s.wbits_toNat rs1]
  refine ⟨arithS_completes rfl, arithS_completes rfl, arithS_completes rfl, arithS_completes rfl, arithS_completes rfl,
    arithS_completes rfl, arithS_completes rfl, arithS_completes rfl, arithS_completes rfl, arithS_completes rfl,
    arithS_completes rfl, fun hx => ⟨?signed, arithS_completes rfl⟩, fun _ => arithS_completes rfl⟩
  case signed =>
    rw [← s.toInt_readX rs1, hx]
    exact arithS_completes rfl

/-- Settles O40: each form is the shared conversion at its width. -/
theorem floatToIntegerCompletes : Obligations.FloatToIntegerCompletes := by
  intro s rd rs1 rm
  rw [← readS_toNat s rs1]
  have hword : ∀ {i : Instr} {op : Rounding → Int × BitVec 5}, exec i s = convertToX i rm rd 32 op s →
      RoundsToInteger i s rd rm 32 op := convertToX_completes (by decide) (by decide)
  have hdouble : ∀ {i : Instr} {op : Rounding → Int × BitVec 5}, exec i s = convertToX i rm rd 64 op s →
      RoundsToInteger i s rd rm 64 op := convertToX_completes (by decide) (by decide)
  exact ⟨hword rfl, hword rfl, fun _ => ⟨hword rfl, hword rfl⟩,
    fun _ => ⟨hdouble rfl, hdouble rfl, fun _ => ⟨hdouble rfl, hdouble rfl⟩⟩⟩

/-! ### Loads and stores -/

section

variable {i : Instr} {s : State} {len a : Nat} {r : Reg} {addr : Word}

theorem loadF_single_meets (hon : FloatOn s) (hl : len < 8) (hexec : exec i s = loadF i len r addr 4 s)
    (ha : addr.toNat = a) : FloatLoadMeets (exec i s) s len r a 4 (boxedSingle s.cfg (s.littleEndian a 4)) := by
  have h := loadF_spec i len r addr 4 s hon hl (.inl rfl)
  rwa [if_pos rfl, ← hexec, ha] at h

theorem loadF_double_meets (hd : s.cfg.extD = true) (hon : FloatOn s) (hl : len < 8)
    (hexec : exec i s = loadF i len r addr 8 s) (ha : addr.toNat = a) :
    FloatLoadMeets (exec i s) s len r a 8 (s.littleEndian a 8) := by
  have h := loadF_spec i len r addr 8 s hon hl (.inr ⟨rfl, hd⟩)
  rwa [if_neg (by decide), ← hexec, ha] at h

theorem storeF_meets {n : Nat} (hm : Memory.wf s.mem = true) (hon : FloatOn s) (hl : len < 8) (hn : n ≤ 8)
    (hexec : exec i s = storeF i len r addr n s) (ha : addr.toNat = a) : StoreMeets (exec i s) s len a n (s.uf r) := by
  have h := storeF_spec i len r addr n s hon hl hn hm
  rwa [← hexec, ha] at h

end

theorem CReg.full_eq_shortReg (r : CReg) : r.full = shortReg r := by
  have hr := r.isLt
  apply BitVec.eq_of_toNat_eq
  simp only [CReg.full, shortReg, toNat_append_eq_add, BitVec.toNat_ofNat]
  omega

/-- A scaled compressed offset, zero-extended, gives the effective address of the scaled number. -/
theorem State.address_scaled (s : State) (rs1 : Reg) {w k : Nat} (u : BitVec w) (hw : w + k ≤ 64) :
    (s.address rs1 ((u ++ 0#k).setWidth 64)).toNat = s.effective rs1 (2 ^ k * u.toNat) := by
  have hu : ((u ++ 0#k).setWidth 64).toNat = 2 ^ k * u.toNat := by
    rw [BitVec.toNat_setWidth_of_le hw, toNat_append_eq_add]
    simp [Nat.mul_comm]
  rw [State.address, Xlen.wrap_add, hu, State.effective, State.xlen, ← modBits_natCast]
  push_cast
  rfl

/-- Settles O47: each form is the shared load or store at its effective address, of its width and length. -/
theorem floatLoadsAndStores : Obligations.FloatLoadsAndStores := by
  intro s r b cr cb off u5 u6 hm hon
  rw [← CReg.full_eq_shortReg, ← CReg.full_eq_shortReg]
  have haddr : (s.address b (immediate off)).toNat = s.effective b off.toInt := s.address_toNat b off (by decide)
  refine ⟨?plain, ?word, ?wordStack, fun hd => ?double, fun hd => ?doubleStack⟩
  case plain =>
    rintro _ rfl
    exact ⟨loadF_single_meets hon (by decide) rfl haddr, storeF_meets hm hon (by decide) (by decide) rfl haddr,
      fun hd => ⟨loadF_double_meets hd hon (by decide) rfl haddr,
        storeF_meets hm hon (by decide) (by decide) rfl haddr⟩⟩
  case word =>
    rintro _ rfl
    have ha := s.address_scaled cb.full (k := 2) u5 (by decide)
    exact ⟨loadF_single_meets hon (by decide) rfl ha, storeF_meets hm hon (by decide) (by decide) rfl ha⟩
  case wordStack =>
    rintro _ rfl
    have ha := s.address_scaled 2 (k := 2) u6 (by decide)
    exact ⟨loadF_single_meets hon (by decide) rfl ha, storeF_meets hm hon (by decide) (by decide) rfl ha⟩
  case double =>
    rintro _ rfl
    have ha := s.address_scaled cb.full (k := 3) u5 (by decide)
    exact ⟨loadF_double_meets hd hon (by decide) rfl ha, storeF_meets hm hon (by decide) (by decide) rfl ha⟩
  case doubleStack =>
    rintro _ rfl
    have ha := s.address_scaled 2 (k := 3) u6 (by decide)
    exact ⟨loadF_double_meets hd hon (by decide) rfl ha, storeF_meets hm hon (by decide) (by decide) rfl ha⟩

/-! ### Illegal rounding modes and FS Off -/

/-- The numbers that select a rounding mode (46_float_single.md R351). -/
theorem exists_selectsRounding_iff (s : State) (rm : BitVec 3) :
    (∃ r, SelectsRounding s rm r) ↔ rm.toNat < 5 ∨ (rm = 7#3 ∧ s.frm.toNat < 5) := by
  have hmode : ∀ m : BitVec 3, (∃ r, Rounding.ofBits m = some r) ↔ m.toNat < 5 := by
    intro m
    rw [← Option.isSome_iff_exists]
    revert m
    decide
  simp only [← rounding_iff, State.rounding]
  by_cases hdyn : rm = 7#3
  · simp [hdyn, hmode]
  · simp [hdyn, hmode]

/-- Settles O48: an instruction of the first list is a rounded shape, one of the second a guarded one. -/
theorem illegalRoundingModesTrap : Obligations.IllegalRoundingModesTrap := by
  intro s rd rs1 rs2 rs3 rm i hi
  refine ⟨fun hill => ?rounded, exists_selectsRounding_iff s rm, fun hoff off cr cb u5 u6 j hj => ?guarded⟩
  case rounded =>
    have hshape : ∃ k, exec i s = fpRounded i rm s k := by
      fin_cases hi <;> exact ⟨_, rfl⟩
    obtain ⟨k, hk⟩ := hshape
    rw [hk, fpRounded_illegal i rm s k hill]
  case guarded =>
    have hshape : ∃ k, exec j s = fpGuard j s k := by
      fin_cases hj <;> exact ⟨_, rfl⟩
    obtain ⟨k, hk⟩ := hshape
    rw [hk, fpGuard_off j s k hoff]

end Sys2Proof.Machine

/-! ## Floating-point data (46_float_single.md R350 (a)) -/

namespace Sys2Proof.Machine

open Sys2Proof

/-- A format with normal numbers on both sides of 1 and a fraction, as both formats of the spec are (R350 (a), R400). -/
structure Fmt.Proper (F : Fmt) : Prop where
  ebits : 2 ≤ F.ebits
  fbits : 1 ≤ F.fbits

theorem Fmt.single_proper (P : FpRecord) : (Fmt.single P).Proper := ⟨by simp [Fmt.single], by simp [Fmt.single]⟩

theorem Fmt.double_proper (P : FpRecord) : (Fmt.double P).Proper := ⟨by simp [Fmt.double], by simp [Fmt.double]⟩

theorem Fmt.single_nan (P : FpRecord) : (Fmt.single P).nan = 0x7FC00000 := by
  change (2 ^ 8 - 1) * 2 ^ 23 + 2 ^ (23 - 1) = _
  norm_num

theorem Fmt.double_nan (P : FpRecord) : (Fmt.double P).nan = 0x7FF8000000000000 := by
  change (2 ^ 11 - 1) * 2 ^ 52 + 2 ^ (52 - 1) = _
  norm_num

theorem State.single_proper (s : State) : s.single.Proper := Fmt.single_proper _

theorem State.double_proper (s : State) : s.double.Proper := Fmt.double_proper _

section

variable (F : Fmt) (v : Nat)

/-! ### The fields of a datum -/

/-- The exponent field of a datum. -/
def Fmt.expField : Nat := v / 2 ^ F.fbits % 2 ^ F.ebits

/-- The fraction field of a datum. -/
def Fmt.fracField : Nat := v % 2 ^ F.fbits

theorem Fmt.expField_lt : F.expField v < 2 ^ F.ebits := Nat.mod_lt _ (Nat.two_pow_pos _)

theorem Fmt.fracField_lt : F.fracField v < 2 ^ F.fbits := Nat.mod_lt _ (Nat.two_pow_pos _)

theorem Fmt.mag_eq : F.mag v = F.expField v * 2 ^ F.fbits + F.fracField v := by
  rw [Fmt.mag, Fmt.signBit, Nat.add_comm F.ebits, Nat.pow_add, Nat.mod_mul, Nat.add_comm, Nat.mul_comm]
  rfl

theorem Fmt.mag_lt : F.mag v < F.signBit := Nat.mod_lt _ (Nat.two_pow_pos _)

theorem Fmt.mag_div : F.mag v / 2 ^ F.fbits = F.expField v := by
  rw [F.mag_eq, Nat.mul_comm, Nat.mul_add_div (Nat.two_pow_pos _), Nat.div_eq_of_lt (F.fracField_lt v), Nat.add_zero]

theorem Fmt.mag_mod : F.mag v % 2 ^ F.fbits = F.fracField v := by
  rw [F.mag_eq, Nat.mul_comm, Nat.mul_add_mod, Nat.mod_eq_of_lt (F.fracField_lt v)]

theorem Fmt.infMag_add : F.infMag + 2 ^ F.fbits = F.signBit := by
  have hpos := Nat.two_pow_pos F.ebits
  rw [Fmt.infMag, Fmt.signBit, Nat.pow_add, Nat.sub_mul, Nat.one_mul]
  exact Nat.sub_add_cancel (Nat.le_mul_of_pos_left _ hpos)

theorem Fmt.infMag_lt : F.infMag < F.signBit := by
  have hpos := Nat.two_pow_pos F.fbits
  have := F.infMag_add
  omega

theorem Fmt.two_signBit : 2 ^ (1 + F.ebits + F.fbits) = 2 * F.signBit := by
  rw [Fmt.signBit, Nat.add_assoc, Nat.pow_add, Nat.pow_one]

/-! ### Classes -/

theorem Fmt.isNan_iff_fields :
    F.isNan v = true ↔ F.expField v = 2 ^ F.ebits - 1 ∧ F.fracField v ≠ 0 := by
  have hx := F.expField_lt v
  have hy := F.fracField_lt v
  rw [Fmt.isNan, decide_eq_true_iff, Fmt.infMag, F.mag_eq]
  by_cases htop : F.expField v = 2 ^ F.ebits - 1
  · rw [htop]
    omega
  · have hle : (F.expField v + 1) * 2 ^ F.fbits ≤ (2 ^ F.ebits - 1) * 2 ^ F.fbits :=
      Nat.mul_le_mul_right _ (by omega)
    rw [Nat.succ_mul] at hle
    omega

theorem Fmt.isInf_iff_fields :
    F.isInf v = true ↔ F.expField v = 2 ^ F.ebits - 1 ∧ F.fracField v = 0 := by
  have hnan := F.isNan_iff_fields v
  rw [Fmt.isNan, decide_eq_true_iff] at hnan
  rw [Fmt.isInf, beq_iff_eq]
  constructor
  · intro h
    have htop : F.expField v = 2 ^ F.ebits - 1 := by
      rw [← F.mag_div, h, Fmt.infMag, Nat.mul_div_cancel _ (Nat.two_pow_pos _)]
    exact ⟨htop, by_contra fun hy => absurd (hnan.mpr ⟨htop, hy⟩) (by omega)⟩
  · rintro ⟨htop, hzero⟩
    rw [F.mag_eq, htop, hzero, Fmt.infMag, Nat.add_zero]

theorem Fmt.isZero_iff_fields : F.isZero v = true ↔ F.expField v = 0 ∧ F.fracField v = 0 := by
  have hpos := Nat.two_pow_pos F.fbits
  rw [Fmt.isZero, beq_iff_eq, F.mag_eq, Nat.add_eq_zero_iff, Nat.mul_eq_zero]
  omega

/-! What the model asks of a datum is what the statements ask of it. -/

theorem Fmt.isNan_iff : F.isNan v = true ↔ DatumIsNaN F.ebits F.fbits v := F.isNan_iff_fields v

theorem Fmt.isInf_iff : F.isInf v = true ↔ DatumIsInfinite F.ebits F.fbits v := beq_iff_eq

theorem Fmt.isZero_iff : F.isZero v = true ↔ DatumIsZero F.ebits F.fbits v := beq_iff_eq

theorem Fmt.isNeg_iff : F.isNeg v = true ↔ DatumIsNegative F.ebits F.fbits v := beq_iff_eq

theorem Fmt.isNeg_eq : F.isNeg v = negativeOf F.ebits F.fbits v := by
  rw [Bool.eq_iff_iff, F.isNeg_iff, negativeOf, decide_eq_true_iff]

theorem Fmt.isSignaling_iff (hF : F.Proper) :
    F.isSignaling v = true ↔ DatumIsSignaling F.ebits F.fbits v := by
  have hsplit : v % 2 ^ F.fbits = v % 2 ^ (F.fbits - 1) + 2 ^ (F.fbits - 1) * (v / 2 ^ (F.fbits - 1) % 2) := by
    rw [← Nat.mod_mul, ← Nat.pow_succ, Nat.succ_eq_add_one, Nat.sub_add_cancel hF.fbits]
  have hlow : v % 2 ^ (F.fbits - 1) < 2 ^ (F.fbits - 1) := Nat.mod_lt _ (Nat.two_pow_pos _)
  rw [Fmt.isSignaling, Bool.and_eq_true, F.isNan_iff, beq_iff_eq]
  refine and_congr_right fun _ => ?_
  rw [hsplit]
  obtain h | h := Nat.mod_two_eq_zero_or_one (v / 2 ^ (F.fbits - 1)) <;> rw [h] <;> omega

theorem Fmt.isFinite_iff (hv : v < 2 ^ (1 + F.ebits + F.fbits)) :
    IsFinite F.ebits F.fbits v ↔ F.isNan v = false ∧ F.isInf v = false := by
  rw [← Bool.not_eq_true, ← Bool.not_eq_true, F.isNan_iff_fields, F.isInf_iff_fields, IsFinite, ← Fmt.expField]
  tauto

theorem Fmt.key_eq : F.key v = orderKey F.ebits F.fbits v := by
  unfold Fmt.key orderKey
  simp only [F.isNeg_iff]
  rfl

variable {F v}

theorem Fmt.isNan_of_isInf (h : F.isInf v = true) : F.isNan v = false := by
  rw [← Bool.not_eq_true, F.isNan_iff_fields]
  exact fun hn => hn.2 ((F.isInf_iff_fields v).mp h).2

theorem Fmt.isNan_of_isZero (h : F.isZero v = true) : F.isNan v = false := by
  rw [← Bool.not_eq_true, F.isNan_iff_fields]
  exact fun hn => hn.2 ((F.isZero_iff_fields v).mp h).2

theorem Fmt.expField_top_pos (hF : F.Proper) : 0 < 2 ^ F.ebits - 1 := by
  have := Nat.pow_le_pow_right (show 0 < 2 by decide) hF.ebits
  omega

theorem Fmt.isInf_of_isZero (hF : F.Proper) (h : F.isZero v = true) : F.isInf v = false := by
  rw [← Bool.not_eq_true, F.isInf_iff_fields, ((F.isZero_iff_fields v).mp h).1]
  exact fun hi => (Fmt.expField_top_pos hF).ne hi.1

theorem Fmt.isZero_of_isInf (hF : F.Proper) (h : F.isInf v = true) : F.isZero v = false := by
  rw [← Bool.not_eq_true]
  exact fun hz => absurd h (by rw [Fmt.isInf_of_isZero hF hz]; decide)

theorem Fmt.isSignaling_of_not_isNan (h : F.isNan v = false) : F.isSignaling v = false := by
  rw [Fmt.isSignaling, h, Bool.false_and]

/-! ### The sign of a datum -/

/-- The bit above the magnitude is the sign. -/
theorem Fmt.div_signBit (hv : v < 2 ^ (1 + F.ebits + F.fbits)) : v / F.signBit = (F.isNeg v).toNat := by
  have hlt : v / F.signBit < 2 := Nat.div_lt_of_lt_mul (by rw [Nat.mul_comm, ← F.two_signBit]; exact hv)
  rw [Fmt.isNeg, Nat.mod_eq_of_lt hlt]
  generalize v / F.signBit = d at hlt
  obtain rfl | rfl : d = 0 ∨ d = 1 := by omega
  · rfl
  · rfl

theorem Fmt.isNeg_iff_le (hv : v < 2 ^ (1 + F.ebits + F.fbits)) : F.isNeg v = true ↔ F.signBit ≤ v := by
  rw [← Nat.one_le_div_iff (show 0 < F.signBit from Nat.two_pow_pos _), Fmt.div_signBit hv]
  cases F.isNeg v <;> decide

theorem Fmt.withSign_eq (F : Fmt) (neg : Bool) (m : Nat) : F.withSign neg m = m + neg.toNat * F.signBit := by
  cases neg
  · simp [Fmt.withSign]
  · simp [Fmt.withSign, Nat.add_comm]

/-- A datum is its magnitude with its sign. -/
theorem Fmt.withSign_mag (hv : v < 2 ^ (1 + F.ebits + F.fbits)) : F.withSign (F.isNeg v) (F.mag v) = v := by
  rw [F.withSign_eq, ← Fmt.div_signBit hv, Nat.mul_comm]
  exact Nat.mod_add_div v F.signBit

theorem Fmt.withSign_infMag (hv : v < 2 ^ (1 + F.ebits + F.fbits)) (h : F.isInf v = true) :
    F.withSign (F.isNeg v) F.infMag = v := by
  rw [← beq_iff_eq.mp h, Fmt.withSign_mag hv]

theorem Fmt.withSign_lt (neg : Bool) {m : Nat} (hm : m < F.signBit) :
    F.withSign neg m < 2 ^ (1 + F.ebits + F.fbits) := by
  rw [F.withSign_eq, F.two_signBit]
  cases neg
  · simp only [Bool.toNat_false]; omega
  · simp only [Bool.toNat_true]; omega

theorem Fmt.nan_lt (hF : F.Proper) : F.nan < F.signBit := by
  have hpow : 2 ^ (F.fbits - 1) < 2 ^ F.fbits := Nat.pow_lt_pow_right (by decide) (Nat.sub_lt hF.fbits (by decide))
  have := F.infMag_add
  rw [Fmt.nan]
  omega

end

/-! ### The data in registers -/

theorem State.us_lt (s : State) (r : Reg) : s.us r < 2 ^ 32 := readS_toNat s r ▸ (s.readS r).isLt

theorem State.uf_lt (s : State) (r : Reg) : s.uf r < 2 ^ 64 := (s.readF r).isLt

/-! ## Moves and classes (46_float_single.md R357, R376, R377; 47_float_double.md R402, R423, R424) -/

theorem classOf_le (e f v : Nat) : classOf e f v ≤ 9 := by
  unfold classOf
  dsimp only
  split_ifs <;> omega

/-- `fclass` sets the bit of the class. -/
theorem fClass_toNat {F : Fmt} (hF : F.Proper) (v : Nat) :
    (fClass F v).toNat = 2 ^ classOf F.ebits F.fbits v := by
  have htop := (Fmt.expField_top_pos hF).ne
  have hclass : classOf F.ebits F.fbits v =
      if F.expField v = 2 ^ F.ebits - 1 then
        if F.fracField v = 0 then (if F.isNeg v then 0 else 7) else if F.fracField v < 2 ^ (F.fbits - 1) then 8 else 9
      else if F.expField v = 0 then
        if F.fracField v = 0 then (if F.isNeg v then 3 else 4) else if F.isNeg v then 2 else 5
      else if F.isNeg v then 1 else 6 := by
    simp only [F.isNeg_iff]
    rfl
  have hsig : F.isSignaling v = true ↔ F.isNan v = true ∧ F.fracField v < 2 ^ (F.fbits - 1) := by
    rw [F.isSignaling_iff v hF, F.isNan_iff]
    rfl
  rw [hclass]
  unfold fClass
  simp only [hsig, F.isNan_iff_fields, F.isInf_iff_fields, F.isZero_iff_fields, F.mag_div]
  by_cases hexp : F.expField v = 2 ^ F.ebits - 1
  · by_cases hfrac : F.fracField v = 0
    · simp only [hexp, hfrac, ne_eq, not_true_eq_false, and_false, and_self, if_true, if_false]
      split <;> rfl
    · simp only [hexp, hfrac, ne_eq, not_false_eq_true, and_self, true_and, if_true, if_false]
      split <;> rfl
  · by_cases hzero : F.expField v = 0
    · by_cases hfrac : F.fracField v = 0
      · simp only [hzero, htop, hfrac, false_and, and_self, if_true, if_false]
        split <;> rfl
      · simp only [hzero, htop, hfrac, false_and, and_false, if_true, if_false]
        split <;> rfl
    · simp only [hexp, hzero, false_and, if_false]
      split <;> rfl

/-- Settles O46: a class is one bit, and the moves are the shared shapes. -/
theorem floatMovesAndClasses : Obligations.FloatMovesAndClasses := by
  intro s rd rs1 hon
  have hclass : ∀ e f v, 2 ^ classOf e f v % 2 ^ s.xlen = 2 ^ classOf e f v := fun e f v =>
    Nat.mod_eq_of_lt (Nat.pow_lt_pow_right (by decide) (by
      have := classOf_le e f v
      obtain h | h := s.xlen_eq <;> omega))
  refine ⟨?classS, ?moveXW, ?moveWX, fun hd => ⟨?classD, fun hx => ⟨?moveXD, ?moveDX⟩⟩⟩
  case classS =>
    have h := moveToX_completes (i := .fclassS rd rs1) hon rfl
    rwa [fClass_toNat s.single_proper, hclass, readS_toNat] at h
  case moveXW =>
    have h := moveToX_completes (i := .fmvXW rd rs1) hon rfl
    rwa [← modBits_signExtend s _ (by decide), ← signedOf_toNat (by decide), BitVec.toNat_setWidth] at h
  case moveWX =>
    have h := moveToF_completes (i := .fmvWX rd rs1) hon rfl
    rwa [boxS_toNat, BitVec.toNat_setWidth, boxedSingle_mod] at h
  case classD =>
    have h := moveToX_completes (i := .fclassD rd rs1) hon rfl
    rwa [fClass_toNat s.double_proper, hclass] at h
  case moveXD =>
    have h := moveToX_completes (i := .fmvXD rd rs1) hon rfl
    rwa [State.xlen, hx, Xlen.bits, Nat.mod_eq_of_lt (BitVec.isLt _)] at h
  case moveDX =>
    have h := moveToF_completes (i := .fmvDX rd rs1) hon rfl
    rwa [Config.flenWrap, if_pos hd] at h

end Sys2Proof.Machine

/-! ## Comparisons, minimum and maximum, sign injection (46_float_single.md R355, R380 to R382) -/

namespace Sys2Proof.Machine

open Sys2Proof

/-! ### Comparisons -/

section

variable {F : Fmt} {a b : Nat}

theorem boolBit_eq (p : Prop) [Decidable p] : boolBit (decide p) = if p then 1 else 0 := by
  unfold boolBit
  simp only [decide_eq_true_eq]

theorem fEq_eq (hF : F.Proper) (h : FloatOp.eq ∉ F.fp.uninterpreted) : fEq F a b =
    (if ¬DatumIsNaN F.ebits F.fbits a ∧ ¬DatumIsNaN F.ebits F.fbits b ∧
        orderKey F.ebits F.fbits a = orderKey F.ebits F.fbits b then 1 else 0,
      if DatumIsSignaling F.ebits F.fbits a ∨ DatumIsSignaling F.ebits F.fbits b then 0x10 else 0) := by
  rw [fEq, Fmt.numericBit_eq h]
  simp only [← F.isNan_iff, ← F.isSignaling_iff _ hF, ← F.key_eq, Bool.or_eq_true]
  by_cases hn : F.isNan a = true ∨ F.isNan b = true
  · have hcmp : ¬(¬F.isNan a = true ∧ ¬F.isNan b = true ∧ F.key a = F.key b) := by tauto
    rw [if_pos hn, if_neg hcmp]
    rfl
  · obtain ⟨ha, hb⟩ := not_or.mp hn
    rw [if_neg hn, Fmt.isSignaling_of_not_isNan (by simpa using ha), Fmt.isSignaling_of_not_isNan (by simpa using hb)]
    simp [ha, hb, boolBit]

/-- Where a NaN is not compared nothing is signaled (R355). -/
theorem signalingComparison_eq (less : Prop) [Decidable less] :
    (if F.isNan a || F.isNan b then (0, flagNV) else (boolBit (decide less), 0) : Word × BitVec 5) =
    (if ¬DatumIsNaN F.ebits F.fbits a ∧ ¬DatumIsNaN F.ebits F.fbits b ∧ less then 1 else 0,
      if DatumIsNaN F.ebits F.fbits a ∨ DatumIsNaN F.ebits F.fbits b then 0x10 else 0) := by
  simp only [← F.isNan_iff, Bool.or_eq_true]
  by_cases hn : F.isNan a = true ∨ F.isNan b = true
  · rw [if_pos hn, if_neg (by tauto), if_pos hn]
    rfl
  · obtain ⟨ha, hb⟩ := not_or.mp hn
    rw [if_neg hn, if_neg hn, boolBit_eq]
    simp [ha, hb]

theorem fLt_eq (h : FloatOp.lt ∉ F.fp.uninterpreted) : fLt F a b =
    (if ¬DatumIsNaN F.ebits F.fbits a ∧ ¬DatumIsNaN F.ebits F.fbits b ∧
        orderKey F.ebits F.fbits a < orderKey F.ebits F.fbits b then 1 else 0,
      if DatumIsNaN F.ebits F.fbits a ∨ DatumIsNaN F.ebits F.fbits b then 0x10 else 0) := by
  rw [fLt, Fmt.numericBit_eq h, signalingComparison_eq, F.key_eq, F.key_eq]

theorem fLe_eq (h : FloatOp.le ∉ F.fp.uninterpreted) : fLe F a b =
    (if ¬DatumIsNaN F.ebits F.fbits a ∧ ¬DatumIsNaN F.ebits F.fbits b ∧
        orderKey F.ebits F.fbits a ≤ orderKey F.ebits F.fbits b then 1 else 0,
      if DatumIsNaN F.ebits F.fbits a ∨ DatumIsNaN F.ebits F.fbits b then 0x10 else 0) := by
  rw [fLe, Fmt.numericBit_eq h, signalingComparison_eq, F.key_eq, F.key_eq]

theorem compared_le (unordered p : Bool) (x y : BitVec 5) :
    (if unordered then (0, x) else (boolBit p, y) : Word × BitVec 5).1.toNat ≤ 1 := by
  cases unordered <;> cases p <;> exact of_decide_eq_true rfl

theorem fEq_le : (fEq F a b).1.toNat ≤ 1 := Fmt.numericBit_le F .eq a b _ (compared_le ..)

theorem fLt_le : (fLt F a b).1.toNat ≤ 1 := Fmt.numericBit_le F .lt a b _ (compared_le ..)

theorem fLe_le : (fLe F a b).1.toNat ≤ 1 := Fmt.numericBit_le F .le a b _ (compared_le ..)

end

section

variable {i : Instr} {s : State} {rd : Reg} {v : Word × BitVec 5} (hon : FloatOn s)
  (hexec : exec i s = compareF i rd v s)

include hon hexec

/-- A comparison whose result is the truth of p. -/
theorem compareF_truth {p q : Prop} [Decidable p] [Decidable q]
    (hv : v = (if p then 1 else 0, if q then 0x10 else 0)) :
    SetsXWithFlags (exec i s) s rd (if p then 1 else 0) (if q then 0x10 else 0) := by
  have hbit : (if p then 1 else 0 : Word).toNat % 2 ^ s.xlen = if p then 1 else 0 := by
    have hone : 1 % 2 ^ s.xlen = 1 := Nat.mod_eq_of_lt (Nat.one_lt_two_pow s.xlen_pos.ne')
    split
    · exact hone
    · exact Nat.zero_mod _
  have h := compareF_completes hon hexec
  rw [hv] at h
  rwa [hbit] at h

/-- A comparison gives 0 or 1 and some flags, whatever FP makes of it. -/
theorem compareF_some (hv : v.1.toNat ≤ 1) : ∃ w raised, w ≤ 1 ∧ SetsXWithFlags (exec i s) s rd w raised :=
  ⟨_, _, (Nat.mod_le _ _).trans hv, compareF_completes hon hexec⟩

end

/-- Settles O44: the comparisons of either format, which read their operands as its data. -/
theorem floatComparisonsOrderData : Obligations.FloatComparisonsOrderData := by
  intro s rd rs1 rs2 e f a b feq flt fle hon hformat
  obtain ⟨F, hF, rfl, rfl, hfp, hfeq, hflt, hfle⟩ : ∃ F : Fmt, F.Proper ∧ e = F.ebits ∧ f = F.fbits ∧
      F.fp = s.cfg.fp ∧ exec feq s = compareF feq rd (fEq F a b) s ∧ exec flt s = compareF flt rd (fLt F a b) s ∧
      exec fle s = compareF fle rd (fLe F a b) s := by
    obtain ⟨rfl, rfl, rfl, rfl, rfl, rfl, rfl⟩ | ⟨rfl, rfl, -, rfl, rfl, rfl, rfl, rfl⟩ := hformat
    · rw [← readS_toNat s rs1, ← readS_toNat s rs2]
      exact ⟨s.single, s.single_proper, rfl, rfl, rfl, rfl, rfl, rfl⟩
    · exact ⟨s.double, s.double_proper, rfl, rfl, rfl, rfl, rfl, rfl⟩
  rw [← hfp]
  refine ⟨fun h => compareF_truth hon hfeq (fEq_eq hF h), fun h => compareF_truth hon hflt (fLt_eq h),
    fun h => compareF_truth hon hfle (fLe_eq h), ?_⟩
  simp only [List.forall_mem_cons]
  exact ⟨compareF_some hon hfeq fEq_le, compareF_some hon hflt fLt_le, compareF_some hon hfle fLe_le, by simp⟩

/-! ### Minimum, maximum and sign injection -/

/-- The operation of `fmin`, or of `fmax`. -/
abbrev minMaxOp (wantMax : Bool) : FloatOp := if wantMax then .max else .min

/-- The datum the default of FP takes the smaller of two, or the larger: -0 is below +0, and a number goes before a NaN
(46_float_single.md R355). -/
def pickedDatum (e f nan : Nat) (wantMax : Bool) (a b : Nat) : Nat :=
  if DatumIsNaN e f a then (if DatumIsNaN e f b then nan else b) else if DatumIsNaN e f b then a
  else if orderKey e f a < orderKey e f b ∨ (orderKey e f a = orderKey e f b ∧ 2 ^ (e + f) ≤ a) then
    (if wantMax then b else a)
  else if wantMax then a else b

theorem pickedDatum_lt {e f nan a b m : Nat} {wantMax : Bool} (hn : nan < m) (ha : a < m) (hb : b < m) :
    pickedDatum e f nan wantMax a b < m := by
  unfold pickedDatum
  split_ifs <;> assumption

section

variable {F : Fmt} {a b : Nat} {wantMax : Bool}

theorem fMinMax_flags (hF : F.Proper) (h : minMaxOp wantMax ∉ F.fp.uninterpreted) : (fMinMax F wantMax a b).2 =
    if DatumIsSignaling F.ebits F.fbits a ∨ DatumIsSignaling F.ebits F.fbits b then 0x10 else 0 := by
  rw [fMinMax, Fmt.numeric_eq h]
  simp only [← F.isSignaling_iff _ hF, ← Bool.or_eq_true]
  split_ifs <;> rfl

theorem fMinMax_standard (h : F.fp = .standard) (ha : a < 2 ^ (1 + F.ebits + F.fbits)) :
    (fMinMax F wantMax a b).1 = pickedDatum F.ebits F.fbits F.nan wantMax a b := by
  have hnan : F.nanOf [a, b] = F.nan := Fmt.nanOf_canonical (by rw [h]; rfl) _
  have hneg : F.isNeg a = decide (2 ^ (F.ebits + F.fbits) ≤ a) := by
    rw [Bool.eq_iff_iff, Fmt.isNeg_iff_le ha, decide_eq_true_iff, Fmt.signBit]
  rw [fMinMax, Fmt.numeric_eq (by rw [h]; simp [FpRecord.standard])]
  simp only [pickedDatum, h, FpRecord.standard, hnan, ← F.isNan_iff, ← F.key_eq, hneg, Bool.and_false, Bool.or_false,
    Bool.not_true, Bool.false_eq_true, if_false]
  cases hna : F.isNan a <;> cases hnb : F.isNan b
  · have hless : (decide (F.key a < F.key b) || (F.key a == F.key b && decide (2 ^ (F.ebits + F.fbits) ≤ a))) =
        decide (F.key a < F.key b ∨ (F.key a = F.key b ∧ 2 ^ (F.ebits + F.fbits) ≤ a)) := by
      rw [Bool.eq_iff_iff]
      simp
    rw [hless]
    by_cases hp : F.key a < F.key b ∨ (F.key a = F.key b ∧ 2 ^ (F.ebits + F.fbits) ≤ a)
    · cases wantMax <;> simp [hp]
    · cases wantMax <;> simp [hp]
  · rfl
  · rfl
  · rfl

/-- The magnitude of a under a sign given as a digit. -/
theorem fSgn_eq (F : Fmt) (neg : Bool) (a : Nat) :
    fSgn F neg a = a % 2 ^ (F.ebits + F.fbits) + neg.toNat * 2 ^ (F.ebits + F.fbits) :=
  F.withSign_eq neg (F.mag a)

theorem fSgn_lt (F : Fmt) (neg : Bool) (a : Nat) : fSgn F neg a < 2 ^ (1 + F.ebits + F.fbits) :=
  Fmt.withSign_lt neg (F.mag_lt a)

end

/-- The selections of a format, by instructions that keep a datum in f[rd] as `cut` says. -/
structure Selections (F : Fmt) (s : State) (rd : Reg) (a b : Nat) (cut : Nat → Nat)
    (fmin fmax fsgnj fsgnjn fsgnjx : Instr) : Prop where
  min : SetsF (exec fmin s) s 4 rd (cut (fMinMax F false a b).1) (fMinMax F false a b).2
  max : SetsF (exec fmax s) s 4 rd (cut (fMinMax F true a b).1) (fMinMax F true a b).2
  sgnj : SetsF (exec fsgnj s) s 4 rd (cut (fSgn F (F.isNeg b) a)) 0
  sgnjn : SetsF (exec fsgnjn s) s 4 rd (cut (fSgn F (!F.isNeg b) a)) 0
  sgnjx : SetsF (exec fsgnjx s) s 4 rd (cut (fSgn F (F.isNeg a != F.isNeg b) a)) 0

section

variable {s : State} (rd rs1 rs2 : Reg) (hon : FloatOn s)

include hon

theorem selections_single : Selections s.single s rd (s.us rs1) (s.us rs2) (boxedSingle s.cfg) (.fminS rd rs1 rs2)
    (.fmaxS rd rs1 rs2) (.fsgnjS rd rs1 rs2) (.fsgnjnS rd rs1 rs2) (.fsgnjxS rd rs1 rs2) := by
  have hselect {i : Instr} {v : Nat} {fl : BitVec 5} (hexec : exec i s = selectS i rd (v, fl) s) :
      SetsF (exec i s) s 4 rd (boxedSingle s.cfg v) fl := selectS_completes hon hexec
  rw [← readS_toNat s rs1, ← readS_toNat s rs2]
  exact ⟨hselect rfl, hselect rfl, hselect rfl, hselect rfl, hselect rfl⟩

theorem selections_double (hd : s.cfg.extD = true) : Selections s.double s rd (s.uf rs1) (s.uf rs2) (· % 2 ^ 64)
    (.fminD rd rs1 rs2) (.fmaxD rd rs1 rs2) (.fsgnjD rd rs1 rs2) (.fsgnjnD rd rs1 rs2) (.fsgnjxD rd rs1 rs2) := by
  have hselect {i : Instr} {v : Nat} {fl : BitVec 5} (hexec : exec i s = selectD i rd (v, fl) s) :
      SetsF (exec i s) s 4 rd (v % 2 ^ 64) fl := selectD_completes hd hon hexec
  exact ⟨hselect rfl, hselect rfl, hselect rfl, hselect rfl, hselect rfl⟩

end

/-- Settles O45: the selections of either format; a datum of 64 bits is itself when it is cut to them. -/
theorem minMaxAndSignInjection : Obligations.MinMaxAndSignInjection := by
  intro s rd rs1 rs2 e f nan a b box fmin fmax fsgnj fsgnjn fsgnjx hon hformat
  obtain ⟨F, cut, hF, rfl, rfl, rfl, hfp, ha, hb, hcut, hmin, hmax, hsgnj, hsgnjn, hsgnjx⟩ :
      ∃ (F : Fmt) (cut : Nat → Nat), F.Proper ∧ e = F.ebits ∧ f = F.fbits ∧ nan = F.nan ∧ F.fp = s.cfg.fp ∧
        a < 2 ^ (1 + e + f) ∧ b < 2 ^ (1 + e + f) ∧ (∀ v, v < 2 ^ (1 + e + f) → cut v = box v) ∧
        Selections F s rd a b cut fmin fmax fsgnj fsgnjn fsgnjx := by
    obtain ⟨rfl, rfl, rfl, rfl, rfl, rfl, rfl, rfl, rfl, rfl, rfl⟩ |
      ⟨rfl, rfl, rfl, hd, rfl, rfl, rfl, rfl, rfl, rfl, rfl, rfl⟩ := hformat
    · exact ⟨s.single, boxedSingle s.cfg, s.single_proper, rfl, rfl, (Fmt.single_nan _).symm, rfl, s.us_lt rs1,
        s.us_lt rs2, fun _ _ => rfl, selections_single rd rs1 rs2 hon⟩
    · exact ⟨s.double, (· % 2 ^ 64), s.double_proper, rfl, rfl, (Fmt.double_nan _).symm, rfl, s.uf_lt rs1, s.uf_lt rs2,
        fun _ hv => Nat.mod_eq_of_lt hv, selections_double rd rs1 rs2 hon hd⟩
  have hnan : F.nan < 2 ^ (1 + F.ebits + F.fbits) := Fmt.withSign_lt false (Fmt.nan_lt hF)
  have hda : a / 2 ^ (F.ebits + F.fbits) = (F.isNeg a).toNat := Fmt.div_signBit ha
  have hdb : b / 2 ^ (F.ebits + F.fbits) = (F.isNeg b).toNat := Fmt.div_signBit hb
  have hstd : s.cfg.fp = .standard → ∀ wantMax, minMaxOp wantMax ∉ F.fp.uninterpreted := by
    intro h wantMax
    rw [hfp, h]
    exact List.not_mem_nil
  refine ⟨⟨_, _, hmin, fun h => fMinMax_flags hF (hfp ▸ h)⟩, ⟨_, _, hmax, fun h => fMinMax_flags hF (hfp ▸ h)⟩,
    fun h => ⟨?min, ?max⟩, ?sgnj, ?sgnjn, ?sgnjx⟩
  case min =>
    rwa [fMinMax_standard (hfp.trans h) ha, fMinMax_flags hF (hstd h _), hcut _ (pickedDatum_lt hnan ha hb)] at hmin
  case max =>
    rwa [fMinMax_standard (hfp.trans h) ha, fMinMax_flags hF (hstd h _), hcut _ (pickedDatum_lt hnan ha hb)] at hmax
  case sgnj => rwa [hcut _ (fSgn_lt ..), fSgn_eq, ← hdb] at hsgnj
  case sgnjn =>
    have hdigit : (!F.isNeg b).toNat = 1 - (F.isNeg b).toNat := by cases F.isNeg b <;> rfl
    rwa [hcut _ (fSgn_lt ..), fSgn_eq, hdigit, ← hdb] at hsgnjn
  case sgnjx =>
    have hdigit : (F.isNeg a != F.isNeg b).toNat = ((F.isNeg a).toNat + (F.isNeg b).toNat) % 2 := by
      cases F.isNeg a <;> cases F.isNeg b <;> rfl
    rwa [hcut _ (fSgn_lt ..), fSgn_eq, hdigit, ← hda, ← hdb] at hsgnjx

end Sys2Proof.Machine

/-! ## NaNs, infinities, invalid operations and division by zero (46_float_single.md R352, R353) -/

namespace Sys2Proof.Machine

open Sys2Proof

/-- Where FP keeps nothing abstract every operation is that of IEEE 754-2008 (log entry 31). -/
theorem Fmt.numeric_concrete {F : Fmt} (h : F.fp.uninterpreted = []) (op : FloatOp) (rm : Rounding) (ops : List Nat)
    (r : Nat × BitVec 5) : F.numeric op rm ops r = r :=
  Fmt.numeric_eq (by rw [h]; exact List.not_mem_nil) rm ops r

/-! ### The operations on data that are not all finite -/

section

variable {F G : Fmt} {rm : Rounding} {sub np na : Bool} {a b c : Nat} (hU : F.fp.uninterpreted = [])

include hU

theorem fAdd_nan (h : F.isNan a = true ∨ F.isNan b = true) : fAdd F rm sub a b = nanResult F [a, b] := by
  rw [fAdd, Fmt.numeric_concrete hU, if_pos (Bool.or_eq_true _ _ ▸ h)]

theorem fMul_nan (h : F.isNan a = true ∨ F.isNan b = true) : fMul F rm a b = nanResult F [a, b] := by
  rw [fMul, Fmt.numeric_concrete hU, if_pos (Bool.or_eq_true _ _ ▸ h)]

theorem fDiv_nan (h : F.isNan a = true ∨ F.isNan b = true) : fDiv F rm a b = nanResult F [a, b] := by
  rw [fDiv, Fmt.numeric_concrete hU, if_pos (Bool.or_eq_true _ _ ▸ h)]

theorem fSqrt_nan (h : F.isNan a = true) : fSqrt F rm a = nanResult F [a] := by
  rw [fSqrt, Fmt.numeric_concrete hU, if_pos h]

/-- An infinity plus a number is the infinity, unless the other is the opposite infinity. -/
theorem fAdd_inf_left (ha : F.isInf a = true) (hb : F.isNan b = false) : fAdd F rm sub a b =
    if F.isInf b = true ∧ ((F.isNeg a ^^ F.isNeg b) ^^ sub) = true then invalid F
    else (F.withSign (F.isNeg a) F.infMag, 0) := by
  have hsigns : (F.isNeg a != (F.isNeg b != sub)) = ((F.isNeg a ^^ F.isNeg b) ^^ sub) := by
    cases F.isNeg a <;> cases F.isNeg b <;> cases sub <;> rfl
  rw [fAdd, Fmt.numeric_concrete hU]
  simp only [Fmt.isNan_of_isInf ha, hb, ha, hsigns, Bool.or_self, Bool.false_eq_true, Bool.and_eq_true, if_true,
    if_false]

theorem fAdd_inf_right (ha : F.isNan a = false) (ha' : F.isInf a = false) (hb : F.isInf b = true) :
    fAdd F rm sub a b = (F.withSign (F.isNeg b ^^ sub) F.infMag, 0) := by
  rw [fAdd, Fmt.numeric_concrete hU]
  simp [ha, ha', Fmt.isNan_of_isInf hb, hb]

theorem fMul_inf (hna : F.isNan a = false) (hnb : F.isNan b = false) (h : F.isInf a = true ∨ F.isInf b = true) :
    fMul F rm a b = if F.isZero a = true ∨ F.isZero b = true then invalid F
      else (F.withSign (F.isNeg a ^^ F.isNeg b) F.infMag, 0) := by
  rw [fMul, Fmt.numeric_concrete hU]
  simp [hna, hnb, h]

theorem fDiv_inf_left (ha : F.isInf a = true) (hb : F.isNan b = false) : fDiv F rm a b =
    if F.isInf b = true then invalid F else (F.withSign (F.isNeg a ^^ F.isNeg b) F.infMag, 0) := by
  rw [fDiv, Fmt.numeric_concrete hU]
  simp [Fmt.isNan_of_isInf ha, ha, hb]

theorem fDiv_inf_right (ha : F.isNan a = false) (ha' : F.isInf a = false) (hb : F.isInf b = true) :
    fDiv F rm a b = (F.withSign (F.isNeg a ^^ F.isNeg b) 0, 0) := by
  rw [fDiv, Fmt.numeric_concrete hU]
  simp [ha, ha', Fmt.isNan_of_isInf hb, hb]

theorem fDiv_zero_right (hF : F.Proper) (ha : F.isNan a = false) (ha' : F.isInf a = false) (hb : F.isZero b = true) :
    fDiv F rm a b =
      if F.isZero a = true then invalid F else (F.withSign (F.isNeg a ^^ F.isNeg b) F.infMag, flagDZ) := by
  rw [fDiv, Fmt.numeric_concrete hU]
  simp [ha, ha', Fmt.isNan_of_isZero hb, Fmt.isInf_of_isZero hF hb, hb]

theorem fSqrt_neg (hn : F.isNan a = false) (hz : F.isZero a = false) (h : F.isNeg a = true) :
    fSqrt F rm a = invalid F := by
  rw [fSqrt, Fmt.numeric_concrete hU]
  simp [hn, hz, h]

theorem fSqrt_inf (hF : F.Proper) (hi : F.isInf a = true) (h : F.isNeg a = false) : fSqrt F rm a = (a, 0) := by
  rw [fSqrt, Fmt.numeric_concrete hU]
  simp [Fmt.isNan_of_isInf hi, Fmt.isZero_of_isInf hF hi, hi, h]

theorem fFma_invalid (h : (F.isInf a = true ∧ F.isZero b = true) ∨ (F.isZero a = true ∧ F.isInf b = true)) :
    fFma F rm np na a b c = invalid F := by
  rw [fFma, Fmt.numeric_concrete hU, if_pos (by simpa using h)]

theorem fFma_nan (hv : ¬((F.isInf a = true ∧ F.isZero b = true) ∨ (F.isZero a = true ∧ F.isInf b = true)))
    (h : F.isNan a = true ∨ F.isNan b = true ∨ F.isNan c = true) :
    fFma F rm np na a b c = nanResult F [a, b, c] := by
  rw [fFma, Fmt.numeric_concrete hU, if_neg (by simpa using hv), if_pos (by simpa [or_assoc] using h)]

theorem fFma_inf_product (hv : ¬((F.isInf a = true ∧ F.isZero b = true) ∨ (F.isZero a = true ∧ F.isInf b = true)))
    (ha : F.isNan a = false) (hb : F.isNan b = false) (hc : F.isNan c = false)
    (h : F.isInf a = true ∨ F.isInf b = true) : fFma F rm np na a b c =
      if F.isInf c = true ∧ ((F.isNeg a ^^ F.isNeg b) ^^ np) ≠ (F.isNeg c ^^ na) then invalid F
      else (F.withSign ((F.isNeg a ^^ F.isNeg b) ^^ np) F.infMag, 0) := by
  rw [fFma, Fmt.numeric_concrete hU, if_neg (by simpa using hv)]
  simp only [ha, hb, hc, h, Bool.or_self, Bool.or_eq_true, Bool.and_eq_true, Bool.bne_eq_xor, bne_iff_ne,
    Bool.false_eq_true, if_true, if_false]

theorem fFma_inf_addend (ha : F.isNan a = false) (hb : F.isNan b = false) (ha' : F.isInf a = false)
    (hb' : F.isInf b = false) (hc : F.isInf c = true) :
    fFma F rm np na a b c = (F.withSign (F.isNeg c ^^ na) F.infMag, 0) := by
  rw [fFma, Fmt.numeric_concrete hU]
  simp [ha, hb, ha', hb', Fmt.isNan_of_isInf hc, hc]

omit hU

variable (hG : G.fp.uninterpreted = [])

include hG

theorem fConvert_nan (h : F.isNan a = true) :
    fConvert F G rm a = (G.nanOf [a], if F.isSignaling a then flagNV else 0) := by
  rw [fConvert, Fmt.numeric_concrete hG, if_pos h]

theorem fConvert_inf (h : F.isInf a = true) : fConvert F G rm a = (G.withSign (F.isNeg a) G.infMag, 0) := by
  rw [fConvert, Fmt.numeric_concrete hG, Fmt.isNan_of_isInf h, if_neg Bool.false_ne_true, if_pos h]

end

theorem invalid_canonical {F : Fmt} (h : F.fp.nan = .canonical) : invalid F = (F.nan, 0x10#5) := by
  rw [invalid, Fmt.nanOf_canonical h, flagNV]
  rfl

/-- The canonical NaN of NaN operands, with NV when one of them is signaling. -/
theorem nanResult_canonical {F : Fmt} (h : F.fp.nan = .canonical) {ops : List Nat} {p : Prop} [Decidable p]
    (hp : (ops.any F.isSignaling) = true ↔ p) : nanResult F ops = (F.nan, if p then 0x10#5 else 0#5) := by
  rw [nanResult, Fmt.nanOf_canonical h, flagNV]
  simp only [hp]
  rfl

/-- Settles O43: in each clause the classes of the operands select one branch of the operation. -/
theorem naNsAndInvalidOperations : Obligations.NaNsAndInvalidOperations := by
  intro P F G e f nan other rm sub np na s p q a b c hcanon hun hfmt ha hb hc hs hp hq
  obtain ⟨hF, rfl, rfl, rfl, rfl, hFU, hGU, hFN, hGN⟩ : F.Proper ∧ e = F.ebits ∧ f = F.fbits ∧ nan = F.nan ∧
      other = G.nan ∧ F.fp.uninterpreted = [] ∧ G.fp.uninterpreted = [] ∧
      F.fp.nan = .canonical ∧ G.fp.nan = .canonical := by
    obtain ⟨rfl, rfl, rfl, rfl, rfl, rfl⟩ | ⟨rfl, rfl, rfl, rfl, rfl, rfl⟩ := hfmt
    · exact ⟨Fmt.single_proper P, rfl, rfl, (Fmt.single_nan P).symm, (Fmt.double_nan P).symm, hun, hun, hcanon, hcanon⟩
    · exact ⟨Fmt.double_proper P, rfl, rfl, (Fmt.double_nan P).symm, (Fmt.single_nan P).symm, hun, hun, hcanon, hcanon⟩
  have hinv : invalid F = (F.nan, 0x10#5) := invalid_canonical hFN
  simp only [F.isFinite_iff _ ha, F.isFinite_iff _ hb]
  simp only [← F.isNan_iff, ← F.isInf_iff, ← F.isZero_iff, ← F.isNeg_iff, ← F.isSignaling_iff _ hF, ← F.isNeg_eq,
    Bool.not_eq_true] at hs hq ⊢
  subst hs hp hq
  refine ⟨?nanOperands, ?nanOperand, ?infTimesZero, ?fused, ?infLeft, ?infRight, ?zeroDivisor, ?negativeRoot⟩
  case nanOperands =>
    intro h
    rw [fAdd_nan hFU h, fMul_nan hFU h, fDiv_nan hFU h]
    have hres : nanResult F [a, b] =
        (F.nan, if F.isSignaling a = true ∨ F.isSignaling b = true then 0x10#5 else 0#5) :=
      nanResult_canonical hFN (by simp)
    exact ⟨hres, hres, hres⟩
  case nanOperand =>
    intro h
    rw [fSqrt_nan hFU h, fConvert_nan hGU h, Fmt.nanOf_canonical hGN]
    exact ⟨nanResult_canonical hFN (by simp), rfl⟩
  case infTimesZero =>
    intro h
    have hclasses : F.isNan a = false ∧ F.isNan b = false ∧ (F.isInf a = true ∨ F.isInf b = true) ∧
        (F.isZero a = true ∨ F.isZero b = true) := by
      obtain ⟨hi, hz⟩ | ⟨hz, hi⟩ := h
      · exact ⟨Fmt.isNan_of_isInf hi, Fmt.isNan_of_isZero hz, .inl hi, .inr hz⟩
      · exact ⟨Fmt.isNan_of_isZero hz, Fmt.isNan_of_isInf hi, .inr hi, .inl hz⟩
    obtain ⟨hna, hnb, hi, hz⟩ := hclasses
    rw [fMul_inf hFU hna hnb hi, if_pos hz, fFma_invalid hFU h, hinv]
    exact ⟨rfl, rfl⟩
  case fused =>
    refine fun hv => ⟨fun h => ?_, fun hna hnb hnc => ⟨fun h => ?_, fun hia hib hic => ?_⟩⟩
    · rw [fFma_nan hFU hv h]
      exact nanResult_canonical hFN (by simp)
    · rw [fFma_inf_product hFU hv hna hnb hnc h, hinv]
      rfl
    · exact fFma_inf_addend hFU hna hnb hia hib hic
  case infLeft =>
    intro hia
    have hself : F.withSign (F.isNeg a) F.infMag = a := Fmt.withSign_infMag ha hia
    refine ⟨fun hib => ⟨?_, ?_⟩, fun ⟨hnb, hib⟩ => ⟨?_, ?_⟩, fun hnb hzb => ?_, fun hneg => fSqrt_inf hFU hF hia hneg,
      fConvert_inf hGU hia⟩
    · rw [fDiv_inf_left hFU hia (Fmt.isNan_of_isInf hib), if_pos hib, hinv]
    · rw [fAdd_inf_left hFU hia (Fmt.isNan_of_isInf hib), hinv, hself]
      simp only [hib, true_and]
      rfl
    · rw [fAdd_inf_left hFU hia hnb, if_neg (by simp [hib]), hself]
      rfl
    · rw [fDiv_inf_left hFU hia hnb, if_neg (by simp [hib])]
      rfl
    · rw [fMul_inf hFU (Fmt.isNan_of_isInf hia) hnb (.inl hia), if_neg (by simp [hzb, Fmt.isZero_of_isInf hF hia])]
      rfl
  case infRight =>
    refine fun hib ⟨hna, hia⟩ => ⟨fAdd_inf_right hFU hna hia hib, fDiv_inf_right hFU hna hia hib, fun hza => ?_⟩
    rw [fMul_inf hFU hna (Fmt.isNan_of_isInf hib) (.inr hib), if_neg (by simp [hza, Fmt.isZero_of_isInf hF hib])]
    rfl
  case zeroDivisor =>
    refine fun hzb => ⟨fun hza => ?_, fun hza ⟨hna, hia⟩ => ?_⟩
    · rw [fDiv_zero_right hFU hF (Fmt.isNan_of_isZero hza) (Fmt.isInf_of_isZero hF hza) hzb, if_pos hza, hinv]
    · rw [fDiv_zero_right hFU hF hna hia hzb, if_neg (by simp [hza])]
      rfl
  case negativeRoot =>
    intro hneg hza hna
    rw [fSqrt_neg hFU hna hza hneg, hinv]

end Sys2Proof.Machine

/-! ## The numbers that data stand for (46_float_single.md R350 (a); 47_float_double.md R400) -/

namespace Sys2Proof.Machine

open Sys2Proof

/-! ### The value of a magnitude -/

section

variable {F : Fmt}

/-- The number a magnitude stands for; the magnitude of infinity gets the number that would follow the largest finite
one, and larger magnitudes go on from there. -/
def Fmt.value (F : Fmt) (m : Nat) : ℚ :=
  if m / 2 ^ F.fbits = 0 then (m : ℚ) * 2 ^ F.qmin
  else ((2 ^ F.fbits + m % 2 ^ F.fbits : Nat) : ℚ) * 2 ^ (F.qmin + (m / 2 ^ F.fbits : Nat) - 1)

theorem Fmt.bias_eq (F : Fmt) : (F.bias : Int) = 2 ^ (F.ebits - 1) - 1 := by
  have := Nat.two_pow_pos (F.ebits - 1)
  rw [Fmt.bias, Nat.cast_sub this]
  push_cast
  rfl

theorem Fmt.qmin_eq (F : Fmt) : F.qmin = 2 - 2 ^ (F.ebits - 1) - F.fbits := by
  rw [Fmt.qmin, Fmt.emin, F.bias_eq]
  ring

theorem Fmt.value_mag (F : Fmt) (v : Nat) : F.value (F.mag v) = F.sig v * 2 ^ F.exp v := by
  unfold Fmt.value Fmt.sig Fmt.exp
  split_ifs <;> rfl

/-- A datum stands for the value of its magnitude with its sign. -/
theorem realOf_eq (F : Fmt) (v : Nat) :
    realOf F.ebits F.fbits v = (if F.isNeg v then -1 else 1) * F.value (F.mag v) := by
  have hmod : v % 2 ^ F.fbits % 2 ^ F.fbits = v % 2 ^ F.fbits := Nat.mod_mod _ _
  rw [realOf, Fmt.value, F.mag_div, F.mag_mod]
  simp only [F.isNeg_iff]
  rw [← Fmt.expField, ← Fmt.fracField]
  congr 1
  split_ifs with hexp
  · rw [F.mag_eq, hexp, F.qmin_eq]
    simp
  · rw [F.qmin_eq]
    congr 2
    ring

theorem realOf_sigInt (F : Fmt) (v : Nat) : realOf F.ebits F.fbits v = F.sigInt v * 2 ^ F.exp v := by
  rw [realOf_eq, F.value_mag, Fmt.sigInt]
  split_ifs <;> push_cast <;> ring

theorem Fmt.isNeg_withSign {neg : Bool} {m : Nat} (hm : m < F.signBit) : F.isNeg (F.withSign neg m) = neg := by
  have hpos : 0 < F.signBit := Nat.two_pow_pos _
  rw [Fmt.isNeg, F.withSign_eq, Nat.add_mul_div_right _ _ hpos, Nat.div_eq_of_lt hm]
  cases neg <;> rfl

theorem Fmt.mag_withSign {neg : Bool} {m : Nat} (hm : m < F.signBit) : F.mag (F.withSign neg m) = m := by
  rw [Fmt.mag, F.withSign_eq, Nat.add_mul_mod_self_right, Nat.mod_eq_of_lt hm]

theorem realOf_withSign (neg : Bool) {m : Nat} (hm : m < F.signBit) :
    realOf F.ebits F.fbits (F.withSign neg m) = (if neg then -1 else 1) * F.value m := by
  rw [realOf_eq, Fmt.isNeg_withSign hm, Fmt.mag_withSign hm]

theorem realOf_of_lt {m : Nat} (hm : m < F.signBit) : realOf F.ebits F.fbits m = F.value m := by
  have h := realOf_withSign (F := F) false hm
  rwa [if_neg Bool.false_ne_true, one_mul] at h

/-- m units of 2^(qmin + j), from the first magnitude of that unit up to the one that carries. -/
theorem Fmt.value_units {j m : Nat} (hm : m ≤ 2 ^ (F.fbits + 1)) (hj : j = 0 ∨ 2 ^ F.fbits ≤ m) :
    F.value (j * 2 ^ F.fbits + m) = m * 2 ^ (F.qmin + j) := by
  have hpos := Nat.two_pow_pos F.fbits
  rw [Nat.pow_succ] at hm
  by_cases hsub : m < 2 ^ F.fbits
  · obtain rfl : j = 0 := hj.resolve_right (by omega)
    rw [Nat.zero_mul, Nat.zero_add, Fmt.value, Nat.div_eq_of_lt hsub, if_pos rfl]
    simp
  · obtain ⟨y, rfl⟩ := Nat.exists_eq_add_of_le (Nat.not_lt.mp hsub)
    have hsplit : j * 2 ^ F.fbits + (2 ^ F.fbits + y) = y + (j + 1) * 2 ^ F.fbits := by ring
    rw [hsplit, Fmt.value, Nat.add_mul_div_right _ _ hpos, Nat.add_mul_mod_self_right]
    by_cases hcarry : y < 2 ^ F.fbits
    · rw [Nat.div_eq_of_lt hcarry, Nat.mod_eq_of_lt hcarry, if_neg (by omega)]
      push_cast
      ring_nf
    · obtain rfl : y = 2 ^ F.fbits := by omega
      rw [Nat.div_self hpos, Nat.mod_self, if_neg (by omega)]
      push_cast
      rw [show F.qmin + (1 + (j + 1)) - 1 = F.qmin + j + 1 by ring, zpow_add_one₀ (by norm_num)]
      ring

/-- Every magnitude is a number of units. -/
theorem Fmt.exists_units (F : Fmt) (c : Nat) :
    ∃ j m, c = j * 2 ^ F.fbits + m ∧ m < 2 ^ (F.fbits + 1) ∧ (j = 0 ∨ 2 ^ F.fbits ≤ m) := by
  have hpos := Nat.two_pow_pos F.fbits
  have hlt := Nat.mod_lt c hpos
  have hdiv := Nat.div_add_mod' c (2 ^ F.fbits)
  obtain hx | ⟨j, hx⟩ : c / 2 ^ F.fbits = 0 ∨ ∃ j, c / 2 ^ F.fbits = j + 1 := by
    cases c / 2 ^ F.fbits with
    | zero => exact .inl rfl
    | succ j => exact .inr ⟨j, rfl⟩
  · rw [hx] at hdiv
    exact ⟨0, c, by omega, by rw [Nat.pow_succ]; omega, .inl rfl⟩
  · rw [hx, Nat.succ_mul] at hdiv
    exact ⟨j, 2 ^ F.fbits + c % 2 ^ F.fbits, by omega, by rw [Nat.pow_succ]; omega, .inr (by omega)⟩

theorem Fmt.value_strictMono (F : Fmt) : StrictMono F.value := by
  refine strictMono_nat_of_lt_succ fun c => ?_
  obtain ⟨j, m, rfl, hm, hj⟩ := F.exists_units c
  rw [Nat.add_assoc, Fmt.value_units hm.le hj, Fmt.value_units hm (hj.imp_right (by omega))]
  have hunit : (0 : ℚ) < 2 ^ (F.qmin + j) := by positivity
  push_cast
  linarith

theorem Fmt.value_zero (F : Fmt) : F.value 0 = 0 := by
  rw [Fmt.value, Nat.zero_div, if_pos rfl, Nat.cast_zero, zero_mul]

theorem Fmt.value_nonneg (F : Fmt) (m : Nat) : 0 ≤ F.value m :=
  F.value_zero ▸ F.value_strictMono.monotone (Nat.zero_le m)

theorem abs_realOf (F : Fmt) (v : Nat) : |realOf F.ebits F.fbits v| = F.value (F.mag v) := by
  rw [realOf_eq]
  split_ifs
  · rw [neg_one_mul, abs_neg, abs_of_nonneg (F.value_nonneg _)]
  · rw [one_mul, abs_of_nonneg (F.value_nonneg _)]

end

/-! ## A magnitude in units, and what is left (46_float_single.md R350 (b)) -/

section

variable {K : Type} [Field K] [LinearOrder K] [IsStrictOrderedRing K]

/-- The magnitude t is n units u, and the rest compares with half a unit as said. -/
def IsQuant (t u : K) : Nat × Rest → Prop
  | (n, .zero) => t = n * u
  | (n, .below) => n * u < t ∧ 2 * t < (2 * n + 1) * u
  | (n, .half) => 2 * t = (2 * n + 1) * u
  | (n, .above) => (2 * n + 1) * u < 2 * t ∧ t < (n + 1) * u

variable {t u : K} {p : Nat × Rest}

theorem IsQuant.bounds (h : IsQuant t u p) (hu : 0 < u) : p.1 * u ≤ t ∧ t < (p.1 + 1) * u := by
  obtain ⟨n, r⟩ := p
  cases r with
  | zero => rw [IsQuant] at h; exact ⟨h.ge, by rw [h]; linarith⟩
  | below => exact ⟨h.1.le, by linarith [h.2]⟩
  | half => rw [IsQuant] at h; constructor <;> linarith
  | above => exact ⟨by linarith [h.1], h.2⟩

/-- There is no rest exactly when the magnitude is a number of units. -/
theorem IsQuant.rest_zero_iff (h : IsQuant t u p) (hu : 0 < u) : p.2 = .zero ↔ t = p.1 * u := by
  obtain ⟨n, r⟩ := p
  cases r with
  | zero => exact iff_of_true rfl h
  | below => exact iff_of_false (by simp) h.1.ne'
  | half => rw [IsQuant] at h; exact iff_of_false (by simp) fun ht => by dsimp only at ht; linarith
  | above => exact iff_of_false (by simp) fun ht => by have := h.1; dsimp only at ht; linarith

theorem IsQuant.scale (h : IsQuant t u p) {c : K} (hc : 0 < c) : IsQuant (t * c) (u * c) p := by
  obtain ⟨n, r⟩ := p
  cases r with
  | zero => rw [IsQuant] at h ⊢; rw [h, mul_assoc]
  | below =>
    obtain ⟨h1, h2⟩ := h
    exact ⟨by linarith [mul_lt_mul_of_pos_right h1 hc], by linarith [mul_lt_mul_of_pos_right h2 hc]⟩
  | half => rw [IsQuant] at h ⊢; linear_combination c * h
  | above =>
    obtain ⟨h1, h2⟩ := h
    exact ⟨by linarith [mul_lt_mul_of_pos_right h1 hc], by linarith [mul_lt_mul_of_pos_right h2 hc]⟩

/-- Dividing gives the units and the rest. -/
theorem isQuant_div (n : Nat) {d : Nat} (hd : 0 < d) (u : K) (hu : 0 < u) :
    IsQuant ((n / d : K) * u) u (n / d, Rest.ofDiv (n % d) d) := by
  have hdK : (0 : K) < d := Nat.cast_pos.mpr hd
  have hn : (n : K) = d * (n / d : Nat) + (n % d : Nat) := by exact_mod_cast (Nat.div_add_mod n d).symm
  have hlt : n % d < d := Nat.mod_lt n hd
  rw [hn, add_div, mul_div_cancel_left₀ _ hdK.ne']
  generalize n / d = q, n % d = r at hlt ⊢
  have hdouble : (2 * r : K) / d = 2 * (r / d) := mul_div_assoc _ _ _
  unfold Rest.ofDiv
  split_ifs with hzero hbelow hhalf
  · rw [IsQuant, hzero, Nat.cast_zero, zero_div, add_zero]
  · have hpos : (0 : K) < r / d := div_pos (by exact_mod_cast Nat.pos_of_ne_zero hzero) hdK
    have hsmall : (2 * r : K) / d < 1 := (div_lt_one hdK).mpr (by exact_mod_cast hbelow)
    exact ⟨mul_lt_mul_of_pos_right (by linarith) hu, by
      rw [← mul_assoc]; exact mul_lt_mul_of_pos_right (by linarith) hu⟩
  · have hone : (2 * r : K) / d = 1 := (div_eq_one_iff_eq hdK.ne').mpr (by exact_mod_cast hhalf)
    rw [IsQuant, ← mul_assoc]
    congr 1
    linarith
  · have hlarge : 1 < (2 * r : K) / d := (one_lt_div hdK).mpr (by
      exact_mod_cast (Nat.lt_of_le_of_ne (Nat.not_lt.mp hbelow) (Ne.symm hhalf)))
    have hless : (r / d : K) < 1 := (div_lt_one hdK).mpr (by exact_mod_cast hlt)
    exact ⟨by rw [← mul_assoc]; exact mul_lt_mul_of_pos_right (by linarith) hu,
      mul_lt_mul_of_pos_right (by linarith) hu⟩

/-- The fraction (num / den) * 2^e in units of 2^k. -/
theorem quantFrac_isQuant (num : Nat) {den : Nat} (hden : 0 < den) (e k : Int) :
    IsQuant ((num / den : K) * 2 ^ e) (2 ^ k) (quantFrac num den e k) := by
  have hunit : (0 : K) < 2 ^ k := by positivity
  unfold quantFrac
  dsimp only
  split_ifs with hk
  · have h := isQuant_div (K := K) (num * 2 ^ (e - k).toNat) hden (2 ^ k) hunit
    convert h using 1
    have hpow : (2 : K) ^ e = 2 ^ (e - k).toNat * 2 ^ k := by
      rw [← zpow_natCast, Int.toNat_of_nonneg (by omega), ← zpow_add₀ two_ne_zero, sub_add_cancel]
    rw [hpow]
    push_cast
    ring
  · have h := isQuant_div (K := K) num (d := den * 2 ^ (k - e).toNat) (by positivity) (2 ^ k) hunit
    convert h using 1
    have hpow : (2 : K) ^ k = 2 ^ e * 2 ^ (k - e).toNat := by
      rw [← zpow_natCast, Int.toNat_of_nonneg (by omega), ← zpow_add₀ two_ne_zero, add_sub_cancel]
    have hdenK : (den : K) ≠ 0 := Nat.cast_ne_zero.mpr hden.ne'
    rw [hpow]
    push_cast
    field_simp

/-! ### Rounding to a number of units -/

/-- The mode that does to -x what a mode does to x. -/
def Rounding.mirror : Rounding → Rounding
  | .rdn => .rup
  | .rup => .rdn
  | rm => rm

theorem roundQuant_true (rm : Rounding) (p : Nat × Rest) : roundQuant rm true p = roundQuant rm.mirror false p := by
  obtain ⟨n, r⟩ := p
  cases rm <;> cases r <;> rfl

theorem roundQuant_rtz (neg : Bool) (p : Nat × Rest) : roundQuant .rtz neg p = p.1 := by
  obtain ⟨n, r⟩ := p
  cases r <;> rfl

theorem roundQuant_rdn (p : Nat × Rest) : roundQuant .rdn false p = p.1 := by
  obtain ⟨n, r⟩ := p
  cases r <;> rfl

theorem roundQuant_eq_or (rm : Rounding) (neg : Bool) (p : Nat × Rest) :
    roundQuant rm neg p = p.1 ∨ (roundQuant rm neg p = p.1 + 1 ∧ p.2 ≠ .zero) := by
  obtain ⟨n, r⟩ := p
  unfold roundQuant
  split_ifs with hup
  · exact .inr ⟨rfl, by rintro rfl; exact Bool.false_ne_true hup⟩
  · exact .inl rfl

theorem roundQuant_of_rest_zero (rm : Rounding) (neg : Bool) {p : Nat × Rest} (h : p.2 = .zero) :
    roundQuant rm neg p = p.1 :=
  (roundQuant_eq_or rm neg p).resolve_right fun h' => h'.2 h

/-- Rounding up stops at the first number of units that is not below. -/
theorem IsQuant.rup (h : IsQuant t u p) (hu : 0 < u) :
    t ≤ roundQuant .rup false p * u ∧ (roundQuant .rup false p : K) * u < t + u := by
  obtain ⟨hlow, hhigh⟩ := h.bounds hu
  have hzero := h.rest_zero_iff hu
  by_cases hp : p.2 = .zero
  · rw [roundQuant_of_rest_zero _ _ hp]
    exact ⟨(hzero.mp hp).le, by linarith⟩
  · have hup : roundQuant .rup false p = p.1 + 1 := by
      obtain ⟨n, r⟩ := p
      cases r with
      | zero => exact absurd rfl hp
      | below | half | above => rfl
    have hstrict : p.1 * u < t := lt_of_le_of_ne hlow fun he => hp (hzero.mpr he.symm)
    rw [hup]
    push_cast
    exact ⟨hhigh.le, by linarith⟩

/-- Rounding to nearest ends within half a unit, and at half a unit only from half way. -/
theorem IsQuant.nearest (h : IsQuant t u p) (hu : 0 < u) {rm : Rounding} (hrm : rm = .rne ∨ rm = .rmm) :
    2 * |roundQuant rm false p * u - t| ≤ u ∧ (2 * |roundQuant rm false p * u - t| = u → p.2 = .half) := by
  obtain ⟨n, r⟩ := p
  cases r with
  | zero =>
    rw [IsQuant] at h
    rw [roundQuant_of_rest_zero _ _ rfl, h, sub_self, abs_zero, mul_zero]
    exact ⟨hu.le, fun he => absurd he hu.ne⟩
  | below =>
    obtain ⟨hlow, hhigh⟩ := h
    have hr : roundQuant rm false (n, .below) = n := by obtain rfl | rfl := hrm <;> rfl
    rw [hr, abs_of_neg (by linarith)]
    exact ⟨by linarith, fun he => absurd he (by linarith)⟩
  | half =>
    rw [IsQuant] at h
    refine ⟨le_of_eq ?_, fun _ => rfl⟩
    obtain hr | ⟨hr, -⟩ := roundQuant_eq_or rm false (n, .half)
    · rw [hr, abs_of_neg (by linarith)]
      linarith
    · rw [hr]
      push_cast
      rw [abs_of_pos (by linarith)]
      linarith
  | above =>
    obtain ⟨hlow, hhigh⟩ := h
    have hr : roundQuant rm false (n, .above) = n + 1 := by obtain rfl | rfl := hrm <;> rfl
    rw [hr]
    push_cast
    rw [abs_of_pos (by linarith)]
    exact ⟨by linarith, fun he => absurd he (by linarith)⟩

theorem roundQuant_rne_half (n : Nat) : roundQuant .rne false (n, .half) % 2 = 0 := by
  have hup : roundsUp .rne false n .half = (n % 2 == 1) := rfl
  rw [roundQuant, hup]
  split_ifs with h
  · have := beq_iff_eq.mp h
    omega
  · have := mt beq_iff_eq.mpr h
    omega

/-- A rounded magnitude is the magnitude exactly when there is no rest. -/
theorem IsQuant.roundQuant_eq_iff (h : IsQuant t u p) (hu : 0 < u) (rm : Rounding) (neg : Bool) :
    (roundQuant rm neg p : K) * u = t ↔ p.2 = .zero := by
  have hzero := h.rest_zero_iff hu
  obtain hr | ⟨hr, hp⟩ := roundQuant_eq_or rm neg p
  · rw [hr, hzero, eq_comm]
  · have hhigh := (h.bounds hu).2
    refine iff_of_false ?_ hp
    rw [hr]
    push_cast
    exact hhigh.ne'

end

/-! ## Conversion to an integer (46_float_single.md R354) -/

theorem Rounding.mirror_mirror (rm : Rounding) : rm.mirror.mirror = rm := by cases rm <;> rfl

theorem IsIntegerRounding.neg {rm : Rounding} {q : ℚ} {m : Int} (h : IsIntegerRounding rm q m) :
    IsIntegerRounding rm.mirror (-q) (-m) := by
  have hdist : |(-(m : ℚ)) - -q| = |(m : ℚ) - q| := by rw [neg_sub_neg, abs_sub_comm]
  cases rm <;> simp only [IsIntegerRounding, Rounding.mirror, Int.cast_neg, hdist, abs_neg, neg_mul_neg] at h ⊢
  case rne => exact ⟨h.1, fun he => by have := h.2 he; omega⟩
  case rtz => exact h
  case rdn => exact ⟨by linarith [h.1], by linarith [h.2]⟩
  case rup => exact ⟨by linarith [h.1], by linarith [h.2]⟩
  case rmm => exact h

/-- A magnitude rounded to a number of ones is rounded to an integer. -/
theorem IsQuant.isIntegerRounding {t : ℚ} {p : Nat × Rest} (h : IsQuant t 1 p) (rm : Rounding) :
    IsIntegerRounding rm t (roundQuant rm false p : Nat) := by
  obtain ⟨hlow, hhigh⟩ := h.bounds one_pos
  rw [mul_one] at hlow hhigh
  have hn : (0 : ℚ) ≤ p.1 := Nat.cast_nonneg _
  have ht : 0 ≤ t := hn.trans hlow
  cases rm with
  | rdn =>
    rw [roundQuant_rdn]
    exact ⟨hlow, hhigh⟩
  | rup =>
    have hup := h.rup one_pos
    rw [mul_one] at hup
    exact hup
  | rtz =>
    rw [roundQuant_rtz]
    change |(p.1 : ℚ)| ≤ |t| ∧ |t| < |(p.1 : ℚ)| + 1 ∧ 0 ≤ (p.1 : ℚ) * t
    rw [abs_of_nonneg hn, abs_of_nonneg ht]
    exact ⟨hlow, hhigh, mul_nonneg hn ht⟩
  | rne =>
    obtain ⟨hnear, htie⟩ := h.nearest one_pos (.inl rfl)
    rw [mul_one] at hnear htie
    refine ⟨by push_cast; linarith, fun he => ?_⟩
    obtain ⟨n, r⟩ := p
    obtain rfl : r = .half := htie (by push_cast at he; linarith)
    have := roundQuant_rne_half n
    omega
  | rmm =>
    obtain ⟨hnear, htie⟩ := h.nearest one_pos (.inr rfl)
    rw [mul_one] at hnear htie
    refine ⟨by push_cast; linarith, fun he => ?_⟩
    obtain ⟨n, r⟩ := p
    obtain rfl : r = .half := htie (by push_cast at he; linarith)
    change |t| < |((n + 1 : Nat) : ℚ)|
    push_cast
    rwa [abs_of_nonneg ht, abs_of_nonneg (by linarith)]

/-- The same for a signed number. -/
theorem IsQuant.isIntegerRounding_signed {t : ℚ} {p : Nat × Rest} (h : IsQuant t 1 p) (rm : Rounding) (neg : Bool) :
    IsIntegerRounding rm ((if neg then -1 else 1) * t)
      (if neg then -(roundQuant rm neg p : Int) else roundQuant rm neg p) := by
  cases neg with
  | false =>
    rw [if_neg Bool.false_ne_true, if_neg Bool.false_ne_true, one_mul]
    exact h.isIntegerRounding rm
  | true =>
    have hneg := (h.isIntegerRounding rm.mirror).neg
    rw [Rounding.mirror_mirror] at hneg
    rwa [if_pos rfl, if_pos rfl, neg_one_mul, roundQuant_true]

/-- Settles O42: the units of a finite datum are ones, and saturation compares the rounded number with the range. -/
theorem floatToIntegerRoundsOrSaturates : Obligations.FloatToIntegerRoundsOrSaturates := by
  intro P F rm lo hi e f a hop hfmt he hf ha hrange
  have hconcrete : FloatOp.toInteger ∉ F.fp.uninterpreted := by
    obtain rfl | rfl := hfmt <;> exact hop
  subst he hf
  rw [F.isFinite_iff a ha, ← F.isNan_iff, ← F.isInf_iff]
  simp only [fToInt, Fmt.numericInt_eq hconcrete, ← F.isNeg_iff]
  refine ⟨fun hnan => ?nan, fun hinf => ?inf, fun ⟨hnan, hinf⟩ => ?finite⟩
  case nan =>
    rw [if_pos hnan]
    rfl
  case inf =>
    rw [Fmt.isNan_of_isInf hinf, if_neg Bool.false_ne_true, if_pos hinf]
    rfl
  case finite =>
    have hvalue : F.value (F.mag a) = (F.sig a / (1 : Nat) : ℚ) * 2 ^ F.exp a := by
      rw [F.value_mag, Nat.cast_one, div_one]
    have hquant : IsQuant (F.value (F.mag a)) 1 (quantFrac (F.sig a) 1 (F.exp a) 0) := by
      have h := quantFrac_isQuant (K := ℚ) (F.sig a) one_pos (F.exp a) 0
      rwa [zpow_zero, ← hvalue] at h
    have hround := hquant.isIntegerRounding_signed rm (F.isNeg a)
    rw [← realOf_eq] at hround
    have hexact := hquant.roundQuant_eq_iff one_pos rm (F.isNeg a)
    rw [hnan, hinf, if_neg Bool.false_ne_true, if_neg Bool.false_ne_true]
    generalize quantFrac (F.sig a) 1 (F.exp a) 0 = p at hround hexact ⊢
    generalize hn : (if F.isNeg a then -(roundQuant rm (F.isNeg a) p : Int) else roundQuant rm (F.isNeg a) p) = n
      at hround ⊢
    have hexactInt : (n : ℚ) = realOf F.ebits F.fbits a ↔ p.2 = .zero := by
      rw [← hexact, realOf_eq, ← hn]
      split_ifs <;> push_cast <;> constructor <;> intro h <;> linarith
    refine ⟨n, hround, fun hhi => ?_, fun hlo => ?_, fun hlo hhi => ?_⟩
    · rw [if_pos hhi]
      rfl
    · rw [if_neg (by omega), if_pos hlo]
      rfl
    · rw [if_neg (by omega), if_neg (by omega)]
      simp only [hexactInt]
      rfl

end Sys2Proof.Machine

/-! ## Rounding to a format (46_float_single.md R350 (b), R353) -/

namespace Sys2Proof.Machine

open Sys2Proof

/-! ### Data with the opposite sign -/

section

variable {F : Fmt}

/-- The datum with the opposite sign. -/
def Fmt.opposite (F : Fmt) (v : Nat) : Nat := F.withSign (!F.isNeg v) (F.mag v)

theorem realOf_opposite (v : Nat) :
    realOf F.ebits F.fbits (F.opposite v) = -realOf F.ebits F.fbits v := by
  rw [Fmt.opposite, realOf_withSign _ (F.mag_lt v), realOf_eq]
  cases F.isNeg v <;> simp

theorem Fmt.withSign_isFinite {neg : Bool} {m : Nat} (hm : m < F.infMag) :
    IsFinite F.ebits F.fbits (F.withSign neg m) := by
  have hlt := hm.trans F.infMag_lt
  have hmag : F.mag (F.withSign neg m) = m := Fmt.mag_withSign hlt
  rw [F.isFinite_iff _ (Fmt.withSign_lt neg hlt), Fmt.isNan, Fmt.isInf, hmag, decide_eq_false_iff_not,
    beq_eq_false_iff_ne]
  omega

theorem Fmt.mag_lt_of_isFinite {v : Nat} (h : IsFinite F.ebits F.fbits v) : F.mag v < F.infMag := by
  have hclass := (F.isFinite_iff v h.1).mp h
  rw [Fmt.isNan, Fmt.isInf, decide_eq_false_iff_not, beq_eq_false_iff_ne] at hclass
  omega

theorem Fmt.opposite_isFinite {v : Nat} (h : IsFinite F.ebits F.fbits v) :
    IsFinite F.ebits F.fbits (F.opposite v) := Fmt.withSign_isFinite (Fmt.mag_lt_of_isFinite h)

theorem Fmt.opposite_mod_two (hF : F.Proper) {v : Nat} (hv : v < 2 ^ (1 + F.ebits + F.fbits)) :
    F.opposite v % 2 = v % 2 := by
  have heven : F.signBit % 2 = 0 := by
    rw [Fmt.signBit, ← Nat.sub_add_cancel (hF.fbits.trans (Nat.le_add_left _ F.ebits)), Nat.pow_succ,
      Nat.mul_mod_left]
  have hself := Fmt.withSign_mag hv
  rw [F.withSign_eq] at hself
  rw [Fmt.opposite, F.withSign_eq]
  cases hneg : F.isNeg v <;> rw [hneg] at hself <;> simp at hself ⊢ <;> omega

/-- What is the rounding of q is, with the opposite sign, the rounding of -q in the mirrored mode. -/
theorem IsRounding.opposite (hF : F.Proper) {rm : Rounding} {q : ℝ} {r : Nat}
    (h : IsRounding F.ebits F.fbits rm q r) : IsRounding F.ebits F.fbits rm.mirror (-q) (F.opposite r) := by
  obtain ⟨hr, h⟩ := h
  refine ⟨Fmt.opposite_isFinite hr, fun d hd => ?_⟩
  have hd' := h (F.opposite d) (Fmt.opposite_isFinite hd)
  have hdist : ∀ x : ℝ, |-x - -q| = |x - q| := fun x => by rw [neg_sub_neg, abs_sub_comm]
  have hdist' : ∀ x : ℝ, |-x - q| = |x - -q| := fun x => by rw [← abs_neg]; congr 1; ring
  rw [realOf_opposite] at hd'
  rw [realOf_opposite]
  cases rm <;> simp only [Rounding.mirror, Rat.cast_neg, abs_neg, neg_mul_neg, hdist, hdist'] at hd' ⊢
  case rne =>
    refine ⟨hd'.1, fun he => (hd'.2 he).imp (fun h => ?_) fun h => ?_⟩
    · rw [h, neg_neg]
    · rw [Fmt.opposite_mod_two hF hr.1, h]
  case rtz => exact hd'
  case rdn => exact ⟨by linarith [hd'.1], fun h => by linarith [hd'.2 (by linarith)]⟩
  case rup => exact ⟨by linarith [hd'.1], fun h => by linarith [hd'.2 (by linarith)]⟩
  case rmm => exact hd'

end

/-! ### The rounding of a positive real -/

/-- No datum lies strictly between a magnitude and the next. -/
theorem realOf_not_between (F : Fmt) (c d : Nat) :
    |(realOf F.ebits F.fbits d : ℝ)| ≤ F.value c ∨ (F.value (c + 1) : ℝ) ≤ |(realOf F.ebits F.fbits d : ℝ)| := by
  rw [← Rat.cast_abs, abs_realOf F d, Rat.cast_le, Rat.cast_le]
  exact (Nat.lt_or_ge c (F.mag d)).symm.imp (fun h => F.value_strictMono.monotone h)
    fun h => F.value_strictMono.monotone h

/-- Of two neighbours of t, the one within half their distance is as near to t as any number outside them. -/
theorem nearest_of_bracket {t lo hi x y : ℝ} (hlo : lo ≤ t) (hhi : t < hi) (hx : x = lo ∨ x = hi)
    (hnear : 2 * |x - t| ≤ hi - lo) (hy : y ≤ lo ∨ hi ≤ y) :
    |x - t| ≤ |y - t| ∧ (|x - t| = |y - t| → x = y ∨ 2 * |x - t| = hi - lo) := by
  have hxt : (x = lo ∧ |x - t| = t - lo) ∨ (x = hi ∧ |x - t| = hi - t) := by
    refine hx.imp (fun h => ⟨h, ?_⟩) fun h => ⟨h, ?_⟩
    · rw [h, abs_of_nonpos (by linarith)]; ring
    · rw [h, abs_of_pos (by linarith)]
  have hyt : (y ≤ lo ∧ |y - t| = t - y) ∨ (hi ≤ y ∧ |y - t| = y - t) := by
    refine hy.imp (fun h => ⟨h, ?_⟩) fun h => ⟨h, ?_⟩
    · rw [abs_of_nonpos (by linarith)]; ring
    · rw [abs_of_pos (by linarith)]
  obtain ⟨hx, hxd⟩ | ⟨hx, hxd⟩ := hxt <;> obtain ⟨hy, hyd⟩ | ⟨hy, hyd⟩ := hyt <;> rw [hxd, hyd] <;> rw [hxd] at hnear
  · exact ⟨by linarith, fun he => .inl (by linarith)⟩
  · exact ⟨by linarith, fun he => .inr (by linarith)⟩
  · exact ⟨by linarith, fun he => .inr (by linarith)⟩
  · exact ⟨by linarith, fun he => .inl (by linarith)⟩

theorem outside_of_abs_outside {n : Nat} {u y : ℝ} (hu : 0 < u) (hy : |y| ≤ n * u ∨ (n + 1) * u ≤ |y|) :
    y ≤ n * u ∨ (n + 1) * u ≤ y := by
  have hn : (0 : ℝ) ≤ n * u := by positivity
  obtain h | h := hy
  · exact .inl ((le_abs_self y).trans h)
  · obtain hpos | hneg := le_abs.mp h
    · exact .inr hpos
    · exact .inl (by linarith)

section

variable {t u y : ℝ} {p : Nat × Rest} (h : IsQuant t u p) (hu : 0 < u)
  (hy : |y| ≤ p.1 * u ∨ (p.1 + 1) * u ≤ |y|)

include h hu hy

theorem IsQuant.down_best : p.1 * u ≤ t ∧ (y ≤ t → y ≤ p.1 * u) := by
  obtain ⟨hlow, hhigh⟩ := h.bounds hu
  exact ⟨hlow, fun hyt => (outside_of_abs_outside hu hy).resolve_right (by linarith)⟩

theorem IsQuant.up_best : t ≤ roundQuant .rup false p * u ∧ (t ≤ y → roundQuant .rup false p * u ≤ y) := by
  refine ⟨(h.rup hu).1, fun hty => ?_⟩
  obtain hr | ⟨hr, hp⟩ := roundQuant_eq_or .rup false p
  · exact hr ▸ (h.bounds hu).1.trans hty
  · have hstrict : p.1 * u < t :=
      lt_of_le_of_ne (h.bounds hu).1 fun he => hp ((h.rest_zero_iff hu).mpr he.symm)
    rw [hr]
    push_cast
    exact (outside_of_abs_outside hu hy).resolve_left (by linarith)

theorem IsQuant.towardsZero_best :
    |p.1 * u| ≤ |t| ∧ 0 ≤ p.1 * u * t ∧ (|y| ≤ |t| → |y| ≤ |p.1 * u|) := by
  obtain ⟨hlow, hhigh⟩ := h.bounds hu
  have hn : (0 : ℝ) ≤ p.1 * u := by positivity
  rw [abs_of_nonneg hn, abs_of_nonneg (hn.trans hlow)]
  exact ⟨hlow, mul_nonneg hn (hn.trans hlow), fun hyt => hy.resolve_right (by linarith)⟩

theorem IsQuant.nearest_best {rm : Rounding} (hrm : rm = .rne ∨ rm = .rmm) :
    |roundQuant rm false p * u - t| ≤ |y - t| ∧
    (|roundQuant rm false p * u - t| = |y - t| → roundQuant rm false p * u = y ∨ p.2 = .half) := by
  obtain ⟨hlow, hhigh⟩ := h.bounds hu
  obtain ⟨hnear, htie⟩ := h.nearest hu hrm
  have hwidth : (p.1 + 1 : ℝ) * u - p.1 * u = u := by ring
  have hneighbour : roundQuant rm false p * u = p.1 * u ∨ roundQuant rm false p * u = (p.1 + 1) * u := by
    refine (roundQuant_eq_or rm false p).imp (fun hr => by rw [hr]) fun hr => ?_
    rw [hr.1]
    push_cast
    rfl
  obtain ⟨hbest, heq⟩ :=
    nearest_of_bracket hlow hhigh hneighbour (hwidth.symm ▸ hnear) (outside_of_abs_outside hu hy)
  exact ⟨hbest, fun he => (heq he).imp_right fun hhalf => htie (hhalf.trans hwidth)⟩

end

/-- The value of a magnitude in units, as a real. -/
theorem value_units_real {F : Fmt} {j m : Nat} (hm : m ≤ 2 ^ (F.fbits + 1)) (hj : j = 0 ∨ 2 ^ F.fbits ≤ m) :
    (F.value (j * 2 ^ F.fbits + m) : ℝ) = m * 2 ^ (F.qmin + j) := by
  rw [Fmt.value_units hm hj]
  push_cast
  rfl

theorem realOf_units {F : Fmt} {j m : Nat} (hm : m ≤ 2 ^ (F.fbits + 1)) (hj : j = 0 ∨ 2 ^ F.fbits ≤ m)
    (hfin : j * 2 ^ F.fbits + m < F.infMag) (neg : Bool) :
    (realOf F.ebits F.fbits (F.withSign neg (j * 2 ^ F.fbits + m)) : ℝ) =
      (if neg then -1 else 1) * (m * 2 ^ (F.qmin + j)) := by
  rw [realOf_withSign neg (hfin.trans F.infMag_lt), Fmt.value_units hm hj]
  cases neg <;> simp

/-- A positive real rounded to a number of units is rounded to the format, whatever the unit is. -/
theorem IsQuant.isRounding {F : Fmt} (hF : F.Proper) {t : ℝ} {j : Nat} {p : Nat × Rest}
    (h : IsQuant t (2 ^ (F.qmin + j)) p) (hp : p.1 < 2 ^ (F.fbits + 1)) (hj : j = 0 ∨ 2 ^ F.fbits ≤ p.1)
    (rm : Rounding) (hfin : j * 2 ^ F.fbits + roundQuant rm false p < F.infMag) :
    IsRounding F.ebits F.fbits rm t (j * 2 ^ F.fbits + roundQuant rm false p) := by
  have hu : (0 : ℝ) < 2 ^ (F.qmin + j) := by positivity
  have hresult : (realOf F.ebits F.fbits (j * 2 ^ F.fbits + roundQuant rm false p) : ℝ) =
      roundQuant rm false p * 2 ^ (F.qmin + j) := by
    have hcases := roundQuant_eq_or rm false p
    rw [realOf_of_lt (hfin.trans F.infMag_lt), value_units_real (by omega) (hj.imp_right (by omega))]
  refine ⟨Fmt.withSign_isFinite (neg := false) hfin, fun d _ => ?_⟩
  have hy := realOf_not_between F (j * 2 ^ F.fbits + p.1) d
  rw [Nat.add_assoc, Fmt.value_units hp.le hj, Fmt.value_units hp (hj.imp_right (by omega))] at hy
  push_cast at hy
  simp only [← Rat.cast_le (K := ℝ), ← Rat.cast_inj (α := ℝ), Rat.cast_abs, hresult]
  have heven : (j * 2 ^ F.fbits) % 2 = 0 := by
    rw [← Nat.sub_add_cancel hF.fbits, Nat.pow_succ, ← Nat.mul_assoc, Nat.mul_mod_left]
  generalize (realOf F.ebits F.fbits d : ℝ) = y at hy ⊢
  generalize (2 : ℝ) ^ (F.qmin + j) = u at h hu hy ⊢
  cases rm with
  | rdn => exact roundQuant_rdn p ▸ h.down_best hu hy
  | rup => exact h.up_best hu hy
  | rtz => exact roundQuant_rtz false p ▸ h.towardsZero_best hu hy
  | rne =>
    obtain ⟨hbest, htie⟩ := h.nearest_best hu hy (.inl rfl)
    refine ⟨hbest, fun he => (htie he).imp_right fun hhalf => ?_⟩
    obtain ⟨n, r⟩ := p
    obtain rfl : r = .half := hhalf
    have := roundQuant_rne_half n
    omega
  | rmm =>
    obtain ⟨hbest, htie⟩ := h.nearest_best hu hy (.inr rfl)
    refine ⟨hbest, fun he => ?_⟩
    obtain heq | hhalf := htie he
    · rw [heq]
    · obtain ⟨n, r⟩ := p
      obtain rfl : r = .half := hhalf
      have hup : roundQuant .rmm false (n, .half) = n + 1 := rfl
      rw [IsQuant] at h
      rw [hup] at he ⊢
      push_cast at he ⊢
      rw [abs_of_pos (by linarith)] at he
      have hn : (0 : ℝ) ≤ n * u := by positivity
      obtain ⟨hlow, hhigh⟩ := abs_le.mp he.ge
      rw [abs_of_nonneg (a := ((n : ℝ) + 1) * u) (by linarith), abs_le]
      constructor <;> linarith

/-- The same for a signed real. -/
theorem IsQuant.isRounding_signed {F : Fmt} (hF : F.Proper) {t : ℝ} {j : Nat} {p : Nat × Rest}
    (h : IsQuant t (2 ^ (F.qmin + j)) p) (hp : p.1 < 2 ^ (F.fbits + 1)) (hj : j = 0 ∨ 2 ^ F.fbits ≤ p.1)
    (rm : Rounding) (neg : Bool) (hfin : j * 2 ^ F.fbits + roundQuant rm neg p < F.infMag) :
    IsRounding F.ebits F.fbits rm ((if neg then -1 else 1) * t)
      (F.withSign neg (j * 2 ^ F.fbits + roundQuant rm neg p)) := by
  cases neg with
  | false =>
    rw [if_neg Bool.false_ne_true, one_mul]
    exact h.isRounding hF hp hj rm hfin
  | true =>
    rw [roundQuant_true] at hfin ⊢
    have hneg := (h.isRounding hF hp hj rm.mirror hfin).opposite hF
    have hlt := hfin.trans F.infMag_lt
    have hpos : F.isNeg (j * 2 ^ F.fbits + roundQuant rm.mirror false p) = false :=
      Fmt.isNeg_withSign (neg := false) hlt
    rw [Rounding.mirror_mirror, Fmt.opposite, hpos, Fmt.mag, Nat.mod_eq_of_lt hlt] at hneg
    rwa [if_pos rfl, neg_one_mul]

end Sys2Proof.Machine

/-! ## One rounding of a real (46_float_single.md R350 (b), R353) -/

namespace Sys2Proof.Machine

open Sys2Proof

section

variable {t : ℝ} {E k : Int} {g : Nat} {p : Nat × Rest}

/-! ### Magnitudes and powers of two -/

theorem IsQuant.lt_two_pow (h : IsQuant t (2 ^ k) p) (ht : t < 2 ^ (k + g)) : p.1 < 2 ^ g := by
  have hu : (0 : ℝ) < 2 ^ k := by positivity
  rw [zpow_add₀ two_ne_zero, mul_comm, zpow_natCast] at ht
  have hlt := lt_of_mul_lt_mul_right ((h.bounds hu).1.trans_lt ht) hu.le
  exact_mod_cast hlt

theorem IsQuant.two_pow_le (h : IsQuant t (2 ^ k) p) (ht : 2 ^ (k + g) ≤ t) : 2 ^ g ≤ p.1 := by
  have hu : (0 : ℝ) < 2 ^ k := by positivity
  rw [zpow_add₀ two_ne_zero, mul_comm, zpow_natCast] at ht
  have hlt := lt_of_mul_lt_mul_right (ht.trans_lt (h.bounds hu).2) hu.le
  exact Nat.lt_succ_iff.mp (by exact_mod_cast hlt)

/-- A positive real is below a power of two exactly when its leading exponent is. -/
theorem lt_two_zpow_iff {m : Int} (hlow : 2 ^ E ≤ t) (hhigh : t < 2 ^ (E + 1)) : t < 2 ^ m ↔ E < m := by
  constructor
  · intro h
    exact (zpow_lt_zpow_iff_right₀ one_lt_two).mp (hlow.trans_lt h)
  · intro h
    exact hhigh.trans_le (zpow_le_zpow_right₀ one_le_two h)

theorem abs_sign_mul (neg : Bool) {x : ℝ} (hx : 0 ≤ x) : |(if neg then -1 else 1) * x| = x := by
  cases neg
  · rw [if_neg Bool.false_ne_true, one_mul, abs_of_nonneg hx]
  · rw [if_pos rfl, neg_one_mul, abs_neg, abs_of_nonneg hx]

end

/-! ### The parts of `roundReal` -/

section

variable (F : Fmt) (rm : Rounding) (neg : Bool) (E : Int) (quant : Quant)

/-- The magnitude rounded to the precision with an unbounded exponent range, in units of 2^(E - fbits). -/
def wideMag : Nat := roundQuant rm neg (quant (E - F.fbits))

/-- The leading exponent of that rounding. -/
def wideExp : Int := if wideMag F rm neg E quant = 2 ^ (F.fbits + 1) then E + 1 else E

/-- The exponent of the last bit of the result. -/
def lastExp : Int := max (E - F.fbits) F.qmin

/-- How far above the smallest unit the result's unit is. -/
def unitsAbove : Nat := (lastExp F E - F.qmin).toNat

/-- The magnitude of a result that does not overflow. -/
def roundedMag : Nat := unitsAbove F E * 2 ^ F.fbits + roundQuant rm neg (quant (lastExp F E))

/-- The leading exponent that says whether a result is tiny. -/
def tinyExp : Int :=
  match F.fp.tininess with
  | .afterRounding => wideExp F rm neg E quant
  | .beforeRounding => E

variable {F rm neg E quant}

theorem roundReal_of_overflow (h : (F.bias : Int) < wideExp F rm neg E quant) :
    roundReal F rm neg E quant = (F.withSign neg (overflowMag F rm neg), 0x05#5) :=
  if_pos h

theorem roundReal_of_not_overflow (h : wideExp F rm neg E quant ≤ F.bias) :
    roundReal F rm neg E quant = (F.withSign neg (roundedMag F rm neg E quant),
      if (quant (lastExp F E)).2 = .zero then 0x00#5
      else if tinyExp F rm neg E quant < F.emin then 0x03#5 else 0x01#5) := by
  refine (if_neg (not_lt.mpr h)).trans (Prod.ext rfl ?_)
  change (if tinyExp F rm neg E quant < F.emin ∧ (quant (lastExp F E)).2 ≠ .zero then flagUF else 0) |||
    (if (quant (lastExp F E)).2 = .zero then 0 else flagNX) = _
  by_cases hrest : (quant (lastExp F E)).2 = .zero
  · rw [if_neg (fun h' => h'.2 hrest), if_pos hrest, if_pos hrest]
    rfl
  · rw [if_neg hrest, if_neg hrest]
    simp only [hrest, ne_eq, not_false_eq_true, and_true]
    split <;> rfl

theorem qmin_add_unitsAbove (F : Fmt) (E : Int) : F.qmin + unitsAbove F E = lastExp F E := by
  unfold unitsAbove lastExp
  omega

end

/-! ### A real and how it is measured -/

/-- The positive real t has the leading exponent E, and `quant` gives it in the two units that `roundReal` asks for. -/
structure Measures (F : Fmt) (t : ℝ) (E : Int) (quant : Quant) : Prop where
  low : 2 ^ E ≤ t
  high : t < 2 ^ (E + 1)
  wide : IsQuant t (2 ^ (E - F.fbits)) (quant (E - F.fbits))
  last : IsQuant t (2 ^ lastExp F E) (quant (lastExp F E))

/-- The smallest normal number. -/
theorem value_normal (F : Fmt) : (F.value (2 ^ F.fbits) : ℝ) = 2 ^ F.emin := by
  have h := value_units_real (F := F) (j := 0) (m := 2 ^ F.fbits) (Nat.pow_le_pow_right (by decide) (Nat.le_succ _))
    (.inl rfl)
  rw [Nat.zero_mul, Nat.zero_add] at h
  rw [h, Nat.cast_zero, add_zero, Nat.cast_pow, Nat.cast_ofNat, ← zpow_natCast, ← zpow_add₀ two_ne_zero, Fmt.qmin,
    add_sub_cancel]

theorem normal_lt_infMag {F : Fmt} (hF : F.Proper) : 2 ^ F.fbits < F.infMag := by
  have htop : 2 ^ 2 ≤ 2 ^ F.ebits := Nat.pow_le_pow_right (by decide) hF.ebits
  rw [Fmt.infMag]
  exact lt_mul_of_one_lt_left (Nat.two_pow_pos _) (by omega)

/-- The magnitude after the largest finite one stands for the power of two that overflows. -/
theorem value_infMag {F : Fmt} (hF : F.Proper) : (F.value F.infMag : ℝ) = 2 ^ ((F.bias : Int) + 1) := by
  have htop : 2 ≤ 2 ^ F.ebits := (Nat.pow_le_pow_right (show 0 < 2 by decide) hF.ebits).trans' (by decide)
  have hsplit : F.infMag = (2 ^ F.ebits - 2) * 2 ^ F.fbits + 2 ^ F.fbits := by
    rw [Fmt.infMag, ← Nat.succ_mul]
    congr 1
    omega
  have hpow : (2 : Int) ^ F.ebits = 2 * 2 ^ (F.ebits - 1) := by
    rw [← pow_succ', Nat.sub_add_cancel (by have := hF.ebits; omega)]
  rw [hsplit, value_units_real (Nat.pow_le_pow_right (by decide) (Nat.le_succ _)) (.inr le_rfl), F.qmin_eq, F.bias_eq]
  push_cast [htop]
  rw [← zpow_natCast, ← zpow_add₀ two_ne_zero]
  congr 1
  linarith

section

variable {F : Fmt} {t : ℝ} {E : Int} {quant : Quant} (hF : F.Proper) (h : Measures F t E quant) (rm : Rounding)
  (neg : Bool)

theorem Fmt.emin_nonpos (hF : F.Proper) : F.emin ≤ 0 := by
  have hbias : (2 : Int) ^ 1 ≤ 2 ^ (F.ebits - 1) := pow_le_pow_right₀ (by decide) (by have := hF.ebits; omega)
  rw [Fmt.emin, F.bias_eq]
  omega

include h

theorem Measures.pos : 0 < t := (zpow_pos two_pos E).trans_le h.low

theorem Measures.wide_bounds : 2 ^ F.fbits ≤ (quant (E - F.fbits)).1 ∧ (quant (E - F.fbits)).1 < 2 ^ (F.fbits + 1) := by
  have hexp : E - F.fbits + (F.fbits + 1 : Nat) = E + 1 := by
    push_cast
    ring
  exact ⟨h.wide.two_pow_le (by rw [sub_add_cancel]; exact h.low), h.wide.lt_two_pow (by rw [hexp]; exact h.high)⟩

theorem Measures.wideMag_bounds :
    2 ^ F.fbits ≤ wideMag F rm neg E quant ∧ wideMag F rm neg E quant ≤ 2 ^ (F.fbits + 1) := by
  have hbounds := h.wide_bounds
  have hround := roundQuant_eq_or rm neg (quant (E - F.fbits))
  unfold wideMag
  omega

/-- The wide rounding has the leading exponent `wideExp`. -/
theorem Measures.wideExp_spec : (2 : ℝ) ^ wideExp F rm neg E quant ≤ wideMag F rm neg E quant * 2 ^ (E - F.fbits) ∧
    wideMag F rm neg E quant * 2 ^ (E - F.fbits) < (2 : ℝ) ^ (wideExp F rm neg E quant + 1) := by
  have hscale : ∀ g : Nat, (2 : ℝ) ^ (E - F.fbits + g) = (2 ^ g : Nat) * 2 ^ (E - F.fbits) := by
    intro g
    rw [zpow_add₀ two_ne_zero, zpow_natCast, mul_comm]
    push_cast
    rfl
  have hu : (0 : ℝ) < 2 ^ (E - F.fbits) := by positivity
  obtain ⟨hlow, hhigh⟩ := h.wideMag_bounds rm neg
  unfold wideExp
  split_ifs with hcarry
  · have hE : E + 1 = E - F.fbits + (F.fbits + 1 : Nat) := by push_cast; ring
    have hE' : E + 1 + 1 = E - F.fbits + (F.fbits + 2 : Nat) := by push_cast; ring
    rw [hE', hE, hscale, hscale, hcarry]
    exact ⟨le_rfl, mul_lt_mul_of_pos_right (by exact_mod_cast Nat.pow_lt_pow_right (by decide) (by omega)) hu⟩
  · have hE : (2 : ℝ) ^ E = (2 ^ F.fbits : Nat) * 2 ^ (E - F.fbits) := by rw [← hscale, sub_add_cancel]
    have hE' : E + 1 = E - F.fbits + (F.fbits + 1 : Nat) := by push_cast; ring
    rw [hE', hscale, hE]
    exact ⟨mul_le_mul_of_nonneg_right (Nat.cast_le.mpr hlow) hu.le,
      mul_lt_mul_of_pos_right (Nat.cast_lt.mpr (lt_of_le_of_ne hhigh hcarry)) hu⟩

/-- In the unit of the result the magnitude is that of a subnormal number, or has all bits of the precision. -/
theorem Measures.last_bounds : (quant (lastExp F E)).1 < 2 ^ (F.fbits + 1) ∧
    (unitsAbove F E = 0 ∨ 2 ^ F.fbits ≤ (quant (lastExp F E)).1) := by
  by_cases hnormal : F.qmin ≤ E - F.fbits
  · obtain ⟨hlow, hhigh⟩ := h.wide_bounds
    rw [lastExp, max_eq_left hnormal]
    exact ⟨hhigh, .inr hlow⟩
  · have hlast : lastExp F E = F.qmin := max_eq_right (by omega)
    have hquant := h.last
    rw [hlast] at hquant ⊢
    have hsub : (quant F.qmin).1 < 2 ^ F.fbits :=
      hquant.lt_two_pow (h.high.trans_le (zpow_le_zpow_right₀ one_le_two (by omega)))
    exact ⟨hsub.trans (Nat.pow_lt_pow_right (by decide) (by omega)), .inl (by rw [unitsAbove, hlast]; omega)⟩

theorem Measures.rounded_bounds : roundQuant rm neg (quant (lastExp F E)) ≤ 2 ^ (F.fbits + 1) ∧
    (unitsAbove F E = 0 ∨ 2 ^ F.fbits ≤ roundQuant rm neg (quant (lastExp F E))) := by
  have hbounds := h.last_bounds
  have hround := roundQuant_eq_or rm neg (quant (lastExp F E))
  omega

theorem Measures.value_roundedMag :
    (F.value (roundedMag F rm neg E quant) : ℝ) = roundQuant rm neg (quant (lastExp F E)) * 2 ^ lastExp F E := by
  obtain ⟨hle, hunits⟩ := h.rounded_bounds rm neg
  rw [roundedMag, value_units_real hle hunits, qmin_add_unitsAbove]

/-- A subnormal magnitude is rounded to at most the smallest normal one. -/
theorem Measures.value_roundedMag_le (hsub : ¬F.qmin ≤ E - F.fbits) :
    (F.value (roundedMag F rm neg E quant) : ℝ) ≤ 2 ^ F.emin := by
  have hlast : lastExp F E = F.qmin := max_eq_right (by omega)
  have hquant := h.last
  rw [h.value_roundedMag, hlast]
  rw [hlast] at hquant
  have hlt : (quant F.qmin).1 < 2 ^ F.fbits :=
    hquant.lt_two_pow (h.high.trans_le (zpow_le_zpow_right₀ one_le_two (by omega)))
  have hle : roundQuant rm neg (quant F.qmin) ≤ 2 ^ F.fbits := by
    have := roundQuant_eq_or rm neg (quant F.qmin)
    omega
  have hemin : F.emin = F.fbits + F.qmin := by rw [Fmt.qmin]; ring
  rw [hemin, zpow_add₀ two_ne_zero, zpow_natCast]
  exact mul_le_mul_of_nonneg_right (by exact_mod_cast hle) (by positivity)

include hF

/-- Without overflow the magnitude is finite. -/
theorem Measures.roundedMag_lt (hover : wideExp F rm neg E quant ≤ F.bias) :
    roundedMag F rm neg E quant < F.infMag := by
  rw [← F.value_strictMono.lt_iff_lt, ← Rat.cast_lt (K := ℝ), value_infMag hF]
  by_cases hnormal : F.qmin ≤ E - F.fbits
  · have hlast : lastExp F E = E - F.fbits := max_eq_left hnormal
    rw [h.value_roundedMag, hlast]
    exact (h.wideExp_spec rm neg).2.trans_le (zpow_le_zpow_right₀ one_le_two (by omega))
  · have hemin := Fmt.emin_nonpos hF
    exact (h.value_roundedMag_le rm neg hnormal).trans_lt (zpow_lt_zpow_right₀ one_lt_two (by omega))

/-- Overflow is what exceeds the largest finite number. -/
theorem Measures.overflow_iff : (F.value (F.infMag - 1) : ℝ) < wideMag F rm neg E quant * 2 ^ (E - F.fbits) ↔
    (F.bias : Int) < wideExp F rm neg E quant := by
  have hpos : 0 < F.infMag := Nat.mul_pos (Fmt.expField_top_pos hF) (Nat.two_pow_pos _)
  constructor
  · intro hlt
    by_contra hover
    have hfinite := h.roundedMag_lt hF rm neg (not_lt.mp hover)
    refine absurd hlt (not_lt.mpr ?_)
    by_cases hnormal : F.qmin ≤ E - F.fbits
    · have hlast : lastExp F E = E - F.fbits := max_eq_left hnormal
      have hvalue := h.value_roundedMag rm neg
      rw [hlast] at hvalue
      rw [wideMag, ← hvalue, Rat.cast_le]
      exact F.value_strictMono.monotone (by omega)
    · have hnormalLt := normal_lt_infMag hF
      have hcarry : (2 : ℝ) ^ (E + 1) = (2 ^ (F.fbits + 1) : Nat) * 2 ^ (E - F.fbits) := by
        rw [show E + 1 = (F.fbits + 1 : Nat) + (E - F.fbits) by push_cast; ring, zpow_add₀ two_ne_zero, zpow_natCast]
        push_cast
        rfl
      calc (wideMag F rm neg E quant * 2 ^ (E - F.fbits) : ℝ)
          ≤ (2 ^ (F.fbits + 1) : Nat) * 2 ^ (E - F.fbits) :=
            mul_le_mul_of_nonneg_right (Nat.cast_le.mpr (h.wideMag_bounds rm neg).2) (by positivity)
        _ = 2 ^ (E + 1) := hcarry.symm
        _ ≤ 2 ^ F.emin := zpow_le_zpow_right₀ one_le_two (by rw [Fmt.qmin] at hnormal; omega)
        _ = F.value (2 ^ F.fbits) := (value_normal F).symm
        _ ≤ F.value (F.infMag - 1) := Rat.cast_le.mpr (F.value_strictMono.monotone (by omega))
  · intro hover
    have hmax : (F.value (F.infMag - 1) : ℝ) < F.value F.infMag := by
      rw [Rat.cast_lt]
      exact F.value_strictMono (by omega)
    rw [value_infMag hF] at hmax
    exact hmax.trans_le ((zpow_le_zpow_right₀ one_le_two (by omega)).trans (h.wideExp_spec rm neg).1)

/-- The wide rounding is the rounding of the real scaled between 1 and 2, scaled back. -/
theorem Measures.isWideRounding : IsWideRounding F.ebits F.fbits rm ((if neg then -1 else 1) * t)
    ((if neg then -1 else 1) * (wideMag F rm neg E quant * 2 ^ (E - F.fbits))) := by
  have hscalePos : (0 : ℝ) < 2 ^ (-E) := by positivity
  have hone : (2 : ℝ) ^ E * 2 ^ (-E) = 1 := by rw [← zpow_add₀ two_ne_zero, add_neg_cancel, zpow_zero]
  have htwo : (2 : ℝ) ^ (E + 1) * 2 ^ (-E) = 2 := by rw [← zpow_add₀ two_ne_zero, add_neg_cancel_comm, zpow_one]
  have hassoc : (if neg then -1 else 1) * t * 2 ^ (-E) = (if neg then -1 else 1) * (t * 2 ^ (-E)) := mul_assoc _ _ _
  obtain ⟨j, hj⟩ : ∃ j : Nat, F.qmin + j = -F.fbits := by
    have hemin := Fmt.emin_nonpos hF
    exact ⟨(-F.emin).toNat, by rw [Fmt.qmin]; omega⟩
  obtain ⟨hlow, hhigh⟩ := h.wide_bounds
  obtain ⟨hmagLow, hmagHigh⟩ := h.wideMag_bounds rm neg
  have hquant : IsQuant (t * 2 ^ (-E)) (2 ^ (F.qmin + j)) (quant (E - F.fbits)) := by
    have hscaled := h.wide.scale hscalePos
    rwa [← zpow_add₀ two_ne_zero, show E - F.fbits + -E = F.qmin + j by rw [hj]; ring] at hscaled
  have hfin : j * 2 ^ F.fbits + wideMag F rm neg E quant < F.infMag := by
    rw [← F.value_strictMono.lt_iff_lt, ← Rat.cast_lt (K := ℝ), value_infMag hF,
      value_units_real hmagHigh (.inr hmagLow), hj]
    have hemin := Fmt.emin_nonpos hF
    calc (wideMag F rm neg E quant * 2 ^ (-F.fbits : Int) : ℝ)
        ≤ (2 ^ (F.fbits + 1) : Nat) * 2 ^ (-F.fbits : Int) :=
          mul_le_mul_of_nonneg_right (Nat.cast_le.mpr hmagHigh) (by positivity)
      _ = 2 ^ (1 : Int) := by
          rw [Nat.cast_pow, Nat.cast_ofNat, ← zpow_natCast, ← zpow_add₀ two_ne_zero]
          congr 1
          push_cast
          ring
      _ < 2 ^ ((F.bias : Int) + 1) := zpow_lt_zpow_right₀ one_lt_two (by rw [Fmt.emin] at hemin; omega)
  refine .inr ⟨-E, F.withSign neg (j * 2 ^ F.fbits + wideMag F rm neg E quant), ?_, ?_, ?_, ?_⟩
  · rw [hassoc, abs_sign_mul neg (by have := h.pos; positivity), ← hone]
    exact mul_le_mul_of_nonneg_right h.low hscalePos.le
  · rw [hassoc, abs_sign_mul neg (by have := h.pos; positivity)]
    exact (mul_lt_mul_of_pos_right h.high hscalePos).trans_eq htwo
  · rw [hassoc]
    exact hquant.isRounding_signed hF hhigh (.inr hlow) rm neg hfin
  · rw [realOf_units hmagHigh (.inr hmagLow) hfin neg, hj, neg_neg, mul_assoc, mul_assoc, ← zpow_add₀ two_ne_zero,
      neg_add_eq_sub]

theorem Measures.isRounding (hover : wideExp F rm neg E quant ≤ F.bias) :
    IsRounding F.ebits F.fbits rm ((if neg then -1 else 1) * t) (F.withSign neg (roundedMag F rm neg E quant)) := by
  obtain ⟨hhigh, hunits⟩ := h.last_bounds
  have hquant : IsQuant t (2 ^ (F.qmin + unitsAbove F E)) (quant (lastExp F E)) := by
    rw [qmin_add_unitsAbove]
    exact h.last
  exact hquant.isRounding_signed hF hhigh hunits rm neg (h.roundedMag_lt hF rm neg hover)

/-- The result is the real exactly when its unit leaves no rest. -/
theorem Measures.exact_iff (hover : wideExp F rm neg E quant ≤ F.bias) :
    (realOf F.ebits F.fbits (F.withSign neg (roundedMag F rm neg E quant)) : ℝ) = (if neg then -1 else 1) * t ↔
    (quant (lastExp F E)).2 = .zero := by
  obtain ⟨hle, hunits⟩ := h.rounded_bounds rm neg
  have hu : (0 : ℝ) < 2 ^ lastExp F E := by positivity
  rw [roundedMag, realOf_units hle hunits (h.roundedMag_lt hF rm neg hover), qmin_add_unitsAbove,
    ← h.last.roundQuant_eq_iff hu rm neg]
  cases neg
  · rw [if_neg Bool.false_ne_true, one_mul, one_mul]
  · rw [if_pos rfl, neg_one_mul, neg_one_mul, neg_inj]

omit hF in
/-- Tininess compares the rounding or the real itself, as FP says, with the smallest normal number. -/
theorem Measures.tiny_iff : (|if F.fp.tininess = .afterRounding then
      (if neg then -1 else 1) * (wideMag F rm neg E quant * 2 ^ (E - F.fbits)) else (if neg then -1 else 1) * t| : ℝ) <
      2 ^ F.emin ↔ tinyExp F rm neg E quant < F.emin := by
  have ht := h.pos.le
  obtain ⟨hlow, hhigh⟩ := h.wideExp_spec rm neg
  unfold tinyExp
  cases F.fp.tininess with
  | afterRounding =>
    rw [if_pos rfl, abs_sign_mul neg (by positivity)]
    exact lt_two_zpow_iff hlow hhigh
  | beforeRounding =>
    rw [if_neg (by decide), abs_sign_mul neg ht]
    exact lt_two_zpow_iff h.low h.high

end

theorem overflowMag_eq (F : Fmt) (rm : Rounding) (neg : Bool) :
    overflowMag F rm neg = overflowOf F.ebits F.fbits rm (neg = true) := by
  cases rm <;> rfl

theorem overflowMag_lt {F : Fmt} (rm : Rounding) (neg : Bool) : overflowMag F rm neg < F.signBit := by
  have hinf := F.infMag_lt
  have hmax : F.maxMag < F.signBit := (Nat.sub_le _ _).trans_lt hinf
  cases rm <;> cases neg <;> assumption

/-- A datum that is not an exact zero has the sign of the real. -/
theorem hasSign_withSign {F : Fmt} {t : ℝ} (ht : 0 < t) (z : Prop) (neg : Bool) {m : Nat} (hm : m < F.signBit) :
    HasSign F.ebits F.fbits ((if neg then -1 else 1) * t) z (F.withSign neg m) := by
  rw [HasSign, ← F.isNeg_iff, Fmt.isNeg_withSign hm]
  cases neg
  · rw [if_neg Bool.false_ne_true, one_mul]
    exact iff_of_false Bool.false_ne_true (by simp [ht.le, ht.ne'])
  · rw [if_pos rfl, neg_one_mul]
    exact iff_of_true rfl (.inl (neg_neg_of_pos ht))

/-- The largest finite datum, which overflow is compared with. -/
theorem realOf_max (F : Fmt) : (realOf F.ebits F.fbits (infinityOf F.ebits F.fbits - 1) : ℝ) = F.value (F.infMag - 1) :=
  congrArg _ (realOf_of_lt ((Nat.sub_le _ _).trans_lt F.infMag_lt))

/-- The smallest normal datum, which tininess is compared with. -/
theorem realOf_normal {F : Fmt} (hF : F.Proper) : (realOf F.ebits F.fbits (2 ^ F.fbits) : ℝ) = 2 ^ F.emin :=
  (congrArg _ (realOf_of_lt ((normal_lt_infMag hF).trans F.infMag_lt))).trans (value_normal F)

/-- `roundReal` gives the rounded result of the real that its arguments measure. -/
theorem Measures.roundedResult {F : Fmt} {t : ℝ} {E : Int} {quant : Quant} (hF : F.Proper)
    (h : Measures F t E quant) (rm : Rounding) (neg : Bool) (z : Prop) :
    RoundedResult F rm ((if neg then -1 else 1) * t) z (roundReal F rm neg E quant) := by
  have hpos := h.pos
  have hover := h.overflow_iff hF rm neg
  have hwide : |(if neg then -1 else 1) * (wideMag F rm neg E quant * 2 ^ (E - F.fbits) : ℝ)| =
      wideMag F rm neg E quant * 2 ^ (E - F.fbits) := abs_sign_mul neg (by positivity)
  refine ⟨_, h.isWideRounding hF rm neg, ?sign, fun hlt => ?overflow, fun hle => ?finite⟩
  case sign =>
    by_cases ho : (F.bias : Int) < wideExp F rm neg E quant
    · rw [roundReal_of_overflow ho]
      exact hasSign_withSign hpos z neg (overflowMag_lt rm neg)
    · rw [roundReal_of_not_overflow (not_lt.mp ho)]
      exact hasSign_withSign hpos z neg ((h.roundedMag_lt hF rm neg (not_lt.mp ho)).trans F.infMag_lt)
  case overflow =>
    rw [realOf_max, hwide, hover] at hlt
    rw [roundReal_of_overflow hlt, overflowMag_eq]
    cases neg with
    | false => exact ⟨rfl, fun _ => rfl, fun hq => absurd hq (by simpa using hpos.le)⟩
    | true => exact ⟨rfl, fun hq => absurd hq (by simpa using hpos.le), fun _ => rfl⟩
  case finite =>
    rw [realOf_max, hwide, ← not_lt, hover, not_lt] at hle
    have hexact := h.exact_iff hF rm neg hle
    rw [roundReal_of_not_overflow hle, realOf_normal hF]
    refine ⟨h.isRounding hF rm neg hle, fun he => if_pos (hexact.mp he), fun he => ⟨fun hlt => ?_, fun hge => ?_⟩⟩
    · exact (if_neg (mt hexact.mpr he)).trans (if_pos ((h.tiny_iff rm neg).mp hlt))
    · exact (if_neg (mt hexact.mpr he)).trans (if_neg (mt (h.tiny_iff rm neg).mpr (not_lt.mpr hge)))

/-- An exact zero has the sign it is given. -/
theorem roundedResult_zero {F : Fmt} (hF : F.Proper) (rm : Rounding) (neg : Bool) :
    RoundedResult F rm 0 (neg = true) (F.withSign neg 0, 0#5) := by
  have hinf : 0 < F.infMag := (Nat.two_pow_pos _).trans (normal_lt_infMag hF)
  have hsign : F.isNeg (F.withSign neg 0) = neg := Fmt.isNeg_withSign (hinf.trans F.infMag_lt)
  have hquant : IsQuant (0 : ℝ) (2 ^ (F.qmin + (0 : Nat))) (0, .zero) := by
    rw [IsQuant, Nat.cast_zero, zero_mul]
  have hunits : 0 * 2 ^ F.fbits + roundQuant rm neg (0, .zero) = 0 := by
    rw [roundQuant_of_rest_zero rm neg rfl, Nat.zero_mul, Nat.zero_add]
  have hround := hquant.isRounding_signed hF (Nat.two_pow_pos _) (.inl rfl) rm neg (hunits.trans_lt hinf)
  have hexact : (realOf F.ebits F.fbits (F.withSign neg 0) : ℝ) = 0 := by
    rw [realOf_withSign neg (hinf.trans F.infMag_lt), F.value_zero, mul_zero, Rat.cast_zero]
  rw [hunits, mul_zero] at hround
  refine ⟨0, .inl ⟨rfl, rfl⟩, ?_, fun hlt => ?_, fun _ => ⟨hround, fun _ => rfl, fun hne => absurd hexact hne⟩⟩
  · rw [HasSign, ← F.isNeg_iff, hsign]
    simp
  · rw [realOf_max, abs_zero] at hlt
    exact absurd hlt (not_lt.mpr (Rat.cast_nonneg.mpr (F.value_nonneg _)))

end Sys2Proof.Machine

/-! ## Every operation rounds its exact result once (46_float_single.md R350 (b), R352 (e), R353, R354) -/

namespace Sys2Proof.Machine

open Sys2Proof

/-! ### Fractions -/

theorem two_zpow_log2_le {n : Nat} (hn : n ≠ 0) : (2 : ℝ) ^ (Nat.log2 n : Int) ≤ n := by
  rw [zpow_natCast]
  exact_mod_cast Nat.log2_self_le hn

theorem lt_two_zpow_log2 (n : Nat) : (n : ℝ) < 2 ^ ((Nat.log2 n : Int) + 1) := by
  rw [← Nat.cast_succ, zpow_natCast]
  exact_mod_cast Nat.lt_log2_self

/-- `floorLog` compares the fraction with the power of two that its logarithms give. -/
theorem floorLog_eq {num den : Nat} (hden : den ≠ 0) (e : Int) :
    floorLog num den e = e + if (2 : ℝ) ^ ((Nat.log2 num : Int) - Nat.log2 den) ≤ num / den
      then (Nat.log2 num : Int) - Nat.log2 den else (Nat.log2 num : Int) - Nat.log2 den - 1 := by
  have hdenR : (0 : ℝ) < den := Nat.cast_pos.mpr (Nat.pos_of_ne_zero hden)
  unfold floorLog
  dsimp only
  generalize (Nat.log2 num : Int) - Nat.log2 den = l
  have hfits : (if 0 ≤ l then den * 2 ^ l.toNat ≤ num else den ≤ num * 2 ^ (-l).toNat) ↔
      (2 : ℝ) ^ l ≤ num / den := by
    rw [le_div_iff₀ hdenR]
    split_ifs with hl
    · obtain ⟨n, rfl⟩ := Int.eq_ofNat_of_zero_le hl
      rw [Int.toNat_natCast, zpow_natCast, mul_comm, ← Nat.cast_le (α := ℝ)]
      push_cast
      rfl
    · obtain ⟨n, hn⟩ := Int.eq_ofNat_of_zero_le (show 0 ≤ -l by omega)
      rw [hn, Int.toNat_natCast, ← neg_neg l, hn, zpow_neg, zpow_natCast, inv_mul_le_iff₀ (by positivity), mul_comm,
        ← Nat.cast_le (α := ℝ)]
      push_cast
      rfl
  simp only [hfits]

/-- `floorLog` is the leading exponent. -/
theorem floorLog_spec {num den : Nat} (hnum : num ≠ 0) (hden : den ≠ 0) (e : Int) :
    (2 : ℝ) ^ floorLog num den e ≤ num / den * 2 ^ e ∧ (num / den * 2 ^ e : ℝ) < 2 ^ (floorLog num den e + 1) := by
  have hdenR : (0 : ℝ) < den := Nat.cast_pos.mpr (Nat.pos_of_ne_zero hden)
  have hscale : (0 : ℝ) < 2 ^ e := by positivity
  have hupper : (num / den : ℝ) < 2 ^ ((Nat.log2 num : Int) - Nat.log2 den + 1) := by
    rw [div_lt_iff₀ hdenR]
    calc (num : ℝ) < 2 ^ ((Nat.log2 num : Int) + 1) := lt_two_zpow_log2 num
      _ = 2 ^ ((Nat.log2 num : Int) - Nat.log2 den + 1) * 2 ^ (Nat.log2 den : Int) := by
        rw [← zpow_add₀ two_ne_zero]; congr 1; ring
      _ ≤ 2 ^ ((Nat.log2 num : Int) - Nat.log2 den + 1) * den :=
        mul_le_mul_of_nonneg_left (two_zpow_log2_le hden) (by positivity)
  have hlower : (2 : ℝ) ^ ((Nat.log2 num : Int) - Nat.log2 den - 1) ≤ num / den := by
    rw [le_div_iff₀ hdenR]
    calc (2 : ℝ) ^ ((Nat.log2 num : Int) - Nat.log2 den - 1) * den
        ≤ 2 ^ ((Nat.log2 num : Int) - Nat.log2 den - 1) * 2 ^ ((Nat.log2 den : Int) + 1) :=
        mul_le_mul_of_nonneg_left (lt_two_zpow_log2 den).le (by positivity)
      _ = 2 ^ (Nat.log2 num : Int) := by rw [← zpow_add₀ two_ne_zero]; congr 1; ring
      _ ≤ num := two_zpow_log2_le hnum
  rw [floorLog_eq hden]
  generalize (Nat.log2 num : Int) - Nat.log2 den = l at *
  split_ifs with hfits
  · rw [add_assoc, zpow_add₀ two_ne_zero e l, zpow_add₀ two_ne_zero e (l + 1), mul_comm _ ((2 : ℝ) ^ e)]
    exact ⟨mul_le_mul_of_nonneg_left hfits hscale.le, mul_lt_mul_of_pos_left hupper hscale⟩
  · rw [add_assoc, zpow_add₀ two_ne_zero e (l - 1), sub_add_cancel, zpow_add₀ two_ne_zero e l, mul_comm _ ((2 : ℝ) ^ e)]
    exact ⟨mul_le_mul_of_nonneg_left hlower hscale.le, mul_lt_mul_of_pos_left (not_le.mp hfits) hscale⟩

theorem RoundedResult.congr {F : Fmt} {rm : Rounding} {q : ℝ} {z z' : Prop} {o : Nat × BitVec 5}
    (h : RoundedResult F rm q z o)
    (hz : q = 0 → (z ↔ z')) : RoundedResult F rm q z' o := by
  have hiff : (q < 0 ∨ (q = 0 ∧ z)) ↔ (q < 0 ∨ (q = 0 ∧ z')) := or_congr_right (and_congr_right hz)
  obtain ⟨w, hwide, hsign, hrest⟩ := h
  exact ⟨w, hwide, hsign.trans hiff, hrest⟩

theorem sign_mul_natAbs (v : Int) : (v : ℝ) = (if decide (v < 0) then -1 else 1) * v.natAbs := by
  rw [Nat.cast_natAbs]
  by_cases hneg : v < 0
  · rw [decide_eq_true hneg, if_pos rfl, abs_of_neg hneg, Int.cast_neg, neg_one_mul, neg_neg]
  · rw [decide_eq_false hneg, if_neg Bool.false_ne_true, abs_of_nonneg (not_lt.mp hneg), one_mul]

section

variable {F : Fmt} (hF : F.Proper) (rm : Rounding)

include hF

/-- A fraction with a sign, which an exact zero keeps. -/
theorem roundFrac_rounded (neg : Bool) (num : Nat) {den : Nat} (hden : den ≠ 0) (e : Int) :
    RoundedResult F rm ((if neg then -1 else 1) * (num / den * 2 ^ e)) (neg = true) (roundFrac F rm neg num den e) := by
  have hquant : ∀ k, IsQuant (num / den * 2 ^ e : ℝ) (2 ^ k) (quantFrac num den e k) :=
    quantFrac_isQuant num (Nat.pos_of_ne_zero hden) e
  by_cases hnum : num = 0
  · rw [roundFrac, if_pos hnum, hnum, Nat.cast_zero, zero_div, zero_mul, mul_zero]
    exact roundedResult_zero hF rm neg
  · rw [roundFrac, if_neg hnum]
    obtain ⟨hlow, hhigh⟩ := floorLog_spec hnum hden e
    exact Measures.roundedResult hF ⟨hlow, hhigh, hquant _, hquant _⟩ rm neg _

/-- An integer times a power of two; an exact zero is negative in RDN alone (R352 (e)). -/
theorem roundInt_rounded (v e : Int) :
    RoundedResult F rm (v * 2 ^ e) (rm = .rdn) (roundInt F rm v e) := by
  unfold roundInt
  split_ifs with hv
  · rw [hv, Int.cast_zero, zero_mul]
    exact (roundedResult_zero hF rm (rm == .rdn)).congr fun _ => beq_iff_eq
  · have hvalue : (v : ℝ) * 2 ^ e = (if decide (v < 0) then -1 else 1) * (v.natAbs / (1 : Nat) * 2 ^ e) := by
      rw [Nat.cast_one, div_one, ← mul_assoc]
      congr 1
      exact sign_mul_natAbs v
    rw [hvalue]
    refine (roundFrac_rounded hF rm (decide (v < 0)) v.natAbs one_ne_zero e).congr fun hzero => ?_
    rw [← hvalue] at hzero
    exact absurd hzero (mul_ne_zero (Int.cast_ne_zero.mpr hv) (by positivity))

end

/-! ### Square roots -/

/-- The root built bit by bit is the root (R383). -/
theorem isqrtFrom_spec : ∀ (n v root : Nat), root * root ≤ v → v < (root + 2 ^ n) * (root + 2 ^ n) →
    isqrtFrom n v root * isqrtFrom n v root ≤ v ∧ v < (isqrtFrom n v root + 1) * (isqrtFrom n v root + 1)
  | 0, _, _, hlow, hhigh => ⟨hlow, hhigh⟩
  | n + 1, v, root, hlow, hhigh => by
    rw [isqrtFrom]
    split_ifs with hbit
    · refine isqrtFrom_spec n v _ hbit ?_
      rwa [Nat.add_assoc, ← Nat.mul_two, ← Nat.pow_succ]
    · exact isqrtFrom_spec n v root hlow (not_le.mp hbit)

theorem isqrt_spec (v : Nat) : isqrt v * isqrt v ≤ v ∧ v < (isqrt v + 1) * (isqrt v + 1) := by
  refine isqrtFrom_spec _ v 0 (Nat.zero_le v) ?_
  rw [Nat.zero_add, ← Nat.pow_add]
  exact Nat.lt_log2_self.trans_le (Nat.pow_le_pow_right (by decide) (by omega))

/-- The root of v in ones. -/
theorem isQuant_isqrt (v : Nat) : IsQuant (Real.sqrt v) 1
    (isqrt v, if v = isqrt v * isqrt v then .zero else if v ≤ isqrt v * isqrt v + isqrt v then .below else .above) := by
  obtain ⟨hlow, hhigh⟩ := isqrt_spec v
  have hroot : (0 : ℝ) ≤ Real.sqrt v := Real.sqrt_nonneg _
  have hsq : Real.sqrt v * Real.sqrt v = v := Real.mul_self_sqrt (Nat.cast_nonneg v)
  generalize isqrt v = r at hlow hhigh ⊢
  generalize Real.sqrt v = x at hroot hsq ⊢
  have hr : (0 : ℝ) ≤ r := Nat.cast_nonneg r
  split_ifs with hexact hhalf
  · have hv : (v : ℝ) = r * r := by exact_mod_cast hexact
    rw [IsQuant, mul_one]
    exact (mul_self_inj hroot hr).mp (hsq.trans hv)
  · have hlt : (r * r : ℝ) < v := by exact_mod_cast lt_of_le_of_ne hlow (Ne.symm hexact)
    have hle : (v : ℝ) ≤ r * r + r := by exact_mod_cast hhalf
    refine ⟨?_, ?_⟩
    · rw [mul_one]
      exact lt_of_mul_self_lt_mul_self₀ hroot (by linarith)
    · rw [mul_one]
      exact lt_of_mul_self_lt_mul_self₀ (by linarith) (by nlinarith)
  · have hlt : (v : ℝ) < (r + 1) * (r + 1) := by exact_mod_cast hhigh
    have hle : (r * r + r + 1 : ℝ) ≤ v := by exact_mod_cast not_le.mp hhalf
    refine ⟨?_, ?_⟩
    · rw [mul_one]
      exact lt_of_mul_self_lt_mul_self₀ (by linarith) (by nlinarith)
    · rw [mul_one]
      exact lt_of_mul_self_lt_mul_self₀ (by linarith) (by linarith)

/-- A root in units of 2^k. -/
theorem quantSqrt_isQuant (m : Nat) {e k : Int} (hk : 2 * k ≤ e) :
    IsQuant (Real.sqrt (m * 2 ^ e)) (2 ^ k) (quantSqrt m e k) := by
  have hunit : (0 : ℝ) < 2 ^ k := by positivity
  have hroot : Real.sqrt (m * 2 ^ e) = Real.sqrt (m * 2 ^ (e - 2 * k).toNat : Nat) * 2 ^ k := by
    have hpow : (m * 2 ^ e : ℝ) = (m * 2 ^ (e - 2 * k).toNat : Nat) * (2 ^ k * 2 ^ k) := by
      push_cast
      rw [mul_assoc, ← zpow_natCast, Int.toNat_of_nonneg (by omega), ← zpow_add₀ two_ne_zero, ← zpow_add₀ two_ne_zero]
      congr 2
      ring
    rw [hpow, Real.sqrt_mul (Nat.cast_nonneg _), Real.sqrt_mul_self hunit.le]
  have h := (isQuant_isqrt (m * 2 ^ (e - 2 * k).toNat)).scale hunit
  rw [one_mul, ← hroot] at h
  exact h

/-! ### Finite data as signed multiples of powers of two -/

section

variable (F : Fmt) (v : Nat)

theorem Fmt.sig_lt : F.sig v < 2 ^ (F.fbits + 1) := by
  have hpos := Nat.two_pow_pos F.fbits
  have hmod := Nat.mod_lt (F.mag v) hpos
  rw [Nat.pow_succ, Fmt.sig]
  split_ifs with hsub
  · have := (Nat.div_eq_zero_iff_lt hpos).mp hsub
    omega
  · omega

theorem Fmt.qmin_le_exp : F.qmin ≤ F.exp v := by
  rw [Fmt.exp]
  generalize F.mag v / 2 ^ F.fbits = x
  split_ifs <;> omega

theorem Fmt.sig_eq_zero_iff : F.sig v = 0 ↔ F.isZero v = true := by
  have hpos := Nat.two_pow_pos F.fbits
  rw [Fmt.isZero, beq_iff_eq, Fmt.sig]
  split_ifs with hsub
  · rfl
  · refine iff_of_false (by omega) fun hz => hsub ?_
    rw [hz, Nat.zero_div]

theorem realOf_real : (realOf F.ebits F.fbits v : ℝ) = (if F.isNeg v then -1 else 1) * (F.sig v * 2 ^ F.exp v) := by
  rw [realOf_eq, F.value_mag]
  cases F.isNeg v <;> simp

theorem realOf_real_sigInt : (realOf F.ebits F.fbits v : ℝ) = F.sigInt v * 2 ^ F.exp v := by
  rw [realOf_sigInt]
  push_cast
  rfl

theorem realOf_of_isZero {F : Fmt} {v : Nat} (h : F.isZero v = true) : (realOf F.ebits F.fbits v : ℝ) = 0 := by
  rw [realOf_real, (F.sig_eq_zero_iff v).mpr h, Nat.cast_zero, zero_mul, mul_zero]

end

theorem sign_mul_sign (p q : Bool) :
    (if p then -1 else 1 : ℝ) * (if q then -1 else 1) = if p ^^ q then -1 else 1 := by
  cases p <;> cases q <;> norm_num

theorem signed_cast (p : Bool) (m : Int) : ((if p then -m else m : Int) : ℝ) = (if p then -1 else 1) * m := by
  cases p <;> simp

/-- The sum over the smaller exponent is the sum. -/
theorem sumOver_eq (m1 m2 e1 e2 : Int) :
    (sumOver m1 m2 e1 e2 : ℝ) * 2 ^ min e1 e2 = m1 * 2 ^ e1 + m2 * 2 ^ e2 := by
  have hshift : ∀ e, min e1 e2 ≤ e → (2 : ℝ) ^ (e - min e1 e2).toNat * 2 ^ min e1 e2 = 2 ^ e := by
    intro e he
    rw [← zpow_natCast, Int.toNat_of_nonneg (by omega), ← zpow_add₀ two_ne_zero, sub_add_cancel]
  rw [sumOver]
  push_cast
  rw [add_mul, mul_assoc, mul_assoc, hshift e1 (min_le_left _ _), hshift e2 (min_le_right _ _)]

/-! ### The operations -/

section

variable {F : Fmt} (hF : F.Proper) (hU : F.fp.uninterpreted = []) (rm : Rounding) {a b c : Nat}

theorem Fmt.not_nan_inf {v : Nat} (h : IsFinite F.ebits F.fbits v) : F.isNan v = false ∧ F.isInf v = false :=
  (F.isFinite_iff v h.1).mp h

include hF hU

theorem fAdd_rounded (sub : Bool) (ha : IsFinite F.ebits F.fbits a) (hb : IsFinite F.ebits F.fbits b) :
    RoundedResult F rm (realOf F.ebits F.fbits a + (if sub then -1 else 1) * realOf F.ebits F.fbits b)
      (if F.isZero a = true ∧ F.isZero b = true ∧ F.isNeg a = (F.isNeg b ^^ sub) then F.isNeg a = true else rm = .rdn)
      (fAdd F rm sub a b) := by
  obtain ⟨hna, hia⟩ := Fmt.not_nan_inf ha
  obtain ⟨hnb, hib⟩ := Fmt.not_nan_inf hb
  rw [fAdd, Fmt.numeric_concrete hU]
  simp only [hna, hia, hnb, hib, Bool.or_self, Bool.false_eq_true, if_false, Bool.and_eq_true, beq_iff_eq,
    Bool.bne_eq_xor, and_assoc]
  by_cases hzero : F.isZero a = true ∧ F.isZero b = true ∧ F.isNeg a = (F.isNeg b ^^ sub)
  · rw [if_pos hzero, if_pos hzero]
    obtain ⟨hza, hzb, hsign⟩ := hzero
    rw [realOf_of_isZero hza, realOf_of_isZero hzb, mul_zero,
      add_zero, ← hsign]
    exact roundedResult_zero hF rm (F.isNeg a)
  · rw [if_neg hzero, if_neg hzero]
    have hsum := sumOver_eq (F.sigInt a) (if sub then -F.sigInt b else F.sigInt b) (F.exp a) (F.exp b)
    have hq : (realOf F.ebits F.fbits a + (if sub then -1 else 1) * realOf F.ebits F.fbits b : ℝ) =
        F.sigInt a * 2 ^ F.exp a + (if sub then -F.sigInt b else F.sigInt b : Int) * 2 ^ F.exp b := by
      rw [realOf_real_sigInt, realOf_real_sigInt, signed_cast, mul_assoc]
    rw [hq, ← hsum]
    exact roundInt_rounded hF rm _ _

theorem fMul_rounded (ha : IsFinite F.ebits F.fbits a) (hb : IsFinite F.ebits F.fbits b) :
    RoundedResult F rm (realOf F.ebits F.fbits a * realOf F.ebits F.fbits b) ((F.isNeg a ^^ F.isNeg b) = true)
      (fMul F rm a b) := by
  obtain ⟨hna, hia⟩ := Fmt.not_nan_inf ha
  obtain ⟨hnb, hib⟩ := Fmt.not_nan_inf hb
  have hq : (realOf F.ebits F.fbits a * realOf F.ebits F.fbits b : ℝ) = (if F.isNeg a ^^ F.isNeg b then -1 else 1) *
      ((F.sig a * F.sig b : Nat) / (1 : Nat) * 2 ^ (F.exp a + F.exp b)) := by
    rw [realOf_real, realOf_real, ← sign_mul_sign, zpow_add₀ two_ne_zero]
    push_cast
    ring
  rw [fMul, Fmt.numeric_concrete hU, hq]
  simp only [hna, hia, hnb, hib, Bool.or_self, Bool.false_eq_true, if_false, Bool.bne_eq_xor]
  exact roundFrac_rounded hF rm _ _ one_ne_zero _

theorem fDiv_rounded (ha : IsFinite F.ebits F.fbits a) (hb : IsFinite F.ebits F.fbits b) (hzb : F.isZero b = false) :
    RoundedResult F rm (realOf F.ebits F.fbits a / realOf F.ebits F.fbits b) ((F.isNeg a ^^ F.isNeg b) = true)
      (fDiv F rm a b) := by
  obtain ⟨hna, hia⟩ := Fmt.not_nan_inf ha
  obtain ⟨hnb, hib⟩ := Fmt.not_nan_inf hb
  have hsig : F.sig b ≠ 0 := mt (F.sig_eq_zero_iff b).mp (by simp [hzb])
  have hq : (realOf F.ebits F.fbits a / realOf F.ebits F.fbits b : ℝ) = (if F.isNeg a ^^ F.isNeg b then -1 else 1) *
      (F.sig a / F.sig b * 2 ^ (F.exp a - F.exp b)) := by
    have hinv : (if F.isNeg b then -1 else 1 : ℝ)⁻¹ = if F.isNeg b then -1 else 1 := by
      cases F.isNeg b <;> norm_num
    rw [realOf_real, realOf_real, ← sign_mul_sign, zpow_sub₀ two_ne_zero, div_eq_mul_inv, mul_inv, hinv, mul_inv]
    ring
  rw [fDiv, Fmt.numeric_concrete hU, hq]
  simp only [hna, hia, hnb, hib, hzb, Bool.or_self, Bool.false_eq_true, if_false, Bool.bne_eq_xor]
  exact roundFrac_rounded hF rm _ _ hsig _

theorem fOfInt_rounded (v : Int) : RoundedResult F rm v False (fOfInt F rm v) := by
  have hq : (v : ℝ) = (if decide (v < 0) then -1 else 1) * (v.natAbs / (1 : Nat) * 2 ^ (0 : Int)) := by
    rw [zpow_zero, mul_one, Nat.cast_one, div_one]
    exact sign_mul_natAbs v
  rw [fOfInt, Fmt.numeric_concrete hU, hq]
  refine (roundFrac_rounded hF rm _ _ one_ne_zero _).congr fun hzero => ?_
  rw [← hq, Int.cast_eq_zero] at hzero
  simp [hzero]

theorem fConvert_rounded {G : Fmt} {x : Nat} (hx : IsFinite G.ebits G.fbits x) :
    RoundedResult F rm (realOf G.ebits G.fbits x) (G.isNeg x = true) (fConvert G F rm x) := by
  obtain ⟨hnx, hix⟩ := Fmt.not_nan_inf hx
  have hq : (realOf G.ebits G.fbits x : ℝ) =
      (if G.isNeg x then -1 else 1) * (G.sig x / (1 : Nat) * 2 ^ G.exp x) := by
    rw [realOf_real, Nat.cast_one, div_one]
  rw [fConvert, Fmt.numeric_concrete hU, hq, hnx, hix, if_neg Bool.false_ne_true, if_neg Bool.false_ne_true]
  exact roundFrac_rounded hF rm _ _ one_ne_zero _

theorem fFma_rounded (np na : Bool) (ha : IsFinite F.ebits F.fbits a) (hb : IsFinite F.ebits F.fbits b)
    (hc : IsFinite F.ebits F.fbits c) :
    RoundedResult F rm ((if np then -1 else 1) * (realOf F.ebits F.fbits a * realOf F.ebits F.fbits b) +
        (if na then -1 else 1) * realOf F.ebits F.fbits c)
      (if (F.isZero a = true ∨ F.isZero b = true) ∧ F.isZero c = true ∧
          ((F.isNeg a ^^ F.isNeg b) ^^ np) = (F.isNeg c ^^ na) then (F.isNeg c ^^ na) = true else rm = .rdn)
      (fFma F rm np na a b c) := by
  obtain ⟨hna, hia⟩ := Fmt.not_nan_inf ha
  obtain ⟨hnb, hib⟩ := Fmt.not_nan_inf hb
  obtain ⟨hnc, hic⟩ := Fmt.not_nan_inf hc
  have hproduct : ((F.sig a : Int) * F.sig b = 0 ∧ F.sig c = 0 ∧
        ((F.isNeg a ^^ F.isNeg b) ^^ np) = (F.isNeg c ^^ na)) ↔
      ((F.isZero a = true ∨ F.isZero b = true) ∧ F.isZero c = true ∧
        ((F.isNeg a ^^ F.isNeg b) ^^ np) = (F.isNeg c ^^ na)) := by
    rw [mul_eq_zero, Int.natCast_eq_zero, Int.natCast_eq_zero, F.sig_eq_zero_iff, F.sig_eq_zero_iff, F.sig_eq_zero_iff]
  rw [fFma, Fmt.numeric_concrete hU]
  simp only [hna, hia, hnb, hib, hnc, hic, Bool.or_self, Bool.false_and, Bool.and_false, Bool.false_eq_true, if_false,
    Bool.bne_eq_xor, hproduct]
  by_cases hzero : (F.isZero a = true ∨ F.isZero b = true) ∧ F.isZero c = true ∧
      ((F.isNeg a ^^ F.isNeg b) ^^ np) = (F.isNeg c ^^ na)
  · rw [if_pos hzero, if_pos hzero]
    obtain ⟨hzab, hzc, -⟩ := hzero
    have hproductZero : (realOf F.ebits F.fbits a * realOf F.ebits F.fbits b : ℝ) = 0 :=
      mul_eq_zero.mpr (hzab.imp realOf_of_isZero realOf_of_isZero)
    rw [hproductZero, realOf_of_isZero hzc, mul_zero, mul_zero, add_zero]
    exact roundedResult_zero hF rm _
  · rw [if_neg hzero, if_neg hzero]
    have hq : (if np then -1 else 1 : ℝ) * (realOf F.ebits F.fbits a * realOf F.ebits F.fbits b) +
        (if na then -1 else 1) * realOf F.ebits F.fbits c =
        (if (F.isNeg a ^^ F.isNeg b) ^^ np then -((F.sig a : Int) * F.sig b) else (F.sig a : Int) * F.sig b : Int) *
          2 ^ (F.exp a + F.exp b) +
        (if F.isNeg c ^^ na then -(F.sig c : Int) else F.sig c : Int) * 2 ^ F.exp c := by
      rw [signed_cast, signed_cast, ← sign_mul_sign, ← sign_mul_sign, ← sign_mul_sign, realOf_real, realOf_real,
        realOf_real, zpow_add₀ two_ne_zero]
      push_cast
      ring
    rw [hq, ← sumOver_eq]
    exact roundInt_rounded hF rm _ _

omit hU in
/-- A root is measured by `quantSqrt` (R383). -/
theorem measures_sqrt (hsig : F.sig a ≠ 0) : Measures F (Real.sqrt (F.sig a * 2 ^ F.exp a))
    ((Nat.log2 (F.sig a) + F.exp a) / 2) (quantSqrt (F.sig a) (F.exp a)) := by
  have hlog : Nat.log2 (F.sig a) < F.fbits + 1 := (Nat.log2_lt hsig).mpr (F.sig_lt a)
  have hexp := F.qmin_le_exp a
  have hemin := Fmt.emin_nonpos hF
  have hqmin : F.qmin = F.emin - F.fbits := rfl
  have hsquare : ∀ n : Int, ((2 : ℝ) ^ n) ^ 2 = 2 ^ (n + n) := fun n => by rw [zpow_add₀ two_ne_zero, sq]
  have hlow : (2 : ℝ) ^ ((Nat.log2 (F.sig a) : Int) + F.exp a) ≤ F.sig a * 2 ^ F.exp a := by
    rw [zpow_add₀ two_ne_zero]
    exact mul_le_mul_of_nonneg_right (two_zpow_log2_le hsig) (by positivity)
  have hhigh : (F.sig a * 2 ^ F.exp a : ℝ) < 2 ^ ((Nat.log2 (F.sig a) : Int) + 1 + F.exp a) := by
    rw [zpow_add₀ two_ne_zero]
    exact mul_lt_mul_of_pos_right (lt_two_zpow_log2 _) (by positivity)
  refine ⟨?_, ?_, quantSqrt_isQuant _ (by omega), quantSqrt_isQuant _ (by unfold lastExp; omega)⟩
  · rw [Real.le_sqrt' (by positivity), hsquare]
    exact (zpow_le_zpow_right₀ one_le_two (by omega)).trans hlow
  · rw [Real.sqrt_lt' (by positivity), hsquare]
    exact hhigh.trans_le (zpow_le_zpow_right₀ one_le_two (by omega))

theorem fSqrt_rounded (ha : IsFinite F.ebits F.fbits a) (hnonneg : 0 ≤ realOf F.ebits F.fbits a) :
    RoundedResult F rm (Real.sqrt (realOf F.ebits F.fbits a)) (F.isNeg a = true) (fSqrt F rm a) := by
  obtain ⟨hna, hia⟩ := Fmt.not_nan_inf ha
  rw [fSqrt, Fmt.numeric_concrete hU, hna, hia, if_neg Bool.false_ne_true]
  by_cases hzero : F.isZero a = true
  · have hself : F.withSign (F.isNeg a) 0 = a := by
      have hmag : F.mag a = 0 := beq_iff_eq.mp hzero
      rw [← hmag, Fmt.withSign_mag ha.1]
    have h := roundedResult_zero hF rm (F.isNeg a)
    rw [hself] at h
    rw [if_pos hzero, realOf_of_isZero hzero, Real.sqrt_zero]
    exact h
  · have hsig : F.sig a ≠ 0 := mt (F.sig_eq_zero_iff a).mp hzero
    have hneg : F.isNeg a = false := by
      by_contra hneg
      have hreal := realOf_real F a
      rw [if_pos (by simpa using hneg), neg_one_mul] at hreal
      have hpos : (0 : ℝ) < F.sig a * 2 ^ F.exp a := by positivity
      have : (0 : ℝ) ≤ realOf F.ebits F.fbits a := Rat.cast_nonneg.mpr hnonneg
      linarith
    have hmeasures := (measures_sqrt hF hsig).roundedResult hF rm false (F.isNeg a = true)
    rw [if_neg Bool.false_ne_true, one_mul] at hmeasures
    rw [if_neg hzero, realOf_real, hneg, if_neg Bool.false_ne_true, if_neg Bool.false_ne_true,
      if_neg Bool.false_ne_true, one_mul]
    rwa [hneg] at hmeasures

end

/-- Settles O41: each operation is one rounding of its exact result. -/
theorem arithmeticIsCorrectlyRounded : Obligations.ArithmeticIsCorrectlyRounded := by
  intro P F G rm e f a b c x v o q z np na hun hfmt he hf ha hb hc hx hop
  obtain ⟨hF, hU⟩ : F.Proper ∧ F.fp.uninterpreted = [] := by
    obtain ⟨rfl, rfl⟩ | ⟨rfl, rfl⟩ := hfmt
    · exact ⟨Fmt.single_proper P, hun⟩
    · exact ⟨Fmt.double_proper P, hun⟩
  subst he hf
  simp only [← F.isZero_iff, ← F.isNeg_iff, ← G.isNeg_iff, ← F.isNeg_eq] at hop
  have hsigns : F.isNeg a ≠ F.isNeg b ↔ (F.isNeg a ^^ F.isNeg b) = true := by
    cases F.isNeg a <;> cases F.isNeg b <;> decide
  obtain ⟨rfl, rfl, hz⟩ | ⟨rfl, rfl, hz⟩ | ⟨rfl, rfl, hz⟩ | ⟨rfl, hzb, rfl, hz⟩ | ⟨rfl, hnonneg, rfl, hz⟩ |
    ⟨rfl, rfl, hz⟩ | ⟨rfl, -, -, rfl, hz⟩ | ⟨rfl, rfl, hz⟩ := hop
  · have hadd := fAdd_rounded hF hU rm false ha hb
    rw [if_neg Bool.false_ne_true, one_mul, Bool.xor_false] at hadd
    exact hadd.congr fun _ => hz.symm
  · have hsub := fAdd_rounded hF hU rm true ha hb
    have hopposite : F.isNeg a = (F.isNeg b ^^ true) ↔ F.isNeg a ≠ F.isNeg b := by
      rw [Bool.xor_true]
      exact Bool.eq_not
    rw [if_pos rfl, neg_one_mul, ← sub_eq_add_neg] at hsub
    simp only [hopposite] at hsub
    exact hsub.congr fun _ => hz.symm
  · exact (fMul_rounded hF hU rm ha hb).congr fun _ => (hz.trans hsigns).symm
  · exact (fDiv_rounded hF hU rm ha hb (Bool.not_eq_true _ ▸ hzb)).congr fun _ => (hz.trans hsigns).symm
  · exact (fSqrt_rounded hF hU rm ha hnonneg).congr fun _ => hz.symm
  · exact (fFma_rounded hF hU rm np na ha hb hc).congr fun _ => hz.symm
  · exact (fOfInt_rounded hF hU rm v).congr fun _ => hz.symm
  · exact (fConvert_rounded hF hU rm hx).congr fun _ => hz.symm

end Sys2Proof.Machine

/-! ## What a step may change of the privileged state (60_exceptions.md R641, R642) -/

namespace Sys2Proof.Machine

open Sys2Proof

/-! ### The same hart, and a confined change -/

theorem SameHart.refl (s : State) : SameHart s s := rfl

theorem SameHart.trans {s t u : State} (h : SameHart s t) (k : SameHart t u) : SameHart s u := by
  unfold SameHart at *
  calc u = { t with mem := u.mem, storeLog := u.storeLog, reservation := u.reservation, lines := u.lines,
                    inputs := u.inputs, ioLog := u.ioLog, draws := u.draws } := k
    _ = _ := by rw [h]

theorem sameHart_sample (s : State) : SameHart s s.sample := by
  unfold State.sample
  split <;> rfl

theorem sameHart_readMem (s : State) (a : Word) (n : Nat) : SameHart s (s.readMem a n).2 := by
  obtain ⟨io, d, h⟩ := s.readMem_shape a n
  rw [h]
  rfl

theorem sameHart_writeMem (s : State) (a : Word) (n : Nat) (v : Word) : SameHart s (s.writeMem a n v) := by
  obtain ⟨m, l, io, r, d, h, -⟩ := s.writeMem_shape a n v
  rw [h]
  rfl

theorem sameHart_foldl_loadByte (a : Word) : ∀ (l : List Nat) (r : Nat × State),
    SameHart r.2 (l.foldl (loadByte a) r).2
  | [], _ => .refl _
  | j :: l, r => (sameHart_readMem r.2 _ 1).trans (sameHart_foldl_loadByte a l (loadByte a r j))

theorem sameHart_loadBytes (s : State) (a : Word) (n : Nat) : SameHart s (s.loadBytes a n).2 := by
  unfold State.loadBytes
  split
  · exact SameHart.trans (t := { s with draws := s.draws + 1 }) rfl (sameHart_foldl_loadByte a _ _)
  · exact sameHart_readMem s a n

theorem sameHart_foldl_storeByte (a v : Word) : ∀ (l : List Nat) (s : State),
    SameHart s (l.foldl (State.storeByte a v) s)
  | [], _ => .refl _
  | j :: l, s => (sameHart_writeMem s _ 1 _).trans (sameHart_foldl_storeByte a v l (s.storeByte a v j))

theorem sameHart_storeBytes (s : State) (a : Word) (n : Nat) (v : Word) : SameHart s (s.storeBytes a n v) :=
  SameHart.trans (t := { s with draws := s.draws + 1 }) rfl (sameHart_foldl_storeByte a v _ _)

/-- The registers of machine and supervisor mode, the mode and the configuration are in t as in s; of `mstatus` FS alone
may differ. -/
structure Confined (s t : State) : Prop where
  cfg : t.cfg = s.cfg
  priv : t.priv = s.priv
  mstatus : t.mstatus = { s.mstatus with fs := t.mstatus.fs }
  mepc : t.mepc = s.mepc
  mtvec : t.mtvec = s.mtvec
  mcause : t.mcause = s.mcause
  mtval : t.mtval = s.mtval
  mscratch : t.mscratch = s.mscratch
  sepc : t.sepc = s.sepc
  stvec : t.stvec = s.stvec
  scause : t.scause = s.scause
  stval : t.stval = s.stval
  sscratch : t.sscratch = s.sscratch
  medeleg : t.medeleg = s.medeleg
  mideleg : t.mideleg = s.mideleg
  mie : t.mie = s.mie
  mipSoft : t.mipSoft = s.mipSoft
  mcounteren : t.mcounteren = s.mcounteren
  scounteren : t.scounteren = s.scounteren

theorem Confined.trans {s t u : State} (h : Confined s t) (k : Confined t u) : Confined s u where
  cfg := k.cfg.trans h.cfg
  priv := k.priv.trans h.priv
  mstatus := by rw [k.mstatus, h.mstatus]
  mepc := k.mepc.trans h.mepc
  mtvec := k.mtvec.trans h.mtvec
  mcause := k.mcause.trans h.mcause
  mtval := k.mtval.trans h.mtval
  mscratch := k.mscratch.trans h.mscratch
  sepc := k.sepc.trans h.sepc
  stvec := k.stvec.trans h.stvec
  scause := k.scause.trans h.scause
  stval := k.stval.trans h.stval
  sscratch := k.sscratch.trans h.sscratch
  medeleg := k.medeleg.trans h.medeleg
  mideleg := k.mideleg.trans h.mideleg
  mie := k.mie.trans h.mie
  mipSoft := k.mipSoft.trans h.mipSoft
  mcounteren := k.mcounteren.trans h.mcounteren
  scounteren := k.scounteren.trans h.scounteren

theorem SameHart.confined {s t : State} (h : SameHart s t) : Confined s t := by
  unfold SameHart at h
  rw [h]
  constructor <;> rfl

section
variable {s₀ s : State} (h : Confined s₀ s)
include h

theorem Confined.writeX (r : Reg) (v : Word) : Confined s₀ (s.writeX r v) := h.trans (by constructor <;> simp)

theorem Confined.writeF (r : Reg) (v : Word) : Confined s₀ (s.writeF r v) := h.trans (by constructor <;> simp)

theorem Confined.writeS (r : Reg) (v : Word32) : Confined s₀ (s.writeS r v) := h.trans (by constructor <;> simp)

theorem Confined.accrue (b : BitVec 5) : Confined s₀ (s.accrue b) := h.trans (by constructor <;> simp)

theorem Confined.retire : Confined s₀ s.retire := h.trans (by constructor <;> simp)

theorem Confined.advance (len : Nat) : Confined s₀ (s.advance len) := h.trans (by constructor <;> simp)

theorem Confined.syncFetch : Confined s₀ s.syncFetch := h.trans (by constructor <;> simp)

theorem Confined.fsDirty : Confined s₀ s.fsDirty := by
  have hfs : s.fsDirty.mstatus = { s.mstatus with fs := s.fsDirty.mstatus.fs } := by
    unfold State.fsDirty
    split <;> rfl
  refine h.trans ?_
  constructor
  case mstatus => exact hfs
  all_goals simp

end

/-! ### Shapes of instructions -/

/-- A trap entry made it, from the hart as it is in s. -/
def TrapsFrom (s t : State) : Prop := ∃ (u : State) (c : Cause) (info : Word), t = u.takeTrap c info ∧ SameHart s u

/-- Where the outcome is a next state, it is a confined change of s, or a trap entry made it. -/
def ConfinedOrTraps (s : State) (r : Result) : Prop := ∀ t, r = .next t → Confined s t ∨ TrapsFrom s t

theorem Confined.next {s t : State} (h : Confined s t) : ConfinedOrTraps s (.next t) := by
  intro u hu
  cases hu
  exact .inl h

/-- With TRAP_MODEL = environment there is no next state (60_exceptions.md R613). -/
theorem SameHart.raise_cases {s₀ s t : State} {e : Exc} {info : Word} (h : SameHart s₀ s)
    (ht : Machine.raise e info s = .next t) : TrapsFrom s₀ t := by
  unfold Machine.raise at ht
  split at ht
  · cases ht
    exact ⟨s, _, _, rfl, h⟩
  · cases ht

section
variable {s₀ s : State} {len : Nat}

theorem SameHart.raise (h : SameHart s₀ s) (e : Exc) (info : Word) : ConfinedOrTraps s₀ (Machine.raise e info s) :=
  fun _ ht => .inr (h.raise_cases ht)

theorem Confined.finish (h : Confined s₀ s) : ConfinedOrTraps s₀ (Machine.finish len s) :=
  (h.advance len).retire.next

theorem Confined.finishAt (h : Confined s₀ s) (target : Word) : ConfinedOrTraps s₀ (Machine.finishAt target s) :=
  (h.trans (by constructor <;> rfl : Confined s { s with pc := s.cfg.xlen.wrap target })).retire.next

/-- A floating-point instruction ends where its result is written and the flags and FS are set. -/
theorem Confined.accrueAndFinish (h : Confined s₀ s) (b : BitVec 5) :
    ConfinedOrTraps s₀ (Machine.finish 4 (s.accrue b).fsDirty) :=
  (h.accrue b).fsDirty.finish

variable (h : SameHart s₀ s)
include h

theorem SameHart.load (a : Word) (n : Nat) {k : Word → State → Result}
    (hk : ∀ v t, SameHart s₀ t → ConfinedOrTraps s₀ (k v t)) : ConfinedOrTraps s₀ ((s.load a n).andThen k) := by
  have hread := h.trans (sameHart_readMem s a n)
  have hbytes := h.trans (sameHart_loadBytes s a n)
  unfold State.load
  split
  · exact h.raise _ _
  split
  · split
    · exact hk _ _ hread
    · exact h.raise _ _
  · split
    · exact hk _ _ hbytes
    · exact hbytes.raise _ _

theorem SameHart.store (a : Word) (n : Nat) (v : Word) {k : Unit → State → Result}
    (hk : ∀ t, SameHart s₀ t → ConfinedOrTraps s₀ (k () t)) : ConfinedOrTraps s₀ ((s.store a n v).andThen k) := by
  have hbytes := h.trans (sameHart_storeBytes s a n v)
  unfold State.store
  split
  · exact h.raise _ _
  split
  · split
    · exact hk _ (h.trans (sameHart_writeMem s a n v))
    · exact h.raise _ _
  · split
    · exact hk _ hbytes
    · exact hbytes.raise _ _

theorem SameHart.fpGuard (i : Instr) {k : Result} (hk : ConfinedOrTraps s₀ k) :
    ConfinedOrTraps s₀ (fpGuard i s k) := by
  unfold Machine.fpGuard
  split
  · exact h.raise _ _
  · exact hk

theorem SameHart.fpRounded (i : Instr) (rm : BitVec 3) {k : Rounding → Result} (hk : ∀ r, ConfinedOrTraps s₀ (k r)) :
    ConfinedOrTraps s₀ (fpRounded i rm s k) := by
  refine h.fpGuard i ?_
  split
  · exact hk _
  · exact h.raise _ _

theorem SameHart.setX (rd : Reg) (v : Word) : ConfinedOrTraps s₀ (setX len rd v s) := (h.confined.writeX rd v).finish

theorem SameHart.branch (cond : Bool) (off : Word) : ConfinedOrTraps s₀ (branch len cond off s) := by
  unfold Machine.branch
  split
  · split
    · exact h.confined.finishAt _
    · exact h.raise _ _
  · exact h.confined.finish

theorem SameHart.jumpLink (rd : Reg) (target : Word) : ConfinedOrTraps s₀ (jumpLink len rd target s) := by
  unfold Machine.jumpLink
  split
  · exact (h.confined.writeX _ _).finishAt _
  · exact h.raise _ _

theorem SameHart.loadX (rd : Reg) (a : Word) (n : Nat) (ext : Word → Word) :
    ConfinedOrTraps s₀ (loadX len rd a n ext s) :=
  h.load a n fun _ _ ht => (ht.confined.writeX _ _).finish

theorem SameHart.storeX (rs2 : Reg) (a : Word) (n : Nat) : ConfinedOrTraps s₀ (storeX len rs2 a n s) :=
  h.store a n _ fun _ ht => ht.confined.finish

theorem SameHart.amo (n : Nat) (f : Word → Word → Word) (ext : Word → Word) (rd rs1 rs2 : Reg) :
    ConfinedOrTraps s₀ (amo n f ext rd rs1 rs2 s) := by
  unfold Machine.amo
  dsimp only
  split
  · exact h.raise _ _
  split
  · have hread := h.trans (sameHart_readMem s (s.readX rs1) n)
    exact ((hread.trans (sameHart_writeMem _ _ _ _)).confined.writeX _ _).finish
  · exact h.raise _ _

theorem SameHart.amoW (f : BinOp) (rd rs1 rs2 : Reg) : ConfinedOrTraps s₀ (amoW f rd rs1 rs2 s) := h.amo _ _ _ _ _ _

theorem SameHart.amoD (f : BinOp) (rd rs1 rs2 : Reg) : ConfinedOrTraps s₀ (amoD f rd rs1 rs2 s) := h.amo _ _ _ _ _ _

theorem SameHart.loadReserved (rd rs1 : Reg) (n : Nat) : ConfinedOrTraps s₀ (loadReserved rd rs1 n s) := by
  unfold Machine.loadReserved
  dsimp only
  split
  · exact h.raise _ _
  split
  · have hread := h.trans (sameHart_readMem s (s.readX rs1) n)
    exact ((hread.trans (u := { (s.readMem (s.readX rs1) n).2 with
      reservation := some { addr := s.readX rs1, size := n } }) rfl).confined.writeX _ _).finish
  · exact h.raise _ _

theorem SameHart.storeConditional (rd rs1 rs2 : Reg) (n : Nat) :
    ConfinedOrTraps s₀ (storeConditional rd rs1 rs2 n s) := by
  have hused : SameHart s₀ { s with draws := s.draws + 1 } := h.trans rfl
  unfold Machine.storeConditional
  dsimp only
  split
  · exact h.raise _ _
  split
  · exact h.raise _ _
  split
  · have hstored := hused.trans (sameHart_writeMem _ (s.readX rs1) n (s.readX rs2))
    exact ((hstored.trans (u := { State.writeMem { s with draws := s.draws + 1 } (s.readX rs1) n (s.readX rs2) with
      reservation := none }) rfl).confined.writeX _ _).finish
  · exact ((hused.trans (u := { s with draws := s.draws + 1, reservation := none }) rfl).confined.writeX _ _).finish

/-- An instruction that is legal in some modes only and has no effect that one hart sees. -/
theorem SameHart.finishWhere (legal : Bool) (i : Instr) :
    ConfinedOrTraps s₀ (if legal then Machine.finish 4 s else Machine.raise .illegalInstruction i.bits s) := by
  split
  · exact h.confined.finish
  · exact h.raise _ _

theorem SameHart.arithS (i : Instr) (rm : BitVec 3) (rd : Reg) (op : Rounding → Nat × BitVec 5) :
    ConfinedOrTraps s₀ (arithS i rm rd op s) :=
  h.fpRounded i rm fun _ => (h.confined.writeS _ _).accrueAndFinish _

theorem SameHart.arithD (i : Instr) (rm : BitVec 3) (rd : Reg) (op : Rounding → Nat × BitVec 5) :
    ConfinedOrTraps s₀ (arithD i rm rd op s) :=
  h.fpRounded i rm fun _ => (h.confined.writeF _ _).accrueAndFinish _

theorem SameHart.selectS (i : Instr) (rd : Reg) (v : Nat × BitVec 5) : ConfinedOrTraps s₀ (selectS i rd v s) :=
  h.fpGuard i ((h.confined.writeS _ _).accrueAndFinish _)

theorem SameHart.selectD (i : Instr) (rd : Reg) (v : Nat × BitVec 5) : ConfinedOrTraps s₀ (selectD i rd v s) :=
  h.fpGuard i ((h.confined.writeF _ _).accrueAndFinish _)

theorem SameHart.compareF (i : Instr) (rd : Reg) (v : Word × BitVec 5) : ConfinedOrTraps s₀ (compareF i rd v s) :=
  h.fpGuard i ((h.confined.writeX _ _).accrueAndFinish _)

theorem SameHart.convertToX (i : Instr) (rm : BitVec 3) (rd : Reg) (bits : Nat) (op : Rounding → Int × BitVec 5) :
    ConfinedOrTraps s₀ (convertToX i rm rd bits op s) :=
  h.fpRounded i rm fun _ => (h.confined.writeX _ _).accrueAndFinish _

theorem SameHart.moveToX (i : Instr) (rd : Reg) (v : Word) : ConfinedOrTraps s₀ (moveToX i rd v s) :=
  h.fpGuard i (h.confined.writeX _ _).finish

theorem SameHart.moveToF (i : Instr) (rd : Reg) (v : Word) : ConfinedOrTraps s₀ (moveToF i rd v s) :=
  h.fpGuard i (h.confined.writeF _ _).fsDirty.finish

theorem SameHart.loadF (i : Instr) (rd : Reg) (a : Word) (n : Nat) : ConfinedOrTraps s₀ (loadF i len rd a n s) := by
  refine h.fpGuard i (h.load a n fun v t ht => Confined.finish (Confined.fsDirty ?_))
  split
  · exact ht.confined.writeS _ _
  · exact ht.confined.writeF _ _

theorem SameHart.storeF (i : Instr) (rs2 : Reg) (a : Word) (n : Nat) : ConfinedOrTraps s₀ (storeF i len rs2 a n s) :=
  h.fpGuard i (h.store a n _ fun _ ht => ht.confined.finish)

/-! ### Every instruction -/

/-- What a machine instruction can do of a privileged kind: nothing but trap, access a CSR, or return from a trap. -/
theorem exec_confined_or (i : Instr) (hp : i.isPseudo = false) :
    ConfinedOrTraps s₀ (exec i s) ∨ (∃ rd n u new, exec i s = csrInstruction i rd n u new s) ∨ i = .mret ∨ i = .sret := by
  cases i
  case csrrw | csrrs | csrrc | csrrwi | csrrsi | csrrci => exact .inr (.inl ⟨_, _, _, _, rfl⟩)
  case mret => exact .inr (.inr (.inl rfl))
  case sret => exact .inr (.inr (.inr rfl))
  case add | addi | addiw | addw | and | andi | auipc | lui | or | ori | sll | slli | slliw | sllw | slt | slti | sltiu
      | sltu | sra | srai | sraiw | sraw | srl | srli | srliw | srlw | sub | subw | xor | xori | mul | mulh | mulhsu
      | mulhu | mulw | div | divu | divw | divuw | rem | remu | remw | remuw =>
    exact .inl (h.setX _ _)
  case cAdd | cAddi | cAddi16sp | cAddi4spn | cAddiw | cAnd | cAddw | cAndi | cLi | cLui | cMv | cOr | cSlli | cSrai
      | cSrli | cSub | cSubw | cXor =>
    exact .inl (h.setX _ _)
  case beq | bge | bgeu | blt | bltu | bne | cBeqz | cBnez => exact .inl (h.branch _ _)
  case jal | jalr | cJ | cJal | cJalr | cJr => exact .inl (h.jumpLink _ _)
  case lb | lbu | ld | lh | lhu | lw | lwu | cLd | cLdsp | cLw | cLwsp => exact .inl (h.loadX _ _ _ _)
  case sb | sd | sh | sw | cSd | cSdsp | cSw | cSwsp => exact .inl (h.storeX _ _ _)
  case fence => exact .inl h.confined.finish
  case fenceI => exact .inl h.confined.syncFetch.finish
  case ecall | ebreak | cEbreak => exact .inl (h.raise _ _)
  case wfi | sfenceVma => exact .inl (h.finishWhere _ _)
  case amoaddW | amoandW | amomaxW | amomaxuW | amominW | amominuW | amoorW | amoswapW | amoxorW =>
    exact .inl (h.amoW _ _ _ _)
  case amoaddD | amoandD | amomaxD | amomaxuD | amominD | amominuD | amoorD | amoswapD | amoxorD =>
    exact .inl (h.amoD _ _ _ _)
  case lrD | lrW => exact .inl (h.loadReserved _ _ _)
  case scD | scW => exact .inl (h.storeConditional _ _ _ _)
  case faddS | fcvtSL | fcvtSLu | fcvtSW | fcvtSWu | fdivS | fmaddS | fmsubS | fmulS | fnmaddS | fnmsubS | fsqrtS | fsubS
      | fcvtSD =>
    exact .inl (h.arithS _ _ _ _)
  case faddD | fcvtDL | fcvtDLu | fcvtDS | fcvtDW | fcvtDWu | fdivD | fmaddD | fmsubD | fmulD | fnmaddD | fnmsubD
      | fsqrtD | fsubD =>
    exact .inl (h.arithD _ _ _ _)
  case fmaxS | fminS | fsgnjS | fsgnjnS | fsgnjxS => exact .inl (h.selectS _ _ _)
  case fmaxD | fminD | fsgnjD | fsgnjnD | fsgnjxD => exact .inl (h.selectD _ _ _)
  case feqS | fleS | fltS | feqD | fleD | fltD => exact .inl (h.compareF _ _ _)
  case fcvtLS | fcvtLuS | fcvtWS | fcvtWuS | fcvtLD | fcvtLuD | fcvtWD | fcvtWuD => exact .inl (h.convertToX _ _ _ _ _)
  case fclassS | fclassD | fmvXW | fmvXD => exact .inl (h.moveToX _ _ _)
  case fmvWX | fmvDX => exact .inl (h.moveToF _ _ _)
  case flw | fld | cFld | cFldsp | cFlw | cFlwsp => exact .inl (h.loadF _ _ _ _)
  case fsw | fsd | cFsd | cFsdsp | cFsw | cFswsp => exact .inl (h.storeF _ _ _ _)
  all_goals exact Bool.noConfusion hp

end

/-! ### CSR instructions -/

/-- A legal access ends in the state its effect leaves, moved on. -/
theorem csrInstruction_cases {i : Instr} {rd : Reg} {n : BitVec 12} {u : CsrUse} {new : Word → Word} {s t : State}
    (ht : csrInstruction i rd n u new s = .next t) :
    raise .illegalInstruction i.bits s = .next t ∨
    ∃ c, s.csrAccess n u.writes = some c ∧ Confined (s.csrEffect c u rd new) t := by
  have hrefl : ∀ c, Confined (s.csrEffect c u rd new) (s.csrEffect c u rd new) := fun _ => (SameHart.refl _).confined
  unfold csrInstruction at ht
  split at ht
  · exact .inl ht
  · next c hc =>
    refine .inr ⟨c, hc, ?_⟩
    split at ht
    · cases ht
      exact (hrefl c).advance 4
    · cases ht
      exact ((hrefl c).advance 4).retire

theorem confined_readCsr (s : State) (c : Csr) : Confined s (s.readCsr c).2 := by
  obtain ⟨cy, tm, d, h⟩ := s.readCsr_shape c
  rw [h]
  constructor <;> rfl

/-- No access to a CSR changes the mode. -/
theorem State.csrEffect_priv (s : State) (c : Csr) (u : CsrUse) (rd : Reg) (new : Word → Word) :
    (s.csrEffect c u rd new).priv = s.priv := by
  obtain ⟨w, hw, heffect, -⟩ := s.csrEffect_eq c u rd new
  have hread : (if u.reads then (s.readCsr c).2 else s).priv = s.priv := by
    split
    · exact (confined_readCsr s c).priv
    · rfl
  rw [heffect, State.writeX_priv, hw]
  split
  · obtain ⟨-, -, -, -, -, hpriv, -⟩ := State.writeCsr_frame (if u.reads then (s.readCsr c).2 else s) c
      (new (if u.reads then (s.readCsr c).1 else 0))
    rw [hpriv, hread]
  · exact hread

/-- The user-level CSRs that are not read-only by their number are the floating-point ones (10_state.md R40). -/
theorem Csr.isFloat_of_userWritable (c : Csr) (hlevel : lowestLevel c.number = 0) (hwritable : isReadOnly c.number = false) :
    c.isFloat = true := by
  revert hlevel hwritable
  cases c <;> decide

theorem confined_storeCsr_float (s : State) {c : Csr} (hc : c.isFloat = true) (v : Word) : Confined s (s.storeCsr c v) := by
  cases c
  case fflags | frm | fcsr => exact Confined.fsDirty (by constructor <;> rfl)
  all_goals exact Bool.noConfusion hc

/-- In user mode only user-level CSRs are accessible, and written only those whose number allows it (R282 (b), (c)). -/
theorem State.csrAccess_user {s : State} (hu : s.priv = .user) {n : BitVec 12} {writes : Bool} {c : Csr}
    (h : s.csrAccess n writes = some c) : writes = true → c.isFloat = true := by
  intro hwrites
  obtain ⟨hn, hallowed⟩ := (State.csrAccess_eq_some_iff s n writes c).mp h
  obtain ⟨rfl, -⟩ := Csr.of_ofNumber hn
  obtain ⟨hro, -, henv, hmach⟩ := (State.csrAllowed_iff s _ c writes).mp hallowed
  have hlevel : lowestLevel c.number = 0 := by
    cases hm : s.cfg.trapModel with
    | environment => exact henv hm
    | machine =>
      obtain ⟨hle, -⟩ := hmach hm
      rw [hu] at hle
      exact Nat.le_zero.mp hle
  have hwritable : isReadOnly c.number = false :=
    Bool.eq_false_iff.mpr fun h => hro ⟨hwrites, (isReadOnly_iff _).mp h⟩
  exact c.isFloat_of_userWritable hlevel hwritable

theorem State.csrEffect_confined {s : State} {c : Csr} {u : CsrUse} (hc : u.writes = true → c.isFloat = true) (rd : Reg)
    (new : Word → Word) : Confined s (s.csrEffect c u rd new) := by
  obtain ⟨w, hw, heffect, -⟩ := s.csrEffect_eq c u rd new
  have hread : Confined s (if u.reads then (s.readCsr c).2 else s) := by
    split
    · exact confined_readCsr s c
    · exact (SameHart.refl s).confined
  have hwritten : Confined s w := by
    rw [hw]
    split
    · next hwrites => exact hread.trans (confined_storeCsr_float _ (hc hwrites) _)
    · exact hread
  rw [heffect]
  exact hwritten.writeX _ _

theorem SameHart.csrInstruction_user {s₀ s : State} (h : SameHart s₀ s) (hu : s₀.priv = .user) (i : Instr) (rd : Reg)
    (n : BitVec 12) (u : CsrUse) (new : Word → Word) : ConfinedOrTraps s₀ (csrInstruction i rd n u new s) := by
  intro t ht
  obtain hraise | ⟨c, hc, hend⟩ := csrInstruction_cases ht
  · exact .inr (h.raise_cases hraise)
  · have hus : s.priv = .user := h.confined.priv.trans hu
    exact .inl ((h.confined.trans (State.csrEffect_confined (State.csrAccess_user hus hc) rd new)).trans hend)

/-! ### The step -/

/-- What a step can do: a confined change, a trap entry, or an access to a CSR or a return from a trap by the instruction
fetched. -/
theorem step_cases {s t : State} (hstep : step s = .next t) :
    Confined s t ∨ TrapsFrom s t ∨
    ∃ p u i, s.sample.fetch = .done p u ∧ decode s.cfg p = some i ∧ SameHart s u ∧ exec i u = .next t ∧
      ((∃ rd n use new, exec i u = csrInstruction i rd n use new u) ∨ i = .mret ∨ i = .sret) := by
  have hsample := sameHart_sample s
  cases hint : s.sample.interrupt with
  | some n =>
    rw [step_of_interrupt hint] at hstep
    cases hstep
    exact .inr (.inl ⟨_, _, _, rfl, hsample⟩)
  | none =>
    obtain ⟨d, hfetch⟩ := s.sample.fetch_cases
    have hfetched : SameHart s { s.sample with draws := d } := hsample.trans rfl
    obtain ⟨p, hp⟩ | hmis | hacc := hfetch
    · obtain ⟨hrun, hcfg⟩ := step_of_fetch_done hint hp
      rw [hrun] at hstep
      cases hd : decode s.cfg p with
      | none =>
        rw [runParcel_of_decode_none (by rw [hcfg, hd])] at hstep
        exact .inr (.inl (hfetched.raise_cases hstep))
      | some i =>
        rw [runParcel_of_decode_some (by rw [hcfg, hd])] at hstep
        obtain ⟨-, -, -, hmachine⟩ := decodedParcelIsItsEncoding s.cfg p i hd
        obtain hplain | hpriv := exec_confined_or hfetched i hmachine
        · obtain hconf | htrap := hplain t hstep
          · exact .inl hconf
          · exact .inr (.inl htrap)
        · exact .inr (.inr ⟨p, _, i, hp, hd, hfetched, hstep, hpriv⟩)
    · rw [step_of_no_interrupt hint, runInstruction_of_fetch_trap hmis] at hstep
      exact .inr (.inl (hfetched.raise_cases hstep))
    · rw [step_of_no_interrupt hint, runInstruction_of_fetch_trap hacc] at hstep
      exact .inr (.inl (hfetched.raise_cases hstep))

theorem SameHart.mret_cases {s₀ s t : State} (h : SameHart s₀ s) (ht : exec .mret s = .next t) :
    TrapsFrom s₀ t ∨ s₀.priv = .machine ∧ t.priv = s₀.mstatus.mpp := by
  change execMret s = .next t at ht
  unfold execMret at ht
  split at ht
  · next hlegal =>
    cases ht
    obtain ⟨-, hpriv⟩ := s.mretLegal_iff.mp hlegal
    rw [h.confined.priv] at hpriv
    have hmpp : s.mstatus.mpp = s₀.mstatus.mpp := by rw [h.confined.mstatus]
    exact .inr ⟨hpriv, hmpp⟩
  · exact .inl (h.raise_cases ht)

theorem SameHart.sret_cases {s₀ s t : State} (h : SameHart s₀ s) (ht : exec .sret s = .next t) :
    TrapsFrom s₀ t ∨ s₀.priv ≠ .user ∧ t.priv = (if s₀.mstatus.spp then .supervisor else .user) := by
  change execSret s = .next t at ht
  unfold execSret at ht
  split at ht
  · next hlegal =>
    cases ht
    obtain ⟨-, -, hpriv⟩ := s.supervisorLegal_iff.mp hlegal
    rw [h.confined.priv] at hpriv
    have hspp : s.mstatus.spp = s₀.mstatus.spp := by rw [h.confined.mstatus]
    exact .inr ⟨hpriv, by rw [← hspp]; rfl⟩
  · exact .inl (h.raise_cases ht)

/-- In user mode no CSR access reaches a privileged register and neither return is legal (R282, R643). -/
theorem step_user_cases {s t : State} (hu : s.priv = .user) (hstep : step s = .next t) : Confined s t ∨ TrapsFrom s t := by
  obtain hconf | htrap | ⟨p, u, i, -, -, hsame, hexec, ⟨rd, n, use, new, hcsr⟩ | rfl | rfl⟩ := step_cases hstep
  · exact .inl hconf
  · exact .inr htrap
  · exact hsame.csrInstruction_user hu i rd n use new t (hcsr ▸ hexec)
  · obtain htrap | ⟨hm, -⟩ := hsame.mret_cases hexec
    · exact .inr htrap
    · rw [hu] at hm
      cases hm
  · obtain htrap | ⟨hs, -⟩ := hsame.sret_cases hexec
    · exact .inr htrap
    · exact absurd hu hs

/-- Settles O59: a step in user mode is a confined change or a trap entry, and a trap entry leaves the registers of the
first list alone. -/
theorem userModeIsConfined : Obligations.UserModeIsConfined := by
  intro s t hu hstep
  obtain h | ⟨u, c, info, rfl, hsame⟩ := step_user_cases hu hstep
  · exact ⟨⟨h.mtvec, h.stvec, h.medeleg, h.mideleg, h.mie, h.mipSoft, h.mscratch, h.sscratch, h.mcounteren,
      h.scounteren, h.cfg⟩, .inl ⟨h.priv.trans hu, h.mepc, h.mcause, h.mtval, h.sepc, h.scause, h.stval, h.mstatus⟩⟩
  · have h := hsame.confined
    refine ⟨?_, .inr ⟨u, c, info, rfl, hsame⟩⟩
    simp [h.mtvec, h.stvec, h.medeleg, h.mideleg, h.mie, h.mipSoft, h.mscratch, h.sscratch, h.mcounteren, h.scounteren,
      h.cfg]

/-- Settles O60: of what a step can do, only a trap entry and the two returns change the mode. -/
theorem onlyTrapsAndReturnsChangeMode : Obligations.OnlyTrapsAndReturnsChangeMode := by
  intro s t hstep hne
  obtain hconf | htrap | ⟨p, u, i, hfetch, hdecode, hsame, hexec, ⟨rd, n, use, new, hcsr⟩ | rfl | rfl⟩ := step_cases hstep
  · exact absurd hconf.priv hne
  · exact .inl htrap
  · obtain hraise | ⟨c, -, hend⟩ := csrInstruction_cases (hcsr ▸ hexec)
    · exact .inl (hsame.raise_cases hraise)
    · exact absurd (hend.priv.trans ((State.csrEffect_priv ..).trans hsame.confined.priv)) hne
  · obtain htrap | ⟨hm, hmpp⟩ := hsame.mret_cases hexec
    · exact .inl htrap
    · exact .inr ⟨p, u, hfetch, .inl ⟨hdecode, hm, hmpp⟩⟩
  · obtain htrap | ⟨hs, hspp⟩ := hsame.sret_cases hexec
    · exact .inl htrap
    · exact .inr ⟨p, u, hfetch, .inr ⟨hdecode, hs, hspp⟩⟩

end Sys2Proof.Machine

/-! ## Rounded operations with a double result (47_float_double.md) -/

namespace Sys2Proof.Machine

open Sys2Proof

theorem arithD_completes {i : Instr} {s : State} {rd : Reg} {rm : BitVec 3} {op : Rounding → Nat × BitVec 5}
    (hd : s.cfg.extD = true) (hexec : exec i s = arithD i rm rd op s) : RoundsToDouble i s rd rm op := by
  intro r hon hsel
  rw [hexec, arithD, fpRounded_spec i rm s _ r hon hsel, ← flenWrap_ofNat_toNat hd]
  exact finishF_spec 4 rd _ _ s (by decide)

/-- Settles O39: each form is the shared rounded shape, its operands read as numbers. -/
theorem doubleArithmeticCompletes : Obligations.DoubleArithmeticCompletes := by
  rintro s rd rs1 rs2 rs3 rm _ _ _ hd rfl rfl rfl
  have hround : ∀ {i : Instr} {op : Rounding → Nat × BitVec 5}, exec i s = arithD i rm rd op s →
      RoundsToDouble i s rd rm op := arithD_completes hd
  rw [← readS_toNat s rs1, ← s.wbits_toInt rs1, ← s.wbits_toNat rs1]
  refine ⟨hround rfl, hround rfl, hround rfl, hround rfl, hround rfl, hround rfl, hround rfl, hround rfl, hround rfl,
    hround rfl, hround rfl, hround rfl, fun hx => ⟨?signed, hround rfl⟩⟩
  case signed =>
    rw [← s.toInt_readX rs1, hx]
    exact hround rfl

end Sys2Proof.Machine

/-! ## Compressed instructions (48_compressed.md) -/

namespace Sys2Proof.Machine

open Sys2Proof

/-! ### The operands -/

theorem toNat_append_zeros {w : Nat} (u : BitVec w) (k : Nat) : (u ++ 0#k).toNat = 2 ^ k * u.toNat := by
  rw [toNat_append_eq_add, BitVec.toNat_zero, Nat.add_zero, Nat.mul_comm]

/-- A scaled field, zero-extended to a register cell, fits every width no smaller than its own. -/
theorem setWidth_scaled_toNat {w k n : Nat} (u : BitVec w) (hn : w + k ≤ n) (hcell : w + k ≤ 64) :
    (((u ++ 0#k).setWidth 64).setWidth n).toNat = 2 ^ k * u.toNat := by
  have hfits : (u ++ 0#k).toNat < 2 ^ n := (u ++ 0#k).isLt.trans_le (Nat.pow_le_pow_right (by decide) hn)
  rw [BitVec.toNat_setWidth, BitVec.toNat_setWidth_of_le hcell, Nat.mod_eq_of_lt hfits, toNat_append_zeros]

/-- A scaled field, sign-extended to a register cell, at a width no larger than the cell. -/
theorem setWidth_scaledSigned_eq_ofInt {w k n : Nat} (imm : BitVec w) (hcell : w + k ≤ 64) (hn : n ≤ 64) :
    ((imm ++ 0#k).signExtend 64).setWidth n = .ofInt n (2 ^ k * imm.toInt) := by
  rw [setWidth_signExtend_eq_ofInt _ hcell hn, BitVec.toInt_append_zero]

/-! ### Results and frame of the computational instructions -/

/-- Settles O49: each form is a shared shape of two bytes; those on x0 or on x2 have the operand their expansion has. -/
theorem compressedComputation : Obligations.CompressedComputation := by
  rintro s rd rs2 d t imm u8 _ _ rfl rfl
  rw [← CReg.full_eq_shortReg, ← CReg.full_eq_shortReg]
  have hreg : ∀ {f : BinOp} {q r1 r2 : Reg} {n : Nat}, (f s.xlen (s.xbits r1) (s.xbits r2)).toNat = n →
      SetsX (regReg 2 f q r1 r2 s) s 2 q n := regReg_meets (by decide)
  have himm : ∀ {f : BinOp} {q r1 : Reg} {i : Word} {n : Nat}, (f s.xlen (s.xbits r1) (i.setWidth s.xlen)).toNat = n →
      SetsX (regImm 2 f q r1 i s) s 2 q n := regImm_meets (by decide)
  have hregW : ∀ {f : BinOp} {q r1 r2 : Reg} {v : Int}, s.cfg.xlen = .rv64 →
      f 32 (s.wbits r1) (s.wbits r2) = .ofInt 32 v → SetsX (regRegW 2 f q r1 r2 s) s 2 q (wordOf v) :=
    fun hx => regRegW_meets hx (by decide)
  have himmW : ∀ {f : BinOp} {q r1 : Reg} {i : Word} {v : Int}, s.cfg.xlen = .rv64 →
      f 32 (s.wbits r1) (i.setWidth 32) = .ofInt 32 v → SetsX (regImmW 2 f q r1 i s) s 2 q (wordOf v) :=
    fun hx => regImmW_meets hx (by decide)
  have hx := s.xbits_toNat
  have hz : s.ux 0 = 0 := rfl
  have hxlen : 10 ≤ s.xlen := by obtain h | h := s.xlen_eq <;> omega
  have hext : (cImmediate imm).setWidth s.xlen = .ofInt s.xlen imm.toInt :=
    setWidth_signExtend_eq_ofInt imm (by decide) s.xlen_le
  have hupper : (cUpperImmediate imm).toNat % 2 ^ s.xlen = modBits s.xlen (4096 * imm.toInt) := by
    rw [cUpperImmediate, ← modBits_signExtend s _ (by decide), BitVec.toInt_append_zero]
    norm_num
  have hstack : (cStackImmediate imm).setWidth s.xlen = .ofInt s.xlen (16 * imm.toInt) :=
    setWidth_scaledSigned_eq_ofInt (k := 4) imm (by decide) s.xlen_le
  refine ⟨hreg (opAdd_toNat (hx rd) (hx rs2)), ?mv,
    himm (toNat_of_eq_ofInt (opAdd_eq_ofInt (s.xbits_eq_ofInt rd) hext)), ?li, setX_meets (by decide) hupper,
    himm (toNat_of_eq_ofInt (opAdd_eq_ofInt (s.xbits_eq_ofInt 2) hstack)),
    himm (opAdd_toNat (hx 2) (setWidth_scaled_toNat (k := 2) u8 hxlen (by decide))),
    hreg (opAnd_toNat (hx _) (hx _)), hreg (opOr_toNat (hx _) (hx _)), hreg (opXor_toNat (hx _) (hx _)),
    hreg (toNat_of_eq_ofInt (opSub_eq_ofInt (s.xbits_eq_ofInt _) (s.xbits_eq_ofInt _))),
    himm (opAnd_toNat (hx _) (toNat_of_eq_ofInt hext)), fun hlt => ?shifts, fun hx64 => ?words⟩
  case mv =>
    have h := opAdd_toNat (hx 0) (hx rs2)
    rw [hz, Nat.zero_add, Nat.mod_eq_of_lt (s.ux_lt rs2)] at h
    exact hreg h
  case li =>
    have h := toNat_of_eq_ofInt (opAdd_eq_ofInt (s.xbits_eq_ofInt 0) hext)
    rw [hz, Nat.cast_zero, Int.zero_add] at h
    exact himm h
  case shifts =>
    have hk := shamt_setWidth_mod imm hlt
    exact ⟨himm (opSll_toNat (hx _) hk), himm (opSrl_toNat (hx _) hk),
      himm (toNat_of_eq_ofInt (opSra_eq_ofInt (s.xbits_toInt _) hk))⟩
  case words =>
    exact ⟨himmW hx64 (opAdd_eq_ofInt (s.wbits_eq_ofInt _) (setWidth_signExtend_eq_ofInt imm (by decide) (by decide))),
      hregW hx64 (opAdd_eq_ofInt (s.wbits_eq_ofInt _) (s.wbits_eq_ofInt _)),
      hregW hx64 (opSub_eq_ofInt (s.wbits_eq_ofInt _) (s.wbits_eq_ofInt _))⟩

/-! ### Loads and stores -/

/-- Settles O50: each form is the shared load or store at its scaled effective address, of its width. -/
theorem compressedLoadsAndStores : Obligations.CompressedLoadsAndStores := by
  intro s r cr cb u5 u6 hm
  rw [← CReg.full_eq_shortReg, ← CReg.full_eq_shortReg]
  refine ⟨?word, ?wordStack, fun hx => ?double, fun hx => ?doubleStack⟩
  case word =>
    rintro _ rfl
    have ha := s.address_scaled cb.full (k := 2) u5 (by decide)
    exact ⟨loadX_signedBytes_meets (by decide) (by decide) ha, storeX_meets hm (by decide) (by decide) ha⟩
  case wordStack =>
    rintro _ rfl
    have ha := s.address_scaled 2 (k := 2) u6 (by decide)
    exact ⟨loadX_signedBytes_meets (by decide) (by decide) ha, storeX_meets hm (by decide) (by decide) ha⟩
  case double =>
    rintro _ rfl
    have ha := s.address_scaled cb.full (k := 3) u5 (by decide)
    exact ⟨loadX_doubleword_meets hx (by decide) ha, storeX_meets hm (by decide) (by decide) ha⟩
  case doubleStack =>
    rintro _ rfl
    have ha := s.address_scaled 2 (k := 3) u6 (by decide)
    exact ⟨loadX_doubleword_meets hx (by decide) ha, storeX_meets hm (by decide) (by decide) ha⟩

/-! ### Branches and jumps -/

theorem State.readX_beq_zero_iff (s : State) (r : Reg) : (s.readX r == 0) = true ↔ s.ux r = 0 := s.readX_beq_iff r 0

theorem State.readX_bne_zero_iff (s : State) (r : Reg) : (s.readX r != 0) = true ↔ s.ux r ≠ 0 := s.readX_bne_iff r 0

/-- A register jump without an offset goes to the register with bit 0 cleared (R474, R475). -/
theorem State.registerTarget_zero_toNat (s : State) (r : Reg) : (s.registerTarget r 0).toNat = s.ux r / 2 * 2 := by
  have h := s.registerTarget_toNat r (0#12) (by decide)
  have heffective : s.effective r 0 = s.ux r := by
    rw [State.effective, Int.add_zero, modBits_natCast, Nat.mod_eq_of_lt (s.ux_lt r)]
  rw [BitVec.toInt_zero, heffective] at h
  exact h

/-- Settles O51: the branches and jumps are the shared shapes of two bytes. -/
theorem compressedControlTransfer : Obligations.CompressedControlTransfer := by
  intro s rs1 r off joff
  rw [← CReg.full_eq_shortReg]
  have hbranch : ∀ {cond : Bool} {P : Prop}, (cond = true ↔ P) →
      BranchMeets (branch 2 cond (cBranchOffset off) s) s 2 P (modBits s.xlen (s.pc.toNat + 2 * off.toInt)) :=
    fun hcond => branch_meets (by decide) hcond (s.pcPlus_evenOffset_toNat off (by decide))
  have hjump := s.pcPlus_evenOffset_toNat joff (by decide)
  have hregister := s.registerTarget_zero_toNat rs1
  exact ⟨hbranch (s.readX_beq_zero_iff _), hbranch (s.readX_bne_zero_iff _), jumpLink_pcPlus_meets (by decide) hjump,
    jumpLink_pcPlus_meets (by decide) hjump, jumpLink_registerTarget_meets (by decide) hregister,
    jumpLink_registerTarget_meets (by decide) hregister⟩

end Sys2Proof.Machine

/-! ## Canonical memories (20_memory.md R80; log entry 6) -/

namespace Sys2Proof.Machine

open Sys2Proof

/-- The first cell of a canonical memory says what its byte reads as, not as an unlisted one, and alone says it. -/
theorem Memory.read_head {a : Nat} {v : Byte} {t : List Host.Cell} (h : Memory.wf ((a, v) :: t) = true) :
    Memory.read ((a, v) :: t) a = v ∧ v ≠ unwritten ∧ Memory.read t a = unwritten := by
  obtain ⟨hv, hlt, -⟩ := (Memory.wf_cons_iff a v t).mp h
  exact ⟨if_pos rfl, hv, Memory.read_of_lt t a hlt⟩

theorem Memory.read_tail {a b : Nat} {v : Byte} {t : List Host.Cell} (h : b ≠ a) :
    Memory.read ((a, v) :: t) b = Memory.read t b := if_neg h

/-- Below its first address a memory in canonical form reads as unwritten. -/
theorem Memory.read_of_lt_head {a b : Nat} {v : Byte} {t : List Host.Cell} (h : Memory.wf ((a, v) :: t) = true)
    (hb : b < a) : Memory.read ((a, v) :: t) b = unwritten := by
  obtain ⟨-, hlt, -⟩ := (Memory.wf_cons_iff a v t).mp h
  rw [Memory.read_tail (Nat.ne_of_lt hb)]
  exact Memory.read_of_lt t b (Memory.all_lt_of_lt hb hlt)

/-- Memories that read alike start at the same address: the lower of two first addresses would read as unwritten. -/
theorem Memory.not_lt_head {a b : Nat} {v w : Byte} {t u : List Host.Cell} (hm : Memory.wf ((a, v) :: t) = true)
    (hk : Memory.wf ((b, w) :: u) = true)
    (h : ∀ x, Memory.read ((a, v) :: t) x = Memory.read ((b, w) :: u) x) : ¬a < b := by
  intro hab
  obtain ⟨hread, hv, -⟩ := Memory.read_head hm
  exact hv (hread.symm.trans ((h a).trans (Memory.read_of_lt_head hk hab)))

theorem Memory.eq_of_read_eq : ∀ m k : List Host.Cell, Memory.wf m = true → Memory.wf k = true →
    (∀ a, Memory.read m a = Memory.read k a) → m = k
  | [], [], _, _, _ => rfl
  | [], (b, w) :: u, _, hk, h => by
    obtain ⟨hread, hw, -⟩ := Memory.read_head hk
    exact absurd (hread.symm.trans (h b).symm) hw
  | (a, v) :: t, [], hm, _, h => by
    obtain ⟨hread, hv, -⟩ := Memory.read_head hm
    exact absurd (hread.symm.trans (h a)) hv
  | (a, v) :: t, (b, w) :: u, hm, hk, h => by
    obtain rfl : a = b := Nat.le_antisymm (Nat.le_of_not_lt (Memory.not_lt_head hk hm fun x => (h x).symm))
      (Nat.le_of_not_lt (Memory.not_lt_head hm hk h))
    obtain ⟨hreadm, -, htm⟩ := Memory.read_head hm
    obtain ⟨hreadk, -, htk⟩ := Memory.read_head hk
    obtain rfl : v = w := hreadm.symm.trans ((h a).trans hreadk)
    obtain ⟨-, -, hwft⟩ := (Memory.wf_cons_iff a v t).mp hm
    obtain ⟨-, -, hwfu⟩ := (Memory.wf_cons_iff a v u).mp hk
    have htail : ∀ x, Memory.read t x = Memory.read u x := by
      intro x
      by_cases hx : x = a
      · rw [hx, htm, htk]
      · rw [← Memory.read_tail (v := v) hx, h x, Memory.read_tail hx]
    rw [Memory.eq_of_read_eq t u hwft hwfu htail]

/-- Settles O4, by recursion over both lists. -/
theorem memoriesThatReadAlikeAreEqual : Obligations.MemoriesThatReadAlikeAreEqual := Memory.eq_of_read_eq

end Sys2Proof.Machine

/-! ## Interrupts (60_exceptions.md R630 to R633) -/

namespace Sys2Proof.Machine

open Sys2Proof

/-- The interrupts that exist, in the order of R633. -/
def interruptOrder : List Nat := [11, 3, 7, 9, 1, 5]

theorem highestInterrupt_eq_find (p : BitVec 12) : highestInterrupt p = interruptOrder.find? (fun i => p.getLsbD i) := rfl

/-- What stands before an interrupt in the order are those with a higher priority. -/
theorem interruptOrder_eq {n : Nat} (hn : n ∈ interruptOrder) :
    ∃ lower, interruptOrder = HigherPriority n ++ n :: lower := by
  fin_cases hn <;> exact ⟨_, rfl⟩

theorem not_mem_higherPriority {n : Nat} (hn : n ∈ interruptOrder) : n ∉ HigherPriority n := by
  fin_cases hn <;> decide

/-- The first in the order with a property is the one that has it where none of higher priority does. -/
theorem interruptOrder_find_iff (q : Nat → Bool) (n : Nat) : interruptOrder.find? q = some n ↔
    n ∈ interruptOrder ∧ q n = true ∧ ∀ j ∈ HigherPriority n, ¬q j = true := by
  constructor
  · intro h
    have hn := List.mem_of_find?_eq_some h
    obtain ⟨lower, hlower⟩ := interruptOrder_eq hn
    refine ⟨hn, List.find?_some h, List.find?_eq_none.mp ?_⟩
    rw [hlower, List.find?_append] at h
    cases hhigher : (HigherPriority n).find? q with
    | none => rfl
    | some m =>
      rw [hhigher, Option.some_or, Option.some_inj] at h
      have hmem := List.mem_of_find?_eq_some hhigher
      rw [h] at hmem
      exact absurd hmem (not_mem_higherPriority hn)
  · rintro ⟨hn, hq, hhigher⟩
    obtain ⟨lower, hlower⟩ := interruptOrder_eq hn
    rw [hlower, List.find?_append, List.find?_eq_none.mpr hhigher, Option.none_or, List.find?_cons_of_pos hq]

section

variable {g : Bool} {p : BitVec 12} {ready : Nat → Prop} (hready : ∀ i, ready i ↔ g = true ∧ p.getLsbD i = true)
  (hexists : ∀ i, ready i → i ∈ interruptOrder)
include hready hexists

/-- Where a mode's interrupts are enabled by g and its candidates are the bits of p, the one found is the ready one with
no other ready above it. -/
theorem highestInterrupt_iff (n : Nat) : (if g then highestInterrupt p else none) = some n ↔
    ready n ∧ ∀ j ∈ HigherPriority n, ¬ready j := by
  cases g
  · simp [hready]
  · simp only [true_and] at hready
    rw [if_pos rfl, highestInterrupt_eq_find, interruptOrder_find_iff]
    simp only [← hready]
    exact ⟨fun h => h.2, fun h => ⟨hexists n h.1, h⟩⟩

theorem highestInterrupt_eq_none_iff : (if g then highestInterrupt p else none) = none ↔ ∀ j, ¬ready j := by
  cases g
  · simp [hready]
  · simp only [true_and] at hready
    rw [if_pos rfl, highestInterrupt_eq_find, List.find?_eq_none]
    simp only [← hready]
    exact ⟨fun h j hj => h j (hexists j hj) hj, fun h j _ => h j⟩

end

theorem State.mem_interruptOrder_of_pending {s : State} {i : Nat} (h : s.mip.getLsbD i = true) : i ∈ interruptOrder := by
  rw [State.getLsbD_mip, State.pending] at h
  simp only [interruptOrder, List.mem_cons, List.not_mem_nil, or_false]
  omega

/-- The candidates: interrupts pending and individually enabled, delegated or not (R630). -/
def State.candidates (s : State) (delegated : Bool) : BitVec 12 :=
  s.mip &&& s.mie &&& interruptBits s.cfg &&& (if delegated then s.delegatedInterrupts else ~~~s.delegatedInterrupts)

theorem State.getLsbD_delegatedInterrupts (s : State) {i : Nat} (hi : i < 12) :
    s.delegatedInterrupts.getLsbD i = true ↔ s.cfg.privS = true ∧ s.mideleg.getLsbD i = true := by
  unfold State.delegatedInterrupts
  cases s.cfg.privS <;> simp [hi]

/-- An interrupt that is pending exists. -/
theorem State.getLsbD_candidates (s : State) (delegated : Bool) (i : Nat) : (s.candidates delegated).getLsbD i = true ↔
    s.mip.getLsbD i = true ∧ s.mie.getLsbD i = true ∧
      (delegated = true ↔ s.cfg.privS = true ∧ s.mideleg.getLsbD i = true) := by
  unfold State.candidates
  by_cases hi : i < 12
  · have hexists : s.mip.getLsbD i = true → (interruptBits s.cfg).getLsbD i = true := by
      unfold State.mip
      rw [BitVec.getLsbD_and, Bool.and_eq_true]
      exact And.right
    rw [← s.getLsbD_delegatedInterrupts hi]
    cases delegated <;> simp [hi] <;> tauto
  · simp [BitVec.getLsbD_of_ge _ i (Nat.le_of_not_lt hi)]

theorem State.interrupt_of_machine {s : State} (h : s.cfg.trapModel = .machine) : s.interrupt =
    (if s.priv != .machine || s.mstatus.mie then highestInterrupt (s.candidates false) else none).or
      (if s.priv == .user || (s.priv == .supervisor && s.mstatus.sie) then highestInterrupt (s.candidates true)
        else none) := by
  have hM : s.candidates false = s.mip &&& s.mie &&& interruptBits s.cfg &&& ~~~s.delegatedInterrupts := rfl
  have hS : s.candidates true = s.mip &&& s.mie &&& interruptBits s.cfg &&& s.delegatedInterrupts := rfl
  unfold State.interrupt
  rw [h, hM, hS]
  dsimp only
  split
  · next i hi => rw [hi, Option.some_or]
  · next hi => rw [hi, Option.none_or]

theorem State.interrupt_of_environment {s : State} (h : s.cfg.trapModel = .environment) : s.interrupt = none := by
  rw [State.interrupt, h]

theorem readyForM_iff (s : State) (i : Nat) : ReadyForM s i ↔
    (s.priv != .machine || s.mstatus.mie) = true ∧ (s.candidates false).getLsbD i = true := by
  rw [ReadyForM, s.getLsbD_candidates, Bool.or_eq_true, bne_iff_ne]
  simp
  tauto

theorem readyForS_iff (s : State) (i : Nat) : ReadyForS s i ↔
    (s.priv == .user || (s.priv == .supervisor && s.mstatus.sie)) = true ∧ (s.candidates true).getLsbD i = true := by
  rw [ReadyForS, s.getLsbD_candidates, Bool.or_eq_true, Bool.and_eq_true, beq_iff_eq, beq_iff_eq]
  simp
  tauto

/-- Settles O13: the search in the order of R633, first among the candidates of machine mode. -/
theorem interruptTakenHasHighestPriority : Obligations.InterruptTakenHasHighestPriority := by
  intro s n
  cases hm : s.cfg.trapModel with
  | environment => simp [State.interrupt_of_environment hm]
  | machine =>
    have hM := highestInterrupt_iff (readyForM_iff s) fun i h => State.mem_interruptOrder_of_pending h.1
    have hS := highestInterrupt_iff (readyForS_iff s) fun i h => State.mem_interruptOrder_of_pending h.1
    have hnone := highestInterrupt_eq_none_iff (readyForM_iff s) fun i h => State.mem_interruptOrder_of_pending h.1
    rw [State.interrupt_of_machine hm, Option.or_eq_some_iff, hM, hnone, hS]
    tauto

end Sys2Proof.Machine

/-! ## Trap entry and return (60_exceptions.md R600, R610 to R613) -/

namespace Sys2Proof.Machine

open Sys2Proof

/-! ### Where a trap goes -/

theorem State.trapsToS_iff (s : State) (c : Cause) :
    s.trapsToS c = true ↔ s.cfg.privS = true ∧ s.priv ≠ .machine ∧ s.delegates c = true := by
  rw [State.trapsToS, Bool.and_eq_true, Bool.and_eq_true, bne_iff_ne, and_assoc]

theorem State.takeTrap_eq_enterS {s : State} {c : Cause} (h : s.trapsToS c = true) (info : Word) :
    s.takeTrap c info = s.enterS c info := if_pos h

theorem State.takeTrap_eq_enterM {s : State} {c : Cause} (h : ¬s.trapsToS c = true) (info : Word) :
    s.takeTrap c info = s.enterM c info := if_neg h

theorem Cause.value_exc_toNat (xl : Xlen) (e : Exc) : (Cause.value xl (.exc e)).toNat = e.code := by
  cases e <;> rfl

theorem Cause.value_irq_toNat (xl : Xlen) (n : Nat) :
    (Cause.value xl (.irq n)).toNat = (2 ^ (xl.bits - 1) + n) % 2 ^ 64 := BitVec.toNat_ofNat ..

theorem trapTarget_exc_toNat (xl : Xlen) (tvec : Word) (e : Exc) :
    (xl.wrap (trapTarget tvec (.exc e))).toNat = tvec.toNat / 4 * 4 % 2 ^ xl.bits := by
  rw [Xlen.wrap_toNat, trapTarget, toNat_clearTwo]

/-- MODE is the two low bits of the vector, 1 where interrupts are vectored (10_state.md R51). -/
theorem vectored_iff (tvec : Word) : tvec.extractLsb' 0 2 = 1#2 ↔ tvec.toNat % 4 = 1 := by
  rw [← BitVec.toNat_inj, toNat_extract_low]
  rfl

theorem trapTarget_irq_toNat (xl : Xlen) (tvec : Word) (n : Nat) : (xl.wrap (trapTarget tvec (.irq n))).toNat =
    (tvec.toNat / 4 * 4 + if tvec.toNat % 4 = 1 then 4 * n else 0) % 2 ^ xl.bits := by
  unfold trapTarget
  simp only [vectored_iff]
  split
  · have hn : (BitVec.ofNat 64 (4 * n)).toNat % 2 ^ xl.bits = 4 * n % 2 ^ xl.bits := by
      rw [BitVec.toNat_ofNat, Nat.mod_mod_of_dvd _ (pow_dvd_pow 2 (Xlen.bits_le xl))]
    rw [Xlen.wrap_add, toNat_clearTwo, Nat.add_mod, hn, ← Nat.add_mod]
  · rw [Xlen.wrap_toNat, toNat_clearTwo, Nat.add_zero]

/-- The info of an interrupt is zero (R610 (3)). -/
theorem Xlen.wrap_zero_toNat (xl : Xlen) : (xl.wrap 0).toNat = 0 := by cases xl <;> rfl

/-! ### Trap entry -/

/-- Settles O14: a trap that is not delegated is `enterM`, whose fields are read as numbers. -/
theorem trapEntryToMachineMode : Obligations.TrapEntryToMachineMode := by
  intro s c info hinfo hnot
  cases c with
  | exc e =>
    have hentry := State.takeTrap_eq_enterM (fun h => hnot ((s.trapsToS_iff (.exc e)).mp h)) info
    exact ⟨_, hentry, maskEpc_toNat s s.pc, Cause.value_exc_toNat s.cfg.xlen e, Xlen.wrap_toNat _ info, rfl, rfl, rfl,
      trapTarget_exc_toNat _ _ e, rfl⟩
  | irq n =>
    obtain rfl := hinfo n rfl
    have hentry := State.takeTrap_eq_enterM (fun h => hnot ((s.trapsToS_iff (.irq n)).mp h)) 0
    exact ⟨_, hentry, maskEpc_toNat s s.pc, Cause.value_irq_toNat _ n, Xlen.wrap_zero_toNat _, rfl, rfl, rfl,
      trapTarget_irq_toNat _ _ n, rfl⟩

theorem State.takeTrap_of_machine {s : State} (h : s.priv = .machine) (c : Cause) (info : Word) :
    s.takeTrap c info = s.enterM c info :=
  State.takeTrap_eq_enterM (fun hS => ((s.trapsToS_iff c).mp hS).2.1 h) info

theorem Priv.beq_eq_decide (p q : Priv) : (p == q) = decide (p = q) := by cases p <;> cases q <;> rfl

/-- `enterS` with SPP as the statement writes it. -/
theorem State.enterS_mstatus (s : State) (c : Cause) (info : Word) : (s.enterS c info).mstatus =
    { s.mstatus with spie := s.mstatus.sie, sie := false, spp := decide (s.priv = .supervisor) } := by
  rw [← Priv.beq_eq_decide]
  rfl

/-- Settles O15: a delegated trap is `enterS`; in machine mode no trap is delegated. -/
theorem trapEntryToSupervisorMode : Obligations.TrapEntryToSupervisorMode := by
  intro s c info hinfo
  refine ⟨fun hm => ?machine, fun hS hp hdel => ?delegated⟩
  case machine =>
    rw [State.takeTrap_of_machine hm]
    exact ⟨rfl, rfl, rfl, rfl⟩
  case delegated =>
    cases c with
    | exc e =>
      have hentry := State.takeTrap_eq_enterS ((s.trapsToS_iff (.exc e)).mpr ⟨hS, hp, hdel⟩) info
      exact ⟨_, hentry, maskEpc_toNat s s.pc, Cause.value_exc_toNat s.cfg.xlen e, Xlen.wrap_toNat _ info,
        s.enterS_mstatus _ _, rfl, rfl, trapTarget_exc_toNat _ _ e, rfl⟩
    | irq n =>
      obtain rfl := hinfo n rfl
      have hentry := State.takeTrap_eq_enterS ((s.trapsToS_iff (.irq n)).mpr ⟨hS, hp, hdel⟩) 0
      exact ⟨_, hentry, maskEpc_toNat s s.pc, Cause.value_irq_toNat _ n, Xlen.wrap_zero_toNat _,
        s.enterS_mstatus _ _, rfl, rfl, trapTarget_irq_toNat _ _ n, rfl⟩

theorem raise_of_environment {s : State} (h : s.cfg.trapModel = .environment) (e : Exc) (info : Word) :
    raise e info s = .fault (.trapped e info s.pc) := by
  rw [raise, h]

theorem State.environmentCall_of_environment {s : State} (h : s.cfg.trapModel = .environment) :
    s.environmentCall = .environmentCallFromU := by
  rw [State.environmentCall, h]

/-- Settles O16: both trap models, and `ecall` raises the call of its mode. -/
theorem raiseEntersTrapOrHandsOver : Obligations.RaiseEntersTrapOrHandsOver := by
  intro s e info
  refine ⟨fun h => raise_of_machine h e info, fun h => ⟨raise_of_environment h e info,
    State.interrupt_of_environment h, ?call⟩⟩
  case call =>
    change raise s.environmentCall 0 s = _
    rw [State.environmentCall_of_environment h, raise_of_environment h]

/-! ### Entry and return -/

/-- An exception program counter keeps an aligned XLEN-bit pc (10_state.md R49, R50). -/
theorem maskEpc_pc {s : State} (h : Inv s) : maskEpc s.cfg s.pc = s.pc := by
  have hfits : s.pc.toNat % 2 ^ s.xlen = s.pc.toNat := by rw [State.xlen, ← Xlen.wrap_toNat, h.pcFits]
  have haligned := (targetAligned_iff s s.pc).mp h.pcAligned
  apply BitVec.eq_of_toNat_eq
  rw [maskEpc_toNat, hfits, Nat.div_mul_cancel (Nat.dvd_of_mod_eq_zero haligned)]

/-- What trap entry saved is saved as it reads. -/
theorem maskEpc_maskEpc_pc {s : State} (h : Inv s) : maskEpc s.cfg (maskEpc s.cfg s.pc) = s.pc := by
  rw [maskEpc_pc h, maskEpc_pc h]

/-- Trap entry ends in machine mode, where `mret` is legal. -/
theorem exec_mret_enterM {s : State} (h : s.cfg.trapModel = .machine) (c : Cause) (info : Word) :
    exec .mret (s.enterM c info) = .next (s.enterM c info).returnM.retire :=
  if_pos ((s.enterM c info).mretLegal_iff.mpr ⟨h, rfl⟩)

/-- A delegated trap ends in supervisor mode, where `sret` is legal. -/
theorem exec_sret_enterS {s : State} (h : s.cfg.trapModel = .machine) (hS : s.cfg.privS = true) (c : Cause)
    (info : Word) : exec .sret (s.enterS c info) = .next (s.enterS c info).returnS.retire :=
  if_pos ((s.enterS c info).supervisorLegal_iff.mpr ⟨h, hS, Priv.noConfusion⟩)

/-- SPP remembers which of the two lower modes was left (R611). -/
theorem returnS_enterS_priv {s : State} (h : s.priv ≠ .machine) (c : Cause) (info : Word) :
    (s.enterS c info).returnS.priv = s.priv := by
  change (if s.priv == .supervisor then Priv.supervisor else .user) = s.priv
  cases hp : s.priv with
  | machine => exact absurd hp h
  | supervisor => rfl
  | user => rfl

/-- Settles O17: the return takes back from the saved registers what the entry put there. -/
theorem trapThenReturnRestores : Obligations.TrapThenReturnRestores := by
  intro s c info hinv hm
  refine ⟨fun hM => ?machine, fun hS => ?supervisor⟩
  case machine =>
    rw [State.takeTrap_eq_enterM (Bool.eq_false_iff.mp hM)]
    exact ⟨_, exec_mret_enterM hm c info, maskEpc_maskEpc_pc hinv, rfl, rfl, rfl, rfl, rfl, fun _ => rfl⟩
  case supervisor =>
    obtain ⟨hprivS, hpriv, -⟩ := (s.trapsToS_iff c).mp hS
    rw [State.takeTrap_eq_enterS hS]
    exact ⟨_, exec_sret_enterS hm hprivS c info, maskEpc_maskEpc_pc hinv, returnS_enterS_priv hpriv c info, rfl, rfl,
      rfl, rfl, fun _ => rfl⟩

end Sys2Proof.Machine

/-! ## Reset (70_reset_and_hazards.md R700 to R702) -/

namespace Sys2Proof.Machine

open Sys2Proof

theorem Config.cut_eq_wrap (c : Config) (v : Word) : Config.cut c v = c.xlen.wrap v := rfl

/-- An XLEN-bit parameter is used as it is. -/
theorem Config.cut_of_fits {c : Config} {v : Word} (h : c.xlenFits v = true) : Config.cut c v = v := by
  rw [Config.cut_eq_wrap]
  refine Xlen.wrap_of_lt _ _ ?_
  unfold Config.xlenFits at h
  cases hx : c.xlen with
  | rv32 => simpa [hx, Xlen.bits] using h
  | rv64 => exact v.isLt

/-- What R8 and R702 ask of the reset vector and of a fixed initial `mtvec`. -/
theorem Config.reset_parameters {c : Config} (h : Config.wf c = true) :
    c.resetVector.toNat % 4 = 0 ∧ c.xlenFits c.resetVector = true ∧
    ∀ v, c.mtvecReset = some v → c.xlenFits v = true := by
  unfold Config.wf at h
  simp only [Bool.and_eq_true, beq_iff_eq] at h
  obtain ⟨⟨⟨-, haligned⟩, hfits⟩, hmtvec⟩ := h
  refine ⟨haligned, hfits, fun v hv => ?_⟩
  rw [hv, Option.all_some, Bool.and_eq_true] at hmtvec
  exact hmtvec.2

/-- The state after a reset of a machine that keeps memory and what belongs to the platform and the model. -/
def State.resetKeeping (c : Config) (mem : List Host.Cell) (lines : Lines) (inputs : List Lines) (ioLog : List IoEvent)
    (draws : Nat) : State :=
  { State.resetWith c with mem := mem, lines := lines, inputs := inputs, ioLog := ioLog, draws := draws }

/-- In machine mode with MIE clear no interrupt is taken (R632). -/
theorem State.interrupt_of_disabled {s : State} (hp : s.priv = .machine) (hmie : s.mstatus.mie = false) :
    s.interrupt = none := by
  cases hm : s.cfg.trapModel with
  | environment => exact State.interrupt_of_environment hm
  | machine =>
    rw [State.interrupt_of_machine hm, hp, hmie]
    rfl

section

variable {c : Config} (h : Config.wf c = true) (mem : List Host.Cell) (lines : Lines) (inputs : List Lines)
  (ioLog : List IoEvent) (draws : Nat)
include h

theorem isReset_resetKeeping : IsReset c (State.resetKeeping c mem lines inputs ioLog draws) := by
  obtain ⟨-, hfits, hmtvec⟩ := Config.reset_parameters h
  constructor
  case atVector => exact Config.cut_of_fits hfits
  case vectorBase =>
    intro v hv
    change Config.cut c (c.mtvecReset.getD 0) = v
    rw [hv, Option.getD_some, Config.cut_of_fits (hmtvec v hv)]
  case noInterrupt => exact State.interrupt_of_disabled rfl rfl
  all_goals rfl

theorem inv_resetKeeping (hmem : Memory.wf mem = true) : Inv (State.resetKeeping c mem lines inputs ioLog draws) := by
  obtain ⟨haligned, hfits, -⟩ := Config.reset_parameters h
  have hpc : (State.resetKeeping c mem lines inputs ioLog draws).pc = c.resetVector := Config.cut_of_fits hfits
  constructor
  case config => exact h
  case memory => exact hmem
  case pcAligned =>
    rw [hpc]
    exact targetAligned_of_four haligned
  case pcFits =>
    rw [hpc]
    exact Config.cut_of_fits hfits
  case modes =>
    refine ⟨rfl, ?_⟩
    change Config.hasMode c (if c.privU then .user else .machine) = true
    split
    · next hU => exact hU
    · rfl
  case mieBits => exact BitVec.zero_and
  case medelegBit => exact BitVec.getLsbD_zero
  case midelegBits => exact BitVec.zero_and

end

/-- Settles O1: both resets leave the values of `State.resetWith`, whatever memory and the lines are. -/
theorem resetLeavesSpecifiedValues : Obligations.ResetLeavesSpecifiedValues := by
  intro c hwf
  refine ⟨isReset_resetKeeping hwf [] _ [] [] 0, ?_⟩
  rintro s rfl
  exact ⟨isReset_resetKeeping hwf s.mem s.lines s.inputs s.ioLog s.draws, fun _ => rfl, rfl⟩

/-- Settles O57: the reset values meet the invariant, and memory keeps its canonical form. -/
theorem invariantHoldsAtReset : Obligations.InvariantHoldsAtReset :=
  ⟨inv_resetKeeping (by decide) [] _ [] [] 0 rfl, fun _ hwf => inv_resetKeeping hwf [] _ [] [] 0 rfl,
    fun s h => inv_resetKeeping h.config s.mem s.lines s.inputs s.ioLog s.draws h.memory⟩

end Sys2Proof.Machine

/-! ## The expansions of the pseudoinstructions (49_pseudoinstructions.md R500 to R555) -/

namespace Sys2Proof.Machine

open Sys2Proof

/-! ### Running an expansion -/

theorem runInOrder_cons (i : Instr) (is : List Instr) (s : State) :
    runInOrder (i :: is) s = Result.thenDo (exec i s) (runInOrder is) := by
  rw [runInOrder]
  cases exec i s <;> rfl

theorem Result.thenDo_next (r : Result) : Result.thenDo r .next = r := by cases r <;> rfl

theorem runInOrder_singleton (i : Instr) (s : State) : runInOrder [i] s = exec i s := by
  rw [runInOrder_cons]
  exact Result.thenDo_next _

theorem runInOrder_pair (i j : Instr) (s : State) : runInOrder [i, j] s = Result.thenDo (exec i s) (exec j) := by
  rw [runInOrder_cons]
  exact congrArg (Result.thenDo (exec i s)) (funext (runInOrder_singleton j))

theorem execLiOp_eq_exec (rd : Reg) (op : LiOp) : execLiOp rd op = exec (op.instr rd) := by cases op <;> rfl

theorem runLi_eq_runInOrder (rd : Reg) : ∀ ops : List LiOp, runLi rd ops = runInOrder (ops.map (LiOp.instr rd))
  | [] => rfl
  | op :: ops => by
    funext s
    rw [List.map_cons, runInOrder_cons, runLi, execLiOp_eq_exec, runLi_eq_runInOrder rd ops]

/-- What goes on after an instruction that keeps the configuration may look at that of the state before it. -/
theorem thenDo_setX_congr {len : Nat} {rd : Reg} {v : Word} {s : State} {k l : State → Result}
    (h : ∀ t : State, t.cfg = s.cfg → k t = l t) :
    Result.thenDo (setX len rd v s) k = Result.thenDo (setX len rd v s) l :=
  h _ (s.writeX_cfg rd v)

/-- The second instruction of `la` is chosen by XLEN, which `auipc` leaves alone (R535). -/
theorem exec_la (rd : Reg) (pic : Bool) (delta : BitVec 32) (s : State) :
    exec (.la rd pic delta) s = runInOrder (expand s.cfg.xlen (.la rd pic delta)) s := by
  have hsecond : exec (.la rd pic delta) s =
      Result.thenDo (exec (.auipc rd (offsetHi delta)) s) (loadAddressEnd rd pic (offsetLo delta)) := rfl
  have hexpand : expand s.cfg.xlen (.la rd pic delta) = [.auipc rd (offsetHi delta),
      if pic then (if s.cfg.xlen = .rv64 then .ld rd rd (offsetLo delta) else .lw rd rd (offsetLo delta))
      else .addi rd rd (offsetLo delta)] := by
    cases pic <;> cases s.cfg.xlen <;> rfl
  rw [hsecond, hexpand, runInOrder_pair]
  refine thenDo_setX_congr fun t ht => ?_
  unfold loadAddressEnd
  rw [ht]
  cases pic
  · rfl
  · cases s.cfg.xlen <;> rfl

theorem exec_eq_runInOrder (s : State) (i : Instr) (hp : i.isPseudo = true) :
    exec i s = runInOrder (expand s.cfg.xlen i) s := by
  cases i
  case la => exact exec_la _ _ _ s
  case li rd imm => exact congrFun (runLi_eq_runInOrder rd (liOps s.cfg.xlen imm)) s
  case call rd delta => exact (runInOrder_pair (.auipc rd (offsetHi delta)) (.jalr rd rd (offsetLo delta)) s).symm
  case tail delta => exact (runInOrder_pair (.auipc 6 (offsetHi delta)) (.jalr 0 6 (offsetLo delta)) s).symm
  case lla rd delta => exact (runInOrder_pair (.auipc rd (offsetHi delta)) (.addi rd rd (offsetLo delta)) s).symm
  case beqz | bgez | bgt | bgtu | bgtz | ble | bleu | blez | bltz | bnez | csrr | csrc | csrci | csrs | csrsi | csrw | csrwi
      | fabsD | fabsS | fmvD | fmvS | fnegD | fnegS | frcsr | frflags | frrm | fscsr | fsflags | fsrm | j | jr | mv | neg
      | negw | nop | not | rdcycle | rdcycleh | rdinstret | rdinstreth | rdtime | rdtimeh | ret | seqz | sextW | sgtz | sltz
      | snez =>
    exact (runInOrder_singleton _ s).symm
  all_goals exact Bool.noConfusion hp

/-- A pseudoinstruction that stands for one instruction does what that does. -/
theorem exec_eq_of_expand {s : State} {i j : Instr} (hp : i.isPseudo = true) (h : expand s.cfg.xlen i = [j]) :
    exec i s = exec j s := by
  rw [exec_eq_runInOrder s i hp, h, runInOrder_singleton]

/-! ### The expansion of `li` -/

/-- What follows the `lui` of a 32-bit immediate whose low part is `lo`. -/
def liAddLow (lo : Int) : Xlen → List LiOp
  | .rv32 => if lo = 0 then [] else [.addi (BitVec.ofInt 12 lo)]
  | .rv64 => if lo = 0 then [] else [.addiw (BitVec.ofInt 12 lo)]

theorem liExpand_of_small {v : Int} (h : -2048 ≤ v ∧ v ≤ 2047) (xl : Xlen) (n : Nat) :
    liExpand xl (n + 1) v = [.load (BitVec.ofInt 12 v)] := if_pos h

theorem liExpand_of_word {v : Int} (h : ¬(-2048 ≤ v ∧ v ≤ 2047)) (hword : -2 ^ 31 ≤ v ∧ v < 2 ^ 31) (xl : Xlen) (n : Nat) :
    liExpand xl (n + 1) v = .lui (BitVec.ofInt 20 ((v - liLo v) / 4096)) :: liAddLow (liLo v) xl := by
  have hcase := (if_neg h).trans (if_pos hword) (a := liExpand xl (n + 1) v)
  cases xl <;> exact hcase

theorem liExpand_of_large {v : Int} (h : ¬(-2048 ≤ v ∧ v ≤ 2047)) (hlarge : ¬(-2 ^ 31 ≤ v ∧ v < 2 ^ 31)) (xl : Xlen)
    (n : Nat) :
    liExpand xl (n + 1) v = liExpand xl n (liHalve 52 ((v - liLo v) / 4096) 12).1 ++
      [.slli (BitVec.ofNat 6 (liHalve 52 ((v - liLo v) / 4096) 12).2)] ++
      (if liLo v = 0 then [] else [.addi (BitVec.ofInt 12 (liLo v))]) :=
  (if_neg h).trans (if_neg hlarge)

/-- The instruction of an expansion of `li` exists for the XLEN. -/
def LiOpExists (xl : Xlen) : LiOp → Prop
  | .addiw _ | .slli _ => xl = .rv64
  | .load _ | .lui _ | .addi _ => True

theorem liAddLow_exists (lo : Int) (xl : Xlen) : ∀ op ∈ liAddLow lo xl, LiOpExists xl op := by
  cases xl <;> (rw [liAddLow]; split <;> simp [LiOpExists])

/-- On RV32 the immediate is a 32-bit number, so no shift is needed, and `addi` stands where RV64 has `addiw`. -/
theorem liExpand_exists (xl : Xlen) : ∀ (n : Nat) (v : Int), (xl = .rv32 → -2 ^ 31 ≤ v ∧ v < 2 ^ 31) →
    ∀ op ∈ liExpand xl n v, LiOpExists xl op
  | 0, _, _ => nofun
  | n + 1, v, hv => by
    by_cases hsmall : -2048 ≤ v ∧ v ≤ 2047
    · rw [liExpand_of_small hsmall]
      exact List.forall_mem_singleton.mpr trivial
    by_cases hword : -2 ^ 31 ≤ v ∧ v < 2 ^ 31
    · rw [liExpand_of_word hsmall hword]
      exact List.forall_mem_cons.mpr ⟨trivial, liAddLow_exists _ xl⟩
    · have hx : xl = .rv64 := by
        cases xl
        · exact absurd (hv rfl) hword
        · rfl
      subst hx
      rw [liExpand_of_large hsmall hword]
      have hlast : ∀ op ∈ (if liLo v = 0 then [] else [.addi (BitVec.ofInt 12 (liLo v))]), LiOpExists .rv64 op := by
        split <;> simp [LiOpExists]
      exact List.forall_mem_append.mpr ⟨List.forall_mem_append.mpr
        ⟨liExpand_exists .rv64 n _ nofun, List.forall_mem_singleton.mpr rfl⟩, hlast⟩

theorem liOps_exists (xl : Xlen) (imm : Word) : ∀ op ∈ liOps xl imm, LiOpExists xl op := by
  cases xl
  · refine liExpand_exists .rv32 5 _ fun _ => ?_
    have h := BitVec.toInt_lt (x := imm.setWidth 32)
    have h' := BitVec.le_toInt (imm.setWidth 32)
    omega
  · exact liExpand_exists .rv64 5 _ nofun

/-! ### The parcels of an expansion -/

/-- A machine instruction of this configuration. -/
def IsMachineInstr (c : Config) (i : Instr) : Prop := i.isPseudo = false ∧ i.wf = true ∧ i.available c = true

theorem LiOpExists.isMachineInstr {c : Config} {op : LiOp} (h : LiOpExists c.xlen op) (rd : Reg) :
    IsMachineInstr c (op.instr rd) := by
  cases op
  case load | lui | addi => exact ⟨rfl, rfl, rfl⟩
  case addiw imm => exact ⟨rfl, rfl, beq_iff_eq.mpr h⟩
  case slli shamt => exact ⟨rfl, rfl, Bool.or_eq_true_iff.mpr (.inl (beq_iff_eq.mpr h))⟩

/-- The second instruction of `la` exists for the XLEN that chooses it. -/
theorem isMachineInstr_la (c : Config) (rd : Reg) (pic : Bool) (delta : BitVec 32) :
    ∀ j ∈ expand c.xlen (.la rd pic delta), IsMachineInstr c j := by
  intro j hj
  obtain rfl | hj := List.mem_cons.mp (show j ∈ .auipc rd (offsetHi delta) :: _ from hj)
  · exact ⟨rfl, rfl, rfl⟩
  · obtain rfl := List.mem_singleton.mp hj
    cases pic
    · exact ⟨rfl, rfl, rfl⟩
    · cases hx : c.xlen
      · exact ⟨rfl, rfl, rfl⟩
      · exact ⟨rfl, rfl, beq_iff_eq.mpr hx⟩

theorem isMachineInstr_of_expand {c : Config} {i : Instr} (hp : i.isPseudo = true) (hav : i.available c = true) :
    ∀ j ∈ expand c.xlen i, IsMachineInstr c j := by
  cases i
  case la => exact isMachineInstr_la c _ _ _
  case li rd imm =>
    intro j hj
    obtain ⟨op, hop, rfl⟩ := List.mem_map.mp hj
    exact (liOps_exists c.xlen imm op hop).isMachineInstr rd
  case call | lla | tail =>
    exact List.forall_mem_cons.mpr ⟨⟨rfl, rfl, rfl⟩, List.forall_mem_singleton.mpr ⟨rfl, rfl, rfl⟩⟩
  case fabsD | fabsS | fmvD | fmvS | fnegD | fnegS | negw | sextW =>
    exact List.forall_mem_singleton.mpr ⟨rfl, rfl, hav⟩
  case beqz | bgez | bgt | bgtu | bgtz | ble | bleu | blez | bltz | bnez | csrr | csrc | csrci | csrs | csrsi | csrw | csrwi
      | frcsr | frflags | frrm | fscsr | fsflags | fsrm | j | jr | mv | neg | nop | not | rdcycle | rdcycleh | rdinstret
      | rdinstreth | rdtime | rdtimeh | ret | seqz | sgtz | sltz | snez =>
    exact List.forall_mem_singleton.mpr ⟨rfl, rfl, rfl⟩
  all_goals exact Bool.noConfusion hp

theorem decode_expansion {c : Config} {i : Instr} (hp : i.isPseudo = true) (hav : i.available c = true) :
    (encode c.xlen i).map (decode c) = (expand c.xlen i).map some := by
  rw [encode, List.map_map]
  refine List.map_congr_left fun j hj => ?_
  obtain ⟨hmachine, hwf, havail⟩ := isMachineInstr_of_expand hp hav j hj
  exact decode_of_encodeOne_eq rfl hmachine hwf havail

/-- Settles O9: each instruction of an expansion is a machine instruction of the configuration, so the round trips give it
back; the rest is the definitions of `expand` and of exec's arms. -/
theorem pseudoinstructionsDecodeToExpansion : Obligations.PseudoinstructionsDecodeToExpansion := by
  refine ⟨fun _ _ => decode_expansion, exec_eq_runInOrder, ?expansions⟩
  case expansions =>
    rintro rd r r' off joff csr zimm delta _ _ xl rfl rfl
    exact ⟨List.map_inj_left.mp rfl, rfl, rfl, rfl, rfl, rfl, rfl⟩

end Sys2Proof.Machine
/-! ## Computational pseudoinstructions (49_pseudoinstructions.md R521 to R526, R538 to R542, R550 to R554) -/

namespace Sys2Proof.Machine

open Sys2Proof

/-! ### The expansions, as the statements about machine instructions give them -/

theorem addi_meets (s : State) (rd rs1 : Reg) (imm : BitVec 12) :
    SetsX (execAddi rd rs1 imm s) s 4 rd (modBits s.xlen (s.ux rs1 + imm.toInt)) := by
  obtain ⟨-, -, haddi, -⟩ := integerImmediateResults s rd rs1 imm 0 0
  exact haddi

theorem slli_meets (s : State) (rd rs1 : Reg) {shamt : BitVec 6} (h : shamt.toNat < s.xlen) :
    SetsX (execSlli rd rs1 shamt s) s 4 rd (s.ux rs1 * 2 ^ shamt.toNat % 2 ^ s.xlen) := by
  obtain ⟨-, -, -, -, -, -, -, -, hshift⟩ := integerImmediateResults s rd rs1 0 shamt 0
  obtain ⟨hslli, -⟩ := hshift h
  exact hslli

theorem addiw_meets {s : State} (hx : s.cfg.xlen = .rv64) (rd rs1 : Reg) (imm : BitVec 12) :
    SetsX (execAddiw rd rs1 imm s) s 4 rd (wordOf (s.ux rs1 + imm.toInt)) := by
  obtain ⟨-, -, haddiw, -⟩ := integerWordResults s rd rs1 0 imm 0 hx
  exact haddiw

theorem State.ux_zero (s : State) : s.ux 0 = 0 := rfl

theorem State.sx_zero (s : State) : s.sx 0 = 0 := by
  rw [State.sx, State.ux_zero, signedOf, if_pos (by positivity)]
  rfl

theorem modBits_ux (s : State) (r : Reg) : modBits s.xlen (s.ux r : Int) = s.ux r := by
  rw [modBits_natCast, Nat.mod_eq_of_lt (s.ux_lt r)]

/-- All ones, for every width. -/
theorem modBits_neg_one (n : Nat) : modBits n (-1) = 2 ^ n - 1 := by
  rw [← toNat_ofInt_eq, BitVec.ofInt_neg, BitVec.ofInt_ofNat, BitVec.neg_one_eq_allOnes, BitVec.toNat_allOnes]

theorem xor_allOnes {n v : Nat} (h : v < 2 ^ n) : v ^^^ (2 ^ n - 1) = 2 ^ n - 1 - v := by
  have hbits : v = (BitVec.ofNat n v).toNat := by rw [BitVec.toNat_ofNat, Nat.mod_eq_of_lt h]
  rw [hbits, ← BitVec.toNat_allOnes, ← BitVec.toNat_xor, BitVec.xor_allOnes, BitVec.toNat_not, BitVec.toNat_allOnes]

theorem modBits_one (s : State) : modBits s.xlen 1 = 1 := by
  have h : 1 < 2 ^ s.xlen := Nat.one_lt_two_pow (by obtain h | h := s.xlen_eq <;> omega)
  exact (modBits_natCast s.xlen 1).trans (Nat.mod_eq_of_lt h)

theorem integerPseudos_meet (s : State) (rd rs : Reg) :
    SetsX (exec .nop s) s 4 0 0 ∧
    SetsX (exec (.mv rd rs) s) s 4 rd (s.ux rs) ∧
    SetsX (exec (.not rd rs) s) s 4 rd (2 ^ s.xlen - 1 - s.ux rs) ∧
    SetsX (exec (.neg rd rs) s) s 4 rd (modBits s.xlen (-(s.ux rs : Int))) ∧
    SetsX (exec (.seqz rd rs) s) s 4 rd (if s.ux rs = 0 then 1 else 0) ∧
    SetsX (exec (.snez rd rs) s) s 4 rd (if s.ux rs ≠ 0 then 1 else 0) ∧
    SetsX (exec (.sltz rd rs) s) s 4 rd (if s.sx rs < 0 then 1 else 0) ∧
    SetsX (exec (.sgtz rd rs) s) s 4 rd (if 0 < s.sx rs then 1 else 0) := by
  obtain ⟨-, -, -, -, -, hxori, -, -, -⟩ := integerImmediateResults s rd rs 0xFFF#12 0 0
  obtain ⟨-, -, -, -, -, -, -, hsltiu, -⟩ := integerImmediateResults s rd rs 1#12 0 0
  obtain ⟨-, hsub, -, -, -, -, -, -, hsgtz, hsnez⟩ := integerRegisterResults s rd 0 rs
  obtain ⟨-, -, -, -, -, -, -, -, hsltz, -⟩ := integerRegisterResults s rd rs 0
  refine ⟨Arrives.zero (addi_meets s 0 0 0), ?mv, ?not, ?neg, ?seqz, ?snez, ?sltz, ?sgtz⟩
  case mv =>
    have h := addi_meets s rd rs 0#12
    rwa [BitVec.toInt_zero, Int.add_zero, modBits_ux] at h
  case not =>
    have hfield : (0xFFF#12).toInt = -1 := by decide
    rwa [hfield, modBits_neg_one, xor_allOnes (s.ux_lt rs)] at hxori
  case neg => rwa [State.ux_zero, Nat.cast_zero, Int.zero_sub] at hsub
  case seqz =>
    have hfield : (1#12).toInt = 1 := by decide
    rw [hfield, modBits_one] at hsltiu
    simp only [Nat.lt_one_iff] at hsltiu
    exact hsltiu
  case snez =>
    simp only [State.ux_zero, Nat.pos_iff_ne_zero] at hsnez
    exact hsnez
  case sltz => rwa [State.sx_zero] at hsltz
  case sgtz => rwa [State.sx_zero] at hsgtz

/-! ### Words -/

theorem wordPseudos_meet {s : State} (hx : s.cfg.xlen = .rv64) (rd rs : Reg) :
    SetsX (exec (.sextW rd rs) s) s 4 rd (wordOf (s.ux rs)) ∧
    SetsX (exec (.negw rd rs) s) s 4 rd (wordOf (-(s.ux rs : Int))) := by
  have hsext := addiw_meets hx rd rs 0#12
  obtain ⟨-, hsubw, -⟩ := integerWordResults s rd 0 rs 0 0 hx
  rw [BitVec.toInt_zero, Int.add_zero] at hsext
  rw [State.ux_zero, Nat.cast_zero, Int.zero_sub] at hsubw
  exact ⟨hsext, hsubw⟩

/-! ### Signs -/

/-- The sign of a datum copied onto itself. -/
theorem sign_copied (k a : Nat) : a % 2 ^ k + a / 2 ^ k * 2 ^ k = a := by
  rw [Nat.mul_comm]
  exact Nat.mod_add_div a (2 ^ k)

/-- The opposite sign: the top digit is the only one that changes. -/
theorem sign_flipped {k n a : Nat} (hn : n = k + 1) (h : a < 2 ^ n) :
    a % 2 ^ k + (1 - a / 2 ^ k) * 2 ^ k = (a + 2 ^ k) % 2 ^ n := by
  subst hn
  have hdiv := Nat.mod_add_div a (2 ^ k)
  have hmod : a % 2 ^ k < 2 ^ k := Nat.mod_lt a (by positivity)
  have hdigit : a / 2 ^ k < 2 := Nat.div_lt_of_lt_mul (by rwa [← Nat.pow_succ])
  rw [Nat.pow_succ] at *
  generalize a / 2 ^ k = digit at *
  generalize a % 2 ^ k = low at *
  generalize 2 ^ k = m at *
  interval_cases digit
  · rw [Nat.mod_eq_of_lt] <;> omega
  · rw [Nat.mod_eq_sub_mod (by omega), Nat.mod_eq_of_lt] <;> omega

/-- A sign added to itself is no sign. -/
theorem sign_cleared (k a : Nat) : a % 2 ^ k + (a / 2 ^ k + a / 2 ^ k) % 2 * 2 ^ k = a % 2 ^ k := by
  rw [← Nat.two_mul, Nat.mul_mod_right, Nat.zero_mul, Nat.add_zero]

/-- What the three injections leave where both operands are one datum, for a format of k + 1 bits. -/
theorem signInjection_of_same {s : State} {rd : Reg} {sgnj sgnjn sgnjx : Result} {box : Nat → Nat} {e f k n a : Nat}
    (hk : e + f = k) (hn : n = k + 1) (ha : a < 2 ^ n)
    (hsgnj : SetsF sgnj s 4 rd (box (a % 2 ^ (e + f) + a / 2 ^ (e + f) * 2 ^ (e + f))) 0)
    (hsgnjn : SetsF sgnjn s 4 rd (box (a % 2 ^ (e + f) + (1 - a / 2 ^ (e + f)) * 2 ^ (e + f))) 0)
    (hsgnjx : SetsF sgnjx s 4 rd
      (box (a % 2 ^ (e + f) + (a / 2 ^ (e + f) + a / 2 ^ (e + f)) % 2 * 2 ^ (e + f))) 0) :
    SetsF sgnj s 4 rd (box a) 0 ∧ SetsF sgnjx s 4 rd (box (a % 2 ^ k)) 0 ∧
    SetsF sgnjn s 4 rd (box ((a + 2 ^ k) % 2 ^ n)) 0 := by
  rw [hk] at hsgnj hsgnjn hsgnjx
  rw [sign_copied] at hsgnj
  rw [sign_flipped hn ha] at hsgnjn
  rw [sign_cleared] at hsgnjx
  exact ⟨hsgnj, hsgnjx, hsgnjn⟩

theorem singleSignPseudos_meet {s : State} (hon : FloatOn s) (rd rs : Reg) :
    SetsF (exec (.fmvS rd rs) s) s 4 rd (boxedSingle s.cfg (s.us rs)) 0 ∧
    SetsF (exec (.fabsS rd rs) s) s 4 rd (boxedSingle s.cfg (s.us rs % 2 ^ 31)) 0 ∧
    SetsF (exec (.fnegS rd rs) s) s 4 rd (boxedSingle s.cfg ((s.us rs + 2 ^ 31) % 2 ^ 32)) 0 := by
  have hmv : exec (.fmvS rd rs) s = exec (.fsgnjS rd rs rs) s := exec_eq_of_expand rfl rfl
  have habs : exec (.fabsS rd rs) s = exec (.fsgnjxS rd rs rs) s := exec_eq_of_expand rfl rfl
  have hneg : exec (.fnegS rd rs) s = exec (.fsgnjnS rd rs rs) s := exec_eq_of_expand rfl rfl
  obtain ⟨-, -, -, hsgnj, hsgnjn, hsgnjx⟩ := minMaxAndSignInjection s rd rs rs 8 23 _ _ _ _ _ _ _ _ _ hon
    (.inl ⟨rfl, rfl, rfl, rfl, rfl, rfl, rfl, rfl, rfl, rfl, rfl⟩)
  obtain ⟨hcopied, hcleared, hflipped⟩ :=
    signInjection_of_same (k := 31) (n := 32) rfl rfl (s.us_lt rs) hsgnj hsgnjn hsgnjx
  exact ⟨hmv ▸ hcopied, habs ▸ hcleared, hneg ▸ hflipped⟩

theorem doubleSignPseudos_meet {s : State} (hon : FloatOn s) (hd : s.cfg.extD = true) (rd rs : Reg) :
    SetsF (exec (.fmvD rd rs) s) s 4 rd (s.uf rs) 0 ∧
    SetsF (exec (.fabsD rd rs) s) s 4 rd (s.uf rs % 2 ^ 63) 0 ∧
    SetsF (exec (.fnegD rd rs) s) s 4 rd ((s.uf rs + 2 ^ 63) % 2 ^ 64) 0 := by
  have hmv : exec (.fmvD rd rs) s = exec (.fsgnjD rd rs rs) s := exec_eq_of_expand rfl rfl
  have habs : exec (.fabsD rd rs) s = exec (.fsgnjxD rd rs rs) s := exec_eq_of_expand rfl rfl
  have hneg : exec (.fnegD rd rs) s = exec (.fsgnjnD rd rs rs) s := exec_eq_of_expand rfl rfl
  obtain ⟨box, hid, hbox⟩ : ∃ box : Nat → Nat, box = id ∧ ∀ v, box v = v := ⟨id, rfl, fun _ => rfl⟩
  obtain ⟨-, -, -, hsgnj, hsgnjn, hsgnjx⟩ := minMaxAndSignInjection s rd rs rs 11 52 _ _ _ box _ _ _ _ _ hon
    (.inr ⟨rfl, rfl, rfl, hd, rfl, rfl, hid, rfl, rfl, rfl, rfl, rfl⟩)
  obtain ⟨hcopied, hcleared, hflipped⟩ :=
    signInjection_of_same (k := 63) (n := 64) rfl rfl (s.uf_lt rs) hsgnj hsgnjn hsgnjx
  rw [hbox] at hcopied hcleared hflipped
  exact ⟨hmv ▸ hcopied, habs ▸ hcleared, hneg ▸ hflipped⟩

/-- Settles O52: each form meets what its expansion meets (O18, O19, O20, O45). -/
theorem pseudoComputation : Obligations.PseudoComputation := by
  intro s rd rs
  obtain ⟨hnop, hmv, hnot, hneg, hseqz, hsnez, hsltz, hsgtz⟩ := integerPseudos_meet s rd rs
  refine ⟨hnop, hmv, hnot, hneg, hseqz, hsnez, hsltz, hsgtz, fun hx => wordPseudos_meet hx rd rs, fun hon => ?float⟩
  case float =>
    obtain ⟨hfmv, hfabs, hfneg⟩ := singleSignPseudos_meet hon rd rs
    exact ⟨hfmv, hfabs, hfneg, fun hd => doubleSignPseudos_meet hon hd rd rs⟩

end Sys2Proof.Machine

/-! ## Sequences of instructions that act on one register -/

namespace Sys2Proof.Machine

open Sys2Proof

/-! ### One sequence after another -/

theorem Arrives.exists_next {r : Result} {s : State} {k target v : Nat} {rd : Reg} (h : Arrives r s k target rd v) :
    ∃ t, r = .next t ∧ Arrives (.next t) s k target rd v := by
  obtain ⟨t, rfl, ht⟩ := h
  exact ⟨t, rfl, t, rfl, ht⟩

section
variable {s t : State} {r : Result} {k m p q v w : Nat} {rd : Reg}

theorem Arrives.cfg_eq (h : Arrives (.next t) s k p rd v) : t.cfg = s.cfg := by
  obtain ⟨_, ⟨⟩, -, -, -, -, hframe⟩ := h
  rw [hframe]

theorem Arrives.xlen_eq (h : Arrives (.next t) s k p rd v) : t.xlen = s.xlen :=
  congrArg (fun c : Config => c.xlen.bits) h.cfg_eq

theorem Arrives.pc_eq (h : Arrives (.next t) s k p rd v) : t.pc.toNat = p := by
  obtain ⟨_, ⟨⟩, -, hpc, -⟩ := h
  exact hpc

theorem Arrives.ux_eq (h : Arrives (.next t) s k p rd v) (hrd : rd ≠ 0) : t.ux rd = v := by
  obtain ⟨_, ⟨⟩, hx, -⟩ := h
  rw [hx rd, if_neg hrd, if_pos rfl]

/-- What two sequences of instructions do to the registers is for the caller to say; the rest of the state composes. -/
theorem Arrives.comp {rd' : Reg} {z : Nat} (h : Arrives (.next t) s k p rd v) (h' : Arrives r t m q rd' w)
    (hx : ∀ u, XWritten s t rd v → XWritten t u rd' w → XWritten s u rd z) : Arrives r s (k + m) q rd z := by
  obtain ⟨_, ⟨⟩, hregs, -, hretired, hmem, hframe⟩ := h
  obtain ⟨u, rfl, hregs', hpc', hretired', hmem', hframe'⟩ := h'
  refine ⟨u, rfl, hx u hregs hregs', hpc', ?retired, fun a => (hmem' a).trans (hmem a), ?frame⟩
  case retired =>
    rw [Retired] at *
    rw [hretired', hretired, Nat.mod_add_mod, Nat.add_assoc]
  case frame =>
    rw [hframe] at hframe'
    exact hframe'

/-- The second sequence writes the register again. -/
theorem Arrives.trans (h : Arrives (.next t) s k p rd v) (h' : Arrives r t m q rd w) : Arrives r s (k + m) q rd w :=
  h.comp h' fun u hx hx' j => by
    rw [hx' j, hx j]
    split_ifs <;> rfl

/-- The second sequence writes no register. -/
theorem Arrives.trans_zero (h : Arrives (.next t) s k p rd v) (h' : Arrives r t m q 0 w) : Arrives r s (k + m) q rd v :=
  h.comp h' fun u hx hx' j => by
    rw [hx' j, hx j]
    split_ifs <;> rfl

theorem Arrives.thenDo {f : State → Result} (h : Arrives r s k p rd v)
    (hf : ∀ t, Arrives (.next t) s k p rd v → Arrives (f t) s m q rd w) :
    Arrives (Result.thenDo r f) s m q rd w := by
  obtain ⟨t, rfl, ht⟩ := h.exists_next
  exact hf t ht

end

/-! ### The instructions of an expansion of `li` (R502) -/

/-- What an instruction of an expansion of `li` puts in rd where rd held x. -/
def liOpValue (xl : Xlen) (x : Nat) : LiOp → Nat
  | .load imm => modBits xl.bits imm.toInt
  | .lui imm => modBits xl.bits (4096 * imm.toInt)
  | .addi imm => modBits xl.bits (x + imm.toInt)
  | .addiw imm => wordOf (x + imm.toInt)
  | .slli shamt => x * 2 ^ shamt.toNat % 2 ^ xl.bits

theorem execLiOp_setsX {s : State} {op : LiOp} (h : LiOpExists s.cfg.xlen op) (rd : Reg) :
    SetsX (execLiOp rd op s) s 4 rd (liOpValue s.cfg.xlen (s.ux rd) op) := by
  cases op with
  | load imm =>
    have hload := addi_meets s rd 0 imm
    rwa [State.ux_zero, Nat.cast_zero, Int.zero_add] at hload
  | lui imm => exact lui_meets s rd imm
  | addi imm => exact addi_meets s rd rd imm
  | addiw imm => exact addiw_meets h rd rd imm
  | slli shamt =>
    refine slli_meets s rd rd ?_
    have hx : s.xlen = 64 := congrArg Xlen.bits h
    exact hx ▸ shamt.isLt

/-- What a sequence of them leaves in rd. -/
def liRun (xl : Xlen) (x : Nat) (ops : List LiOp) : Nat := ops.foldl (liOpValue xl) x

theorem liRun_append (xl : Xlen) (x : Nat) (ops ops' : List LiOp) :
    liRun xl x (ops ++ ops') = liRun xl (liRun xl x ops) ops' := List.foldl_append

theorem runLi_arrives {s : State} {rd : Reg} : ∀ {ops : List LiOp} {t : State} {k v : Nat},
    (∀ op ∈ ops, LiOpExists s.cfg.xlen op) → Arrives (.next t) s k ((s.pc.toNat + 4 * k) % 2 ^ s.xlen) rd v →
    Arrives (runLi rd ops t) s (k + ops.length) ((s.pc.toNat + 4 * (k + ops.length)) % 2 ^ s.xlen) rd
      (liRun s.cfg.xlen v ops)
  | [], _, _, _, _, h => h
  | op :: ops, t, k, v, hops, h => by
    obtain ⟨hop, hops⟩ := List.forall_mem_cons.mp hops
    have hstep : SetsX (execLiOp rd op t) t 4 rd (liOpValue s.cfg.xlen v op) := by
      have hset := execLiOp_setsX (h.cfg_eq ▸ hop) rd
      by_cases hrd : rd = 0
      · subst hrd
        exact Arrives.zero hset
      · rwa [h.ux_eq hrd, h.cfg_eq] at hset
    rw [SetsX, h.pc_eq, h.xlen_eq, Nat.mod_add_mod, Nat.add_assoc] at hstep
    obtain ⟨u, hu, hnext⟩ := (h.trans hstep).exists_next
    have hlen : k + (op :: ops).length = k + 1 + ops.length := by rw [List.length_cons]; omega
    rw [runLi, hu, hlen]
    exact runLi_arrives hops hnext

/-- The first instruction needs no state before it that has completed one. -/
theorem runLi_cons_arrives {s : State} {op : LiOp} {ops : List LiOp} (rd : Reg)
    (hops : ∀ i ∈ op :: ops, LiOpExists s.cfg.xlen i) :
    Arrives (runLi rd (op :: ops) s) s (op :: ops).length ((s.pc.toNat + 4 * (op :: ops).length) % 2 ^ s.xlen) rd
      (liRun s.cfg.xlen (s.ux rd) (op :: ops)) := by
  obtain ⟨hop, hops⟩ := List.forall_mem_cons.mp hops
  have hlen : (op :: ops).length = 1 + ops.length := Nat.add_comm _ _
  rw [hlen]
  exact Arrives.thenDo (execLiOp_setsX hop rd) fun t ht => runLi_arrives hops ht

/-! ### The arithmetic of R502 -/

theorem modBits_add_left (n : Nat) (a b : Int) : modBits n (modBits n a + b) = modBits n (a + b) := by
  refine modBits_congr ?_
  rw [modBits, Int.toNat_of_nonneg (Int.emod_nonneg a (by positivity)), Int.emod_add_emod]

theorem modBits_mul_pow (n k : Nat) (a : Int) : modBits n a * 2 ^ k % 2 ^ n = modBits n (a * 2 ^ k) := by
  rw [← modBits_natCast]
  refine modBits_congr ?_
  rw [modBits, Nat.cast_mul, Int.toNat_of_nonneg (Int.emod_nonneg a (by positivity)), Nat.cast_pow, Nat.cast_ofNat,
    Int.mul_emod, Int.emod_emod, ← Int.mul_emod]

/-- A number of 32 bits is its low 32 bits, sign-extended. -/
theorem wordOf_of_congr {a v : Int} (h : a % 2 ^ 32 = v % 2 ^ 32) (hv : -2 ^ 31 ≤ v ∧ v < 2 ^ 31) :
    wordOf a = modBits 64 v := by
  rw [wordOf, modBits_congr h, ← toNat_ofInt_eq 32, signedOf_toNat (by decide),
    BitVec.toInt_ofInt_eq_self (by decide) (by omega) (by omega)]

theorem toInt_ofInt_liLo (v : Int) : (BitVec.ofInt 12 (liLo v)).toInt = liLo v := by
  refine BitVec.toInt_ofInt_eq_self (by decide) ?_ ?_
  · unfold liLo; omega
  · unfold liLo; omega

/-- Step (3) takes whole factors of two out of the upper part. -/
theorem liHalve_spec : ∀ (n : Nat) (h : Int) (s : Nat),
    (liHalve n h s).1 * 2 ^ (liHalve n h s).2 = h * 2 ^ s ∧ (liHalve n h s).1.natAbs ≤ h.natAbs
  | 0, _, _ => ⟨rfl, le_rfl⟩
  | n + 1, h, s => by
    rw [liHalve]
    split
    · next heven =>
      obtain ⟨hprod, habs⟩ := liHalve_spec n (h / 2) (s + 1)
      refine ⟨hprod.trans ?_, habs.trans (by omega)⟩
      have hhalf : h / 2 * 2 = h := by omega
      rw [pow_succ', ← mul_assoc, hhalf]
    · exact ⟨rfl, le_rfl⟩

/-- The shift of step (3) fits its field: the immediate has 64 bits. -/
theorem shift_lt {h q : Int} {s : Nat} (hprod : h * 2 ^ s = q * 2 ^ 12) (hq : q.natAbs ≤ 2 ^ 51) (hne : q ≠ 0) :
    s < 64 := by
  have habs : h.natAbs * 2 ^ s = q.natAbs * 2 ^ 12 := by
    have := congrArg Int.natAbs hprod
    rwa [Int.natAbs_mul, Int.natAbs_mul, Int.natAbs_pow, Int.natAbs_pow] at this
  have hpos : 0 < h.natAbs := by
    refine Nat.pos_of_ne_zero fun hzero => ?_
    rw [hzero, Nat.zero_mul] at habs
    omega
  have hpow : 2 ^ s < 2 ^ 64 := by
    calc 2 ^ s ≤ h.natAbs * 2 ^ s := Nat.le_mul_of_pos_left _ hpos
      _ = q.natAbs * 2 ^ 12 := habs
      _ ≤ 2 ^ 51 * 2 ^ 12 := Nat.mul_le_mul_right _ hq
      _ < 2 ^ 64 := by decide
  exact (Nat.pow_lt_pow_iff_right (by decide)).mp hpow

/-- The `addi` that ends step (3). -/
def liAddi (lo : Int) : List LiOp := if lo = 0 then [] else [.addi (BitVec.ofInt 12 lo)]

/-- What an immediate of at most 27 + 12 m bits expands to: each level of step (3) takes 12 bits away. -/
theorem liExpand_induction {motive : Nat → Int → List LiOp → Prop} (xl : Xlen)
    (small : ∀ m v, -2048 ≤ v ∧ v ≤ 2047 → motive m v [.load (BitVec.ofInt 12 v)])
    (word : ∀ m v, -2 ^ 31 ≤ v ∧ v < 2 ^ 31 →
      motive m v (.lui (BitVec.ofInt 20 ((v - liLo v) / 4096)) :: liAddLow (liLo v) xl))
    (large : ∀ m v h s ops, h * 2 ^ s = v - liLo v → s < 64 → motive m h ops →
      motive (m + 1) v (ops ++ [.slli (BitVec.ofNat 6 s)] ++ liAddi (liLo v))) :
    ∀ (m n : Nat) (v : Int), m ≤ n → m ≤ 3 → v.natAbs ≤ 2 ^ (27 + 12 * m) → motive m v (liExpand xl (n + 1) v) := by
  intro m
  induction m with
  | zero =>
    intro n v _ _ hv
    by_cases hsmall : -2048 ≤ v ∧ v ≤ 2047
    · rw [liExpand_of_small hsmall]
      exact small 0 v hsmall
    · have hword : -2 ^ 31 ≤ v ∧ v < 2 ^ 31 := by omega
      rw [liExpand_of_word hsmall hword]
      exact word 0 v hword
  | succ m ih =>
    intro n v hn hm hv
    by_cases hsmall : -2048 ≤ v ∧ v ≤ 2047
    · rw [liExpand_of_small hsmall]
      exact small _ v hsmall
    by_cases hword : -2 ^ 31 ≤ v ∧ v < 2 ^ 31
    · rw [liExpand_of_word hsmall hword]
      exact word _ v hword
    obtain ⟨n, rfl⟩ : ∃ k, n = k + 1 := ⟨n - 1, by omega⟩
    obtain ⟨hprod, habs⟩ := liHalve_spec 52 ((v - liLo v) / 4096) 12
    have hupper : (v - liLo v) / 4096 * 2 ^ 12 = v - liLo v := by unfold liLo; omega
    have hsize : ((v - liLo v) / 4096).natAbs ≤ 2 ^ (27 + 12 * m) := by
      have hlevel : 2 ^ (27 + 12 * (m + 1)) = 2 ^ (27 + 12 * m) * 4096 := by
        rw [Nat.mul_add, ← Nat.add_assoc, Nat.pow_add]
      rw [hlevel] at hv
      unfold liLo
      omega
    have hbits : 2 ^ (27 + 12 * m) ≤ 2 ^ 51 := Nat.pow_le_pow_right (by decide) (by omega)
    have hne : (v - liLo v) / 4096 ≠ 0 := by unfold liLo; omega
    rw [liExpand_of_large hsmall hword]
    exact large m v _ _ _ (hprod.trans hupper) (shift_lt hprod (hsize.trans hbits) hne)
      (ih n _ (by omega) (by omega) (habs.trans hsize))

theorem liExpand_length {xl : Xlen} {m n : Nat} {v : Int} (hn : m ≤ n) (hm : m ≤ 3) (hv : v.natAbs ≤ 2 ^ (27 + 12 * m)) :
    1 ≤ (liExpand xl (n + 1) v).length ∧ (liExpand xl (n + 1) v).length ≤ 2 + 2 * m := by
  refine liExpand_induction (motive := fun m _ ops => 1 ≤ ops.length ∧ ops.length ≤ 2 + 2 * m) xl ?small ?word ?large
    m n v hn hm hv
  case small => intro m v _; rw [List.length_singleton]; omega
  case word =>
    intro m v _
    have hlow : (liAddLow (liLo v) xl).length ≤ 1 := by
      cases xl <;> (rw [liAddLow]; split <;> simp)
    rw [List.length_cons]
    omega
  case large =>
    rintro m v h s ops _ _ ⟨hpos, hlen⟩
    have hlow : (liAddi (liLo v)).length ≤ 1 := by rw [liAddi]; split <;> simp
    rw [List.length_append, List.length_append, List.length_singleton]
    omega

/-- The `lui` gives the upper part modulo 2^32, sign-extended; the second instruction mends its sign. -/
theorem liRun_word {v : Int} (hv : -2 ^ 31 ≤ v ∧ v < 2 ^ 31) (xl : Xlen) (x : Nat) :
    liRun xl x (.lui (BitVec.ofInt 20 ((v - liLo v) / 4096)) :: liAddLow (liLo v) xl) = modBits xl.bits v := by
  generalize hq : (v - liLo v) / 4096 = q
  have hupper : 4096 * q = v - liLo v := by rw [← hq]; unfold liLo; omega
  have hwrap : (4096 * (BitVec.ofInt 20 q).toInt + liLo v) % 2 ^ 32 = v % 2 ^ 32 := by
    rw [BitVec.toInt_ofInt, Int.bmod_def]
    split <;> omega
  by_cases hlo : liLo v = 0
  · have hexact : 4096 * (BitVec.ofInt 20 q).toInt = v := by
      rw [BitVec.toInt_ofInt_eq_self (by decide) (by omega) (by omega)]
      omega
    have hops : liAddLow (liLo v) xl = [] := by cases xl <;> exact if_pos hlo
    rw [hops, ← hexact]
    rfl
  · cases xl with
    | rv32 =>
      have hops : liAddLow (liLo v) .rv32 = [.addi (BitVec.ofInt 12 (liLo v))] := if_neg hlo
      rw [hops]
      change modBits 32 (modBits 32 (4096 * (BitVec.ofInt 20 q).toInt) + (BitVec.ofInt 12 (liLo v)).toInt) = modBits 32 v
      rw [toInt_ofInt_liLo, modBits_add_left]
      exact modBits_congr hwrap
    | rv64 =>
      have hops : liAddLow (liLo v) .rv64 = [.addiw (BitVec.ofInt 12 (liLo v))] := if_neg hlo
      rw [hops]
      change wordOf (modBits 64 (4096 * (BitVec.ofInt 20 q).toInt) + (BitVec.ofInt 12 (liLo v)).toInt) = modBits 64 v
      rw [toInt_ofInt_liLo]
      refine wordOf_of_congr ?_ hv
      rw [modBits, Int.toNat_of_nonneg (Int.emod_nonneg _ (by decide))]
      omega

theorem liRun_addi (xl : Xlen) (v a : Int) :
    liRun xl (modBits xl.bits a) (liAddi (liLo v)) = modBits xl.bits (a + liLo v) := by
  by_cases hlo : liLo v = 0
  · rw [liAddi, if_pos hlo, hlo, Int.add_zero]
    rfl
  · rw [liAddi, if_neg hlo]
    change modBits xl.bits (modBits xl.bits a + (BitVec.ofInt 12 (liLo v)).toInt) = _
    rw [toInt_ofInt_liLo, modBits_add_left]

theorem liRun_liExpand {xl : Xlen} {m n : Nat} {v : Int} (hn : m ≤ n) (hm : m ≤ 3) (hv : v.natAbs ≤ 2 ^ (27 + 12 * m))
    (x : Nat) : liRun xl x (liExpand xl (n + 1) v) = modBits xl.bits v := by
  refine liExpand_induction (motive := fun _ v ops => liRun xl x ops = modBits xl.bits v) xl ?small ?word ?large
    m n v hn hm hv
  case small =>
    intro _ v hsmall
    change modBits xl.bits (BitVec.ofInt 12 v).toInt = _
    rw [BitVec.toInt_ofInt_eq_self (by decide) (by omega) (by omega)]
  case word => exact fun _ v hword => liRun_word hword xl x
  case large =>
    intro _ v h s ops hprod hs hops
    have hfield : (BitVec.ofNat 6 s).toNat = s := by rw [BitVec.toNat_ofNat, Nat.mod_eq_of_lt hs]
    have hshift : liRun xl (modBits xl.bits h) [.slli (BitVec.ofNat 6 s)] = modBits xl.bits (v - liLo v) := by
      change modBits xl.bits h * 2 ^ (BitVec.ofNat 6 s).toNat % 2 ^ xl.bits = _
      rw [hfield, modBits_mul_pow, hprod]
    rw [liRun_append, liRun_append, hops, hshift, liRun_addi, Int.sub_add_cancel]

/-! ### The immediate -/

theorem natAbs_toInt_le (v : Word) : v.toInt.natAbs ≤ 2 ^ 63 := by
  have h := BitVec.toInt_lt (x := v)
  have h' := BitVec.le_toInt v
  omega

theorem natAbs_toInt_low_le (v : Word) : (v.setWidth 32).toInt.natAbs ≤ 2 ^ 63 := by
  have h := BitVec.toInt_lt (x := v.setWidth 32)
  have h' := BitVec.le_toInt (v.setWidth 32)
  omega

theorem modBits_toInt {w : Nat} (v : BitVec w) : modBits w v.toInt = v.toNat := by
  rw [← toNat_ofInt_eq, BitVec.ofInt_toInt]

theorem liOps_length (xl : Xlen) (imm : Word) : 1 ≤ (liOps xl imm).length ∧ (liOps xl imm).length ≤ 8 := by
  cases xl
  · exact liExpand_length (m := 3) (n := 4) (by decide) le_rfl (natAbs_toInt_low_le imm)
  · exact liExpand_length (m := 3) (n := 4) (by decide) le_rfl (natAbs_toInt_le imm)

theorem liRun_liOps (xl : Xlen) (imm : Word) (x : Nat) : liRun xl x (liOps xl imm) = imm.toNat % 2 ^ xl.bits := by
  cases xl
  · refine (liRun_liExpand (m := 3) (n := 4) (by decide) le_rfl (natAbs_toInt_low_le imm) x).trans ?_
    exact (modBits_toInt (imm.setWidth 32)).trans (BitVec.toNat_setWidth 32 imm)
  · refine (liRun_liExpand (m := 3) (n := 4) (by decide) le_rfl (natAbs_toInt_le imm) x).trans ?_
    exact (modBits_toInt imm).trans (Nat.mod_eq_of_lt imm.isLt).symm

/-- Settles O53: the sequence leaves in rd what R502's arithmetic gives, by induction on the levels of step (3). -/
theorem loadImmediateLoadsTheImmediate : Obligations.LoadImmediateLoadsTheImmediate := by
  rintro s rd imm _ rfl
  obtain ⟨hpos, hle⟩ := liOps_length s.cfg.xlen imm
  refine ⟨hpos, hle, ?_⟩
  have hvalue := liRun_liOps s.cfg.xlen imm (s.ux rd)
  have hexists := liOps_exists s.cfg.xlen imm
  change Arrives (runLi rd (liOps s.cfg.xlen imm) s) s _ _ rd (imm.toNat % 2 ^ s.cfg.xlen.bits)
  rw [← hvalue]
  cases hops : liOps s.cfg.xlen imm with
  | nil => rw [hops] at hpos; exact absurd hpos (by decide)
  | cons op ops => exact runLi_cons_arrives rd (hops ▸ hexists)

end Sys2Proof.Machine

/-! ## Pseudoinstructions of an address and of a jump (49_pseudoinstructions.md R501, R503 to R513, R533 to R537) -/

namespace Sys2Proof.Machine

open Sys2Proof

/-! ### The pair of R501 -/

theorem toNat_offsetHi (delta : BitVec 32) : (offsetHi delta).toNat = (delta.toNat + 2048) % 2 ^ 32 / 4096 := by
  rw [offsetHi, BitVec.extractLsb'_toNat, BitVec.toNat_add, BitVec.toNat_ofNat, Nat.shiftRight_eq_div_pow]
  omega

theorem toNat_offsetLo (delta : BitVec 32) : (offsetLo delta).toNat = delta.toNat % 4096 := by
  rw [offsetLo, BitVec.extractLsb'_toNat, Nat.shiftRight_zero]

/-- The two parts add up to the offset modulo 2^32. -/
theorem offset_parts_congr (d : Int) :
    (4096 * (offsetHi (BitVec.ofInt 32 d)).toInt + (offsetLo (BitVec.ofInt 32 d)).toInt) % 2 ^ 32 = d % 2 ^ 32 := by
  have hd : ((BitVec.ofInt 32 d).toNat : Int) = d % 2 ^ 32 := by
    rw [BitVec.toNat_ofInt, Int.toNat_of_nonneg (Int.emod_nonneg d (by decide))]
    rfl
  rw [BitVec.toInt_eq_toNat_cond, BitVec.toInt_eq_toNat_cond, toNat_offsetHi, toNat_offsetLo]
  split <;> split <;> omega

/-- Within the reach of the pair they add up to the offset, modulo 2^XLEN: the reach has 2^32 offsets. -/
theorem PairReaches.parts {s : State} {delta : BitVec 32} {d : Int} (h : PairReaches s delta d) :
    (4096 * (offsetHi delta).toInt + (offsetLo delta).toInt) % 2 ^ s.xlen = d % 2 ^ s.xlen := by
  obtain ⟨rfl, hrange⟩ := h
  have hcongr := offset_parts_congr d
  rw [State.xlen]
  cases hx : s.cfg.xlen with
  | rv32 => exact hcongr
  | rv64 =>
    obtain ⟨hmin, hmax⟩ := hrange hx
    have hlo := BitVec.toInt_lt (x := offsetLo (BitVec.ofInt 32 d))
    have hlo' := BitVec.le_toInt (offsetLo (BitVec.ofInt 32 d))
    have hhi := BitVec.toInt_lt (x := offsetHi (BitVec.ofInt 32 d))
    have hhi' := BitVec.le_toInt (offsetHi (BitVec.ofInt 32 d))
    have hsum : 4096 * (offsetHi (BitVec.ofInt 32 d)).toInt + (offsetLo (BitVec.ofInt 32 d)).toInt = d := by omega
    rw [hsum]

section
variable {s t : State} {rd : Reg} {delta : BitVec 32} {d : Int} {r : Result} {v w n a : Nat}

/-- The state between the two instructions of a pair. -/
theorem auipc_next (s : State) (rd : Reg) (delta : BitVec 32) :
    ∃ t, execAuipc rd (offsetHi delta) s = .next t ∧
      SetsX (.next t) s 4 rd (modBits s.xlen (s.pc.toNat + 4096 * (offsetHi delta).toInt)) :=
  (auipc_meets s rd (offsetHi delta)).exists_next

/-- The address that the second instruction of a pair forms. -/
theorem effective_of_pair (hreach : PairReaches s delta d)
    (ht : SetsX (.next t) s 4 rd (modBits s.xlen (s.pc.toNat + 4096 * (offsetHi delta).toInt))) :
    t.effective rd (offsetLo delta).toInt =
      if rd = 0 then modBits s.xlen (offsetLo delta).toInt else modBits s.xlen (s.pc.toNat + d) := by
  rw [State.effective, Arrives.xlen_eq ht]
  split
  · next hrd => rw [hrd, State.ux_zero, Nat.cast_zero, Int.zero_add]
  · next hrd =>
    rw [Arrives.ux_eq ht hrd, modBits_add_left, Int.add_assoc]
    refine modBits_congr ?_
    rw [Int.add_emod, hreach.parts, ← Int.add_emod]

theorem SetsX.pcAfter (ht : SetsX (.next t) s 4 rd v) : (t.pc.toNat + 4) % 2 ^ t.xlen = (s.pc.toNat + 8) % 2 ^ s.xlen := by
  rw [Arrives.pc_eq ht, Arrives.xlen_eq ht, Nat.mod_add_mod]

theorem SetsX.then_setsX (ht : SetsX (.next t) s 4 rd v) (h : SetsX r t 4 rd w) :
    Arrives r s 2 ((s.pc.toNat + 8) % 2 ^ s.xlen) rd w := by
  rw [SetsX, SetsX.pcAfter ht] at h
  exact Arrives.trans ht h

/-! ### la and lla -/

theorem lla_arrives (s : State) (rd : Reg) (hreach : PairReaches s delta d) :
    Arrives (exec (.lla rd delta) s) s 2 ((s.pc.toNat + 8) % 2 ^ s.xlen) rd
      (if rd = 0 then modBits s.xlen (offsetLo delta).toInt else modBits s.xlen (s.pc.toNat + d)) := by
  obtain ⟨t, hnext, ht⟩ := auipc_next s rd delta
  change Arrives (Result.thenDo (execAuipc rd (offsetHi delta) s) (execAddi rd rd (offsetLo delta))) s 2 _ rd _
  rw [hnext, ← effective_of_pair hreach ht]
  exact ht.then_setsX (addi_meets t rd rd (offsetLo delta))

/-- The second instruction of `la` in position-independent code loads an XLEN-bit word. -/
theorem loadAddressEnd_meets (t : State) (rd : Reg) (lo : BitVec 12) (hn : n = t.xlen / 8)
    (ha : a = t.effective rd lo.toInt) :
    LoadMeets (loadAddressEnd rd true lo t) t 4 rd a n (t.littleEndian a n) := by
  obtain ⟨-, -, -, -, hlw, hld⟩ := integerLoadsReadMemory t rd rd lo a ha
  unfold loadAddressEnd
  rw [State.xlen] at hn
  cases hx : t.cfg.xlen with
  | rv32 =>
    rw [hx] at hn
    subst hn
    have hword : modBits t.xlen (signedOf 32 (t.littleEndian a 4)) = t.littleEndian a 4 := by
      have hlt : t.littleEndian a 4 < 2 ^ 32 := littleEndian_lt t a 4
      have hbits : t.littleEndian a 4 = (BitVec.ofNat 32 (t.littleEndian a 4)).toNat := by
        rw [BitVec.toNat_ofNat, Nat.mod_eq_of_lt hlt]
      rw [State.xlen, hx, hbits, signedOf_toNat (by decide)]
      exact modBits_toInt _
    rw [hword] at hlw
    exact hlw
  | rv64 =>
    rw [hx] at hn
    subst hn
    obtain ⟨-, hld⟩ := hld hx
    exact hld

theorem LoadsX.setsX {len : Nat} (h : LoadsX r s len rd a n v) (hmain : MainMemory s a n) : SetsX r s len rd v := by
  obtain ⟨t, hr, ⟨hpc, hretired⟩, hmem, -, -, hframe, hread⟩ := h
  obtain ⟨hx, hio, hdraws⟩ := hread hmain
  rw [hio, hdraws] at hframe
  exact ⟨t, hr, hx, hpc, hretired, hmem, hframe⟩

/-- What `auipc` leaves alone is all that a load looks at but its base register. -/
theorem SetsX.sameForLoads {len : Nat} (h : SetsX (.next t) s len rd v) (a n : Nat) :
    (AlignmentOk s a n → AlignmentOk t a n) ∧ (BytesOk s .load a n → BytesOk t .load a n) ∧
    (MainMemory s a n → MainMemory t a n) ∧ t.littleEndian a n = s.littleEndian a n := by
  obtain ⟨_, ⟨⟩, -, -, -, -, hframe⟩ := h
  rw [hframe]
  exact ⟨id, id, id, rfl⟩

theorem laPic_meets (s : State) (rd : Reg) (hreach : PairReaches s delta d)
    (ha : a = if rd = 0 then modBits s.xlen (offsetLo delta).toInt else modBits s.xlen (s.pc.toNat + d))
    (hn : n = s.xlen / 8) :
    (AlignmentOk s a n → BytesOk s .load a n → MainMemory s a n →
      Arrives (exec (.la rd true delta) s) s 2 ((s.pc.toNat + 8) % 2 ^ s.xlen) rd (s.littleEndian a n)) ∧
    ∃ t, SetsX (.next t) s 4 rd (modBits s.xlen (s.pc.toNat + 4096 * (offsetHi delta).toInt)) ∧
      LoadTraps (exec (.la rd true delta) s) t a n := by
  obtain ⟨t, hnext, ht⟩ := auipc_next s rd delta
  have hexec : exec (.la rd true delta) s = loadAddressEnd rd true (offsetLo delta) t :=
    congrArg (Result.thenDo · (loadAddressEnd rd true (offsetLo delta))) hnext
  obtain ⟨hloads, htraps⟩ := loadAddressEnd_meets t rd (offsetLo delta) (hn.trans (by rw [Arrives.xlen_eq ht]))
    (ha.trans (effective_of_pair hreach ht).symm)
  obtain ⟨halign, hbytes, hmain, hvalue⟩ := ht.sameForLoads a n
  rw [hexec]
  refine ⟨fun hal hby hma => ?loaded, t, ht, htraps⟩
  case loaded =>
    rw [← hvalue]
    exact ht.then_setsX ((hloads (halign hal) (hbytes hby)).setsX (hmain hma))

end

/-- Settles O54: the pair forms the address, and the second instruction does there what it always does. -/
theorem loadAddressReachesTheSymbol : Obligations.LoadAddressReachesTheSymbol := by
  intro s rd delta d a n hreach ha hn
  have haddress := ha ▸ lla_arrives s rd hreach
  obtain ⟨hloaded, htraps⟩ := laPic_meets s rd hreach ha hn
  exact ⟨haddress, haddress, hloaded, htraps⟩

/-! ### Branches and jumps -/

theorem branchPseudos_meet (s : State) (rs rt : Reg) (off : BitVec 12) {target : Nat}
    (htarget : target = modBits s.xlen (s.pc.toNat + 2 * off.toInt)) :
    BranchMeets (exec (.beqz rs off) s) s 4 (s.ux rs = 0) target ∧
    BranchMeets (exec (.bnez rs off) s) s 4 (s.ux rs ≠ 0) target ∧
    BranchMeets (exec (.blez rs off) s) s 4 (s.sx rs ≤ 0) target ∧
    BranchMeets (exec (.bgez rs off) s) s 4 (0 ≤ s.sx rs) target ∧
    BranchMeets (exec (.bltz rs off) s) s 4 (s.sx rs < 0) target ∧
    BranchMeets (exec (.bgtz rs off) s) s 4 (0 < s.sx rs) target ∧
    BranchMeets (exec (.bgt rs rt off) s) s 4 (s.sx rt < s.sx rs) target ∧
    BranchMeets (exec (.ble rs rt off) s) s 4 (s.sx rs ≤ s.sx rt) target ∧
    BranchMeets (exec (.bgtu rs rt off) s) s 4 (s.ux rt < s.ux rs) target ∧
    BranchMeets (exec (.bleu rs rt off) s) s 4 (s.ux rs ≤ s.ux rt) target := by
  obtain ⟨hbeqz, hbnez, hbltz, hbgez, -, -⟩ := branchesFollowTheirCondition s rs 0 off target htarget
  obtain ⟨-, -, hbgtz, hblez, -, -⟩ := branchesFollowTheirCondition s 0 rs off target htarget
  obtain ⟨-, -, hbgt, hble, hbgtu, hbleu⟩ := branchesFollowTheirCondition s rt rs off target htarget
  rw [State.sx_zero] at hbltz hbgez hbgtz hblez
  exact ⟨hbeqz, hbnez, hblez, hbgez, hbltz, hbgtz, hbgt, hble, hbgtu, hbleu⟩

/-- `jr` and `ret` jump through a register with no offset. -/
theorem jalr_zero_meets (s : State) (rs : Reg) : JumpMeets (execJalr 0 rs 0 s) s 4 0 (s.ux rs / 2 * 2) :=
  jumpLink_registerTarget_meets (by decide) (s.registerTarget_zero_toNat rs)

/-! ### call and tail -/

section
variable {s t : State} {rd : Reg} {delta : BitVec 32} {d : Int} {v a : Nat}

theorem Arrives.ialign_eq {k p : Nat} (h : Arrives (.next t) s k p rd v) : t.ialign = s.ialign := by
  rw [State.ialign, State.ialign, h.cfg_eq]

theorem call_meets (s : State) (rd : Reg) (hreach : PairReaches s delta d)
    (ha : a = (if rd = 0 then modBits s.xlen (offsetLo delta).toInt else modBits s.xlen (s.pc.toNat + d)) / 2 * 2) :
    (a % s.ialign = 0 → Arrives (exec (.call rd delta) s) s 2 a rd ((s.pc.toNat + 8) % 2 ^ s.xlen)) ∧
    (a % s.ialign ≠ 0 → ∃ t, SetsX (.next t) s 4 rd (modBits s.xlen (s.pc.toNat + 4096 * (offsetHi delta).toInt)) ∧
      exec (.call rd delta) s = raise .instructionAddressMisaligned (BitVec.ofNat 64 a) t) := by
  obtain ⟨t, hnext, ht⟩ := auipc_next s rd delta
  have hexec : exec (.call rd delta) s = execJalr rd rd (offsetLo delta) t :=
    congrArg (Result.thenDo · (execJalr rd rd (offsetLo delta))) hnext
  obtain ⟨-, hjumps, hraises⟩ := jumpsLinkAndTransfer t rd rd 0 (offsetLo delta)
  rw [effective_of_pair hreach ht, ← ha, Arrives.ialign_eq ht] at hjumps hraises
  rw [ht.pcAfter] at hjumps
  rw [hexec]
  exact ⟨fun haligned => Arrives.trans ht (hjumps haligned), fun hmisaligned => ⟨t, ht, hraises hmisaligned⟩⟩

theorem tail_meets (s : State) (hreach : PairReaches s delta d) (ha : a = modBits s.xlen (s.pc.toNat + d) / 2 * 2) :
    (a % s.ialign = 0 →
      Arrives (exec (.tail delta) s) s 2 a 6 (modBits s.xlen (s.pc.toNat + 4096 * (offsetHi delta).toInt))) ∧
    (a % s.ialign ≠ 0 → ∃ t, SetsX (.next t) s 4 6 (modBits s.xlen (s.pc.toNat + 4096 * (offsetHi delta).toInt)) ∧
      exec (.tail delta) s = raise .instructionAddressMisaligned (BitVec.ofNat 64 a) t) := by
  obtain ⟨t, hnext, ht⟩ := auipc_next s 6 delta
  have hexec : exec (.tail delta) s = execJalr 0 6 (offsetLo delta) t :=
    congrArg (Result.thenDo · (execJalr 0 6 (offsetLo delta))) hnext
  have heffective := (effective_of_pair hreach ht).trans (if_neg (by decide))
  obtain ⟨-, hjumps, hraises⟩ := jumpsLinkAndTransfer t 0 6 0 (offsetLo delta)
  rw [heffective, ← ha, Arrives.ialign_eq ht] at hjumps hraises
  rw [hexec]
  exact ⟨fun haligned => Arrives.trans_zero ht (hjumps haligned), fun hmisaligned => ⟨t, ht, hraises hmisaligned⟩⟩

end

/-- Settles O55: each form is the branch, the jump or the pair it expands to (O24, O25). -/
theorem pseudoControlTransfer : Obligations.PseudoControlTransfer := by
  intro s rd rs rt off joff delta d target htarget
  obtain ⟨hbeqz, hbnez, hblez, hbgez, hbltz, hbgtz, hbgt, hble, hbgtu, hbleu⟩ := branchPseudos_meet s rs rt off htarget
  obtain ⟨hj, -⟩ := jumpsLinkAndTransfer s 0 0 joff 0
  refine ⟨hbeqz, hbnez, hblez, hbgez, hbltz, hbgtz, hbgt, hble, hbgtu, hbleu, hj, jalr_zero_meets s rs,
    jalr_zero_meets s 1, ?pair⟩
  case pair =>
    rintro hreach _ rfl
    exact ⟨fun a ha => call_meets s rd hreach ha, fun a ha => tail_meets s hreach ha⟩

end Sys2Proof.Machine
